-- ==== Sys2Proof/Word.lean ====
section
/-! DEFINITION. The bit-vector widths of the wire: bytes, the 16-bit words of payloads and tables, the 32-bit
values that wrap (frame number, frame clock). Everything the reference computes with exact integers is a `Nat`. -/

namespace Sys2Proof

/-- One byte of the picture link, the return lane or a chain. -/
abbrev Byte := BitVec 8

/-- One 16-bit word of a payload or of a table memory (R183, R184). -/
abbrev Word := BitVec 16

/-- A 32-bit count that wraps: the frame number (R16) and the frame clock (R18). -/
abbrev Dword := BitVec 32

/-- The number of one of the eight chains. -/
abbrev ChainNo := Fin 8

end Sys2Proof
end

