-- ==== Sys2Proof/Syntax.lean ====
section
/-! DEFINITION. The commands of the block: one constructor for each row of `spec/opcode_table.json`. Each step is
whole and indivisible. Its operands carry what comes from outside the part: the bytes of a packet, the pixels of a
line, the answer of a device, the raw code of a conversion. Every command but the two resets carries `dt`, the
microseconds of the part's internal time that pass before it: DESIGN CHOICE (notes/assumptions/2.md). The rows of the
source's commands execute the packet in flight: DEDUCED (notes/assumptions/5.md). -/

namespace Sys2Proof

/-- A pixel: three 12-bit linear-light components (conventions of `00_scope.md`). -/
structure Pixel where
  red   : BitVec 12
  green : BitVec 12
  blue  : BitVec 12
  deriving DecidableEq, Repr

/-- Where on the picture link a character error or a slip falls (R2, R3, R5). -/
inductive LinkPlace where
  /-- Inside an active line. -/
  | activeLine
  /-- On the input blanking line of this index: inside its side packet, for a character error. -/
  | blankingLine (k : Nat)
  /-- Inside a marker or between lines. -/
  | elsewhere
  deriving DecidableEq, Repr

/-- The commands. -/
inductive Instr where
  /-- POWER_ON (R21), with the TAG0-2 strap value sampled. -/
  | powerOn (straps : BitVec 3)
  /-- RESETN (R21), with the TAG0-2 strap value sampled. -/
  | resetn (straps : BitVec 3)
  /-- FRAME_START_MARKER (R1). `last` holds the pixels of an active line that this marker ends, if there is one (R4).
  DESIGN CHOICE (notes/assumptions/13.md). -/
  | frameStartMarker (dt : Nat) (last : Option (List Pixel))
  /-- ACTIVE_LINE (R4): an input active line has ended with these pixels as received. -/
  | activeLine (dt : Nat) (pixels : List Pixel)
  /-- SIDE_PACKET (R2): the bytes on input blanking line `line`, from the first byte of its packet on. -/
  | sidePacket (dt : Nat) (line : Nat) (bytes : List Byte)
  /-- INPUT_ACTIVE_END (R1). `last` holds the pixels of an active line that this marker ends, if there is one (R4). -/
  | inputActiveEnd (dt : Nat) (last : Option (List Pixel))
  /-- CHARACTER_ERROR (R5). -/
  | characterError (dt : Nat) (place : LinkPlace)
  /-- ELASTIC_BUFFER_SLIP (R3). -/
  | elasticBufferSlip (dt : Nat) (place : LinkPlace)
  /-- FRAME_TIMEOUT (R10). -/
  | frameTimeout (dt : Nat)
  /-- OUTPUT_FRAME_START (R16). `scanFirst` says which of the scan decision and the frame turn is taken first
  when both fall at this frame start (R139). DEDUCED (notes/assumptions/7.md). -/
  | outputFrameStart (dt : Nat) (scanFirst : Bool)
  /-- OUTPUT_BLANKING_LINE (R12): output blanking line `line` is sent. -/
  | outputBlankingLine (dt : Nat) (line : Nat)
  /-- FIRST_ACTIVE_LINE (R99). -/
  | firstActiveLine (dt : Nat)
  /-- OUTPUT_LINE_BEGIN (R105): the next output active line begins. -/
  | outputLineBegin (dt : Nat)
  /-- OUTPUT_ACTIVE_END (R162). -/
  | outputActiveEnd (dt : Nat)
  /-- SOLVE_COMPLETE (R78). -/
  | solveComplete (dt : Nat)
  /-- BURST_DONE (R120). -/
  | burstDone (dt : Nat) (chain : ChainNo)
  /-- DARK_BURST_DONE (R135). -/
  | darkBurstDone (dt : Nat) (chain : ChainNo)
  /-- READBACK_SLOT (R123): the bytes that arrived in the next slot of the chain's readback field. -/
  | readbackSlot (dt : Nat) (chain : ChainNo) (bytes : List Byte)
  /-- LATCH_SENT (R122). -/
  | latchSent (dt : Nat) (chain : ChainNo)
  /-- RELEASE_SENT (R130). -/
  | releaseSent (dt : Nat) (chain : ChainNo)
  /-- ASSIGNMENT_SENT (R130). -/
  | assignmentSent (dt : Nat) (chain : ChainNo)
  /-- ACKNOWLEDGEMENT (R130): the bytes of the acknowledgement. -/
  | acknowledgement (dt : Nat) (chain : ChainNo) (bytes : List Byte)
  /-- ENUM_ACK_TIMEOUT (R130). -/
  | enumAckTimeout (dt : Nat) (chain : ChainNo)
  /-- PASS_REQUEST_SENT (R133). -/
  | passRequestSent (dt : Nat) (chain : ChainNo)
  /-- PASS_ANSWER (R134): the bytes of the answer. -/
  | passAnswer (dt : Nat) (chain : ChainNo) (bytes : List Byte)
  /-- PASS_TIMEOUT (R134). -/
  | passTimeout (dt : Nat) (chain : ChainNo)
  /-- CONVERSION_END (R138): the raw code of the conversion. -/
  | conversionEnd (dt : Nat) (raw : BitVec 10)
  /-- TRANSMISSION_END (R32). -/
  | transmissionEnd (dt : Nat)
  /-- IDENTIFY (R35): execution of the packet in flight, as in every constructor below. -/
  | identify (dt : Nat)
  /-- WRITE_TABLE (R41). -/
  | writeTable (dt : Nat)
  /-- READ_TABLE (R43). -/
  | readTable (dt : Nat)
  /-- COMMIT (R45). -/
  | commit (dt : Nat)
  /-- CANCEL_COMMIT (R47). -/
  | cancelCommit (dt : Nat)
  /-- SET_MODE (R150). -/
  | setMode (dt : Nat)
  /-- READ_STATUS (R172). -/
  | readStatus (dt : Nat)
  /-- CLEAR_COUNTERS (R170). -/
  | clearCounters (dt : Nat)
  /-- CLEAR_FAULTS (R128). -/
  | clearFaults (dt : Nat)
  /-- ENUMERATE_CHAIN (R129). -/
  | enumerateChain (dt : Nat)
  /-- DRIVER_PASS (R132). -/
  | driverPass (dt : Nat)
  /-- SENSE_START (R141). -/
  | senseStart (dt : Nat)
  /-- SENSE_ABORT (R142). -/
  | senseAbort (dt : Nat)
  /-- ERROR_LOG_CLEAR (R180). -/
  | errorLogClear (dt : Nat)
  /-- INJECT_ERROR (R181). -/
  | injectError (dt : Nat)
  /-- TIME_SET (R19). -/
  | timeSet (dt : Nat)
  /-- TIME_ADJUST (R20). -/
  | timeAdjust (dt : Nat)
  /-- SOFT_RESET (R36). -/
  | softReset (dt : Nat)
  /-- BAD_COMMAND (R27): execution of a packet in flight whose code names no command. -/
  | badCommand (dt : Nat)
  deriving DecidableEq, Repr

end Sys2Proof
end

