-- ==== Sys2Proof/WellFormed.lean ====
section
/-! DEFINITION. Which command terms stand for something that can arrive on a wire. Every other bound of an operand
(a chain 0-7, a 12-bit component, a 10-bit code, a 3-bit strap value) is in its type. No meaning rests on these
checks: each meaning also says what happens to a term that fails them. -/

namespace Sys2Proof

/-- A side packet has at least its destination tag; a readback slot is 8 bytes long, an acknowledgement at most
3 and a pass-through answer at most 12 (R184, "Chain messages"). -/
def Instr.wellFormed : Instr → Bool
  | .sidePacket _ _ bytes => !bytes.isEmpty
  | .readbackSlot _ _ bytes => bytes.length ≤ 8
  | .acknowledgement _ _ bytes => bytes.length ≤ 3
  | .passAnswer _ _ bytes => bytes.length ≤ 12
  | .powerOn _ | .resetn _ | .frameStartMarker _ _ | .activeLine _ _ | .inputActiveEnd _ _
  | .characterError _ _ | .elasticBufferSlip _ _ | .frameTimeout _ | .outputFrameStart _ _
  | .outputBlankingLine _ _ | .firstActiveLine _ | .outputLineBegin _ | .outputActiveEnd _ | .solveComplete _
  | .burstDone _ _ | .darkBurstDone _ _ | .latchSent _ _ | .releaseSent _ _ | .assignmentSent _ _
  | .enumAckTimeout _ _ | .passRequestSent _ _ | .passTimeout _ _ | .conversionEnd _ _ | .transmissionEnd _
  | .identify _ | .writeTable _ | .readTable _ | .commit _ | .cancelCommit _ | .setMode _ | .readStatus _
  | .clearCounters _ | .clearFaults _ | .enumerateChain _ | .driverPass _ | .senseStart _ | .senseAbort _
  | .errorLogClear _ | .injectError _ | .timeSet _ | .timeAdjust _ | .softReset _ | .badCommand _ => true

end Sys2Proof
end

