-- ==== Sys2Proof/Decode.lean ====
section
/-! DEFINITION. The block has no instruction words: `spec/opcode_table.json` gives bits to no row, so no word
spells a command. (The side packets that carry the 18 commands are decoded by `SIDE_PACKET`, in
`Machine/Operands.lean` and `Machine/Link.lean`.) -/

namespace Sys2Proof

/-- The command that a word spells by the table's bits: no row gives bits, so there is none. -/
def decodeTableWord (_nbits _w : Nat) : Option Instr := none

end Sys2Proof
end

