-- ==== Sys2Proof/Config.lean ====
section
/-! DEFINITION. What the reference fixes for this part: capacities, table sizes, the SETTINGS table, identity
words, command codes. The reference states each value but `pixelsSent`, which is free. -/

namespace Sys2Proof.Config

/-- Zones of every zone-indexed table, whatever the grid (conventions of `00_scope.md`). -/
def zones : Nat := 2304
/-- Device positions on one chain. -/
def devicesPerChain : Nat := 24
/-- Channels of one device. -/
def channelsPerDevice : Nat := 16
/-- Packets the command queue holds (R25). -/
def commandQueue : Nat := 16
/-- Entries of the reply queue (R29). -/
def replyEntries : Nat := 8
/-- Entries of the pass-through queue (R132). -/
def passQueue : Nat := 4
/-- Entries of the error log (R179). -/
def logEntries : Nat := 4
/-- The largest value of a 32-bit saturating count (R164, R169). -/
def count32Max : Nat := 4294967295

/-- IDENTIFY's part code and silicon revision (R35). -/
def partCode : Word := 0x2336
def siliconRevision : Word := 3

/-- The geometry of free-run frames and of the grid while no geometry has been locked (R13, R59). -/
def defaultWidth : Nat := 3840
def defaultHeight : Nat := 2160

/-- One conversion (R138), the acknowledgement wait (R130), the pass-through wait (R134) and the blanking at each
end of a free-run frame (R13), in microseconds. -/
def conversionTime : Nat := 16
def ackWait : Nat := 20
def passWait : Nat := 2000
def freeRunBlanking : Nat := 800

/-- The duration of a solve of `n` zones, 20 µs plus 0.15 µs a zone (R75), rounded up to whole microseconds. -/
def solveTime (n : Nat) : Nat := (400 + 3 * n + 19) / 20

/-- One row of the SETTINGS table of `03_loaded_tables.md`: range, default, and whether a value out of range
refuses the write (R51). -/
structure Setting where
  lo     : Nat
  hi     : Nat
  dflt   : Nat
  refuse : Bool
  deriving DecidableEq, Repr

/-- The 43 rows of the SETTINGS table, in index order. DEVICE_TAG's default here is 0x20; the strap value is added
by `defaultSetting`. -/
def settings : List Setting :=
  [⟨1, 64, 32, false⟩, ⟨1, 36, 18, false⟩, ⟨0, 256, 192, false⟩, ⟨0, 4095, 3072, false⟩,
   ⟨0, 65535, 0, false⟩, ⟨1, 256, 96, false⟩, ⟨1, 256, 32, false⟩, ⟨0, 4095, 0, false⟩,
   ⟨0, 4095, 4095, false⟩, ⟨0, 4095, 0, false⟩, ⟨0, 4095, 2048, false⟩, ⟨0, 4095, 512, false⟩,
   ⟨0, 4294967295, 1000000, false⟩, ⟨0, 256, 205, false⟩, ⟨0, 256, 128, false⟩, ⟨0, 256, 128, false⟩,
   ⟨0, 1023, 600, false⟩, ⟨0, 1023, 560, false⟩, ⟨0, 1023, 720, false⟩, ⟨0, 1023, 680, false⟩,
   ⟨0, 1023, 900, false⟩, ⟨0, 1023, 850, false⟩, ⟨1, 65535, 4095, false⟩, ⟨1024, 8191, 4096, false⟩,
   ⟨0, 1, 0, false⟩, ⟨1, 65535, 16, false⟩, ⟨1, 255, 4, false⟩, ⟨1000, 100000, 25000, false⟩,
   ⟨4000, 50000, 16667, false⟩, ⟨1, 65535, 64, false⟩, ⟨1, 254, 0x20, true⟩, ⟨0, 131071, 0, true⟩] ++
  [⟨0, 4095, 0, false⟩, ⟨0, 4095, 270, false⟩, ⟨0, 4095, 540, false⟩, ⟨0, 4095, 810, false⟩,
   ⟨0, 4095, 1080, false⟩, ⟨0, 4095, 1350, false⟩, ⟨0, 4095, 1620, false⟩, ⟨0, 4095, 1890, false⟩,
   ⟨1, 15, 2, false⟩, ⟨1, 15, 3, false⟩, ⟨0, 511, 0, true⟩]

/-- Row `i` of the SETTINGS table. -/
def setting (i : Nat) : Setting := settings.getD i ⟨0, 0, 0, false⟩

/-- The default of entry `i` on a part whose straps read `straps` (R57, R178). -/
def defaultSetting (straps : BitVec 3) (i : Nat) : Nat :=
  (setting i).dflt + if i = 30 then straps.toNat else 0

/-! Entry numbers of SETTINGS, by the names of the table. -/

def gridColumns : Nat := 0
def gridRows : Nat := 1
def blendWeight : Nat := 2
def brightThreshold : Nat := 3
def speckleLimit : Nat := 4
def riseRate : Nat := 5
def fallRate : Nat := 6
def sceneCutDelta : Nat := 7
def haloStep : Nat := 8
def minLevel : Nat := 9
def bypassLevel : Nat := 10
def safeLevel : Nat := 11
def powerBudget : Nat := 12
def warmFactor : Nat := 13
def hotFactor : Nat := 14
def foldFactor : Nat := 15
def warmOn : Nat := 16
def warmOff : Nat := 17
def hotOn : Nat := 18
def hotOff : Nat := 19
def foldOn : Nat := 20
def foldOff : Nat := 21
def bref : Nat := 22
def gainLimit : Nat := 23
def clipMode : Nat := 24
def blackFloor : Nat := 25
def lockFrames : Nat := 26
def frameTimeout : Nat := 27
def freeRunPeriod : Nat := 28
def losErrorLimit : Nat := 29
def deviceTag : Nat := 30
def notifyMask : Nat := 31
def latchLine (k : Nat) : Nat := 32 + k
def faultConfirm : Nat := 40
def missLimit : Nat := 41
def senseInvert : Nat := 42

/-- Entries of table `t`, 0 to 7 (the table of "The eight tables"). -/
def tableEntries (t : Nat) : Nat := [43, 2304, 33, 49, 2304, 8, 192, 4].getD t 0
/-- Words per entry of table `t`. -/
def wordsPerEntry (t : Nat) : Nat := [2, 2, 1, 1, 8, 4, 3, 4].getD t 1
/-- Words of memory `m`, 0 to 8 (the table of `11_table_memory_integrity.md`). -/
def memoryWords (m : Nat) : Nat := [86, 86, 4608, 4608, 33, 33, 49, 49, 18432].getD m 0

/-! Command codes ("Commands" of Wire Formats). -/

def codeIdentify : Byte := 0x01
def codeWriteTable : Byte := 0x10
def codeReadTable : Byte := 0x11
def codeCommit : Byte := 0x12
def codeCancelCommit : Byte := 0x13
def codeSetMode : Byte := 0x20
def codeReadStatus : Byte := 0x30
def codeClearCounters : Byte := 0x31
def codeClearFaults : Byte := 0x40
def codeEnumerateChain : Byte := 0x41
def codeDriverPass : Byte := 0x42
def codeSenseStart : Byte := 0x50
def codeSenseAbort : Byte := 0x51
def codeErrorLogClear : Byte := 0x60
def codeInjectError : Byte := 0x61
def codeTimeSet : Byte := 0x70
def codeTimeAdjust : Byte := 0x71
def codeSoftReset : Byte := 0x7E

/-- The 18 codes that name a command (R27). -/
def commandCodes : List Byte :=
  [codeIdentify, codeWriteTable, codeReadTable, codeCommit, codeCancelCommit, codeSetMode, codeReadStatus,
   codeClearCounters, codeClearFaults, codeEnumerateChain, codeDriverPass, codeSenseStart, codeSenseAbort,
   codeErrorLogClear, codeInjectError, codeTimeSet, codeTimeAdjust, codeSoftReset]

/-- The broadcast tag (R31). -/
def broadcastTag : Byte := 0xFF

/-- FREE: how many pixels of the last output active line have been sent at the SOFT_RESET that takes draw `n`; a line of
no more pixels has been sent whole (R21). Nothing constrains it. DESIGN CHOICE (notes/assumptions/24.md). -/
opaque pixelsSent (n : Nat) : Nat

end Sys2Proof.Config
end

