-- ==== Sys2Proof/Machine/Sparse.lean ====
section
/-! DEFINITION. Arrays written as plain data: a list of (index, value) pairs in ONE canonical form, indexes strictly
rising and no pair equal to what an unlisted index reads as. The default of index `k` is `d k`. The table memories and
every zone-, device- and channel-indexed record of the part are held this way, so that equal arrays are equal
lists. -/

namespace Sys2Proof.Machine

/-- An array of `α`: the pairs that differ from the default. -/
abbrev Sparse (α : Type) := List (Nat × α)

variable {α : Type} [DecidableEq α]

/-- The value at index `k`. -/
def sparseGet (d : Nat → α) : Sparse α → Nat → α
  | [], k => d k
  | (j, v) :: m, k => if j = k then v else sparseGet d m k

/-- Put a pair at its place by rising index. -/
def sparseInsert (k : Nat) (v : α) : Sparse α → Sparse α
  | [] => [(k, v)]
  | (j, w) :: m => if k < j then (k, v) :: (j, w) :: m else (j, w) :: sparseInsert k v m

/-- Write `v` at index `k`; writing the default removes the pair. -/
def sparsePut (d : Nat → α) (m : Sparse α) (k : Nat) (v : α) : Sparse α :=
  if v = d k then m.filter (fun e => e.1 != k) else sparseInsert k v (m.filter (fun e => e.1 != k))

/-- The array that holds `f i` at index `lo + i` for `i < n` and the default elsewhere. -/
def sparseTabulate (d : Nat → α) (lo n : Nat) (f : Nat → α) : Sparse α :=
  (List.range n).filterMap (fun i => if f i = d (lo + i) then none else some (lo + i, f i))

/-- Write `f i` at index `lo + i` for every `i < n`. -/
def sparsePutRange (d : Nat → α) (m : Sparse α) (lo n : Nat) (f : Nat → α) : Sparse α :=
  m.filter (fun e => e.1 < lo) ++ sparseTabulate d lo n f ++ m.filter (fun e => lo + n ≤ e.1)

/-- Set the mark of every listed index. -/
def sparseMark (m : Sparse Bool) (ks : List Nat) : Sparse Bool :=
  ks.foldl (fun m k => sparsePut (fun _ => false) m k true) m

omit [DecidableEq α] in
/-- Put every index that satisfies `p` back to its default. -/
def sparseClear (p : Nat → Bool) (m : Sparse α) : Sparse α := m.filter (fun e => !p e.1)

/-- The canonical form: indexes strictly rising, no pair equal to the default. -/
def sparseWf (d : Nat → α) : Sparse α → Bool
  | [] => true
  | (k, v) :: m => decide (v ≠ d k) && m.all (fun e => decide (k < e.1)) && sparseWf d m

end Sys2Proof.Machine
end

