-- ==== Sys2Proof/Machine/Memory.lean ====
section
/-! DEFINITION. The protected memories of the part: the two banks of the four loaded tables and the solver words of
ZONE_STATE, as the integrity monitor numbers them (`11_table_memory_integrity.md`). The addressable unit is the
16-bit word. One flat list holds all of them, keyed by memory number and word index together: DESIGN CHOICE
(notes/assumptions/12.md). -/

namespace Sys2Proof.Machine

/-- The words of every protected memory that differ from the power-on content of a part whose straps are 0. -/
abbrev Memory := Sparse Word

/-- The key of word `i` of memory `m`, 0 to 8. -/
def wordKey (m i : Nat) : Nat := 32768 * m + i

/-- The memory number and the word index of a key. -/
def keyMemory (a : Nat) : Nat := a / 32768
def keyIndex (a : Nat) : Nat := a % 32768

/-- The memory number of a bank of a loaded table: twice the table id plus the bank. -/
def bankMemory (table bank : Nat) : Nat := 2 * table + bank

/-- The high or the low word of a 32-bit value, by the word's place in its entry (R184: high word first). -/
def wordOf (v place : Nat) : Word :=
  if place = 0 then BitVec.ofNat 16 (v / 65536) else BitVec.ofNat 16 v

/-- The power-on content of word `i` of memory `m`, with the straps at 0 (R57, R98). -/
def powerOnWord (m i : Nat) : Word :=
  match m / 2 with
  | 0 => wordOf (Config.defaultSetting 0 (i / 2)) (i % 2)
  | 1 => if i % 2 = 0 then 0 else 0x0180
  | 2 => BitVec.ofNat 16 (min 4095 (i * 128))
  | 3 => if i = 24 then 0xFFFF else 0
  | _ => 0

/-- What an unlisted word reads as. -/
def unlistedWord (a : Nat) : Word := powerOnWord (keyMemory a) (keyIndex a)

/-- The word at a key. -/
def Memory.word (mem : Memory) (a : Nat) : Word := sparseGet unlistedWord mem a

/-- Store a word at a key. -/
def Memory.store (mem : Memory) (a : Nat) (v : Word) : Memory := sparsePut unlistedWord mem a v

/-- A key of a protected word (the tables of the integrity chapter; "The protected ZONE_STATE words are those whose
index, taken modulo 8, is 4 to 7"). -/
def protectedKey (a : Nat) : Bool :=
  decide (keyMemory a ≤ 8) && decide (keyIndex a < Config.memoryWords (keyMemory a)) &&
    (decide (keyMemory a < 8) || decide (4 ≤ keyIndex a % 8))

/-- The canonical form: strictly rising keys, each of a protected word, none listed with what it reads as
unlisted. -/
def Memory.wf (mem : Memory) : Bool := sparseWf unlistedWord mem && mem.all (fun e => protectedKey e.1)

/-- The content laid down at power-on: the defaults, with the strap value in both banks' DEVICE_TAG (R57). -/
def Memory.powerOn (straps : BitVec 3) : Memory :=
  let tag := wordOf (Config.defaultSetting straps Config.deviceTag) 1
  (Memory.store [] (wordKey 0 61) tag).store (wordKey 1 61) tag

/-- The words of the four active banks alone: what a solve captures (R74). -/
def Memory.activeWords (mem : Memory) : Memory :=
  mem.filter (fun e => decide (keyMemory e.1 < 8) && decide (keyMemory e.1 % 2 = 1))

/-- Copy the staging bank of a table into its active bank (R48). -/
def Memory.copyBank (mem : Memory) (table : Nat) : Memory :=
  sparsePutRange unlistedWord mem (wordKey (bankMemory table 1) 0) (Config.memoryWords (bankMemory table 0))
    (fun i => mem.word (wordKey (bankMemory table 0) i))

/-- The value of SETTINGS entry `i` of bank `bank`: two words, high word first. -/
def Memory.setting (mem : Memory) (bank i : Nat) : Nat :=
  (mem.word (wordKey bank (2 * i))).toNat * 65536 + (mem.word (wordKey bank (2 * i + 1))).toNat

/-- The active value of SETTINGS entry `i`. -/
def Memory.active (mem : Memory) (i : Nat) : Nat := mem.setting 1 i

/-- The places of a zone's solver words in ZONE_STATE (R184). -/
def zoneT (z : Nat) : Nat := wordKey 8 (8 * z + 4)
def zoneF (z : Nat) : Nat := wordKey 8 (8 * z + 5)
def zoneL4 (z : Nat) : Nat := wordKey 8 (8 * z + 6)
def zoneDuty (z : Nat) : Nat := wordKey 8 (8 * z + 7)

/-- Whether a key is a word of ZONE_STATE at one of the given places of its entry. -/
def isZoneWord (places : List Nat) (a : Nat) : Bool :=
  decide (keyMemory a = 8) && places.contains (keyIndex a % 8)

/-- One driver channel. -/
structure Channel where
  chain   : Nat
  device  : Nat
  channel : Nat
  deriving DecidableEq, Repr

/-- A ZONE_MAP entry (R53, R184): its channel if it is mapped, its weight and its calibration. -/
structure MapEntry where
  channel     : Option Channel
  weight      : Nat
  calibration : Nat
  deriving DecidableEq, Repr

/-- Read a ZONE_MAP entry from its two words (R184): bit 15 mapped, bits 14-11 chain, 10-6 device, 5-2 channel; then
weight and calibration. -/
def MapEntry.ofWords (w0 w1 : Word) : MapEntry :=
  { channel := if w0.getLsbD 15 then
        some ⟨(w0.toNat / 2048) % 16, (w0.toNat / 64) % 32, (w0.toNat / 4) % 16⟩ else none
    weight := w1.toNat / 256
    calibration := w1.toNat % 256 }

/-- Entry `z` of a ZONE_MAP bank. -/
def Memory.mapEntry (mem : Memory) (bank z : Nat) : MapEntry :=
  MapEntry.ofWords (mem.word (wordKey (bankMemory 1 bank) (2 * z)))
    (mem.word (wordKey (bankMemory 1 bank) (2 * z + 1)))

/-- The channels that the mapped entries of a ZONE_MAP bank name, by rising zone. -/
def Memory.mappedChannels (mem : Memory) (bank : Nat) : List Channel :=
  (List.range Config.zones).filterMap (fun z => (mem.mapEntry bank z).channel)

/-- Two mapped entries of the bank name one channel (R46). -/
def Memory.duplicateChannel (mem : Memory) (bank : Nat) : Bool := !decide (mem.mappedChannels bank).Nodup

/-- Point `i` of the TONE_CURVE's active bank, coefficient `i` of the SPREAD_KERNEL's. -/
def Memory.tonePoint (mem : Memory) (i : Nat) : Nat := (mem.word (wordKey 5 i)).toNat
def Memory.kernel (mem : Memory) (i : Nat) : Nat := (mem.word (wordKey 7 i)).toNat

end Sys2Proof.Machine
end

