-- ==== Sys2Proof/Machine/State.lean ====
section
/-! DEFINITION. The state of the part as plain data: one record per unit, every piece of state the reference gives
the unit, and the queue of commands that wait. Each record is followed by its value after power-on. Attention and
the ATTN line are computed views (`Machine/Flags.lean`), as R171 and R174 define them by the rest of the state. -/

namespace Sys2Proof.Machine

/-! ## Names of the reference -/

/-- The input state (R7). -/
inductive InputState where
  | noSignal | acquiring | locked
  deriving DecidableEq, Repr

/-- The operating mode (R150). -/
inductive Mode where
  | standby | bypass | dimming | safe
  deriving DecidableEq, Repr

/-- The thermal state of a chain (R143). -/
inductive Thermal where
  | normal | warm | hot
  deriving DecidableEq, Repr

/-- A zone's fault latch (R127). -/
inductive FaultLatch where
  | clear | opened | shorted
  deriving DecidableEq, Repr

/-- The state of a device record (R124). -/
inductive DeviceState where
  | unknown | ok | noResponse
  deriving DecidableEq, Repr

/-- What starts a solve (R73). -/
inductive Trigger where
  | statistics | freeRun
  deriving DecidableEq, Repr

/-- Where a solve's targets come from (R80). -/
inductive TargetSource where
  | statistics | bypass | safe
  deriving DecidableEq, Repr

/-- The solve outcome (R77). -/
inductive SolveOutcome where
  | none | onTime | late
  deriving DecidableEq, Repr

/-- The reason of CONFIG_INVALID, and the mode-change reason (R154, R183). -/
inductive Reason where
  | none | duplicateChannel | noZones | chainUnknown
  deriving DecidableEq, Repr

/-- The result codes (R28). -/
inductive Result where
  | ok | clamped | badCommand | badLength | badTable | range | notInMode | busy | configInvalid | timeout | aborted
  | readOnly
  deriving DecidableEq, Repr

/-- The kind of a memory error or of an injection mark (R177, R178, R181). -/
inductive ErrorKind where
  | corrected | uncorrectable
  deriving DecidableEq, Repr

/-- The 17 events (table of "Event flags"), in the order of their numbers 1 to 17. -/
inductive Event where
  | packetCrcError | packetDropped | commitDone | commitFailed | modeChanged | solveLate | burstLate | sceneCut
  | inputStateChanged | lineSlip | gridMisfit | zoneFaultNew | deviceNoResponse | enumDone | senseOverrun
  | memoryError | reportLost
  deriving DecidableEq, Repr

/-! ## Link receiver -/

/-- A picture size. -/
structure Geometry where
  width  : Nat
  height : Nat
  deriving DecidableEq, Repr

/-- The record of the input frame in progress (R1). -/
structure FrameRec where
  width       : Option Nat
  lines       : Nat
  errors      : Nat
  damaged     : Bool
  offGeometry : Bool
  deriving DecidableEq, Repr

/-- The record as a frame-start marker opens it (R1). -/
def FrameRec.opened : FrameRec := ⟨none, 0, 0, false, false⟩

/-- The input elastic buffer (R3): how many symbols it holds between two commands, and whether it is centred. -/
structure ElasticBuffer where
  held    : Nat
  centred : Bool
  deriving DecidableEq, Repr

/-- The link receiver. `lineDamaged`, `packetErrored` and `packetLost` are the marks on the line or blanking line in
progress (R2, R3, R5). `lastMarker` is when the most recent frame-start marker was taken and `timeout` the
FRAME_TIMEOUT in use since then (R10, R11). -/
structure Lrx where
  input         : InputState
  record        : Option FrameRec
  lineDamaged   : Bool
  packetErrored : Option Nat
  packetLost    : Option Nat
  candidate     : Option Geometry
  runCount      : Nat
  locked        : Option Geometry
  lastMarker    : Nat
  timeout       : Nat
  period        : Nat
  elastic       : ElasticBuffer
  deriving DecidableEq, Repr

/-- R7, R21. DESIGN CHOICE for `lastMarker` and `timeout` (notes/assumptions/17.md). -/
def Lrx.reset : Lrx := ⟨.noSignal, none, false, none, none, none, 0, none, 0, 25000, 0, ⟨0, true⟩⟩

/-! ## Frame timing unit -/

/-- The FTU's state (R12, R13). -/
inductive FtuState where
  | following | freeRun
  deriving DecidableEq, Repr

/-- How far the output frame has come: no frame yet, in its blanking, in its active lines with the index of the next
one, or past its end (its output active end sent, or cut short). -/
inductive OutPhase where
  | none
  | blanking
  | active (next : Nat)
  | ended
  deriving DecidableEq, Repr

/-- What follows the input one line behind (R12): a frame-start marker, an active line with its marks and the width
of its frame, or an active-end marker. -/
inductive Delayed where
  | start
  | line (pixels : List Pixel) (damaged offGeometry : Bool) (width : Nat)
  | activeEnd
  deriving DecidableEq, Repr

/-- The last thing sent on the panel link; `lineCut` is an active line that a SOFT_RESET cut off (R21). -/
inductive PanelItem where
  | nothing
  | frameStart
  | blanking (line : Nat) (packet : Option (List Byte))
  | line (pixels : List Pixel)
  | lineCut (pixels : List Pixel)
  | activeEnd
  deriving DecidableEq, Repr

/-- The frame timing unit. `fresh` says that no output frame has started since the last reset (R16). `delay` is the
one line of delay, `forward` the foreign packets to send, each with its blanking line (R2, R12). `freeDue` is when
the next free-run frame starts (R13, R14) and `period` the FREE_RUN_PERIOD in use. `lastLine` is the most recent
active output line, none for black (R6). -/
structure Ftu where
  state       : FtuState
  frameNumber : Dword
  fresh       : Bool
  stamp       : Dword
  adjust      : Option Dword
  startedAt   : Nat
  freeFrame   : Bool
  geometry    : Geometry
  period      : Nat
  freeDue     : Option Nat
  phase       : OutPhase
  turnWaiting : Bool
  delay       : List Delayed
  forward     : List (Nat × List Byte)
  lastLine    : Option (List Pixel)
  panel       : PanelItem
  deriving DecidableEq, Repr

/-- R21, at time `now`: the first free-run frame is due at once. DEDUCED (notes/assumptions/6.md); DESIGN CHOICE for the
fields that hold a frame's values before the first frame (notes/assumptions/17.md). -/
def Ftu.reset (now : Nat) : Ftu :=
  ⟨.freeRun, 0, true, 0, none, now, true, ⟨3840, 2160⟩, 16667, some now, .none, false, [], [], none, .nothing⟩

/-- The part's internal microsecond time and the frame clock that follows it (R11, R18). -/
structure Clock where
  now   : Nat
  frame : Dword
  deriving DecidableEq, Repr

/-! ## Statistics unit -/

/-- The grid record (R59). -/
structure Grid where
  width     : Nat
  height    : Nat
  columns   : Nat
  rows      : Nat
  cellW     : Nat
  cellH     : Nat
  threshold : Nat
  misfit    : Bool
  deriving DecidableEq, Repr

/-- One accumulator (R64). -/
structure Accumulator where
  peak   : Nat
  sum    : Nat
  count  : Nat
  bright : Nat
  deriving DecidableEq, Repr

def Accumulator.zero : Accumulator := ⟨0, 0, 0, 0⟩

/-- The statistics fields of a ZONE_STATE entry, with full counts (R67, R184). -/
structure ZoneStat where
  peak   : Nat
  mean   : Nat
  bright : Nat
  count  : Nat
  deriving DecidableEq, Repr

def ZoneStat.zero : ZoneStat := ⟨0, 0, 0, 0⟩

/-- The statistics unit. `lineBuffer` holds the ended lines, each with its index, that wait for their frame's frame
turn (R63). -/
structure Stu where
  grid         : Option Grid
  lineBuffer   : List (Nat × List Pixel)
  accumulators : Sparse Accumulator
  stats        : Sparse ZoneStat
  globalMean   : Nat
  deriving DecidableEq, Repr

/-- R71. -/
def Stu.reset : Stu := ⟨none, [], [], [], 0⟩

/-! ## Level solver -/

/-- The solve tag (R96). -/
structure SolveTag where
  frame   : Dword
  trigger : Trigger
  deriving DecidableEq, Repr

/-- One zone of a level set (R96); no channel for a skipped zone. -/
structure ZoneLevel where
  level   : Nat
  duty    : Nat
  channel : Option Channel
  deriving DecidableEq, Repr

def ZoneLevel.skipped : ZoneLevel := ⟨0, 0, none⟩

/-- A level set (R96); the all-zero set carries no tag (R100). -/
structure LevelSet where
  tag   : Option SolveTag
  zones : Sparse ZoneLevel
  deriving DecidableEq, Repr

def LevelSet.zero : LevelSet := ⟨none, []⟩

/-- The solve in flight: its trigger, its frame, when it started and when it completes, its captured copy (R74), its
target source (R80), the jumps decided at its start (R86, R87), the F and the reseed mark of each zone that stage 4 reads
(R85, R88), the zones whose latch a CLEAR_FAULTS has cleared since its start (R103), and whether its completion may set
Gprev (R87). -/
structure Solve where
  tag       : SolveTag
  startedAt : Nat
  dueAt     : Nat
  tables    : Memory
  grid      : Grid
  stats     : Sparse ZoneStat
  mean      : Nat
  thermal   : Vector Thermal 8
  foldback  : Bool
  latches   : Sparse FaultLatch
  source    : TargetSource
  lockJump  : Bool
  sceneCut  : Bool
  prevF     : Sparse Nat
  reseed    : Sparse Bool
  unlit     : Sparse Bool
  setsGprev : Bool
  deriving DecidableEq, Repr

/-- The level solver; F, T, L4 and duty of every zone stand in memory 8. `unlit` are the zones whose latch a
CLEAR_FAULTS has cleared since the solve of `lastSet` started: that set lights none of them (R103), and a solve still
running gives them level and duty 0 (R91). DEDUCED
(notes/assumptions/30.md). -/
structure Lvs where
  solve    : Option Solve
  reseed   : Sparse Bool
  gprev    : Option Nat
  lockJump : Bool
  lastSet  : LevelSet
  unlit    : Sparse Bool
  k        : Nat
  demand   : Nat
  maxL4    : Nat
  outcome  : SolveOutcome
  deriving DecidableEq, Repr

/-- R98. -/
def Lvs.reset : Lvs := ⟨none, [], none, false, .zero, [], 4096, 0, 0, .none⟩

/-! ## Pixel compensator -/

/-- The frame capture (R99): the four SETTINGS entries, the 49 coefficients, the grid record, the mode. -/
structure Capture where
  bref       : Nat
  gainLimit  : Nat
  clipMode   : Nat
  blackFloor : Nat
  kernel     : List Nat
  grid       : Grid
  mode       : Mode
  deriving DecidableEq, Repr

/-- The pixel compensator. `display` is at once the display level the compensator keeps and its copy in ZONE_STATE:
both change at the same moments (R102, R104, R114). DEDUCED (notes/assumptions/11.md). -/
structure Pxc where
  display      : Sparse Nat
  displayChain : Sparse (Option Nat)
  taken        : Vector (Option SolveTag) 8
  capture      : Option Capture
  compensating : Bool
  field        : Sparse Nat
  clips        : Nat
  deriving DecidableEq, Repr

/-- R115. -/
def Pxc.reset : Pxc := ⟨[], [], Vector.replicate 8 none, none, false, [], 0⟩

/-! ## Chain controller -/

/-- One zone of an update burst: where its duty goes. -/
structure BurstZone where
  device  : Nat
  channel : Nat
  zone    : Nat
  duty    : Nat
  deriving DecidableEq, Repr

/-- What an update burst carries to one chain: the solve tag of its set and the zones the set maps there (R118). -/
structure BurstJob where
  tag   : SolveTag
  zones : List BurstZone
  deriving DecidableEq, Repr

/-- Where an enumeration sweep stands (R130): sending the release, sending the assignment of `n`, or waiting since
`since` for the acknowledgement of `n`. -/
inductive EnumPhase where
  | release
  | assigning (n : Nat)
  | waiting (n since : Nat)
  deriving DecidableEq, Repr

/-- The data-out activity of a chain (R117). A burst counts its covered devices and the readback slots already
checked. A latch carries the output frame in which it fell due, none for the latch of a dark burst (R122, R135). -/
inductive Activity where
  | idle
  | burst (job : BurstJob) (devices slot : Nat)
  | darkBurst (devices slot : Nat)
  | latch (frame : Option Dword)
  | enumerate (phase : EnumPhase)
  | passRequest
  deriving DecidableEq, Repr

/-- A chain record. `message` holds the bytes of the message on data out. `awaiting` is when the pass-through request
ended whose answer is awaited. `latchDue` is the output frame in which the pending latch fell due, while it waits for
the line. -/
structure ChainRec where
  count       : Nat
  overlength  : Bool
  activity    : Activity
  message     : List Byte
  awaiting    : Option Nat
  waiting     : Option BurstJob
  darkWaiting : Bool
  doneTag     : Option SolveTag
  latchPending : Bool
  latchDue    : Option Dword
  lastLatch   : Option Dword
  overTemp    : Bool
  enumWaiting : Bool
  deriving DecidableEq, Repr

/-- R137. -/
def ChainRec.reset : ChainRec := ⟨0, false, .idle, [], none, none, false, none, false, none, none, false, false⟩

/-- A device record (R124). -/
structure DeviceRec where
  state    : DeviceState
  misses   : Nat
  opens    : Word
  shorts   : Word
  overTemp : Bool
  deriving DecidableEq, Repr

/-- R137. -/
def DeviceRec.reset : DeviceRec := ⟨.unknown, 0, 0, 0, false⟩

/-- An entry of the pass-through queue (R132). -/
structure PassEntry where
  chain   : ChainNo
  device  : Nat
  bytes   : List Byte
  seq     : Byte
  started : Bool
  deriving DecidableEq, Repr

/-- The chain controller. Devices are keyed by chain × 24 + device, channels by (chain × 24 + device) × 16 + channel.
`struck` are the zones whose latch was set since the last first active line, cleared again or not (R103): DEDUCED
(notes/assumptions/23.md). `latchLines` are the LATCH_LINE values read at the last first active line (R121). -/
structure Chc where
  chains     : Vector ChainRec 8
  devices    : Sparse DeviceRec
  openCount  : Sparse Nat
  shortCount : Sparse Nat
  latches    : Sparse FaultLatch
  struck     : Sparse Bool
  passQueue  : List PassEntry
  latchLines : Vector Nat 8
  deriving DecidableEq, Repr

/-- R137; the LATCH_LINE values are the table's defaults until the first first active line reads them. DESIGN CHOICE
(notes/assumptions/17.md). -/
def Chc.reset : Chc :=
  ⟨Vector.replicate 8 .reset, [], [], [], [], [], [], Vector.ofFn (fun k => k.val * 270)⟩

/-! ## Sense unit -/

/-- The converter: idle, or converting an input since a time, in a scan or by hand. -/
inductive Converter where
  | idle
  | scanning (input since : Nat)
  | manual (input since : Nat)
  deriving DecidableEq, Repr

/-- The sense unit. -/
structure Sns where
  results     : Vector Nat 9
  converter   : Converter
  thermal     : Vector Thermal 8
  sensorFault : Vector Bool 8
  overTemp    : Vector Bool 8
  foldback    : Bool
  foldCount   : Nat
  deriving DecidableEq, Repr

/-- R149. -/
def Sns.reset : Sns :=
  ⟨Vector.replicate 9 0, .idle, Vector.replicate 8 .normal, Vector.replicate 8 false, Vector.replicate 8 false,
    false, 0⟩

/-! ## Mode controller and table store -/

/-- The mode controller. -/
structure Mdc where
  mode    : Mode
  request : Option Mode
  reason  : Reason
  deriving DecidableEq, Repr

/-- R161. -/
def Mdc.reset : Mdc := ⟨.standby, none, .none⟩

/-- The table store's commit state, and the strap value sampled at the last power-on or RESETN (R57, R178). The banks
stand in `State.mem`. Mark and outcome bit `t` belong to table `t`. -/
structure Tbs where
  marks   : BitVec 4
  outcome : BitVec 4
  straps  : BitVec 3
  deriving DecidableEq, Repr

/-- R57. -/
def Tbs.reset (straps : BitVec 3) : Tbs := ⟨0, 0, straps⟩

/-! ## Report unit -/

/-- The twelve cumulative counters (R169). -/
structure Counters where
  packetCrcErrors : Nat
  packetsDropped  : Nat
  characterErrors : Nat
  lineSlips       : Nat
  solvesLate      : Nat
  burstsLate      : Nat
  readbackMisses  : Nat
  reportsLost     : Nat
  senseOverruns   : Nat
  corrected       : Nat
  uncorrectable   : Nat
  clippedPixels   : Nat
  deriving DecidableEq, Repr

def Counters.zero : Counters := ⟨0, 0, 0, 0, 0, 0, 0, 0, 0, 0, 0, 0⟩

/-- The fourteen watched items (R171). -/
structure Watched where
  input      : InputState
  mode       : Mode
  thermal    : Vector Thermal 8
  foldback   : Bool
  faults     : Nat
  noResponse : Nat
  logEntries : Nat
  deriving DecidableEq, Repr

/-- R173. -/
def Watched.reset : Watched := ⟨.noSignal, .standby, Vector.replicate 8 .normal, false, 0, 0, 0⟩

/-- A frame report (R163), its three counts as plain numbers. Flag bit `n - 1` belongs to event `n`. -/
structure FrameReport where
  tag          : Byte
  frame        : Dword
  stamp        : Dword
  mode         : Mode
  input        : InputState
  transition   : Bool
  committed    : BitVec 4
  reason       : Reason
  flags        : BitVec 17
  attention    : Bool
  k            : Nat
  demand       : Nat
  maxL4        : Nat
  globalMean   : Nat
  solveStatus  : SolveOutcome
  burstLate    : BitVec 8
  thermal      : Vector Thermal 8
  foldback     : Bool
  charErrors   : Nat
  clips        : Nat
  packetErrors : Nat
  deriving DecidableEq, Repr

/-- The report unit. `notifyMask` is the NOTIFY_MASK in use since the last frame turn (R174). -/
structure Rpu where
  flags        : BitVec 17
  charErrors   : Nat
  packetErrors : Nat
  clips        : Nat
  burstLate    : BitVec 8
  slot         : Option FrameReport
  counters     : Counters
  snapshot     : Watched
  notifyMask   : BitVec 17
  deriving DecidableEq, Repr

/-- R175; NOTIFY_MASK's default is 0, and stands until the first frame turn reads it. DEDUCED
(notes/assumptions/17.md). -/
def Rpu.reset : Rpu := ⟨0, 0, 0, 0, 0, none, .zero, .reset, 0⟩

/-! ## Command unit -/

/-- A side packet for the part, past its checks (R25). -/
structure Packet where
  tag     : Byte
  seq     : Byte
  code    : Byte
  payload : List Word
  deriving DecidableEq, Repr

/-- The command in flight and the reply entries it has reserved (R26, R29). -/
structure InFlight where
  packet   : Packet
  reserved : Nat
  deriving DecidableEq, Repr

/-- A reply (R33). -/
structure Reply where
  tag    : Byte
  seq    : Byte
  code   : Byte
  result : Result
  reason : Reason
  final  : Bool
  data   : List Word
  deriving DecidableEq, Repr

/-- The unit that delivers an owed reply (R30). -/
inductive OwingUnit where
  | sense | chains
  deriving DecidableEq, Repr

/-- An owed reply (R30). -/
structure Owed where
  seq   : Byte
  code  : Byte
  owner : OwingUnit
  deriving DecidableEq, Repr

/-- A packet on the return lane (R32). -/
inductive LanePacket where
  | reply (r : Reply)
  | report (r : FrameReport)
  deriving DecidableEq, Repr

/-- The command unit. The lane is IDLE when `lane` is none. A reply entry is filled (`filled`), or reserved for an
owed reply (`owed`) or for the command in flight. -/
structure Cmd where
  queue    : List Packet
  inFlight : Option InFlight
  filled   : List Reply
  owed     : List Owed
  lane     : Option LanePacket
  deriving DecidableEq, Repr

/-- R38. -/
def Cmd.reset : Cmd := ⟨[], none, [], [], none⟩

/-! ## Integrity monitor -/

/-- An error-log entry (R179). -/
structure LogEntry where
  memory : Nat
  index  : Nat
  kind   : ErrorKind
  frame  : Dword
  deriving DecidableEq, Repr

/-- The integrity monitor. `marks` are the injection marks by key. `upsets` says which stored words disagree with
their check bits, by one bit (a corrected error waits there) or by two (an uncorrectable one): a word's check bits
are held as this verdict, since the reference gives no code (R176). DESIGN CHOICE (notes/assumptions/8.md). -/
structure Imn where
  log      : List LogEntry
  overflow : Bool
  lost     : Nat
  marks    : Sparse (Option ErrorKind)
  upsets   : Sparse (Option ErrorKind)
  deriving DecidableEq, Repr

/-- R182. -/
def Imn.reset : Imn := ⟨[], false, 0, [], []⟩

/-! ## The part -/

/-- The state of the part. `pending` is the queue of commands that wait, first in, first out. `draws` is the model's own
count of the free values taken (`Config.pixelsSent`), 0 in `State.reset`: DESIGN CHOICE (notes/assumptions/24.md). -/
structure State where
  pending : List Instr
  draws   : Nat
  clock   : Clock
  mem     : Memory
  lrx     : Lrx
  ftu     : Ftu
  cmd     : Cmd
  tbs     : Tbs
  stu     : Stu
  lvs     : Lvs
  pxc     : Pxc
  chc     : Chc
  sns     : Sns
  mdc     : Mdc
  rpu     : Rpu
  imn     : Imn
  deriving DecidableEq, Repr

/-- Why the part stops with a fault: no rule of the reference stops it, so there is no such reason
(notes/assumptions/4.md). -/
inductive Fault where
  deriving DecidableEq, Repr

/-- Why a command has no meaning here. -/
inductive Refusal where
  /-- Raised by `exec` for a command that has no meaning yet, by its mnemonic; no arm does so. Safe: the run stops. -/
  | notModelled (mnemonic : String)
  deriving DecidableEq, Repr

/-- Every unit at its power-on values, with the strap value sampled (R21, R38, R57, R71, R98, R115, R137, R149, R161,
R175, R182). The part's internal microsecond time starts again at 0 too: DESIGN CHOICE (notes/assumptions/34.md). -/
def State.powerOn (straps : BitVec 3) : State :=
  { pending := []
    draws := 0
    clock := ⟨0, 0⟩
    mem := Memory.powerOn straps
    lrx := .reset
    ftu := .reset 0
    cmd := .reset
    tbs := .reset straps
    stu := .reset
    lvs := .reset
    pxc := .reset
    chc := .reset
    sns := .reset
    mdc := .reset
    rpu := .reset
    imn := .reset }

/-- The machine right after power-on. The reference fixes no strap value: the model takes 0, "all three straps tied
low". DESIGN CHOICE (notes/assumptions/1.md). -/
def State.reset : State := State.powerOn 0

end Sys2Proof.Machine
end

