-- ==== Sys2Proof/Machine/Flags.lean ====
section
/-! DEFINITION. The report unit's flags and counts: raising an event, the cumulative and interval counters, the
compact count code, the watched items, attention and the ATTN line. -/

namespace Sys2Proof.Machine

/-- The number of an event, 1 to 17 (table of "Event flags"). -/
def Event.number : Event → Nat
  | .packetCrcError => 1 | .packetDropped => 2 | .commitDone => 3 | .commitFailed => 4 | .modeChanged => 5
  | .solveLate => 6 | .burstLate => 7 | .sceneCut => 8 | .inputStateChanged => 9 | .lineSlip => 10
  | .gridMisfit => 11 | .zoneFaultNew => 12 | .deviceNoResponse => 13 | .enumDone => 14 | .senseOverrun => 15
  | .memoryError => 16 | .reportLost => 17

/-- The flag of an event: bit `n - 1` for event `n` (R184). -/
def Event.bit (e : Event) : BitVec 17 := 1#17 <<< (e.number - 1)

/-- Raise an event: set its pending flag (R167). -/
def State.raise (s : State) (e : Event) : State := { s with rpu := { s.rpu with flags := s.rpu.flags ||| e.bit } }

/-- A 32-bit count that saturates (R164, R169). -/
def satAdd (a b : Nat) : Nat := min Config.count32Max (a + b)

/-- The names of the twelve cumulative counters, in the order of R169's table. -/
inductive Counter where
  | packetCrcErrors | packetsDropped | characterErrors | lineSlips | solvesLate | burstsLate | readbackMisses
  | reportsLost | senseOverruns | corrected | uncorrectable | clippedPixels
  deriving DecidableEq, Repr

/-- Add to one cumulative counter (R169). -/
def Counters.add (c : Counters) (n : Nat) : Counter → Counters
  | .packetCrcErrors => { c with packetCrcErrors := satAdd c.packetCrcErrors n }
  | .packetsDropped => { c with packetsDropped := satAdd c.packetsDropped n }
  | .characterErrors => { c with characterErrors := satAdd c.characterErrors n }
  | .lineSlips => { c with lineSlips := satAdd c.lineSlips n }
  | .solvesLate => { c with solvesLate := satAdd c.solvesLate n }
  | .burstsLate => { c with burstsLate := satAdd c.burstsLate n }
  | .readbackMisses => { c with readbackMisses := satAdd c.readbackMisses n }
  | .reportsLost => { c with reportsLost := satAdd c.reportsLost n }
  | .senseOverruns => { c with senseOverruns := satAdd c.senseOverruns n }
  | .corrected => { c with corrected := satAdd c.corrected n }
  | .uncorrectable => { c with uncorrectable := satAdd c.uncorrectable n }
  | .clippedPixels => { c with clippedPixels := satAdd c.clippedPixels n }

/-- The twelve counters in the order of R169's table. -/
def Counters.list (c : Counters) : List Nat :=
  [c.packetCrcErrors, c.packetsDropped, c.characterErrors, c.lineSlips, c.solvesLate, c.burstsLate,
   c.readbackMisses, c.reportsLost, c.senseOverruns, c.corrected, c.uncorrectable, c.clippedPixels]

/-- Count `n` in a cumulative counter. -/
def State.count (s : State) (c : Counter) (n : Nat) : State :=
  { s with rpu := { s.rpu with counters := s.rpu.counters.add n c } }

/-- A character error or line-length error at the report unit: the interval count and the cumulative counter (R5). -/
def State.countCharError (s : State) : State :=
  ({ s with rpu := { s.rpu with charErrors := satAdd s.rpu.charErrors 1 } }).count .characterErrors 1

/-- A packet error at the report unit: the event, its cumulative counter and the interval count (R24, R25). -/
def State.countPacketError (s : State) (e : Event) (c : Counter) : State :=
  let s := (s.raise e).count c 1
  { s with rpu := { s.rpu with packetErrors := satAdd s.rpu.packetErrors 1 } }

/-- The compact count code of R168: 32 × e + m. -/
def compactCode (c : Nat) : Nat :=
  if c < 32 then c
  else match [1, 2, 3, 4, 5, 6, 7].find? (fun e => decide (c / 4 ^ e < 32)) with
    | some e => 32 * e + c / 4 ^ e
    | none => 255

/-- The number of set fault latches, of NO_RESPONSE devices (R171). -/
def Chc.setLatches (c : Chc) : Nat := c.latches.countP (fun e => decide (e.2 ≠ .clear))
def Chc.silentDevices (c : Chc) : Nat := c.devices.countP (fun e => decide (e.2.state = .noResponse))

/-- The watched items as they stand (R171). -/
def State.watched (s : State) : Watched :=
  { input := s.lrx.input
    mode := s.mdc.mode
    thermal := s.sns.thermal
    foldback := s.sns.foldback
    faults := s.chc.setLatches
    noResponse := s.chc.silentDevices
    logEntries := s.imn.log.length }

/-- Attention: at least one watched item differs from its copy in the snapshot (R171). Computed, not
stored: DEDUCED (notes/assumptions/11.md). -/
def State.attention (s : State) : Bool := decide (s.watched ≠ s.rpu.snapshot)

/-- A report in the slot that carries REPORT_LOST (R174). -/
def Rpu.lostInSlot (r : Rpu) : Bool :=
  match r.slot with
  | some f => f.flags.getLsbD (Event.reportLost.number - 1)
  | none => false

/-- The ATTN line (R174). -/
def State.attnLine (s : State) : Bool :=
  s.attention || decide (s.rpu.flags &&& s.rpu.notifyMask ≠ 0) ||
    (s.rpu.lostInSlot && s.rpu.notifyMask.getLsbD (Event.reportLost.number - 1))

end Sys2Proof.Machine
end

