-- ==== Sys2Proof/Machine/Operands.lean ====
section
/-! DEFINITION. The wire formats: the two CRCs, side packets, replies, frame reports, chain messages and the answers
of the devices (`12_wire_formats.md`). -/

namespace Sys2Proof.Machine

/-! ## The two CRCs (R185) -/

/-- One shift of the CRC-16 register. -/
def crc16Shift (r : Word) : Word := if r.msb then (r <<< 1) ^^^ 0x1021 else r <<< 1

/-- One byte into the CRC-16 register. -/
def crc16Byte (r : Word) (b : Byte) : Word :=
  crc16Shift^[8] (r ^^^ (b.zeroExtend 16 <<< 8))

/-- The CRC-16 of a run of bytes. -/
def crc16 (bytes : List Byte) : Word := bytes.foldl crc16Byte 0xFFFF

/-- One shift of the CRC-8 register. -/
def crc8Shift (r : Byte) : Byte := if r.msb then (r <<< 1) ^^^ 0x07 else r <<< 1

/-- One byte into the CRC-8 register. -/
def crc8Byte (r b : Byte) : Byte := crc8Shift^[8] (r ^^^ b)

/-- The CRC-8 of a run of bytes. -/
def crc8 (bytes : List Byte) : Byte := bytes.foldl crc8Byte 0

/-! ## Bytes and words: most significant byte first -/

def byteOf (n : Nat) : Byte := BitVec.ofNat 8 n
def wordOfNat (n : Nat) : Word := BitVec.ofNat 16 n
def dwordOfNat (n : Nat) : Dword := BitVec.ofNat 32 n

/-- A word from its high and its low byte. -/
def joinBytes (hi lo : Byte) : Word := hi ++ lo

/-- A 32-bit value from its high and its low word. -/
def joinWords (hi lo : Word) : Dword := hi ++ lo

/-- The two bytes of a word. -/
def wordBytes (w : Word) : List Byte := [w.extractLsb' 8 8, w.extractLsb' 0 8]

/-- The four bytes of a 32-bit value. -/
def dwordBytes (d : Dword) : List Byte :=
  [d.extractLsb' 24 8, d.extractLsb' 16 8, d.extractLsb' 8 8, d.extractLsb' 0 8]

/-- The two words of a 32-bit value, high word first. -/
def dwordWords (d : Dword) : List Word := [d.extractLsb' 16 16, d.extractLsb' 0 16]

/-- The two words of a count, high word first. -/
def natWords (n : Nat) : List Word := dwordWords (dwordOfNat n)

/-- The words of a run of bytes, two to a word, the earlier byte in the high half; a missing last byte is 0. -/
def packWords : List Byte → List Word
  | a :: b :: rest => joinBytes a b :: packWords rest
  | [a] => [joinBytes a 0]
  | [] => []

/-- The bytes of a run of words. -/
def unpackWords (ws : List Word) : List Byte := ws.flatMap wordBytes

/-! ## Side packets (R22, R24, R183) -/

/-- The number of bytes a side packet declares: 4, its payload, and its CRC; none if its length field has not
arrived. -/
def declaredLength (bytes : List Byte) : Option Nat := bytes[3]?.map (fun n => 4 + 2 * n.toNat + 2)

/-- The packet passes R22 and R24: not errored, a length field of at most 120, a good CRC-16. -/
def packetPasses (errored : Bool) (bytes : List Byte) : Bool :=
  !errored && decide ((bytes.getD 3 0).toNat ≤ 120) &&
    decide (crc16 (bytes.take (bytes.length - 2)) =
      joinBytes (bytes.getD (bytes.length - 2) 0) (bytes.getD (bytes.length - 1) 0))

/-- The fields of a side packet. -/
def parsePacket (bytes : List Byte) : Packet :=
  { tag := bytes.getD 0 0
    seq := bytes.getD 1 0
    code := bytes.getD 2 0
    payload := packWords ((bytes.drop 4).take (2 * (bytes.getD 3 0).toNat)) }

/-- The side packet of a command, CRC and all: what the source sends. -/
def packetBytes (p : Packet) : List Byte :=
  let body := p.tag :: p.seq :: p.code :: byteOf p.payload.length :: unpackWords p.payload
  body ++ wordBytes (crc16 body)

/-- Payload word `i` as a number. -/
def Packet.arg (p : Packet) (i : Nat) : Nat := (p.payload.getD i 0).toNat

/-- A packet with the broadcast tag (R31). -/
def Packet.broadcast (p : Packet) : Bool := p.tag == Config.broadcastTag

/-! ## Replies and frame reports (R33, R163, R183) -/

/-- The result codes. -/
def Result.code : Result → Nat
  | .ok => 0 | .clamped => 1 | .badCommand => 2 | .badLength => 3 | .badTable => 4 | .range => 5
  | .notInMode => 6 | .busy => 7 | .configInvalid => 8 | .timeout => 9 | .aborted => 10 | .readOnly => 11

/-- The reason codes. -/
def Reason.code : Reason → Nat
  | .none => 0 | .duplicateChannel => 1 | .noZones => 2 | .chainUnknown => 3

def Mode.code : Mode → Nat
  | .standby => 0 | .bypass => 1 | .dimming => 2 | .safe => 3

def InputState.code : InputState → Nat
  | .noSignal => 0 | .acquiring => 1 | .locked => 2

def Thermal.code : Thermal → Nat
  | .normal => 0 | .warm => 1 | .hot => 2

def SolveOutcome.code : SolveOutcome → Nat
  | .none => 0 | .onTime => 1 | .late => 2

/-- The mode a SET_MODE value names. -/
def Mode.ofNat? : Nat → Option Mode
  | 0 => some .standby
  | 1 => some .bypass
  | 2 => some .dimming
  | 3 => some .safe
  | _ => none

/-- The eight chain numbers, in order. -/
def allChains : List ChainNo := [0, 1, 2, 3, 4, 5, 6, 7]

/-- The thermal states in one word: chain k in bits 2k+1 to 2k. -/
def thermalWord (t : Vector Thermal 8) : Nat :=
  allChains.foldl (fun w k => w + t[k].code * 4 ^ k.val) 0

/-- A flag as a number. -/
def flag (b : Bool) : Nat := if b then 1 else 0

/-- The bytes of a reply, 9 to 249 of them. -/
def Reply.bytes (r : Reply) : List Byte :=
  let body := r.tag :: r.seq :: r.code :: byteOf r.result.code :: byteOf r.reason.code :: byteOf (flag r.final) ::
    byteOf r.data.length :: unpackWords r.data
  body ++ wordBytes (crc16 body)

/-- The 34 bytes of a frame report; its counts are coded here, as its transmission begins. -/
def FrameReport.bytes (r : FrameReport) : List Byte :=
  let body := [r.tag] ++ dwordBytes r.frame ++ dwordBytes r.stamp ++
    [byteOf (r.mode.code + 4 * r.input.code + 16 * flag r.transition + 32 * flag r.attention + 64 * flag r.foldback),
     r.committed.zeroExtend 8, byteOf r.reason.code,
     byteOf (r.flags.toNat / 65536), byteOf (r.flags.toNat / 256), byteOf r.flags.toNat] ++
    wordBytes (wordOfNat r.k) ++ dwordBytes (dwordOfNat r.demand) ++ wordBytes (wordOfNat r.maxL4) ++
    wordBytes (wordOfNat r.globalMean) ++ [byteOf r.solveStatus.code, r.burstLate] ++
    wordBytes (wordOfNat (thermalWord r.thermal)) ++
    [byteOf (compactCode r.charErrors), byteOf (compactCode r.clips), byteOf (compactCode r.packetErrors)]
  body ++ wordBytes (crc16 body)

/-- The start symbol and the bytes of a packet on the return lane: true for a report start. -/
def LanePacket.wire : LanePacket → Bool × List Byte
  | .reply r => (false, r.bytes)
  | .report r => (true, r.bytes)

/-! ## Chain messages (R116, "Chain messages" of Wire Formats) -/

/-- A message with its CRC-8. -/
def withCrc8 (body : List Byte) : List Byte := body ++ [crc8 body]

/-- The sync byte of every answer. -/
def syncByte : Byte := 0x3C

/-- An update burst or dark burst for `d` devices with the given duties. -/
def burstMessage (d : Nat) (duty : Nat → Nat → Nat) : List Byte :=
  withCrc8 (0xA1 :: byteOf d :: (List.range d).flatMap (fun dev =>
    (List.range Config.channelsPerDevice).flatMap (fun ch => wordBytes (wordOfNat (duty dev ch)))))

def latchMessage : List Byte := withCrc8 [0xA2]
def releaseMessage : List Byte := withCrc8 [0xA3]
def assignmentMessage (n : Nat) : List Byte := withCrc8 [0xA4, byteOf n]
def passMessage (e : PassEntry) : List Byte :=
  withCrc8 (0xA5 :: byteOf e.device :: byteOf e.bytes.length :: e.bytes)

/-- The bytes end with the CRC-8 of the bytes before it. -/
def goodCrc8 (bytes : List Byte) : Bool :=
  decide (0 < bytes.length) && decide (crc8 (bytes.take (bytes.length - 1)) = bytes.getD (bytes.length - 1) 0)

/-- A good status (R123). -/
structure Status where
  opens    : Word
  shorts   : Word
  overTemp : Bool
  deriving DecidableEq, Repr

/-- Check the slot of device `i` (R123): 8 bytes, sync, address echo, open mask, short mask, flags, CRC-8. -/
def readStatusSlot (i : Nat) (bytes : List Byte) : Option Status :=
  if bytes.length = 8 ∧ bytes.getD 0 0 = syncByte ∧ bytes.getD 1 0 = byteOf i ∧ goodCrc8 bytes then
    some ⟨joinBytes (bytes.getD 2 0) (bytes.getD 3 0), joinBytes (bytes.getD 4 0) (bytes.getD 5 0),
      (bytes.getD 6 0).getLsbD 0⟩
  else none

/-- A good acknowledgement echoing `n` (R130). -/
def goodAck (n : Nat) (bytes : List Byte) : Bool :=
  decide (bytes.length = 3) && decide (bytes.getD 0 0 = syncByte) && decide (bytes.getD 1 0 = byteOf n) &&
    goodCrc8 bytes

/-- The answer bytes of a good pass-through answer from device `d` (R134). -/
def passAnswerBytes (d : Nat) (bytes : List Byte) : Option (List Byte) :=
  let n := (bytes.getD 2 0).toNat
  if n ≤ 8 ∧ bytes.length = 4 + n ∧ bytes.getD 0 0 = syncByte ∧ bytes.getD 1 0 = byteOf d ∧ goodCrc8 bytes then
    some ((bytes.drop 3).take n)
  else none

/-- The data of an OK outcome: the byte count, then four words of bytes, unused bytes 0 ("Pass-through bytes"). -/
def passOutcomeData (answer : List Byte) : List Word :=
  wordOfNat answer.length :: packWords ((answer ++ List.replicate 8 0).take 8)

end Sys2Proof.Machine
end

