-- ==== Sys2Proof/Machine/Ops.lean ====
section
/-! DEFINITION. The operations every unit shares: the passing of time, the reads and writes of protected words
through the integrity monitor, the automatic entry to SAFE, and the reply queue with its return lane. The block has
no exception entry: raising an event (`State.raise`, `Machine/Flags.lean`) is its counterpart. -/

namespace Sys2Proof.Machine

/-! ## Time (R11, R18) -/

/-- `dt` microseconds pass: the internal time and the frame clock count them. -/
def State.advance (s : State) (dt : Nat) : State :=
  { s with clock := ⟨s.clock.now + dt, s.clock.frame + BitVec.ofNat 32 dt⟩ }

/-- Time passes until `t`, if `t` has not come yet: an event of the part's own timing is taken when it is due, or
later. DESIGN CHOICE (notes/assumptions/2.md). -/
def State.advanceTo (s : State) (t : Nat) : State := s.advance (t - s.clock.now)

/-! ## Records of a unit -/

/-- Replace the record of one chain. -/
def State.setChain (s : State) (k : ChainNo) (c : ChainRec) : State :=
  { s with chc := { s.chc with chains := s.chc.chains.set k c } }

/-! ## The integrity monitor (R176 to R179) -/

/-- What the next read of a protected word meets: its injection mark, or else the verdict of its check bits. -/
def State.verdict (s : State) (a : Nat) : Option ErrorKind :=
  match sparseGet (fun _ => none) s.imn.marks a with
  | some k => some k
  | none => sparseGet (fun _ => none) s.imn.upsets a

/-- Write a protected word: the value with fresh check bits; an injection mark stays (R176, R181). -/
def State.writeWord (s : State) (a : Nat) (v : Word) : State :=
  { s with
    mem := s.mem.store a v
    imn := { s.imn with upsets := sparsePut (fun _ => none) s.imn.upsets a none } }

/-- Record an error: a log entry, or OVERFLOW and the lost count when the log is full (R179). -/
def State.logError (s : State) (a : Nat) (k : ErrorKind) : State :=
  if s.imn.log.length < Config.logEntries then
    { s with imn := { s.imn with log := s.imn.log ++ [⟨keyMemory a, keyIndex a, k, s.ftu.frameNumber⟩] } }
  else
    { s with imn := { s.imn with overflow := true, lost := min 65535 (s.imn.lost + 1) } }

/-- The words written back for an uncorrectable error at a key, with their substitutes (R178). -/
def substitutes (straps : BitVec 3) (a : Nat) : List (Nat × Word) :=
  let m := keyMemory a
  let i := keyIndex a
  match m / 2 with
  | 0 =>
    let v := Config.defaultSetting straps (i / 2)
    [(wordKey m (2 * (i / 2)), wordOf v 0), (wordKey m (2 * (i / 2) + 1), wordOf v 1)]
  | 1 => [(wordKey m (2 * (i / 2)), 0), (wordKey m (2 * (i / 2) + 1), 0x0180)]
  | 2 => [(a, BitVec.ofNat 16 (min 4095 (i * 128)))]
  | _ => [(a, 0)]

/-- The mode controller's automatic entry to SAFE (R158). -/
def State.autoSafe (s : State) : State :=
  let s := { s with mdc := { s.mdc with request := none } }
  if s.mdc.mode = .safe then s
  else ({ s with mdc := { s.mdc with mode := .safe } }).raise .modeChanged

/-- The memory of a key is an active bank of a loaded table. -/
def isActiveKey (a : Nat) : Bool := decide (keyMemory a < 8) && decide (keyMemory a % 2 = 1)

/-- What a read does beyond handing over the word: nothing to a clean word; R177 for a corrected error; R178 for an
uncorrectable one. The mark clears and the write-back leaves the word clean (R181). The word handed to the reader is
the word that then stands in memory. -/
def State.readWord (s : State) (a : Nat) : State :=
  let unmark (s : State) : State :=
    { s with imn := { s.imn with marks := sparsePut (fun _ => none) s.imn.marks a none } }
  match s.verdict a with
  | none => s
  | some .corrected =>
    (((unmark s).writeWord a (s.mem.word a)).count .corrected 1).logError a .corrected
  | some .uncorrectable =>
    let s := (substitutes s.tbs.straps a).foldl (fun s e => s.writeWord e.1 e.2) (unmark s)
    let s := ((s.count .uncorrectable 1).raise .memoryError).logError a .uncorrectable
    if isActiveKey a then s.autoSafe
    else if keyMemory a = 8 then
      { s with lvs := { s.lvs with reseed := sparsePut (fun _ => false) s.lvs.reseed (keyIndex a / 8) true } }
    else s

/-- One event reads the words `lo` to `lo + n - 1` in ascending order. Only a word with an error waiting is changed by
its read, so the errors are handled in the order of their words (R176). -/
def State.readRange (s : State) (lo n : Nat) : State :=
  ((List.range n).filter (fun i => (s.verdict (lo + i)).isSome)).foldl (fun s i => s.readWord (lo + i)) s

/-- A unit reads the active SETTINGS entry `i`; its value is then `s.mem.active i`. Which reads pass here, and in what
order: DEDUCED (notes/assumptions/9.md). -/
def State.readSetting (s : State) (i : Nat) : State := s.readRange (wordKey 1 (2 * i)) 2

/-- A unit reads several active SETTINGS entries, in the order given. -/
def State.readSettings (s : State) (is : List Nat) : State := is.foldl State.readSetting s

/-! ## The reply queue and the return lane (R26, R29, R30, R32, R33) -/

/-- The free entries of the reply queue: 8 minus the filled and reserved ones (R29). -/
def Cmd.free (c : Cmd) : Nat :=
  Config.replyEntries - (c.filled.length + c.owed.length + (c.inFlight.map InFlight.reserved).getD 0)

/-- How many reply entries a packet reserves when it is taken (R26, R29, R31). -/
def Packet.reserves (p : Packet) : Nat :=
  if p.broadcast then 0 else if p.code = Config.codeDriverPass then 2 else 1

/-- The arbiter of the return lane (R32): when the lane is IDLE, the report in the slot goes first, else the oldest
filled reply; the packet leaves its place as its transmission begins. -/
def State.sendNext (s : State) : State :=
  match s.cmd.lane with
  | some _ => s
  | none =>
    match s.rpu.slot with
    | some r => { s with cmd := { s.cmd with lane := some (.report r) }, rpu := { s.rpu with slot := none } }
    | none =>
      match s.cmd.filled with
      | r :: rest => { s with cmd := { s.cmd with lane := some (.reply r), filled := rest } }
      | [] => s

/-- The CMD takes the oldest packet when no command is in flight and the reply queue has room for it (R26). -/
def State.takeNext (s : State) : State :=
  match s.cmd.inFlight, s.cmd.queue with
  | none, p :: rest =>
    if p.reserves ≤ s.cmd.free then
      { s with cmd := { s.cmd with queue := rest, inFlight := some ⟨p, p.reserves⟩ } }
    else s
  | _, _ => s

/-- The lane chooses, and then the CMD checks its conditions again. -/
def State.pump (s : State) : State := s.sendNext.takeNext

/-- The active DEVICE_TAG. -/
def State.tag (s : State) : Byte := byteOf (s.mem.active Config.deviceTag)

/-- Build a reply and put it at the end of the filled list; its source tag is the active DEVICE_TAG now (R33). -/
def State.fill (s : State) (seq code : Byte) (result : Result) (reason : Reason) (final : Bool) (data : List Word) :
    State :=
  let s := s.readSetting Config.deviceTag
  { s with cmd := { s.cmd with filled := s.cmd.filled ++ [⟨s.tag, seq, code, result, reason, final, data⟩] } }

/-- Remove the `n`-th owed reply of a unit from the owed list. -/
def removeOwed (owner : OwingUnit) : Nat → List Owed → List Owed
  | _, [] => []
  | n, o :: rest =>
    if o.owner = owner then
      match n with
      | 0 => rest
      | n + 1 => o :: removeOwed owner n rest
    else o :: removeOwed owner n rest

/-- Deliver the `n`-th owed reply of a unit (R30): it leaves the owed list and its reserved entry is filled. -/
def State.deliver (s : State) (owner : OwingUnit) (n : Nat) (result : Result) (data : List Word) : State :=
  match (s.cmd.owed.filter (fun o => o.owner == owner))[n]? with
  | some o =>
    ({ s with cmd := { s.cmd with owed := removeOwed owner n s.cmd.owed } }).fill o.seq o.code result .none true data
  | none => s

end Sys2Proof.Machine
end

