-- ==== Sys2Proof/Machine/Statistics.lean ====
section
/-! DEFINITION. The statistics unit (`04_zone_statistics.md`): the grid record, the accumulators, statistics
complete. -/

namespace Sys2Proof.Machine

/-- The grid record of a picture of `w` × `h` (R59, R60, R61). -/
def Grid.lay (w h columns rows threshold : Nat) : Grid :=
  { width := w, height := h, columns := columns, rows := rows
    cellW := w / columns, cellH := h / rows
    threshold := threshold
    misfit := decide (w / columns < 16) || decide (h / rows < 16) }

/-- The number of zones of the grid. -/
def Grid.zones (g : Grid) : Nat := g.columns * g.rows

/-- The zone of pixel `x` of active line `y` (R60). -/
def Grid.zoneAt (g : Grid) (x y : Nat) : Nat :=
  min (y / g.cellH) (g.rows - 1) * g.columns + min (x / g.cellW) (g.columns - 1)

/-- A pixel's demand (R64). -/
def pixelDemand (p : Pixel) : Nat := max p.red.toNat (max p.green.toNat p.blue.toNat)

/-- A pixel of demand `d` joins an accumulator (R64). -/
def Accumulator.addPixel (a : Accumulator) (threshold d : Nat) : Accumulator :=
  { peak := max a.peak d, sum := a.sum + d, count := a.count + 1
    bright := if threshold ≤ d then a.bright + 1 else a.bright }

/-- Read an accumulator. -/
def accAt (m : Sparse Accumulator) (z : Nat) : Accumulator := sparseGet (fun _ => .zero) m z

/-- Add the pixels of line `y`, from pixel `x` on, to the accumulators of their cells (R64). -/
def Grid.addPixels (g : Grid) (y : Nat) : Nat → List Pixel → Sparse Accumulator → Sparse Accumulator
  | _, [], m => m
  | x, p :: rest, m =>
    let z := g.zoneAt x y
    g.addPixels y (x + 1) rest (sparsePut (fun _ => .zero) m z ((accAt m z).addPixel g.threshold (pixelDemand p)))

/-- The frame turn of the output frame that follows the input frame in progress has been taken (R63). -/
def Ftu.turnTaken (f : Ftu) : Bool := !f.turnWaiting && !f.delay.contains .start

/-- Add the lines that wait in the line buffer, once their frame's frame turn has been taken (R63). -/
def State.addWaitingLines (s : State) : State :=
  match s.ftu.turnTaken, s.stu.grid with
  | true, some g =>
    { s with stu := { s.stu with
        accumulators := s.stu.lineBuffer.foldl (fun m l => g.addPixels l.1 0 l.2 m) s.stu.accumulators
        lineBuffer := [] } }
  | _, _ => s

/-- A taken line (R62) comes to the line buffer and is added at once if the frame turn has been taken (R63). -/
def State.addLine (s : State) (y : Nat) (pixels : List Pixel) : State :=
  ({ s with stu := { s.stu with lineBuffer := s.stu.lineBuffer ++ [(y, pixels)] } }).addWaitingLines

/-- Lay the grid at a frame turn, from the locked geometry and the active SETTINGS (R59), and add a waiting line. -/
def State.layGrid (s : State) : State :=
  let s := s.readSettings [Config.gridColumns, Config.gridRows, Config.brightThreshold]
  let geo := s.lrx.locked.getD ⟨Config.defaultWidth, Config.defaultHeight⟩
  ({ s with stu := { s.stu with
      grid := some (Grid.lay geo.width geo.height (s.mem.active Config.gridColumns) (s.mem.active Config.gridRows)
        (s.mem.active Config.brightThreshold)) } }).addWaitingLines

/-- The accumulators are cleared at each output frame start (R65). -/
def State.clearAccumulators (s : State) : State := { s with stu := { s.stu with accumulators := [] } }

/-- The figures of one zone; all 0 for a zone with no taken pixel (R67). -/
def Accumulator.figures (a : Accumulator) : ZoneStat :=
  if a.count = 0 then .zero
  else { peak := a.peak, mean := a.sum / a.count, bright := a.bright, count := a.count }

/-- Read the statistics of a zone. -/
def statAt (m : Sparse ZoneStat) (z : Nat) : ZoneStat := sparseGet (fun _ => .zero) m z

/-- Statistics complete (R66 to R69): the figures of every grid zone, zeros beyond the grid, the global mean, and
GRID_MISFIT on a misfitting grid. -/
def State.completeStatistics (s : State) : State :=
  match s.stu.grid with
  | none => s
  | some g =>
    let stats := sparseTabulate (fun _ => .zero) 0 g.zones (fun z => (accAt s.stu.accumulators z).figures)
    let mean := ((List.range g.zones).map (fun z => (statAt stats z).mean)).sum / g.zones
    let s := { s with stu := { s.stu with stats := stats, globalMean := mean } }
    if g.misfit then s.raise .gridMisfit else s

end Sys2Proof.Machine
end

