-- ==== Sys2Proof/Machine/Solver.lean ====
section
/-! DEFINITION. The level solver (`05_the_level_solver.md`): the arithmetic of its stages, the start of a solve with
its captured copy, its completion, its abandonment. -/

namespace Sys2Proof.Machine

/-! ## The stages for one zone -/

/-- Stage 1: the clamped peak (R82). -/
def speckleClamp (threshold limit peak mean bright : Nat) : Nat :=
  if threshold ≤ peak ∧ bright < limit then max mean (threshold - 1) else peak

/-- Stage 2: the blended statistic (R83). -/
def blend (weight peak mean : Nat) : Nat := (weight * peak + (256 - weight) * mean + 128) / 256

/-- Stage 3: the target, by interpolation between neighbouring points (R84). -/
def tone (point : Nat → Nat) (s : Nat) : Nat :=
  let i := s / 128
  let f := s % 128
  ((point i : Int) + (((point (i + 1) : Int) - point i) * f + 64).fdiv 128).toNat

/-- Stage 4: the filter's step toward `t16` (R85). -/
def filterStep (rise fall f t16 : Nat) : Nat :=
  if f < t16 then f + max 1 ((t16 - f) * rise / 256)
  else if t16 < f then f - max 1 ((f - t16) * fall / 256)
  else f

/-- The filter output (R85). -/
def filterOutput (f : Nat) : Nat := (f + 8) / 16

/-- Stage 5: the halo guard over the neighbours' filter outputs (R89). -/
def haloGuard (step l : Nat) (neighbours : List Nat) : Nat := neighbours.foldl (fun m n => max m (n - step)) l

/-- Stage 7: the derating factor of a thermal state (R92). -/
def deratingFactor (warm hot : Nat) : Thermal → Nat
  | .normal => 256
  | .warm => warm
  | .hot => hot

/-- Stage 8: the effective budget (R93) and the budget scale (R94). -/
def effectiveBudget (budget factor : Nat) (foldback : Bool) : Nat := budget * (if foldback then factor else 256) / 256
def budgetScale (demand budget : Nat) : Nat := if demand ≤ budget then 4096 else budget * 4096 / demand

/-- The duty (R95). -/
def dutyOf (level calibration : Nat) : Nat := min 65535 ((level * calibration + 4) / 8)

/-- The zones at column and row offsets of -1, 0 and +1 around `z` that are inside the grid, without `z` (R89). -/
def neighbours (columns rows z : Nat) : List Nat :=
  let c := z % columns
  let r := z / columns
  [(0, 0), (1, 0), (2, 0), (0, 1), (2, 1), (0, 2), (1, 2), (2, 2)].filterMap (fun (i, j) =>
    if 1 ≤ c + i ∧ c + i - 1 < columns ∧ 1 ≤ r + j ∧ r + j - 1 < rows then
      some ((r + j - 1) * columns + (c + i - 1)) else none)

/-- The target source of a solve (R80); none in STANDBY, where no solve runs. -/
def targetSource (mode : Mode) (trigger : Trigger) (misfit : Bool) : Option TargetSource :=
  match mode, trigger with
  | .standby, _ => none
  | .dimming, .statistics => some (if misfit then .safe else .statistics)
  | .dimming, .freeRun => some .safe
  | .bypass, .statistics => some .bypass
  | .bypass, .freeRun => some .safe
  | .safe, _ => some .safe

/-! ## A solve over its captured copy -/

/-- The captured value of a SETTINGS entry. -/
def Solve.setting (v : Solve) (i : Nat) : Nat := v.tables.active i

/-- The zones of the captured grid: columns × rows of the captured SETTINGS (R75, R81). -/
def Solve.zones (v : Solve) : Nat := v.setting Config.gridColumns * v.setting Config.gridRows

/-- The captured ZONE_MAP entry of a zone. -/
def Solve.entry (v : Solve) (z : Nat) : MapEntry := v.tables.mapEntry 1 z

/-- A zone that the solve processes (R81). -/
def Solve.processes (v : Solve) (z : Nat) : Bool := decide (z < v.zones) && (v.entry z).channel.isSome

/-- The processed zones by rising number. -/
def Solve.processed (v : Solve) : List Nat := (List.range v.zones).filter v.processes

/-- The target of a processed zone (R80, R82 to R84). -/
def Solve.target (v : Solve) (z : Nat) : Nat :=
  match v.source with
  | .safe => v.setting Config.safeLevel
  | .bypass => v.setting Config.bypassLevel
  | .statistics =>
    let st := statAt v.stats z
    let peak := speckleClamp (v.setting Config.brightThreshold) (v.setting Config.speckleLimit) st.peak st.mean
      st.bright
    tone v.tables.tonePoint (blend (v.setting Config.blendWeight) peak st.mean)

/-- The new filtered level of a processed zone (R85 to R88). -/
def Solve.newF (v : Solve) (z : Nat) : Nat :=
  let t16 := 16 * v.target z
  if v.sceneCut || v.lockJump || sparseGet (fun _ => false) v.reseed z then t16
  else filterStep (v.setting Config.riseRate) (v.setting Config.fallRate) (sparseGet (fun _ => 0) v.prevF z) t16

/-- The filter output L of a processed zone. -/
def Solve.output (v : Solve) (z : Nat) : Nat := filterOutput (v.newF z)

/-- L3 of a processed zone: the halo guard over its processed neighbours, then the minimum (R89, R90). Columns and rows
are those of the captured SETTINGS, as in R81, also where they differ from the captured grid record's. DESIGN CHOICE
(notes/assumptions/33.md). -/
def Solve.guarded (v : Solve) (z : Nat) : Nat :=
  max (haloGuard (v.setting Config.haloStep) (v.output z)
      (((neighbours (v.setting Config.gridColumns) (v.setting Config.gridRows) z).filter v.processes).map v.output))
    (v.setting Config.minLevel)

/-- The captured thermal state of a chain. -/
def Solve.thermalOf (v : Solve) (chain : Nat) : Thermal := v.thermal.toList.getD chain .normal

/-- L3′ of a processed zone: 0 under a captured fault latch, else derated by its chain's thermal state (R91, R92). -/
def Solve.derated (v : Solve) (z : Nat) : Nat :=
  if sparseGet (fun _ => .clear) v.latches z ≠ .clear then 0
  else
    let chain := ((v.entry z).channel.map Channel.chain).getD 0
    v.guarded z * deratingFactor (v.setting Config.warmFactor) (v.setting Config.hotFactor) (v.thermalOf chain) / 256

/-- The budget demand D (R93). -/
def Solve.demand (v : Solve) : Nat := (v.processed.map (fun z => v.derated z * (v.entry z).weight)).sum

/-- The effective budget of the solve (R93). -/
def Solve.budget (v : Solve) : Nat :=
  effectiveBudget (v.setting Config.powerBudget) (v.setting Config.foldFactor) v.foldback

/-- The budget scale K (R94). -/
def Solve.scale (v : Solve) : Nat := budgetScale v.demand v.budget

/-- The fault latch of a zone. -/
def Chc.latch (c : Chc) (z : Nat) : FaultLatch := sparseGet (fun _ => .clear) c.latches z

/-- A zone whose latch was clear at capture and has been set since: it is set now, or CLEAR_FAULTS has cleared it while
the solve runs, which does not light the zone in this solve (R91). -/
def Solve.lateFault (v : Solve) (now : Chc) (z : Nat) : Bool :=
  (decide (now.latch z ≠ .clear) || sparseGet (fun _ => false) v.unlit z) &&
    decide (sparseGet (fun _ => .clear) v.latches z = .clear)

/-- L4 of a processed zone at completion, late faults zeroed (R91, R94). -/
def Solve.level (v : Solve) (now : Chc) (scale z : Nat) : Nat :=
  if v.lateFault now z then 0 else v.derated z * scale / 4096

/-- One zone of the level set (R96): a processed zone carries its level, duty and channel. -/
def Solve.zoneLevel (v : Solve) (now : Chc) (scale z : Nat) : ZoneLevel :=
  if v.processes z then
    let l := v.level now scale z
    ⟨l, dutyOf l (v.entry z).calibration, (v.entry z).channel⟩
  else .skipped

/-- The level set of the completed solve (R96). -/
def Solve.levelSet (v : Solve) (now : Chc) : LevelSet :=
  { tag := some v.tag
    zones := sparseTabulate (fun _ => .skipped) 0 v.zones (v.zoneLevel now v.scale) }

/-- One zone of a level set. -/
def LevelSet.zone (l : LevelSet) (z : Nat) : ZoneLevel := sparseGet (fun _ => .skipped) l.zones z

/-- The set references a chain: at least one processed zone of the set maps to it (R96). -/
def LevelSet.references (l : LevelSet) (k : Nat) : Bool :=
  l.zones.any (fun e => match e.2.channel with | some c => decide (c.chain = k) | none => false)

/-! ## ZONE_STATE's solver words -/

/-- Write 0 with fresh check bits at the given places of every ZONE_STATE entry. -/
def State.zeroZoneWords (s : State) (places : List Nat) : State :=
  { s with
    mem := sparseClear (isZoneWord places) s.mem
    imn := { s.imn with upsets := sparseClear (isZoneWord places) s.imn.upsets } }

/-- Write T, F, L4 and duty of a processed zone (R78). -/
def State.writeZone (s : State) (v : Solve) (l : ZoneLevel) (z : Nat) : State :=
  (((s.writeWord (zoneT z) (wordOfNat (v.target z))).writeWord (zoneF z) (wordOfNat (v.newF z))).writeWord
    (zoneL4 z) (wordOfNat l.level)).writeWord (zoneDuty z) (wordOfNat l.duty)

/-! ## Start, completion, abandonment -/

/-- The reads of a solve's capture: the four active tables in order (R74, R176). -/
def State.readTables (s : State) : State :=
  [1, 3, 5, 7].foldl (fun s m => s.readRange (wordKey m 0) (Config.memoryWords m)) s

/-- A scene cut: statistics source, SCENE_CUT_DELTA above 0, Gprev valid and far from G (R86). -/
def sceneCutHolds (source : TargetSource) (delta : Nat) (gprev : Option Nat) (g : Nat) : Bool :=
  match source, gprev with
  | .statistics, some p => decide (0 < delta) && decide (delta ≤ max g p - min g p)
  | _, _ => false

/-- The zones that a solve over these tables processes read their F through the integrity monitor (R85, R88). -/
def State.readFilters (s : State) : State :=
  let n := s.mem.active Config.gridColumns * s.mem.active Config.gridRows
  ((List.range n).filter (fun z => (s.mem.mapEntry 1 z).channel.isSome)).foldl (fun s z => s.readWord (zoneF z)) s

/-- A trigger: outside STANDBY a solve starts and takes its captured copy (R73, R74, R80). F is read and the jumps are
decided here too: DEDUCED (notes/assumptions/10.md). -/
def State.startSolve (s : State) (trigger : Trigger) : State :=
  if s.mdc.mode = .standby then s
  else
    let s := s.readTables
    match s.stu.grid, targetSource s.mdc.mode trigger ((s.stu.grid.map Grid.misfit).getD false) with
    | some g, some source =>
      let tables := s.mem.activeWords
      let n := s.mem.active Config.gridColumns * s.mem.active Config.gridRows
      let s := s.readFilters
      let v : Solve :=
        { tag := ⟨s.ftu.frameNumber, trigger⟩
          startedAt := s.clock.now
          dueAt := s.clock.now + Config.solveTime n
          tables := tables
          grid := g
          stats := s.stu.stats
          mean := s.stu.globalMean
          thermal := s.sns.thermal
          foldback := s.sns.foldback
          latches := s.chc.latches
          source := source
          lockJump := decide (source = .statistics) && s.lvs.lockJump
          sceneCut := sceneCutHolds source (tables.active Config.sceneCutDelta) s.lvs.gprev s.stu.globalMean
          prevF := sparseTabulate (fun _ => 0) 0 n (fun z => (s.mem.word (zoneF z)).toNat)
          reseed := s.lvs.reseed
          unlit := []
          setsGprev := true }
      { s with lvs := { s.lvs with solve := some v } }
    | _, _ => s

/-- The solve with the reseed marks as they stand when stage 4 reaches its zones (R88, R178): at solve complete, so that
a mark set while the solve runs makes this solve jump, and clears with it. DEDUCED (notes/assumptions/10.md). -/
def Solve.withMarks (v : Solve) (marks : Sparse Bool) : Solve := { v with reseed := marks }

/-- The solver's own part of solve complete, R78 steps 1 to 4. -/
def State.finishSolve (s : State) (started : Solve) : State :=
  let v := started.withMarks s.lvs.reseed
  let set := v.levelSet s.chc
  let statistics := decide (v.source = .statistics)
  let s := v.processed.foldl (fun s z => s.writeZone v (set.zone z) z) (s.zeroZoneWords [4, 6, 7])
  let s := { s with lvs := { s.lvs with
      solve := none
      reseed := sparseClear v.processes s.lvs.reseed
      lastSet := set
      unlit := v.unlit
      k := v.scale
      demand := v.demand
      maxL4 := set.zones.foldl (fun m e => max m e.2.level) 0
      outcome := if s.lvs.outcome = .late then .late else .onTime
      gprev := if statistics && v.setsGprev then some v.mean else s.lvs.gprev
      lockJump := if v.lockJump then false else s.lvs.lockJump } }
  if v.sceneCut then s.raise .sceneCut else s

/-- Abandon the solve in flight: its results are discarded (R76). -/
def State.abandonSolve (s : State) : State := { s with lvs := { s.lvs with solve := none } }

/-- Abandon the solve in flight at a first active line or a close: SOLVE_LATE besides (R76, R77). -/
def State.abandonLate (s : State) : State :=
  match s.lvs.solve with
  | none => s
  | some _ =>
    let s := (s.abandonSolve.raise .solveLate).count .solvesLate 1
    { s with lvs := { s.lvs with outcome := .late } }

end Sys2Proof.Machine
end

