-- ==== Sys2Proof/Machine/Chains.lean ====
section
/-! DEFINITION. The chain controller (`07_led_driver_chains.md`): the arbiter of a chain, bursts and their readback,
latches, enumeration sweeps, pass-through exchanges, and the commands that are their events. -/

namespace Sys2Proof.Machine

/-! ## What a chain is doing -/

/-- The data-out line is IDLE. -/
def ChainRec.isIdle (c : ChainRec) : Bool :=
  match c.activity with
  | .idle => true
  | .burst _ _ _ | .darkBurst _ _ | .latch _ | .enumerate _ | .passRequest => false

/-- An enumeration sweep runs on the chain. -/
def ChainRec.sweeping (c : ChainRec) : Bool :=
  match c.activity with
  | .enumerate _ => true
  | .idle | .burst _ _ _ | .darkBurst _ _ | .latch _ | .passRequest => false

/-- An enumeration is waiting or running on the chain (R129). -/
def ChainRec.enumerating (c : ChainRec) : Bool := c.enumWaiting || c.sweeping

/-- A latch of an output frame is being sent. -/
def ChainRec.latching (c : ChainRec) : Bool :=
  match c.activity with
  | .latch (some _) => true
  | .latch none | .idle | .burst _ _ _ | .darkBurst _ _ | .enumerate _ | .passRequest => false

/-- The chain with its data-out line IDLE. -/
def ChainRec.toIdle (c : ChainRec) : ChainRec := { c with activity := .idle, message := [] }

/-- The chain sending a message. -/
def ChainRec.sending (c : ChainRec) (a : Activity) (message : List Byte) : ChainRec :=
  { c with activity := a, message := message }

/-- The zones of a burst, duties of channels that no zone claims being 0 (R119). -/
def BurstJob.duty (j : BurstJob) (device channel : Nat) : Nat :=
  match j.zones.find? (fun b => b.device == device && b.channel == channel) with
  | some b => b.duty
  | none => 0

/-- How many devices a burst covers on a chain whose enumerated count is `count` (R119). -/
def BurstJob.covers (j : BurstJob) (count : Nat) : Nat := j.zones.foldl (fun d b => max d (b.device + 1)) count

/-- What a level set carries to chain `k`; nothing if no processed zone of the set maps there (R118). A burst carries the
set handed over at solve complete, so its "read of the level set" (R79) is no read through the integrity monitor, as
R176's list has none: DESIGN CHOICE (notes/assumptions/35.md). -/
def LevelSet.job (l : LevelSet) (k : Nat) : Option BurstJob :=
  let zones := l.zones.filterMap (fun e => match e.2.channel with
    | some c => if c.chain = k then some ⟨c.device, c.channel, e.1, e.2.duty⟩ else none
    | none => none)
  match l.tag with
  | some t => if zones.isEmpty then none else some ⟨t, zones⟩
  | none => none

/-! ## The arbiter (R117) -/

/-- Mark the oldest pass-through entry of chain `k` as started. -/
def startPass (k : ChainNo) : List PassEntry → List PassEntry
  | [] => []
  | e :: rest => if e.chain = k then { e with started := true } :: rest else e :: startPass k rest

/-- The message the arbiter starts on an IDLE line when no latch is due, with the chain as it then stands; none where
nothing can start (R117, items 2 to 5; R133 for the idle window). -/
def ChainRec.next (c : ChainRec) (entry : Option PassEntry) : Option ChainRec :=
  if c.awaiting.isSome then none
  else if c.darkWaiting then
    some ({ c with darkWaiting := false }.sending (.darkBurst c.count 0) (burstMessage c.count (fun _ _ => 0)))
  else if c.latchPending then none
  else if c.enumWaiting then some ({ c with enumWaiting := false }.sending (.enumerate .release) releaseMessage)
  else
    match c.waiting, entry with
    | some job, _ =>
      let d := job.covers c.count
      some ({ c with waiting := none }.sending (.burst job d 0) (burstMessage d job.duty))
    | none, some e => some (c.sending .passRequest (passMessage e))
    | none, none => none

/-- The arbiter of chain `k`: it starts the first message that can start. -/
def State.arbitrate (s : State) (k : ChainNo) : State :=
  let c := s.chc.chains[k]
  if c.isIdle then
    match c.latchDue with
    | some f => s.setChain k ({ c with latchDue := none }.sending (.latch (some f)) latchMessage)
    | none =>
      match c.next (s.chc.passQueue.find? (fun e => e.chain == k)) with
      | some c' =>
        let s := s.setChain k c'
        if c'.activity = .passRequest then
          { s with chc := { s.chc with passQueue := startPass k s.chc.passQueue } }
        else s
      | none => s
  else s

/-- The data-out line of chain `k` becomes IDLE, and its arbiter chooses again. -/
def State.freeChain (s : State) (k : ChainNo) : State := (s.setChain k s.chc.chains[k].toIdle).arbitrate k

/-- Solve complete hands its level set to the chains: waiting bursts of older sets are dropped, and each referenced
chain has the new set waiting (R118). -/
def State.handOff (s : State) (set : LevelSet) : State :=
  allChains.foldl (fun s k => (s.setChain k { s.chc.chains[k] with waiting := set.job k }).arbitrate k) s

/-- The pending latch of chain `k` falls due in the current output frame (R121, R122). -/
def State.latchFallsDue (s : State) (k : ChainNo) : State :=
  let c := s.chc.chains[k]
  if c.latchPending && c.latchDue.isNone && !c.latching then
    (s.setChain k { c with latchDue := some s.ftu.frameNumber }).arbitrate k
  else s

/-- Every pending latch falls due. -/
def State.latchesFallDue (s : State) : State := allChains.foldl State.latchFallsDue s

/-! ## Readback (R123 to R127) -/

/-- The record of device `i` of chain `k`, and its key. -/
def deviceKey (k : ChainNo) (i : Nat) : Nat := Config.devicesPerChain * k.val + i
def Chc.device (c : Chc) (key : Nat) : DeviceRec := sparseGet (fun _ => .reset) c.devices key

/-- The chain's over-temperature held as its 24 device records give it (R125). -/
def Chc.heldNow (c : Chc) (k : ChainNo) : Bool :=
  (List.range Config.devicesPerChain).any (fun i => (c.device (deviceKey k i)).overTemp)

/-- A change of over-temperature held is passed to the sense unit, which goes to HOT when it becomes set (R125,
R145). -/
def State.updateHeld (s : State) (k : ChainNo) : State :=
  let held := s.chc.heldNow k
  if held = s.chc.chains[k].overTemp then s
  else
    let s := s.setChain k { s.chc.chains[k] with overTemp := held }
    { s with sns := { s.sns with
        overTemp := s.sns.overTemp.set k held
        thermal := if held then s.sns.thermal.set k .hot else s.sns.thermal } }

/-- The new confirmation count of a channel (R126). -/
def confirmCount (count : Nat) (flagged : Bool) : Nat := if flagged then min 15 (count + 1) else 0

/-- A count of a channel confirmation record. -/
def channelCount (m : Sparse Nat) (i : Nat) : Nat := sparseGet (fun _ => 0) m i

/-- The latch that the counts of a channel give (R127). -/
def confirmedLatch (confirm opens shorts : Nat) : FaultLatch :=
  if confirm ≤ opens then .opened else if confirm ≤ shorts then .shorted else .clear

/-- One channel of a good status, its counts updated: its zone's latch is set if it is confirmed (R127), and the zone is
noted for the next first active line (R103). -/
def State.confirmChannel (s : State) (zones : List BurstZone) (key device channel : Nat) : State :=
  let i := key * Config.channelsPerDevice + channel
  let l := confirmedLatch (s.mem.active Config.faultConfirm) (channelCount s.chc.openCount i)
    (channelCount s.chc.shortCount i)
  match zones.find? (fun b => b.device == device && b.channel == channel) with
  | some b =>
    if l ≠ .clear ∧ s.chc.latch b.zone = .clear then
      ({ s with chc := { s.chc with
        latches := sparsePut (fun _ => .clear) s.chc.latches b.zone l
        struck := sparsePut (fun _ => false) s.chc.struck b.zone true } }).raise .zoneFaultNew
    else s
  | none => s

/-- A good status of device `i` of chain `k` in a burst whose set maps `zones` (R124, R126, R127). -/
def State.goodStatus (s : State) (k : ChainNo) (zones : List BurstZone) (i : Nat) (st : Status) : State :=
  let key := deviceKey k i
  let first := key * Config.channelsPerDevice
  let put (m : Sparse Nat) (mask : Word) : Sparse Nat :=
    sparsePutRange (fun _ => 0) m first Config.channelsPerDevice
      (fun c => confirmCount (channelCount m (first + c)) (mask.getLsbD c))
  let s := { s with chc := { s.chc with
      devices := sparsePut (fun _ => .reset) s.chc.devices key ⟨.ok, 0, st.opens, st.shorts, st.overTemp⟩
      openCount := put s.chc.openCount st.opens
      shortCount := put s.chc.shortCount st.shorts } }
  ((List.range Config.channelsPerDevice).foldl (fun s c => s.confirmChannel zones key i c) s).updateHeld k

/-- A miss of device `i` of chain `k` (R124). -/
def State.missedSlot (s : State) (k : ChainNo) (i : Nat) : State :=
  let key := deviceKey k i
  let d := s.chc.device key
  let misses := min 15 (d.misses + 1)
  let silent := decide (s.mem.active Config.missLimit ≤ misses) && decide (d.state ≠ .noResponse)
  let d := { d with misses := misses, state := if silent then .noResponse else d.state }
  let s := ({ s with chc := { s.chc with devices := sparsePut (fun _ => .reset) s.chc.devices key d } }).count
    .readbackMisses 1
  if silent then s.raise .deviceNoResponse else s

/-- The slot of device `i` of chain `k` ends with these bytes. FAULT_CONFIRM and MISS_LIMIT are read at each
readback. -/
def State.readback (s : State) (k : ChainNo) (zones : List BurstZone) (i : Nat) (bytes : List Byte) : State :=
  let s := s.readSettings [Config.faultConfirm, Config.missLimit]
  match readStatusSlot i bytes with
  | some st => s.goodStatus k zones i st
  | none => s.missedSlot k i

/-- READBACK_SLOT (R123): the next slot of the burst or dark burst on the chain. -/
def execReadbackSlot (dt : Nat) (k : ChainNo) (bytes : List Byte) (s : State) : Host.Outcome State Fault Refusal :=
  let s := s.advance dt
  .next <| match s.chc.chains[k].activity with
    | .burst job d slot =>
      if slot < d then
        let s := s.readback k job.zones slot bytes
        s.setChain k { s.chc.chains[k] with activity := .burst job d (slot + 1) }
      else s
    | .darkBurst d slot =>
      if slot < d then
        let s := s.readback k [] slot bytes
        s.setChain k { s.chc.chains[k] with activity := .darkBurst d (slot + 1) }
      else s
    | .idle | .latch _ | .enumerate _ | .passRequest => s

/-! ## The ends of the messages -/

/-- BURST_DONE (R120): the readback field of an update burst ends, every slot checked. -/
def execBurstDone (dt : Nat) (k : ChainNo) (s : State) : Host.Outcome State Fault Refusal :=
  let s := s.advance dt
  .next <| match s.chc.chains[k].activity with
    | .burst job d slot =>
      if slot = d then (s.setChain k { s.chc.chains[k] with doneTag := some job.tag }).freeChain k else s
    | .idle | .darkBurst _ _ | .latch _ | .enumerate _ | .passRequest => s

/-- DARK_BURST_DONE (R135): the dark burst ends and its latch is sent, ahead of anything else. -/
def execDarkBurstDone (dt : Nat) (k : ChainNo) (s : State) : Host.Outcome State Fault Refusal :=
  let s := s.advance dt
  .next <| match s.chc.chains[k].activity with
    | .darkBurst d slot =>
      if slot = d then s.setChain k (s.chc.chains[k].sending (.latch none) latchMessage) else s
    | .idle | .burst _ _ _ | .latch _ | .enumerate _ | .passRequest => s

/-- LATCH_SENT (R122): latch pending clears, and the last latch frame is the frame in which the latch fell due. The
latch of a dark burst changes neither (R135). -/
def execLatchSent (dt : Nat) (k : ChainNo) (s : State) : Host.Outcome State Fault Refusal :=
  let s := s.advance dt
  .next <| match s.chc.chains[k].activity with
    | .latch (some f) =>
      (s.setChain k { s.chc.chains[k] with latchPending := false, lastLatch := some f }).freeChain k
    | .latch none => s.freeChain k
    | .idle | .burst _ _ _ | .darkBurst _ _ | .enumerate _ | .passRequest => s

/-! ## Enumeration (R130, R131) -/

/-- The sweep of chain `k` ends with a count (R131). -/
def State.endSweep (s : State) (k : ChainNo) (count : Nat) (overlength : Bool) : State :=
  let ofChain (n : Nat) (i : Nat) : Bool := decide (i / n = k.val)
  let s := s.setChain k { s.chc.chains[k].toIdle with count := count, overlength := overlength }
  let s := { s with chc := { s.chc with
      devices := sparseClear (ofChain Config.devicesPerChain) s.chc.devices
      openCount := sparseClear (ofChain (Config.devicesPerChain * Config.channelsPerDevice)) s.chc.openCount
      shortCount := sparseClear (ofChain (Config.devicesPerChain * Config.channelsPerDevice)) s.chc.shortCount } }
  ((s.updateHeld k).raise .enumDone).arbitrate k

/-- The sweep of chain `k` sends the assignment of address `n`. -/
def State.assign (s : State) (k : ChainNo) (n : Nat) : State :=
  s.setChain k (s.chc.chains[k].sending (.enumerate (.assigning n)) (assignmentMessage n))

/-- RELEASE_SENT (R130): the first assignment follows the release. -/
def execReleaseSent (dt : Nat) (k : ChainNo) (s : State) : Host.Outcome State Fault Refusal :=
  let s := s.advance dt
  .next <| match s.chc.chains[k].activity with
    | .enumerate .release => s.assign k 0
    | .enumerate (.assigning _) | .enumerate (.waiting _ _) => s
    | .idle | .burst _ _ _ | .darkBurst _ _ | .latch _ | .passRequest => s

/-- ASSIGNMENT_SENT (R130): the wait for the acknowledgement begins. -/
def execAssignmentSent (dt : Nat) (k : ChainNo) (s : State) : Host.Outcome State Fault Refusal :=
  let s := s.advance dt
  .next <| match s.chc.chains[k].activity with
    | .enumerate (.assigning n) =>
      s.setChain k (s.chc.chains[k].sending (.enumerate (.waiting n s.clock.now)) [])
    | .enumerate .release | .enumerate (.waiting _ _) => s
    | .idle | .burst _ _ _ | .darkBurst _ _ | .latch _ | .passRequest => s

/-- ACKNOWLEDGEMENT (R130): a good one within the wait goes on to the next address, or ends the sweep at the 25th
device; a bad one ends the sweep with a count of `n`. DEDUCED (notes/assumptions/19.md). -/
def execAcknowledgement (dt : Nat) (k : ChainNo) (bytes : List Byte) (s : State) :
    Host.Outcome State Fault Refusal :=
  let s := s.advance dt
  .next <| match s.chc.chains[k].activity with
    | .enumerate (.waiting n since) =>
      if since + Config.ackWait < s.clock.now then s
      else if goodAck n bytes then
        if n = Config.devicesPerChain then s.endSweep k Config.devicesPerChain true else s.assign k (n + 1)
      else s.endSweep k n false
    | .enumerate .release | .enumerate (.assigning _) => s
    | .idle | .burst _ _ _ | .darkBurst _ _ | .latch _ | .passRequest => s

/-- ENUM_ACK_TIMEOUT (R130): 20 µs have passed with no good acknowledgement. -/
def execEnumAckTimeout (dt : Nat) (k : ChainNo) (s : State) : Host.Outcome State Fault Refusal :=
  let s := s.advance dt
  .next <| match s.chc.chains[k].activity with
    | .enumerate (.waiting n since) => (s.advanceTo (since + Config.ackWait)).endSweep k n false
    | .enumerate .release | .enumerate (.assigning _) => s
    | .idle | .burst _ _ _ | .darkBurst _ _ | .latch _ | .passRequest => s

/-! ## Pass-through (R133, R134) -/

/-- PASS_REQUEST_SENT (R133): the line is IDLE again and the answer is awaited. -/
def execPassRequestSent (dt : Nat) (k : ChainNo) (s : State) : Host.Outcome State Fault Refusal :=
  let s := s.advance dt
  .next <| match s.chc.chains[k].activity with
    | .passRequest => (s.setChain k { s.chc.chains[k] with awaiting := some s.clock.now }).freeChain k
    | .idle | .burst _ _ _ | .darkBurst _ _ | .latch _ | .enumerate _ => s

/-- The place in the pass-through queue of the exchange that runs on chain `k`. -/
def Chc.exchange (c : Chc) (k : ChainNo) : Nat := c.passQueue.findIdx (fun e => e.chain == k && e.started)

/-- The exchange on chain `k` ends (R134): its outcome is delivered, its entry leaves the queue, the answer is no
longer awaited and the arbiter chooses again. The owed outcomes stand in the order of the queue. -/
def State.endExchange (s : State) (k : ChainNo) (result : Result) (data : List Word) : State :=
  let i := s.chc.exchange k
  let s := s.deliver .chains i result data
  let s := { s with chc := { s.chc with passQueue := s.chc.passQueue.eraseIdx i } }
  ((s.setChain k { s.chc.chains[k] with awaiting := none }).arbitrate k).pump

/-- PASS_ANSWER (R134): a good answer within the 2 ms delivers OK; one that fails its checks is discarded. -/
def execPassAnswer (dt : Nat) (k : ChainNo) (bytes : List Byte) (s : State) : Host.Outcome State Fault Refusal :=
  let s := s.advance dt
  .next <| match s.chc.chains[k].awaiting, s.chc.passQueue[s.chc.exchange k]? with
    | some since, some e =>
      match passAnswerBytes e.device bytes with
      | some answer =>
        if s.clock.now ≤ since + Config.passWait then s.endExchange k .ok (passOutcomeData answer) else s
      | none => s
    | _, _ => s

/-- PASS_TIMEOUT (R134): 2 ms have passed from the request's end without a good answer. -/
def execPassTimeout (dt : Nat) (k : ChainNo) (s : State) : Host.Outcome State Fault Refusal :=
  let s := s.advance dt
  .next <| match s.chc.chains[k].awaiting with
    | some since => (s.advanceTo (since + Config.passWait)).endExchange k .timeout []
    | none => s

/-! ## STANDBY entry at a chain (R135) -/

/-- The chain at STANDBY entry, before its arbiter chooses. -/
def ChainRec.standby (c : ChainRec) : ChainRec :=
  let c := match c.activity with
    | .burst _ _ _ => c.toIdle
    | .idle | .darkBurst _ _ | .latch _ | .enumerate _ | .passRequest => c
  { c with doneTag := none, waiting := none, latchPending := false, latchDue := none,
           darkWaiting := decide (0 < c.count) }

/-- STANDBY entry at every chain (R135). DEDUCED for a chain whose latch or dark burst is being sent
(notes/assumptions/19.md). -/
def State.standbyChains (s : State) : State :=
  allChains.foldl (fun s k => (s.setChain k s.chc.chains[k].standby).arbitrate k) s

end Sys2Proof.Machine
end

