-- ==== Sys2Proof/Machine/Sense.lean ====
section
/-! DEFINITION. The sense unit (`08_sensing_thermal_derating_and_foldback.md`): scans, conversions, the thermal state
of each chain and the foldback state. -/

namespace Sys2Proof.Machine

/-- The result of a conversion of input `i` (R138): the raw code, turned round where its SENSE_INVERT flag is set. -/
def senseResult (invert i raw : Nat) : Nat := if invert.testBit i then 1023 - raw else raw

/-- An effective OFF threshold (R52). -/
def effectiveOff (off on : Nat) : Nat := min off on

/-- A fault code of a thermistor (R144). -/
def isFaultCode (r : Nat) : Bool := r == 0 || r == 1023

/-- The table of R143, the OFF thresholds being the effective ones. -/
def thermalNext (warmOn warmOff hotOn hotOff : Nat) (t : Thermal) (r : Nat) : Thermal :=
  match t with
  | .normal => if hotOn ≤ r then .hot else if warmOn ≤ r then .warm else .normal
  | .warm => if hotOn ≤ r then .hot else if r < warmOff then .normal else .warm
  | .hot => if r < hotOff then .warm else .hot

/-- The table of R147: the new state and count, the OFF threshold being the effective one. -/
def foldbackNext (foldOn foldOff : Nat) (folded : Bool) (count r : Nat) : Bool × Nat :=
  if folded then
    if r < foldOff then (if count = 0 then (true, 1) else (false, 0)) else (true, 0)
  else
    if foldOn ≤ r then (if count = 0 then (false, 1) else (true, 0)) else (false, 0)

/-- The SETTINGS entries that the end of a conversion of input `i` reads, by rising index (R176): the thresholds that
its result is compared with, then SENSE_INVERT (R138). A fault code is compared with none, and stays one when it is
turned round. -/
def senseReads (i raw : Nat) : List Nat :=
  (if 8 ≤ i then [Config.foldOn, Config.foldOff]
    else if isFaultCode raw then []
    else [Config.warmOn, Config.warmOff, Config.hotOn, Config.hotOff]) ++ [Config.senseInvert]

/-- A result of thermistor `k` is handed to its chain (R143 to R145). -/
def State.handThermistor (s : State) (k : ChainNo) (r : Nat) : State :=
  if isFaultCode r then
    { s with sns := { s.sns with
        thermal := s.sns.thermal.set k .hot
        sensorFault := s.sns.sensorFault.set k true } }
  else
    let next := thermalNext (s.mem.active Config.warmOn)
      (effectiveOff (s.mem.active Config.warmOff) (s.mem.active Config.warmOn)) (s.mem.active Config.hotOn)
      (effectiveOff (s.mem.active Config.hotOff) (s.mem.active Config.hotOn)) s.sns.thermal[k] r
    { s with sns := { s.sns with
        thermal := s.sns.thermal.set k (if s.sns.overTemp[k] then .hot else next)
        sensorFault := s.sns.sensorFault.set k false } }

/-- A result of the supply-current input is handed to the foldback state (R147). -/
def State.handSupply (s : State) (r : Nat) : State :=
  let next := foldbackNext (s.mem.active Config.foldOn)
    (effectiveOff (s.mem.active Config.foldOff) (s.mem.active Config.foldOn)) s.sns.foldback s.sns.foldCount r
  { s with sns := { s.sns with foldback := next.1, foldCount := next.2 } }

/-- The conversion of input `i` ends: the result is stored and handed on in one event (R138), whose reads come in the
order of their words (R176). -/
def State.convert (s : State) (i raw : Nat) : State :=
  let s := s.readSettings (senseReads i raw)
  let r := senseResult (s.mem.active Config.senseInvert) i raw
  let s := { s with sns := { s.sns with results := s.sns.results.setIfInBounds i r } }
  if h : i < 8 then s.handThermistor ⟨i, h⟩ r else s.handSupply r

/-- CONVERSION_END (R138): a scan goes on to the next input, a manual conversion delivers its owed reply (R141). The
conversion ends 16 µs after its start. -/
def execConversionEnd (dt : Nat) (raw : BitVec 10) (s : State) : Host.Outcome State Fault Refusal :=
  let s := s.advance dt
  .next <| match s.sns.converter with
    | .idle => s
    | .scanning i since =>
      let s := (s.advanceTo (since + Config.conversionTime)).convert i raw.toNat
      let after := if 8 ≤ i then .idle else .scanning (i + 1) (since + Config.conversionTime)
      { s with sns := { s.sns with converter := after } }
    | .manual i since =>
      let s := (s.advanceTo (since + Config.conversionTime)).convert i raw.toNat
      let s := { s with sns := { s.sns with converter := .idle } }
      let result := s.sns.results.toList.getD i 0
      (s.deliver .sense 0 .ok [wordOfNat i, wordOfNat raw.toNat, wordOfNat result]).pump

/-- The scan decision of an output frame start (R139, R140). -/
def State.scanDecision (s : State) : State :=
  if s.mdc.mode = .standby then s
  else
    match s.sns.converter with
    | .idle => { s with sns := { s.sns with converter := .scanning 0 s.clock.now } }
    | .scanning _ _ | .manual _ _ => (s.raise .senseOverrun).count .senseOverruns 1

/-- A running scan or conversion stops: an owed SENSE_START reply is delivered as ABORTED (R142, R149). -/
def State.stopConverter (s : State) : State :=
  let was := s.sns.converter
  let s := { s with sns := { s.sns with converter := .idle } }
  match was with
  | .manual _ _ => s.deliver .sense 0 .aborted []
  | .idle | .scanning _ _ => s

end Sys2Proof.Machine
end

