-- ==== Sys2Proof/Machine/Compensator.lean ====
section
/-! DEFINITION. The pixel compensator (`06_light_spread_and_pixel_compensation.md`): the frame capture, the settling
of the chains, display levels, the light field, and the gain and output of a pixel. -/

namespace Sys2Proof.Machine

/-! ## The frame capture (R99) -/

/-- The coefficients of the active SPREAD_KERNEL. -/
def Memory.kernelList (mem : Memory) : List Nat := (List.range (Config.tableEntries 3)).map mem.kernel

/-- The frame capture, its tables read through the integrity monitor before the mode is read. -/
def State.captureFrame (s : State) : State :=
  let s := (s.readSettings [Config.bref, Config.gainLimit, Config.clipMode, Config.blackFloor]).readRange
    (wordKey 7 0) (Config.memoryWords 7)
  match s.stu.grid with
  | none => s
  | some g =>
    let c : Capture :=
      { bref := s.mem.active Config.bref
        gainLimit := s.mem.active Config.gainLimit
        clipMode := s.mem.active Config.clipMode
        blackFloor := s.mem.active Config.blackFloor
        kernel := s.mem.kernelList
        grid := g
        mode := s.mdc.mode }
    { s with pxc := { s.pxc with capture := some c } }

/-! ## Settling the chains (R100, R101) -/

/-- How a chain is settled at a first active line. -/
inductive Settlement where
  /-- The chain takes the latest set, and its latch is permitted. -/
  | takes
  /-- The chain's burst for the latest set is running or waiting. -/
  | late
  /-- No latch is due. -/
  | held
  deriving DecidableEq, Repr

/-- The chain has a burst for this solve tag running or waiting. -/
def ChainRec.hasBurstFor (c : ChainRec) (t : SolveTag) : Bool :=
  (match c.activity with
    | .burst job _ _ => decide (job.tag = t)
    | .idle | .darkBurst _ _ | .latch _ | .enumerate _ | .passRequest => false) ||
  (match c.waiting with
    | some job => decide (job.tag = t)
    | none => false)

/-- The settlement of chain `k` against the latest set (R100, R101, R104). -/
def State.settle (s : State) (k : ChainNo) : Settlement :=
  let set := s.lvs.lastSet
  match s.mdc.mode, set.tag with
  | .standby, _ => .held
  | _, none => .held
  | _, some t =>
    if !set.references k || decide (s.pxc.taken[k] = some t) then .held
    else if s.chc.chains[k].doneTag = some t then .takes
    else if s.chc.chains[k].hasBurstFor t then .late
    else .held

/-- The settlements of all eight chains. -/
def State.settlements (s : State) : Vector Settlement 8 := Vector.ofFn (fun k => s.settle k)

/-! ## Display levels (R102 to R104) -/

/-- Chain number `k` took the latest set. -/
def tookSet (took : Vector Settlement 8) (k : Nat) : Bool := decide (took.toList[k]? = some .takes)

/-- A zone's fault latch is set, or was set at some moment since the previous first active line (R103). A latch set and
cleared again between two lines counts at the second: DEDUCED (notes/assumptions/23.md). -/
def Chc.faulty (c : Chc) (z : Nat) : Bool := decide (c.latch z ≠ .clear) || sparseGet (fun _ => false) c.struck z

/-- The level that zone `z` takes with the latest set: its L4 there, or 0 after a CLEAR_FAULTS that came after the set's
solve had started (R102, R103). DEDUCED (notes/assumptions/30.md). -/
def Lvs.litLevel (l : Lvs) (z : Nat) : Nat :=
  if sparseGet (fun _ => false) l.unlit z then 0 else (l.lastSet.zone z).level

/-- The display level and the display chain of zone `z`, decided in R102's order, with R103's two additions. -/
def State.displayOf (s : State) (took : Vector Settlement 8) (z : Nat) : Nat × Option Nat :=
  let level := sparseGet (fun _ => 0) s.pxc.display z
  let chain := sparseGet (fun _ => none) s.pxc.displayChain z
  let zone := s.lvs.lastSet.zone z
  let freed := match chain with
    | none => true
    | some k => tookSet took k
  if zone.channel.isNone && freed then (0, none)
  else if s.chc.faulty z then (0, chain)
  else match zone.channel with
    | some c => if tookSet took c.chain then (s.lvs.litLevel z, some c.chain) else (level, chain)
    | none => (level, chain)

/-- The display levels of all 2,304 zones are set; in STANDBY each is 0. -/
def State.setDisplay (s : State) (took : Vector Settlement 8) : State :=
  if s.mdc.mode = .standby then { s with pxc := { s.pxc with display := [] } }
  else
    { s with pxc := { s.pxc with
        display := sparseTabulate (fun _ => 0) 0 Config.zones (fun z => (s.displayOf took z).1)
        displayChain := sparseTabulate (fun _ => none) 0 Config.zones (fun z => (s.displayOf took z).2)
        taken := Vector.ofFn (fun k => if took[k] = .takes then s.lvs.lastSet.tag else s.pxc.taken[k]) } }

/-! ## The light field (R106) -/

/-- The light at the centre of column `c` and row `r`: `i` and `j` are dx + 3 and dy + 3. -/
def lightAt (kernel : List Nat) (display : Nat → Nat) (columns rows c r : Nat) : Nat :=
  let total := ((List.range 49).map (fun n =>
    let i := n % 7
    let j := n / 7
    if i ≤ c + 3 ∧ c + 3 - i < columns ∧ j ≤ r + 3 ∧ r + 3 - j < rows then
      kernel.getD n 0 * display ((r + 3 - j) * columns + (c + 3 - i))
    else 0)).sum
  min 65535 (total / 65536)

/-- The light field of the captured grid. -/
def Capture.field (cap : Capture) (display : Sparse Nat) : Sparse Nat :=
  sparseTabulate (fun _ => 0) 0 cap.grid.zones (fun z =>
    lightAt cap.kernel (sparseGet (fun _ => 0) display) cap.grid.columns cap.grid.rows (z % cap.grid.columns)
      (z / cap.grid.columns))

/-! ## The light at a pixel (R107 to R109) -/

/-- The centre of column (or row) `i` of `n`, with cells of size `cell` over `extent` pixels (R107). -/
def centre (extent cell n i : Nat) : Nat :=
  if i + 1 = n then i * cell + (extent - i * cell) / 2 else i * cell + cell / 2

/-- The two centres around a pixel, its offset from the first and the span between them (R108). -/
structure Surround where
  first  : Nat
  second : Nat
  offset : Nat
  span   : Nat
  deriving DecidableEq, Repr

/-- R108, along one axis. -/
def surround (extent cell n x : Nat) : Surround :=
  let at' := centre extent cell n
  if x < at' 0 then ⟨0, 0, 0, 1⟩
  else if at' (n - 1) ≤ x then ⟨n - 1, n - 1, 0, 1⟩
  else
    let c := (List.range n).foldl (fun m i => if at' i ≤ x then i else m) 0
    ⟨c, c + 1, x - at' c, at' (c + 1) - at' c⟩

/-- One interpolation of R109, its division floored toward minus infinity. -/
def interpolate (a b offset span : Nat) : Nat :=
  ((a : Int) + (((b : Int) - a) * offset).fdiv span).toNat

/-- The pixel light, raised to the black floor (R109). -/
def Capture.light (cap : Capture) (field : Sparse Nat) (x y : Nat) : Nat :=
  let h := surround cap.grid.width cap.grid.cellW cap.grid.columns x
  let v := surround cap.grid.height cap.grid.cellH cap.grid.rows y
  let b (c r : Nat) : Nat := sparseGet (fun _ => 0) field (r * cap.grid.columns + c)
  let top := interpolate (b h.first v.first) (b h.second v.first) h.offset h.span
  let bottom := interpolate (b h.first v.second) (b h.second v.second) h.offset h.span
  max (interpolate top bottom v.offset v.span) cap.blackFloor

/-! ## Gain and output (R110 to R112) -/

/-- The gain of a pixel in 1/1024ths (R110). -/
def gainOf (bref limit light : Nat) : Nat := min limit (bref * 1024 / light)

/-- A component scaled by a gain, halves rounded up. -/
def scaled (gain c : Nat) : Nat := (c * gain + 512) / 1024

/-- A component limited to 4095, as 12 bits. -/
def component (n : Nat) : BitVec 12 := BitVec.ofNat 12 (min 4095 n)

/-- The output pixel and whether it is clipped (R111 for CLIP_MODE 0, R112 for CLIP_MODE 1). -/
def outputPixel (clipMode gain : Nat) (p : Pixel) : Pixel × Bool :=
  let all (g : Nat) : Pixel :=
    ⟨component (scaled g p.red.toNat), component (scaled g p.green.toNat), component (scaled g p.blue.toNat)⟩
  let top := pixelDemand p
  if clipMode = 0 then (all gain, decide (4095 < scaled gain top))
  else if 4193280 < top * gain then (all (4193280 / top), true)
  else (all gain, false)

/-- Pixel `x` of line `y`, compensated. -/
def Capture.compensate (cap : Capture) (field : Sparse Nat) (y x : Nat) (p : Pixel) : Pixel × Bool :=
  outputPixel cap.clipMode (gainOf cap.bref cap.gainLimit (cap.light field x y)) p

/-- A compensated line and how many of its pixels are clipped (R113). -/
def Capture.compensateLine (cap : Capture) (field : Sparse Nat) (y : Nat) (line : List Pixel) : List Pixel × Nat :=
  let out := line.zipIdx.map (fun e => cap.compensate field y e.2 e.1)
  (out.map Prod.fst, out.countP Prod.snd)

end Sys2Proof.Machine
end

