-- ==== Sys2Proof/Machine/Modes.lean ====
section
/-! DEFINITION. The frame turn (R17): the table store's commits (`03_loaded_tables.md`), the mode controller's
validation and the changes of mode (`09_operating_modes.md`), the grid record and the NOTIFY_MASK in use. -/

namespace Sys2Proof.Machine

/-! ## Entry to STANDBY (R155) -/

/-- The solver's, the compensator's and the chain controller's parts of STANDBY entry (R97, R104, R135). -/
def State.standbyEntry (s : State) : State :=
  let s := s.zeroZoneWords [5, 6, 7]
  let s := { s with
    lvs := { s.lvs with lastSet := .zero, unlit := [], reseed := [] }
    pxc := { s.pxc with display := [], displayChain := [], taken := Vector.replicate 8 none } }
  s.standbyChains

/-- The mode becomes the target: the event and the units' parts, if it differs (R153, R155 to R157). -/
def State.changeMode (s : State) (target : Mode) : State :=
  if target = s.mdc.mode then s
  else
    let s := ({ s with mdc := { s.mdc with mode := target } }).raise .modeChanged
    if target = .standby then s.standbyEntry else s

/-! ## Commits (R46, R48, R49) -/

/-- The marked tables, by rising number. -/
def Tbs.marked (t : Tbs) : List Nat := (List.range 4).filter t.marks.getLsbD

/-- Validation of the named staging banks: only a ZONE_MAP can fail, by a duplicate channel (R45, R46). It reads the
staging map through the integrity monitor, and no other named bank, at a COMMIT as at a frame turn: R176 lists that map
alone. DESIGN CHOICE (notes/assumptions/37.md). -/
def State.validateStaging (s : State) (mask : BitVec 4) : State × Bool :=
  if mask.getLsbD 1 then
    let s := s.readRange (wordKey (bankMemory 1 0) 0) (Config.memoryWords (bankMemory 1 0))
    (s, !s.mem.duplicateChannel 0)
  else (s, true)

/-- The commit copy reads the active words of table `t` that it is about to overwrite, and can enter SAFE there (R159).
A marked word is passed over: a commit copy uses up no injection mark (R181). DEDUCED (notes/assumptions/28.md). -/
def State.readOverwritten (s : State) (t : Nat) : State :=
  let lo := wordKey (bankMemory t 1) 0
  let unmarked (i : Nat) : Bool := (sparseGet (fun _ => none) s.imn.marks (lo + i)).isNone
  ((List.range (Config.memoryWords (bankMemory t 1))).filter
      (fun i => unmarked i && (s.verdict (lo + i)).isSome)).foldl (fun s i => s.readWord (lo + i)) s

/-- Copy the staging bank of table `t` into its active bank: each staging word is read through the integrity monitor,
then each active word, and each active word is written with fresh check bits (R48, R159, R176). -/
def State.copyTable (s : State) (t : Nat) : State :=
  let s := (s.readRange (wordKey (bankMemory t 0) 0) (Config.memoryWords (bankMemory t 0))).readOverwritten t
  { s with
    mem := s.mem.copyBank t
    imn := { s.imn with upsets := sparseClear (fun a => decide (keyMemory a = bankMemory t 1)) s.imn.upsets } }

/-- The table store applies its commit marks at a frame turn (R48). The validation and the copy are two read events: the
validation reads the staging ZONE_MAP, where that table is marked, and no other bank; the copy then reads the banks of
each marked table, staging before active, SETTINGS first; a failed validation is followed by no read. DESIGN CHOICE
(notes/assumptions/22.md). -/
def State.applyMarks (s : State) : State :=
  let mask := s.tbs.marks
  if mask = 0 then { s with tbs := { s.tbs with outcome := 0 } }
  else
    let marked := s.tbs.marked
    let (s, pass) := s.validateStaging mask
    if pass then
      let s := marked.foldl State.copyTable s
      ({ s with tbs := { s.tbs with marks := 0, outcome := mask } }).raise .commitDone
    else ({ s with tbs := { s.tbs with marks := 0, outcome := 0 } }).raise .commitFailed

/-! ## Mode validation (R152 to R154) -/

/-- Read the words `lo` to `lo + n - 1` in order while the request in hand stands: an uncorrectable word of an active
bank cancels it, and validation goes no further (R152). -/
def State.readWhilePending (s : State) (lo n : Nat) : State :=
  ((List.range n).filter (fun i => (s.verdict (lo + i)).isSome)).foldl
    (fun s i => if s.mdc.request.isSome then s.readWord (lo + i) else s) s

/-- The reads of a validation: GRID_COLUMNS and GRID_ROWS, then both words of every entry of the active map below their
product. All are read before either check is decided, so that an error in a later entry gives SAFE where an earlier one
names an unknown device. DESIGN CHOICE (notes/assumptions/29.md). -/
def State.readForMode (s : State) : State :=
  let s := s.readWhilePending (wordKey 1 (2 * Config.gridColumns)) 4
  s.readWhilePending (wordKey 3 0) (2 * (s.mem.active Config.gridColumns * s.mem.active Config.gridRows))

/-- The channels mapped below GRID_COLUMNS × GRID_ROWS. -/
def State.gridChannels (s : State) : List Channel :=
  (List.range (s.mem.active Config.gridColumns * s.mem.active Config.gridRows)).filterMap
    (fun z => (s.mem.mapEntry 1 z).channel)

/-- A channel of a device that its chain has not enumerated (R152). -/
def State.unknownDevice (s : State) (c : Channel) : Bool :=
  decide ((s.chc.chains.toList.getD c.chain .reset).count ≤ c.device)

/-- The reason for which a target fails its validation; none if it passes (R152). -/
def State.modeReason (s : State) (target : Mode) : Reason :=
  match target with
  | .standby | .safe => .none
  | .bypass | .dimming =>
    if s.gridChannels.isEmpty then .noZones
    else if s.gridChannels.any s.unknownDevice then .chainUnknown
    else .none

/-- A target whose validation reads the active tables. -/
def Mode.validated : Mode → Bool
  | .standby | .safe => false
  | .bypass | .dimming => true

/-- The mode controller handles the pending request at a frame turn (R152 to R154, R159). -/
def State.handleRequest (s : State) : State :=
  match s.mdc.request with
  | none => { s with mdc := { s.mdc with reason := .none } }
  | some target =>
    let s := if target.validated then s.readForMode else s
    if s.mdc.request.isNone then { s with mdc := { s.mdc with reason := .none } }
    else
      let reason := s.modeReason target
      let s := { s with mdc := { s.mdc with request := none, reason := reason } }
      if reason = .none then s.changeMode target else s.raise .commitFailed

/-! ## The frame turn (R17) -/

/-- The frame's one frame turn: commits, then the mode, then the grid and the lines that waited for it, then the
NOTIFY_MASK in use. -/
def State.frameTurn (s : State) : State :=
  let s := ({ s with ftu := { s.ftu with turnWaiting := false } }).applyMarks.handleRequest.layGrid
  let s := s.readSetting Config.notifyMask
  { s with rpu := { s.rpu with notifyMask := BitVec.ofNat 17 (s.mem.active Config.notifyMask) } }

/-- A frame turn still waiting is taken now, the solve it waited for being abandoned (R17, R76). -/
def State.forceTurn (s : State) : State := if s.ftu.turnWaiting then s.abandonLate.frameTurn else s

end Sys2Proof.Machine
end

