-- ==== Sys2Proof/Machine/Reports.lean ====
section
/-! DEFINITION. The frame report (`10_frame_reports_events_and_attention.md`): its building, its merge with an unsent
one, and the output active end at which it is queued. -/

namespace Sys2Proof.Machine

/-- The compensator hands its clip count over, and starts again at 0 (R113). -/
def State.handClips (s : State) : State :=
  let s := s.count .clippedPixels s.pxc.clips
  { s with
    rpu := { s.rpu with clips := satAdd s.rpu.clips s.pxc.clips }
    pxc := { s.pxc with clips := 0 } }

/-- The frame report of this moment (R163). Its burst-late mask is that of the frame's own first active line, and
empty where it has had none: DESIGN CHOICE after a cut-short frame (notes/assumptions/36.md). -/
def State.report (s : State) : FrameReport :=
  { tag := s.tag
    frame := s.ftu.frameNumber
    stamp := s.ftu.stamp
    mode := s.mdc.mode
    input := s.lrx.input
    transition := s.mdc.request.isSome
    committed := s.tbs.outcome
    reason := s.mdc.reason
    flags := s.rpu.flags
    attention := s.attention
    k := s.lvs.k
    demand := s.lvs.demand
    maxL4 := s.lvs.maxL4
    globalMean := s.stu.globalMean
    solveStatus := s.lvs.outcome
    burstLate := s.rpu.burstLate
    thermal := s.sns.thermal
    foldback := s.sns.foldback
    charErrors := s.rpu.charErrors
    clips := s.rpu.clips
    packetErrors := s.rpu.packetErrors }

/-- The merged solve status (R166). -/
def SolveOutcome.merge (a b : SolveOutcome) : SolveOutcome :=
  if a = .late ∨ b = .late then .late else if a = .onTime ∨ b = .onTime then .onTime else .none

/-- The merge of a new report with the unsent one it replaces (R166). -/
def FrameReport.merge (old new : FrameReport) : FrameReport :=
  { new with
    flags := old.flags ||| new.flags ||| Event.reportLost.bit
    burstLate := old.burstLate ||| new.burstLate
    committed := old.committed ||| new.committed
    reason := if new.reason = .none then old.reason else new.reason
    solveStatus := SolveOutcome.merge old.solveStatus new.solveStatus
    charErrors := satAdd old.charErrors new.charErrors
    clips := satAdd old.clips new.clips
    packetErrors := satAdd old.packetErrors new.packetErrors }

/-- Building a report starts the interval again (R164). -/
def State.startInterval (s : State) : State :=
  { s with
    rpu := { s.rpu with flags := 0, charErrors := 0, packetErrors := 0, clips := 0, burstLate := 0 }
    lvs := { s.lvs with outcome := .none } }

/-- A report comes to the slot, merged with an unsent one (R162, R166). -/
def State.fillSlot (s : State) (r : FrameReport) : State :=
  match s.rpu.slot with
  | none => { s with rpu := { s.rpu with slot := some r } }
  | some old => ({ s with rpu := { s.rpu with slot := some (old.merge r) } }).count .reportsLost 1

/-- Build and queue a frame report (R162 to R166); the active DEVICE_TAG is read first, as it is built.
DEDUCED (notes/assumptions/9.md). -/
def State.queueReport (s : State) : State :=
  let s := s.readSetting Config.deviceTag
  (s.startInterval.fillSlot s.report).pump

/-- The output active end is sent: every latch still pending falls due (R121), the clips are handed over, the report
is queued. -/
def State.sendActiveEnd (s : State) : State :=
  let s := { s with ftu := { s.ftu with phase := .ended, panel := .activeEnd } }
  s.latchesFallDue.handClips.queueReport

end Sys2Proof.Machine
end

