-- ==== Sys2Proof/Machine/Output.lean ====
section
/-! DEFINITION. The frame timing unit and the output events (`01_picture_link_and_frame_timing.md`, R12 to R18): frame
start, blanking lines, first active line, active lines, active end, the early close and the cut-short frame; and
SOLVE_COMPLETE, at which a waiting frame turn is taken. -/

namespace Sys2Proof.Machine

/-! ## Solve complete -/

/-- SOLVE_COMPLETE (R75, R78): the solver's own part, the hand-off to the chains, and a frame turn that waited. -/
def execSolveComplete (dt : Nat) (s : State) : Host.Outcome State Fault Refusal :=
  let s := s.advance dt
  .next <| match s.lvs.solve with
    | some v =>
      let s := (s.advanceTo v.dueAt).finishSolve v
      let s := s.handOff s.lvs.lastSet
      if s.ftu.turnWaiting then s.frameTurn else s
    | none => s

/-! ## Output frame start (R16 to R18, R65, R139) -/

/-- The frame turn is taken at the output frame start, or waits for the solve in flight (R17). -/
def State.turnOrWait (s : State) : State :=
  match s.lvs.solve with
  | some _ => { s with ftu := { s.ftu with turnWaiting := true } }
  | none => s.frameTurn

/-- The frame is numbered, the pending adjust is added to the frame clock, the frame is stamped (R16, R18). -/
def State.numberFrame (s : State) (free : Bool) (geometry : Geometry) : State :=
  let clock := s.clock.frame + s.ftu.adjust.getD 0
  { s with
    clock := { s.clock with frame := clock }
    ftu := { s.ftu with
      frameNumber := if s.ftu.fresh then s.ftu.frameNumber else s.ftu.frameNumber + 1
      fresh := false
      adjust := none
      stamp := clock
      startedAt := s.clock.now
      freeFrame := free
      geometry := geometry
      phase := .blanking
      panel := .frameStart } }

/-- The scan decision and the frame turn of an output frame start, in either order (R139). -/
def State.scanAndTurn (s : State) (scanFirst : Bool) : State :=
  if scanFirst then s.scanDecision.turnOrWait else s.turnOrWait.scanDecision

/-- A followed frame starts. -/
def State.startFollowed (s : State) (scanFirst : Bool) : State :=
  let s := { s with ftu := { s.ftu with delay := s.ftu.delay.drop 1 } }
  let s := s.numberFrame false (s.lrx.locked.getD ⟨Config.defaultWidth, Config.defaultHeight⟩)
  s.clearAccumulators.scanAndTurn scanFirst

/-- A free-run frame starts: FREE_RUN_PERIOD is read, ahead of the frame turn, and the most recent active line is black
from now on (R6, R13). DEDUCED (notes/assumptions/14.md). That read comes ahead of the scan decision too, in either order
of R139. DESIGN CHOICE (notes/assumptions/40.md). The frame keeps the geometry taken at its start, also where
a new lock comes while it is in progress. DESIGN CHOICE (notes/assumptions/27.md). -/
def State.startFreeRun (s : State) (scanFirst : Bool) : State :=
  let s := s.numberFrame true (s.lrx.locked.getD ⟨Config.defaultWidth, Config.defaultHeight⟩)
  let s := s.readSetting Config.freeRunPeriod
  let period := s.mem.active Config.freeRunPeriod
  let s := { s with ftu := { s.ftu with
    period := period, freeDue := some (s.ftu.startedAt + period), lastLine := none } }
  s.clearAccumulators.scanAndTurn scanFirst

/-- No output frame is in progress. -/
def OutPhase.isOver : OutPhase → Bool
  | .none | .ended => true
  | .blanking | .active _ => false

/-- OUTPUT_FRAME_START (R16): a followed frame starts one line behind its input marker, a free-run frame when it is
due. -/
def execOutputFrameStart (dt : Nat) (scanFirst : Bool) (s : State) : Host.Outcome State Fault Refusal :=
  let s := s.advance dt
  .next <|
    if s.ftu.phase.isOver then
      match s.ftu.state, s.ftu.delay, s.ftu.freeDue with
      | .following, .start :: _, _ => s.startFollowed scanFirst
      | .freeRun, _, some due => (s.advanceTo due).startFreeRun scanFirst
      | _, _, _ => s
    else s

/-- OUTPUT_BLANKING_LINE (R12): a followed frame's blanking line carries the foreign packet of its input line. -/
def execOutputBlankingLine (dt line : Nat) (s : State) : Host.Outcome State Fault Refusal :=
  let s := s.advance dt
  .next <|
    match s.ftu.phase with
    | .blanking =>
      let packet := (s.ftu.forward.find? (fun e => e.1 == line)).map Prod.snd
      { s with ftu := { s.ftu with
        forward := s.ftu.forward.filter (fun e => e.1 != line)
        panel := .blanking line packet } }
    | .none | .active _ | .ended => s

/-! ## First active line (R99 to R106, R120, R121) -/

/-- The chains late at this first active line reach the report unit (R120), in place of an earlier mask. DEDUCED
(notes/assumptions/18.md). -/
def State.reportLate (s : State) (took : Vector Settlement 8) : State :=
  let late := allChains.filter (fun k => decide (took[k] = .late))
  let mask := late.foldl (fun m k => m ||| (1#8 <<< k.val)) 0#8
  let s := ({ s with rpu := { s.rpu with burstLate := mask } }).count .burstsLate late.length
  if late.isEmpty then s else s.raise .burstLate

/-- The chain controller reads the eight LATCH_LINE entries (R121), after the frame capture: DEDUCED
(notes/assumptions/9.md). -/
def State.readLatchLines (s : State) : State :=
  let s := s.readSettings (allChains.map (fun k => Config.latchLine k.val))
  { s with chc := { s.chc with latchLines := Vector.ofFn (fun k => s.mem.active (Config.latchLine k.val)) } }

/-- The compensating flag, and the light field where it is set (R105, R106). -/
def State.lightFrame (s : State) : State :=
  match s.pxc.capture with
  | some cap =>
    if s.ftu.state = .following ∧ cap.mode = .dimming then
      { s with pxc := { s.pxc with compensating := true, field := cap.field s.pxc.display } }
    else { s with pxc := { s.pxc with compensating := false } }
  | none => { s with pxc := { s.pxc with compensating := false } }

/-- The latches of the chains that took the latest set become pending (R121). -/
def State.permitLatches (s : State) (took : Vector Settlement 8) : State :=
  { s with chc := { s.chc with chains := Vector.ofFn (fun k =>
      if took[k] = .takes then { s.chc.chains[k] with latchPending := true } else s.chc.chains[k]) } }

/-- The pending latches of the chains whose LATCH_LINE is `n` fall due (R121). -/
def State.latchesOfLine (s : State) (n : Nat) : State :=
  (allChains.filter (fun k => decide (s.chc.latchLines[k] = n))).foldl State.latchFallsDue s

/-- The first active line is taken: a waiting frame turn first, then a latch left from an earlier frame, the capture,
the chains, the display levels, the light field, the latches. -/
def State.firstLine (s : State) : State :=
  let s := s.forceTurn.latchesFallDue.captureFrame.readLatchLines
  let took := s.settlements
  let s := ((s.reportLate took).setDisplay took).lightFrame
  let s := (s.permitLatches took).latchesOfLine 0
  { s with
    pxc := { s.pxc with clips := 0 }
    chc := { s.chc with struck := [] }
    ftu := { s.ftu with phase := .active 0 } }

/-- FIRST_ACTIVE_LINE (R99): of a followed frame when its line 0 has ended at the input, of a free-run frame 800 µs
after its start. -/
def execFirstActiveLine (dt : Nat) (s : State) : Host.Outcome State Fault Refusal :=
  let s := s.advance dt
  .next <|
    match s.ftu.phase, s.ftu.state, s.ftu.delay with
    | .blanking, .following, .line _ _ _ _ :: _ => s.firstLine
    | .blanking, .freeRun, _ => (s.advanceTo (s.ftu.startedAt + Config.freeRunBlanking)).firstLine
    | _, _, _ => s

/-! ## Active lines (R6, R105) -/

def blackPixel : Pixel := ⟨0, 0, 0⟩

/-- The copy of the most recent active output line, cut or padded with black to a width (R6). -/
def copyLine (last : Option (List Pixel)) (width : Nat) : List Pixel :=
  let l := (last.getD []).take width
  l ++ List.replicate (width - l.length) blackPixel

/-- The output line of an undamaged followed line, and its clipped pixels (R105). -/
def State.sentLine (s : State) (n : Nat) (pixels : List Pixel) (offGeometry : Bool) : List Pixel × Nat :=
  match s.pxc.capture with
  | some cap =>
    if !offGeometry && s.pxc.compensating && decide (s.mdc.mode = .dimming) then
      cap.compensateLine s.pxc.field n pixels
    else (pixels, 0)
  | none => (pixels, 0)

/-- Output active line `n` of a followed frame is sent. -/
def State.sendLine (s : State) (n : Nat) (pixels : List Pixel) (damaged offGeometry : Bool) (width : Nat) : State :=
  let out := if damaged then (copyLine s.ftu.lastLine width, 0) else s.sentLine n pixels offGeometry
  let s := { s with
    pxc := { s.pxc with clips := s.pxc.clips + out.2 }
    ftu := { s.ftu with
      phase := .active (n + 1), delay := s.ftu.delay.drop 1, lastLine := some out.1, panel := .line out.1 } }
  s.latchesOfLine n

/-- Output active line `n` of a free-run frame is sent, black. One that is not commanded is not sent: DESIGN CHOICE
(notes/assumptions/15.md). -/
def State.sendBlackLine (s : State) (n : Nat) : State :=
  let s := { s with ftu := { s.ftu with
    phase := .active (n + 1), panel := .line (List.replicate s.ftu.geometry.width blackPixel) } }
  s.latchesOfLine n

/-- When line `n` of the free-run frame in progress is due (R13). -/
def Ftu.freeLineDue (f : Ftu) (n : Nat) : Nat :=
  f.startedAt + Config.freeRunBlanking + n * (f.period - 2 * Config.freeRunBlanking) / f.geometry.height

/-- OUTPUT_LINE_BEGIN (R105): the next active line of the frame begins. -/
def execOutputLineBegin (dt : Nat) (s : State) : Host.Outcome State Fault Refusal :=
  let s := s.advance dt
  .next <|
    match s.ftu.phase, s.ftu.state, s.ftu.delay with
    | .active n, .following, .line pixels damaged offGeometry width :: _ =>
      s.sendLine n pixels damaged offGeometry width
    | .active n, .freeRun, _ =>
      if n < s.ftu.geometry.height then (s.advanceTo (s.ftu.freeLineDue n)).sendBlackLine n else s
    | _, _, _ => s

/-! ## Active end (R162), early close (R14), cut-short frame (R15) -/

/-- OUTPUT_ACTIVE_END (R162): of a followed frame one line behind the input; of a free-run frame 800 µs before the
next frame start, where it triggers a solve (R73). The report of that frame is built before the solve takes its capture,
so that what the capture finds falls in the next report. DESIGN CHOICE (notes/assumptions/16.md). -/
def execOutputActiveEnd (dt : Nat) (s : State) : Host.Outcome State Fault Refusal :=
  let s := s.advance dt
  .next <|
    match s.ftu.phase, s.ftu.state, s.ftu.delay with
    | .active _, .following, .activeEnd :: rest => ({ s with ftu := { s.ftu with delay := rest } }).sendActiveEnd
    | .active _, .freeRun, _ =>
      ((s.advanceTo (s.ftu.startedAt + s.ftu.period - Config.freeRunBlanking)).sendActiveEnd).startSolve .freeRun
    | _, _, _ => s

/-- Send the active lines that stand in the delay, in order; line 0 of a frame still in its blanking comes with its first
active line. -/
def State.flushLines (s : State) : List Delayed → State
  | [] => s
  | .line pixels damaged offGeometry width :: rest =>
    match s.ftu.phase with
    | .active n => (s.sendLine n pixels damaged offGeometry width).flushLines rest
    | .blanking => (s.firstLine.sendLine 0 pixels damaged offGeometry width).flushLines rest
    | .none | .ended => s
  | .start :: _ | .activeEnd :: _ => s

/-- The output frame in progress is closed: its waiting frame turn is taken, its active end is sent (R14, R17). -/
def State.closeFrame (s : State) : State := if s.ftu.phase.isOver then s else s.forceTurn.sendActiveEnd

/-- The input leaves LOCKED: the FTU closes the frame it follows and moves to FREE_RUN (R14). A line that still waits for
its frame's frame turn is discarded ahead of the turn that the close takes (R63). Every input active line that has ended,
be it by the same event, has its output line begun (R12), so the lines of the frame in the delay are completed then.
DEDUCED (notes/assumptions/14.md). A foreign packet whose output blanking line has not been sent is dropped. DESIGN CHOICE
(notes/assumptions/38.md). FREE_RUN_PERIOD is read last, behind a frame turn that the close takes. DESIGN CHOICE
(notes/assumptions/39.md). Where an input marker has been taken but its output frame has not started, no
output frame is closed: the pending start is dropped, and FREE_RUN_PERIOD counts from the start of the frame before.
DESIGN CHOICE (notes/assumptions/21.md). -/
def State.stopFollowing (s : State) : State :=
  match s.ftu.state with
  | .freeRun => s
  | .following =>
    let s := { s with stu := { s.stu with lineBuffer := [] } }
    let s := s.flushLines s.ftu.delay
    let s := { s with ftu := { s.ftu with delay := [], forward := [] } }
    let s := s.closeFrame.readSetting Config.freeRunPeriod
    { s with ftu := { s.ftu with
        state := .freeRun
        freeDue := some (max s.clock.now (s.ftu.startedAt + s.mem.active Config.freeRunPeriod)) } }

/-- The first input marker after lock: a free-run frame in progress is cut short, and following begins (R15). The
burst-late mask of the cut-short frame goes into no report. DESIGN CHOICE (notes/assumptions/36.md). -/
def State.startFollowing (s : State) : State :=
  let s := { s with stu := { s.stu with lineBuffer := [] } }
  let s := if s.ftu.phase.isOver then s
    else
      let s := s.latchesFallDue.forceTurn
      { s with
        ftu := { s.ftu with phase := .ended }
        rpu := { s.rpu with burstLate := 0 }
        pxc := { s.pxc with clips := 0 } }
  { s with ftu := { s.ftu with state := .following, delay := [.start], forward := [], freeDue := none } }

end Sys2Proof.Machine
end

