-- ==== Sys2Proof/Machine/Link.lean ====
section
/-! DEFINITION. The link receiver (`01_picture_link_and_frame_timing.md`, R1 to R11) and the arrival of side packets
(`02_side_packets_commands_and_replies.md`, R22 to R25). -/

namespace Sys2Proof.Machine

/-! ## Changes of the input state (R10, R11) -/

/-- The marks on the line or blanking line in progress are forgotten. -/
def Lrx.clearMarks (l : Lrx) : Lrx := { l with lineDamaged := false, packetErrored := none, packetLost := none }

/-- The record of the frame in progress is closed. -/
def Lrx.closeRecord (l : Lrx) : Lrx := { l.clearMarks with record := none }

/-- The acquisition run is emptied. -/
def Lrx.emptyRun (l : Lrx) : Lrx := { l with candidate := none, runCount := 0 }

/-- The solver learns that the input has entered LOCKED (R87). -/
def Lvs.enterLocked (l : Lvs) : Lvs := { l with lockJump := true }

/-- The solver learns that the input has left LOCKED: Gprev is invalid, and a solve in flight will not set it (R87). -/
def Lvs.leaveLocked (l : Lvs) : Lvs :=
  { l with gprev := none, solve := l.solve.map (fun v => { v with setsGprev := false }) }

/-- The input state changes: the event, and what the solver learns (R11). -/
def State.changeInput (s : State) (new : InputState) : State :=
  let old := s.lrx.input
  if new = old then s
  else
    let lvs := if old = .locked then s.lvs.leaveLocked else s.lvs
    let lvs := if new = .locked then lvs.enterLocked else lvs
    ({ s with lrx := { s.lrx with input := new }, lvs := lvs }).raise .inputStateChanged

/-- The input moves to NO_SIGNAL: the frame is abandoned, the run emptied, the period 0, and the FTU closes a followed
frame (R10, R14). -/
def State.loseSignal (s : State) : State :=
  let s := { s with lrx := { s.lrx.closeRecord.emptyRun with period := 0 } }
  (s.changeInput .noSignal).stopFollowing

/-- A character error or line-length error (R4, R5): counted at the report unit and in the open record, where it can
reach LOS_ERROR_LIMIT (R10). -/
def State.linkError (s : State) : State :=
  let s := s.countCharError
  match s.lrx.record with
  | none => s
  | some r =>
    let errors := min 65535 (r.errors + 1)
    let s := ({ s with lrx := { s.lrx with record := some { r with errors := errors } } }).readSetting
      Config.losErrorLimit
    if s.mem.active Config.losErrorLimit ≤ errors then s.loseSignal else s

/-! ## Active lines (R4, R6, R9) -/

/-- A line with this pixel count takes a frame of the locked input off its geometry (R9). -/
def Lrx.offBy (l : Lrx) (r : FrameRec) (count : Nat) : Bool :=
  match l.input, l.locked with
  | .locked, some g => (r.width.isNone && decide (count ≠ g.width)) || decide (g.height ≤ r.lines)
  | _, _ => false

/-- The line is handed on to the FTU and the statistics unit (R6, R9, R62). -/
def State.handLine (s : State) (y : Nat) (pixels : List Pixel) (damaged offGeometry : Bool) (width : Nat) : State :=
  match s.ftu.state with
  | .freeRun => s
  | .following =>
    let s := { s with ftu := { s.ftu with delay := s.ftu.delay ++ [.line pixels damaged offGeometry width] } }
    if damaged || offGeometry then s else s.addLine y pixels

/-- An active line has ended with these pixels. -/
def State.endLine (s : State) (pixels : List Pixel) : State :=
  match s.lrx.record with
  | none => s
  | some r =>
    let width := r.width.getD pixels.length
    let wrong := decide (pixels.length ≠ width)
    let damaged := s.lrx.lineDamaged || wrong
    let off := r.offGeometry || s.lrx.offBy r pixels.length
    let after : FrameRec :=
      { r with width := some width, lines := r.lines + 1, damaged := r.damaged || damaged, offGeometry := off }
    let s := { s with lrx := { s.lrx with record := some after, lineDamaged := false } }
    let s := s.handLine r.lines pixels damaged off width
    if wrong then s.linkError else s

/-- The line that a marker ends, if there is one. DESIGN CHOICE (notes/assumptions/13.md). -/
def State.endLast (s : State) (last : Option (List Pixel)) : State :=
  match last with
  | some pixels => s.endLine pixels
  | none => s

/-- ACTIVE_LINE (R4). -/
def execActiveLine (dt : Nat) (pixels : List Pixel) (s : State) : Host.Outcome State Fault Refusal :=
  .next ((s.advance dt).endLine pixels)

/-! ## The end of a frame (R1, R8, R9) -/

/-- The frame is good (R1): width, height, errors and lines. -/
def FrameRec.good (r : FrameRec) (limit : Nat) : Bool :=
  match r.width with
  | some w =>
    decide (128 ≤ w ∧ w ≤ 4096) && decide (72 ≤ r.lines ∧ r.lines ≤ 2304) && decide (r.errors < limit) && !r.damaged
  | none => false

/-- The frame's geometry. -/
def FrameRec.geometry (r : FrameRec) : Geometry := ⟨r.width.getD 0, r.lines⟩

/-- The acquisition run after a frame (R8). -/
def Lrx.updateRun (l : Lrx) (r : FrameRec) (good : Bool) : Lrx :=
  if good then
    { l with
      candidate := some r.geometry
      runCount := if l.candidate = some r.geometry then l.runCount + 1 else 1 }
  else l.emptyRun

/-- The active end of a frame in ACQUIRING: the run, and the lock (R8). -/
def State.acquire (s : State) (r : FrameRec) (good : Bool) : State :=
  let s := { s with lrx := s.lrx.updateRun r good }
  if s.mem.active Config.lockFrames ≤ s.lrx.runCount then
    let s := { s with lrx := { s.lrx.emptyRun with locked := s.lrx.candidate } }
    s.changeInput .locked
  else s

/-- The input leaves LOCKED for ACQUIRING at the end of a frame (R9). -/
def State.leaveLock (s : State) : State :=
  let s := { s with lrx := s.lrx.emptyRun }
  (s.changeInput .acquiring).stopFollowing

/-- The active end of a followed frame that kept its geometry: statistics complete, and the solve it triggers (R66,
R73). -/
def State.statisticsEnd (s : State) : State :=
  match s.ftu.state with
  | .freeRun => s
  | .following =>
    let s := { s with ftu := { s.ftu with delay := s.ftu.delay ++ [Delayed.activeEnd] } }
    s.completeStatistics.startSolve .statistics

/-- The frame's active end arrived after fewer lines than the locked height (R9). -/
def Lrx.shortOf (l : Lrx) (r : FrameRec) : Bool :=
  match l.locked with
  | some g => decide (r.lines < g.height)
  | none => false

/-- The SETTINGS entries that an active end reads, by rising index (R176): LOCK_FRAMES, in ACQUIRING only, and
LOS_ERROR_LIMIT. -/
def Lrx.judgedBy (l : Lrx) : List Nat :=
  match l.input with
  | .acquiring => [Config.lockFrames, Config.losErrorLimit]
  | .noSignal | .locked => [Config.losErrorLimit]

/-- The open frame is judged at its active end (R1). -/
def State.endFrame (s : State) : State :=
  match s.lrx.record with
  | none => s
  | some r =>
    let s := s.readSettings s.lrx.judgedBy
    let good := r.good (s.mem.active Config.losErrorLimit)
    let s := { s with lrx := s.lrx.closeRecord }
    match s.lrx.input with
    | .noSignal => s
    | .acquiring => s.acquire r good
    | .locked => if r.offGeometry || s.lrx.shortOf r then s.leaveLock else s.statisticsEnd

/-- INPUT_ACTIVE_END (R1). -/
def execInputActiveEnd (dt : Nat) (last : Option (List Pixel)) (s : State) : Host.Outcome State Fault Refusal :=
  .next ((s.advance dt).endLast last).endFrame

/-- The open frame is truncated by a frame-start marker: it is not good (R1, R8, R9). -/
def State.truncate (s : State) : State :=
  match s.lrx.record with
  | none => s
  | some _ =>
    let s := { s with lrx := s.lrx.closeRecord }
    match s.lrx.input with
    | .locked => s.leaveLock
    | .acquiring | .noSignal => { s with lrx := s.lrx.emptyRun }

/-- The measured period and the state at a marker: the marker that leaves NO_SIGNAL has no predecessor (R8, R11). -/
def State.measure (s : State) : State :=
  match s.lrx.input with
  | .noSignal => ({ s with lrx := s.lrx.emptyRun }).changeInput .acquiring
  | .acquiring | .locked => { s with lrx := { s.lrx with period := s.clock.now - s.lrx.lastMarker } }

/-- The FTU's part of an input frame-start marker: in LOCKED it begins to follow, or goes on following (R12, R15). A
foreign packet taken between the active end and this marker has no output blanking line, and is discarded here. DESIGN
CHOICE (notes/assumptions/31.md). -/
def State.markerToFtu (s : State) : State :=
  match s.lrx.input, s.ftu.state with
  | .locked, .freeRun => s.startFollowing
  | .locked, .following => { s with ftu := { s.ftu with delay := s.ftu.delay ++ [.start], forward := [] } }
  | .noSignal, _ | .acquiring, _ => s

/-- The marker opens a record and starts the timeout that FRAME_TIMEOUT gives now (R1, R10). -/
def State.openFrame (s : State) : State :=
  let s := s.readSetting Config.frameTimeout
  { s with lrx := { s.lrx.clearMarks with
      record := some .opened
      lastMarker := s.clock.now
      timeout := s.mem.active Config.frameTimeout } }

/-- FRAME_START_MARKER (R1). FRAME_TIMEOUT is read after the frame turn of a truncated frame's close, and before that of
a free-run frame that this marker cuts short. DESIGN CHOICE (notes/assumptions/26.md). Where the line that the marker
ends brings the errors to LOS_ERROR_LIMIT, the same marker then leaves NO_SIGNAL. DESIGN CHOICE
(notes/assumptions/32.md). -/
def execFrameStartMarker (dt : Nat) (last : Option (List Pixel)) (s : State) : Host.Outcome State Fault Refusal :=
  .next ((s.advance dt).endLast last).truncate.measure.openFrame.markerToFtu

/-- FRAME_TIMEOUT (R10): the wait since the last marker is over. -/
def execFrameTimeout (dt : Nat) (s : State) : Host.Outcome State Fault Refusal :=
  let s := s.advance dt
  .next <|
    match s.lrx.input with
    | .noSignal => s
    | .acquiring | .locked => (s.advanceTo (s.lrx.lastMarker + s.lrx.timeout)).loseSignal

/-! ## Character errors and slips (R2, R3, R5) -/

/-- A packet can be taken on a blanking line between two frames (R2). DESIGN CHOICE (notes/assumptions/13.md). -/
def Lrx.takesBetween (l : Lrx) : Bool := l.record.isNone && decide (l.input ≠ .noSignal)

/-- What an error inside a line or a packet leaves: a damaged active line of the open frame, or an errored packet. A
blanking line after the first active line is an active line (R1). -/
def Lrx.markError (l : Lrx) (place : LinkPlace) : Lrx :=
  match l.record, place with
  | none, .blankingLine k => if l.takesBetween then { l with packetErrored := some k } else l
  | none, .activeLine | _, .elsewhere => l
  | some _, .activeLine => { l with lineDamaged := true }
  | some r, .blankingLine k =>
    if r.lines = 0 then { l with packetErrored := some k } else { l with lineDamaged := true }

/-- CHARACTER_ERROR (R5). -/
def execCharacterError (dt : Nat) (place : LinkPlace) (s : State) : Host.Outcome State Fault Refusal :=
  let s := s.advance dt
  .next ({ s with lrx := s.lrx.markError place }).linkError

/-- What a slip leaves: a damaged active line of the open frame, or a lost packet (R3). -/
def Lrx.markSlip (l : Lrx) (place : LinkPlace) : Lrx :=
  let damage (r : FrameRec) : Lrx := { l with lineDamaged := true, record := some { r with damaged := true } }
  match l.record, place with
  | none, .blankingLine k => if l.takesBetween then { l with packetLost := some k } else l
  | none, .activeLine | _, .elsewhere => l
  | some r, .activeLine => damage r
  | some r, .blankingLine k => if r.lines = 0 then { l with packetLost := some k } else damage r

/-- ELASTIC_BUFFER_SLIP (R3): the buffer is re-centred and its content discarded. -/
def execElasticBufferSlip (dt : Nat) (place : LinkPlace) (s : State) : Host.Outcome State Fault Refusal :=
  let s := s.advance dt
  let s := { s with lrx := { s.lrx.markSlip place with elastic := ⟨0, true⟩ } }
  .next ((s.raise .lineSlip).count .lineSlips 1)

/-! ## Side packets (R2, R22 to R26) -/

/-- A packet for the part arrives at the command unit. -/
def State.arrive (s : State) (errored : Bool) (bytes : List Byte) : State :=
  if packetPasses errored bytes then
    if s.cmd.queue.length < Config.commandQueue then
      ({ s with cmd := { s.cmd with queue := s.cmd.queue ++ [parsePacket bytes] } }).takeNext
    else s.countPacketError .packetDropped .packetsDropped
  else s.countPacketError .packetCrcError .packetCrcErrors

/-- A foreign packet or a broadcast is offered to the FTU: it forwards it while it follows; an errored one is discarded
(R2, R12, R13). -/
def State.offer (s : State) (line : Nat) (errored : Bool) (bytes : List Byte) : State :=
  match s.ftu.state with
  | .freeRun => s
  | .following =>
    if errored then s else { s with ftu := { s.ftu with forward := s.ftu.forward ++ [(line, bytes)] } }

/-- A whole packet is routed by its tag (R2, R23). -/
def State.route (s : State) (line : Nat) (errored : Bool) (bytes : List Byte) : State :=
  let tag := bytes.getD 0 0
  let mine := s.tag
  let s := if tag = mine ∨ tag = Config.broadcastTag then s.arrive errored bytes else s
  if tag = mine then s else s.offer line errored bytes

/-- The bytes of a blanking line: one packet, whose own length field gives its extent, and perhaps more bytes (R2). The
active DEVICE_TAG is read at the tag byte. A line that ends before its packet's length field declares no length: it is
discarded with one character error, as a packet that runs past its line is. DESIGN CHOICE (notes/assumptions/25.md). -/
def State.takePacket (s : State) (line : Nat) (errored : Bool) (bytes : List Byte) : State :=
  let s := s.readSetting Config.deviceTag
  match declaredLength bytes with
  | some n =>
    if n ≤ bytes.length then
      let s := s.route line errored (bytes.take n)
      if n < bytes.length then s.linkError else s
    else s.linkError
  | none => s.linkError

/-- SIDE_PACKET (R2): discarded in NO_SIGNAL, and on a blanking line that is an active line (R1). DESIGN CHOICE for the
latter's pixel count and for a line with no open record (notes/assumptions/13.md). -/
def execSidePacket (dt line : Nat) (bytes : List Byte) (s : State) : Host.Outcome State Fault Refusal :=
  let s := s.advance dt
  let errored := decide (s.lrx.packetErrored = some line)
  let lost := decide (s.lrx.packetLost = some line)
  let isActive := match s.lrx.record with
    | some r => decide (0 < r.lines)
    | none => false
  .next <|
    match s.lrx.input, bytes with
    | .noSignal, _ | _, [] => s
    | .acquiring, _ :: _ | .locked, _ :: _ =>
      if isActive then s.endLine []
      else
        let s := { s with lrx := { s.lrx with packetErrored := none, packetLost := none } }
        if lost then s else s.takePacket line errored bytes

end Sys2Proof.Machine
end

