-- ==== Sys2Proof/Machine/Execution.lean ====
section
/-! DEFINITION. How a command executes (R27, R29, R31, R33): the packet in flight, the checks every command shares,
the reply, and the end of the execution. SIDE_PACKET puts packets in the queue and the command unit takes them; the
18 command rows and BAD_COMMAND each execute a packet in flight of their own code: DEDUCED
(notes/assumptions/5.md). -/

namespace Sys2Proof.Machine

/-- What a command answers at its execution. -/
structure Answer where
  result : Result
  reason : Reason
  final  : Bool
  data   : List Word
  deriving DecidableEq, Repr

/-- A refusal, or a result without data. -/
def Answer.plain (r : Result) : Answer := ⟨r, .none, true, []⟩
/-- OK with data. -/
def Answer.ok (data : List Word) : Answer := ⟨.ok, .none, true, data⟩

/-- No command is in flight any longer; its reservations go with it. -/
def State.release (s : State) : State := { s with cmd := { s.cmd with inFlight := none } }

/-- The reply of the packet, if it is no broadcast (R31, R33). -/
def State.answer (s : State) (p : Packet) (a : Answer) : State :=
  if p.broadcast then s else s.fill p.seq p.code a.result a.reason a.final a.data

/-- The execution ends: the reservation is filled, the lane and the command unit look again (R26, R29, R32). -/
def State.finish (s : State) (p : Packet) (a : Option Answer) : State :=
  match a with
  | some a => (s.release.answer p a).pump
  | none => s.release.pump

/-- The packet in flight, if its code is `code`. -/
def State.flying (s : State) (code : Byte) : Option Packet :=
  match s.cmd.inFlight with
  | some f => if f.packet.code = code then some f.packet else none
  | none => none

/-- One execution (R27): `silent` says that a broadcast of this command is discarded (R31), `accepts` gives its payload
lengths, `body` makes its own checks and takes its effect; a body that answers nothing leaves its reply owed. -/
def State.execute (s : State) (code : Byte) (silent : Bool) (accepts : Nat → Bool)
    (body : Packet → State → State × Option Answer) : State :=
  match s.flying code with
  | some p =>
    if silent && p.broadcast then s.finish p none
    else if accepts p.payload.length then
      let r := body p s
      r.1.finish p r.2
    else s.finish p (some (.plain .badLength))
  | none => s

/-- The payload length is exactly `n`. -/
def exactly (n : Nat) : Nat → Bool := fun m => m == n

/-- A refusal by a command's own check: nothing changes. -/
def refusal (s : State) (r : Result) : State × Option Answer := (s, some (.plain r))

/-- OK without data. -/
def accepted (s : State) : State × Option Answer := (s, some (.ok []))

end Sys2Proof.Machine
end

