-- ==== Sys2Proof/Machine/Tables.lean ====
section
/-! DEFINITION. The table commands (`03_loaded_tables.md`): WRITE_TABLE, READ_TABLE with the packing of every table's
words (R184), COMMIT and CANCEL_COMMIT. -/

namespace Sys2Proof.Machine

/-! ## What a write stores (R51, R53, R55, R56) -/

/-- A 32-bit value of two words, high word first. -/
def pairValue (ws : List Word) : Nat := (joinWords (ws.getD 0 0) (ws.getD 1 0)).toNat

/-- The refusals of an entry (R41, step 5). -/
def entryRefused (table entry : Nat) (ws : List Word) : Bool :=
  match table with
  | 0 =>
    let r := Config.setting entry
    r.refuse && (decide (pairValue ws < r.lo) || decide (r.hi < pairValue ws))
  | 1 =>
    match (MapEntry.ofWords (ws.getD 0 0) (ws.getD 1 0)).channel with
    | some c => decide (7 < c.chain) || decide (23 < c.device)
    | none => false
  | _ => false

/-- A value brought into a range. -/
def clampTo (lo hi v : Nat) : Nat := max lo (min hi v)

/-- The words an entry is stored as. -/
def storedEntry (table entry : Nat) (ws : List Word) : List Word :=
  match table with
  | 0 =>
    let r := Config.setting entry
    natWords (clampTo r.lo r.hi (pairValue ws))
  | 1 =>
    let w0 := ws.getD 0 0
    let w1 := ws.getD 1 0
    [if w0.getLsbD 15 then w0 &&& 0xFFFC else 0, if w1.toNat / 256 = 0 then w1 ||| 0x0100 else w1]
  | 2 => [if 4095 < (ws.getD 0 0).toNat then 0x0FFF else ws.getD 0 0]
  | _ => [ws.getD 0 0]

/-- A value of the entry is clamped as it is stored (R42). -/
def entryClamped (table entry : Nat) (ws : List Word) : Bool :=
  match table with
  | 0 =>
    let r := Config.setting entry
    decide (pairValue ws < r.lo) || decide (r.hi < pairValue ws)
  | 1 => decide ((ws.getD 1 0).toNat / 256 = 0)
  | 2 => decide (4095 < (ws.getD 0 0).toNat)
  | _ => false

/-- Data words cut into entries of `n` words. -/
def entriesOf (n count : Nat) (data : List Word) : List (List Word) :=
  (List.range count).map (fun i => (data.drop (i * n)).take n)

/-- Store the words of an entry, from word `i` of memory `m` on. -/
def State.writeWords (s : State) (m : Nat) : Nat → List Word → State
  | _, [] => s
  | i, w :: ws => (s.writeWord (wordKey m i) w).writeWords m (i + 1) ws

/-- Store entries of table `t` into its staging bank, from entry `e` on. -/
def State.storeEntries (s : State) (t : Nat) : Nat → List (List Word) → State
  | _, [] => s
  | e, ws :: rest =>
    (s.writeWords (bankMemory t 0) (e * Config.wordsPerEntry t) (storedEntry t e ws)).storeEntries t (e + 1) rest

/-- WRITE_TABLE's checks and effect (R41, R42). -/
def writeTable (p : Packet) (s : State) : State × Option Answer :=
  let t := p.arg 0
  let start := p.arg 1
  let data := p.payload.drop 2
  let per := Config.wordsPerEntry t
  let n := data.length / per
  let entries := (entriesOf per n data).zipIdx start
  if 7 < t then refusal s .badTable
  else if 3 < t then refusal s .readOnly
  else if data.length % per ≠ 0 then refusal s .badLength
  else if Config.tableEntries t ≤ start ∨ Config.tableEntries t < start + n then refusal s .range
  else if entries.any (fun e => entryRefused t e.2 e.1) then refusal s .range
  else
    let clamped := entries.any (fun e => entryClamped t e.2 e.1)
    (s.storeEntries t start (entries.map Prod.fst), some (.plain (if clamped then .clamped else .ok)))

/-- WRITE_TABLE (R41). -/
def execWriteTable (dt : Nat) (s : State) : Host.Outcome State Fault Refusal :=
  .next ((s.advance dt).execute Config.codeWriteTable false (fun n => decide (3 ≤ n ∧ n ≤ 120)) writeTable)

/-! ## The words of the live tables (R184) -/

def FaultLatch.code : FaultLatch → Nat
  | .clear => 0 | .opened => 1 | .shorted => 2

def DeviceState.code : DeviceState → Nat
  | .unknown => 0 | .ok => 1 | .noResponse => 2

def ErrorKind.code : ErrorKind → Nat
  | .corrected => 1 | .uncorrectable => 2

def Activity.code : Activity → Nat
  | .idle => 0 | .burst _ _ _ => 1 | .darkBurst _ _ => 2 | .latch _ => 3 | .enumerate _ => 4 | .passRequest => 5

/-- The eight words of ZONE_STATE entry `z`. -/
def State.zoneWords (s : State) (z : Nat) : List Word :=
  let st := statAt s.stu.stats z
  [wordOfNat (st.peak + 4096 * (s.chc.latch z).code), wordOfNat st.mean,
   wordOfNat (sparseGet (fun _ => 0) s.pxc.display z),
   wordOfNat (256 * compactCode st.bright + compactCode st.count),
   s.mem.word (zoneT z), s.mem.word (zoneF z), s.mem.word (zoneL4 z), s.mem.word (zoneDuty z)]

/-- The low word of a frame number, 0 when absent. -/
def lowWord (f : Option Dword) : Word :=
  match f with
  | some d => d.extractLsb' 0 16
  | none => 0

/-- The four words of CHAIN_STATE entry `k`; its waiting burst is the update burst that waits (R118, R136). -/
def State.chainWords (s : State) (k : ChainNo) : List Word :=
  let c := s.chc.chains[k]
  [wordOfNat (c.count + 32 * flag c.overlength + 64 * c.activity.code + 512 * flag c.awaiting.isSome +
      1024 * flag c.waiting.isSome + 2048 * flag c.latchPending + 4096 * flag c.overTemp +
      8192 * flag c.doneTag.isSome + 16384 * flag c.lastLatch.isSome + 32768 * flag c.enumerating),
   wordOfNat ((s.sns.results.toList.getD k.val 0) + 1024 * s.sns.thermal[k].code + 4096 * flag s.sns.sensorFault[k]),
   lowWord (c.doneTag.map SolveTag.frame), lowWord c.lastLatch]

/-- The three words of DEVICE_STATE entry `d`. -/
def State.deviceWords (s : State) (d : Nat) : List Word :=
  let r := s.chc.device d
  [wordOfNat (r.state.code + 4 * r.misses + 64 * flag r.overTemp), r.opens, r.shorts]

/-- The four words of ERROR_LOG entry `i`, zeros where there is none. -/
def State.logWords (s : State) (i : Nat) : List Word :=
  match s.imn.log[i]? with
  | some e => [wordOfNat (e.memory + 16 * e.kind.code), wordOfNat e.index] ++ dwordWords e.frame
  | none => [0, 0, 0, 0]

/-- The words of entry `e` of table `t`, bank `b`. -/
def State.entryWords (s : State) (t b e : Nat) : List Word :=
  match t with
  | 4 => s.zoneWords e
  | 5 => if h : e < 8 then s.chainWords ⟨e, h⟩ else []
  | 6 => s.deviceWords e
  | 7 => s.logWords e
  | _ =>
    (List.range (Config.wordsPerEntry t)).map
      (fun i => s.mem.word (wordKey (bankMemory t b) (e * Config.wordsPerEntry t + i)))

/-- The reads of a READ_TABLE through the integrity monitor: the words of a loaded table or of ZONE_STATE. -/
def State.readEntries (s : State) (t b start count : Nat) : State :=
  if t ≤ 4 then
    let m := if t = 4 then 8 else bankMemory t b
    s.readRange (wordKey m (start * Config.wordsPerEntry t)) (count * Config.wordsPerEntry t)
  else s

/-- READ_TABLE's checks and effect (R43, R44). -/
def readTable (p : Packet) (s : State) : State × Option Answer :=
  let t := p.arg 0
  let b := p.arg 1
  let start := p.arg 2
  let count := p.arg 3
  if 7 < t then refusal s .badTable
  else if (if t ≤ 3 then 1 else 0) < b then refusal s .badTable
  else if count = 0 ∨ 112 < count * Config.wordsPerEntry t then refusal s .range
  else if Config.tableEntries t ≤ start ∨ Config.tableEntries t < start + count then refusal s .range
  else
    let s := s.readEntries t b start count
    let head := p.payload.take 4 ++ [s.tbs.marks.zeroExtend 16] ++ dwordWords s.ftu.frameNumber
    (s, some (.ok (head ++ (List.range count).flatMap (fun i => s.entryWords t b (start + i)))))

/-- READ_TABLE (R43). -/
def execReadTable (dt : Nat) (s : State) : Host.Outcome State Fault Refusal :=
  .next ((s.advance dt).execute Config.codeReadTable true (exactly 4) readTable)

/-! ## COMMIT and CANCEL_COMMIT (R45, R47) -/

/-- COMMIT's checks and effect. Of the named staging banks it reads the ZONE_MAP alone: DESIGN CHOICE
(notes/assumptions/37.md). -/
def commitTables (p : Packet) (s : State) : State × Option Answer :=
  if 15 < p.arg 0 then refusal s .badTable
  else
    let mask := BitVec.ofNat 4 (p.arg 0)
    let r := s.validateStaging mask
    let s := r.1
    if r.2 then accepted { s with tbs := { s.tbs with marks := s.tbs.marks ||| mask } }
    else (s, some ⟨.configInvalid, .duplicateChannel, true, []⟩)

/-- COMMIT (R45). -/
def execCommit (dt : Nat) (s : State) : Host.Outcome State Fault Refusal :=
  .next ((s.advance dt).execute Config.codeCommit false (exactly 1) commitTables)

/-- CANCEL_COMMIT's effect. -/
def cancelCommit (_ : Packet) (s : State) : State × Option Answer :=
  accepted { s with tbs := { s.tbs with marks := 0 } }

/-- CANCEL_COMMIT (R47). -/
def execCancelCommit (dt : Nat) (s : State) : Host.Outcome State Fault Refusal :=
  .next ((s.advance dt).execute Config.codeCancelCommit false (exactly 0) cancelCommit)

end Sys2Proof.Machine
end

