-- ==== Sys2Proof/Machine/Commands.lean ====
section
/-! DEFINITION. The other commands of the source: identity, mode, status, counters, faults, enumeration,
pass-through, sensing, the error log, the frame clock; and BAD_COMMAND. Each `exec` runs the packet in flight of its
own code. -/

namespace Sys2Proof.Machine

/-! ## Identity (R35) -/

def identify (_ : Packet) (s : State) : State × Option Answer :=
  let s := s.readSetting Config.deviceTag
  (s, some (.ok [Config.partCode, Config.siliconRevision, wordOfNat (s.mem.active Config.deviceTag)]))

/-- IDENTIFY (R35). -/
def execIdentify (dt : Nat) (s : State) : Host.Outcome State Fault Refusal :=
  .next ((s.advance dt).execute Config.codeIdentify true (exactly 0) identify)

/-! ## Mode (R150) -/

/-- An enumeration is waiting or running on any chain (R34, R129, R150). -/
def Chc.enumerating (c : Chc) : Bool := c.chains.toList.any ChainRec.enumerating

def setMode (p : Packet) (s : State) : State × Option Answer :=
  match Mode.ofNat? (p.arg 0) with
  | none => refusal s .range
  | some target =>
    if s.mdc.request.isSome then refusal s .busy
    else if s.chc.enumerating then refusal s .busy
    else accepted { s with mdc := { s.mdc with request := some target } }

/-- SET_MODE (R150). -/
def execSetMode (dt : Nat) (s : State) : Host.Outcome State Fault Refusal :=
  .next ((s.advance dt).execute Config.codeSetMode false (exactly 1) setMode)

/-! ## Status and counters (R170, R172) -/

/-- The 34 data words of READ_STATUS. -/
def State.statusWords (s : State) : List Word :=
  let g := s.lrx.locked.getD ⟨0, 0⟩
  let w := s.watched
  s.rpu.counters.list.flatMap natWords ++ [wordOfNat g.width, wordOfNat g.height] ++ natWords s.lrx.period ++
    [wordOfNat (256 * w.input.code + w.mode.code), wordOfNat (thermalWord w.thermal),
     wordOfNat (flag w.foldback + 2 * flag s.attention), wordOfNat w.faults, wordOfNat w.noResponse,
     wordOfNat w.logEntries]

def readStatus (_ : Packet) (s : State) : State × Option Answer :=
  ({ s with rpu := { s.rpu with snapshot := s.watched } }, some (.ok s.statusWords))

/-- READ_STATUS (R172). -/
def execReadStatus (dt : Nat) (s : State) : Host.Outcome State Fault Refusal :=
  .next ((s.advance dt).execute Config.codeReadStatus true (exactly 0) readStatus)

def clearCounters (_ : Packet) (s : State) : State × Option Answer :=
  accepted { s with rpu := { s.rpu with counters := .zero } }

/-- CLEAR_COUNTERS (R170). -/
def execClearCounters (dt : Nat) (s : State) : Host.Outcome State Fault Refusal :=
  .next ((s.advance dt).execute Config.codeClearCounters false (exactly 0) clearCounters)

/-! ## Faults (R128) -/

/-- The index of a channel's confirmation record. -/
def Channel.index (c : Channel) : Nat :=
  (c.chain * Config.devicesPerChain + c.device) * Config.channelsPerDevice + c.channel

/-- The records of the channels that the active map maps zones `first` to `last` to. -/
def State.coveredChannels (s : State) (first last : Nat) : List Nat :=
  (List.range (last + 1 - first)).filterMap (fun i => (s.mem.mapEntry 1 (first + i)).channel.map Channel.index)

/-- The zones of a range whose fault latch is set. -/
def Chc.faultyZones (c : Chc) (covered : Nat → Bool) : List Nat :=
  (c.latches.map Prod.fst).filter (fun z => covered z && decide (c.latch z ≠ .clear))

/-- These zones are not lit by the last solved set, nor by the set of a solve in flight (R91, R103). -/
def Lvs.keepDark (l : Lvs) (zones : List Nat) : Lvs :=
  { l with
    unlit := sparseMark l.unlit zones
    solve := l.solve.map (fun v => { v with unlit := sparseMark v.unlit zones }) }

/-- Every latch is cleared and every count restarts. -/
def clearAllFaults (s : State) : State × Option Answer :=
  ({ s with
    chc := { s.chc with latches := [], openCount := [], shortCount := [] }
    lvs := s.lvs.keepDark (s.chc.faultyZones (fun _ => true)) },
    some (.ok [wordOfNat s.chc.setLatches]))

/-- The latches of a range of zones are cleared, and the counts of their channels restart. -/
def clearFaultRange (first last : Nat) (s : State) : State × Option Answer :=
  let s := s.readRange (wordKey 3 (2 * first)) (2 * (last + 1 - first))
  let channels := s.coveredChannels first last
  let covered (z : Nat) : Bool := decide (first ≤ z) && decide (z ≤ last)
  let cleared := s.chc.latches.countP (fun e => covered e.1 && decide (e.2 ≠ .clear))
  ({ s with
    chc := { s.chc with
      latches := sparseClear covered s.chc.latches
      openCount := sparseClear channels.contains s.chc.openCount
      shortCount := sparseClear channels.contains s.chc.shortCount }
    lvs := s.lvs.keepDark (s.chc.faultyZones covered) },
    some (.ok [wordOfNat cleared]))

def clearFaults (p : Packet) (s : State) : State × Option Answer :=
  if p.payload.isEmpty then clearAllFaults s
  else if p.arg 0 ≤ p.arg 1 ∧ p.arg 1 < Config.zones then clearFaultRange (p.arg 0) (p.arg 1) s
  else refusal s .range

/-- CLEAR_FAULTS (R128). -/
def execClearFaults (dt : Nat) (s : State) : Host.Outcome State Fault Refusal :=
  .next ((s.advance dt).execute Config.codeClearFaults false (fun n => n == 0 || n == 2) clearFaults)

/-! ## Enumeration and pass-through (R129, R132) -/

def enumerateChain (p : Packet) (s : State) : State × Option Answer :=
  if h : p.arg 0 < 8 then
    let k : ChainNo := ⟨p.arg 0, h⟩
    if s.mdc.mode ≠ .standby then refusal s .notInMode
    else if s.chc.enumerating then refusal s .busy
    else accepted ((s.setChain k { s.chc.chains[k] with enumWaiting := true }).arbitrate k)
  else refusal s .range

/-- ENUMERATE_CHAIN (R129). -/
def execEnumerateChain (dt : Nat) (s : State) : Host.Outcome State Fault Refusal :=
  .next ((s.advance dt).execute Config.codeEnumerateChain false (exactly 1) enumerateChain)

/-- The bytes a DRIVER_PASS carries. -/
def Packet.passBytes (p : Packet) : List Byte := (unpackWords (p.payload.drop 3)).take (p.arg 2)

def driverPass (p : Packet) (s : State) : State × Option Answer :=
  if h : p.arg 0 < 8 then
    let k : ChainNo := ⟨p.arg 0, h⟩
    if 23 < p.arg 1 ∨ p.arg 2 = 0 ∨ 8 < p.arg 2 then refusal s .range
    else if Config.passQueue ≤ s.chc.passQueue.length then refusal s .busy
    else
      let entry : PassEntry := ⟨k, p.arg 1, p.passBytes, p.seq, false⟩
      let outcome : Owed := ⟨p.seq, p.code, .chains⟩
      let s := { s with
        chc := { s.chc with passQueue := s.chc.passQueue ++ [entry] }
        cmd := { s.cmd with owed := s.cmd.owed ++ [outcome] } }
      (s.arbitrate k, some ⟨.ok, .none, false, []⟩)
  else refusal s .range

/-- DRIVER_PASS (R132). -/
def execDriverPass (dt : Nat) (s : State) : Host.Outcome State Fault Refusal :=
  .next ((s.advance dt).execute Config.codeDriverPass true (exactly 7) driverPass)

/-! ## Sensing (R141, R142) -/

def senseStart (p : Packet) (s : State) : State × Option Answer :=
  if 8 < p.arg 0 then refusal s .range
  else
    match s.sns.converter with
    | .idle =>
      let outcome : Owed := ⟨p.seq, p.code, .sense⟩
      ({ s with
        sns := { s.sns with converter := .manual (p.arg 0) s.clock.now }
        cmd := { s.cmd with owed := s.cmd.owed ++ [outcome] } }, none)
    | .scanning _ _ | .manual _ _ => refusal s .busy

/-- SENSE_START (R141). -/
def execSenseStart (dt : Nat) (s : State) : Host.Outcome State Fault Refusal :=
  .next ((s.advance dt).execute Config.codeSenseStart true (exactly 1) senseStart)

def senseAbort (_ : Packet) (s : State) : State × Option Answer := accepted s.stopConverter

/-- SENSE_ABORT (R142). -/
def execSenseAbort (dt : Nat) (s : State) : Host.Outcome State Fault Refusal :=
  .next ((s.advance dt).execute Config.codeSenseAbort false (exactly 0) senseAbort)

/-! ## Memory integrity (R180, R181) -/

def errorLogClear (_ : Packet) (s : State) : State × Option Answer :=
  ({ s with imn := { s.imn with log := [], overflow := false, lost := 0 } },
    some (.ok [wordOfNat s.imn.log.length, wordOfNat (flag s.imn.overflow), wordOfNat s.imn.lost]))

/-- ERROR_LOG_CLEAR (R180). -/
def execErrorLogClear (dt : Nat) (s : State) : Host.Outcome State Fault Refusal :=
  .next ((s.advance dt).execute Config.codeErrorLogClear false (exactly 0) errorLogClear)

/-- The kind that an INJECT_ERROR value names. -/
def ErrorKind.ofNat? : Nat → Option ErrorKind
  | 0 => some .corrected
  | 1 => some .uncorrectable
  | _ => none

def injectError (p : Packet) (s : State) : State × Option Answer :=
  if 8 < p.arg 0 then refusal s .badTable
  else if Config.memoryWords (p.arg 0) ≤ p.arg 1 ∨ (p.arg 0 = 8 ∧ p.arg 1 % 8 < 4) then refusal s .range
  else
    match ErrorKind.ofNat? (p.arg 2) with
    | none => refusal s .range
    | some k =>
      accepted { s with imn := { s.imn with
        marks := sparsePut (fun _ => none) s.imn.marks (wordKey (p.arg 0) (p.arg 1)) (some k) } }

/-- INJECT_ERROR (R181). -/
def execInjectError (dt : Nat) (s : State) : Host.Outcome State Fault Refusal :=
  .next ((s.advance dt).execute Config.codeInjectError false (exactly 3) injectError)

/-! ## The frame clock (R19, R20) -/

def timeSet (p : Packet) (s : State) : State × Option Answer :=
  accepted { s with clock := { s.clock with frame := joinWords (p.payload.getD 0 0) (p.payload.getD 1 0) } }

/-- TIME_SET (R19). -/
def execTimeSet (dt : Nat) (s : State) : Host.Outcome State Fault Refusal :=
  .next ((s.advance dt).execute Config.codeTimeSet false (exactly 2) timeSet)

def timeAdjust (p : Packet) (s : State) : State × Option Answer :=
  accepted { s with ftu := { s.ftu with adjust := some (joinWords (p.payload.getD 0 0) (p.payload.getD 1 0)) } }

/-- TIME_ADJUST (R20). -/
def execTimeAdjust (dt : Nat) (s : State) : Host.Outcome State Fault Refusal :=
  .next ((s.advance dt).execute Config.codeTimeAdjust false (exactly 2) timeAdjust)

/-! ## Unknown codes (R27) and the return lane (R32) -/

/-- BAD_COMMAND (R27): the packet in flight names none of the 18 commands. -/
def execBadCommand (dt : Nat) (s : State) : Host.Outcome State Fault Refusal :=
  let s := s.advance dt
  .next <|
    match s.cmd.inFlight with
    | some f =>
      if Config.commandCodes.contains f.packet.code then s else s.finish f.packet (some (.plain .badCommand))
    | none => s

/-- TRANSMISSION_END (R32): the lane becomes IDLE and chooses again. -/
def execTransmissionEnd (dt : Nat) (s : State) : Host.Outcome State Fault Refusal :=
  let s := s.advance dt
  .next <|
    match s.cmd.lane with
    | some _ => ({ s with cmd := { s.cmd with lane := none } }).pump
    | none => s

end Sys2Proof.Machine
end

