-- ==== Sys2Proof/Machine/Resets.lean ====
section
/-! DEFINITION. POWER_ON, RESETN (R21) and SOFT_RESET (R36, R37). -/

namespace Sys2Proof.Machine

/-- POWER_ON (R21): every unit at its power-on values, the straps sampled. Frame 0 of free-run is due at once. -/
def execPowerOn (straps : BitVec 3) (s : State) : Host.Outcome State Fault Refusal :=
  .next { State.powerOn straps with pending := s.pending, draws := s.draws }

/-- RESETN (R21): the effect of power-on on every unit. -/
def execResetn (straps : BitVec 3) (s : State) : Host.Outcome State Fault Refusal :=
  .next { State.powerOn straps with pending := s.pending, draws := s.draws }

/-- A device record after SOFT_RESET: the state is kept (R137). -/
def DeviceRec.softReset (d : DeviceRec) : DeviceRec := { DeviceRec.reset with state := d.state }

/-- A chain record after SOFT_RESET: the count and OVERLENGTH are kept, and a dark burst waits where devices are
counted (R37, R135, R137). -/
def ChainRec.softReset (c : ChainRec) : ChainRec :=
  { ChainRec.reset with count := c.count, overlength := c.overlength, darkWaiting := decide (0 < c.count) }

/-- The chain controller after SOFT_RESET, before its arbiters choose (R137). -/
def Chc.softReset (c : Chc) : Chc :=
  { Chc.reset with
    chains := Vector.ofFn (fun k => c.chains[k].softReset)
    devices := sparseTabulate (fun _ => .reset) 0 (Config.tableEntries 6) (fun i => (c.device i).softReset)
    latches := c.latches
    latchLines := c.latchLines }

/-- An output active line in progress is cut off where it stands, `sent` pixels of it sent; a line sent whole stands, as
does any other item (R21). -/
def PanelItem.cutOff (p : PanelItem) (sent : Nat) : PanelItem :=
  match p with
  | .line pixels => if sent < pixels.length then .lineCut (pixels.take sent) else p
  | .nothing | .frameStart | .blanking _ _ | .lineCut _ | .activeEnd => p

/-- The units other than the command unit (R37): R21, R57, R71, R98, R115, R137, R149, R161, R175, R182. The frame
clock, the tables, the error log and the fault latches are kept. How far an output line was sent is a free value.
DESIGN CHOICE (notes/assumptions/24.md). -/
def State.resetUnits (s : State) : State :=
  let s := s.zeroZoneWords [4, 5, 6, 7]
  { s with
    draws := s.draws + 1
    lrx := .reset
    ftu := { Ftu.reset s.clock.now with panel := s.ftu.panel.cutOff (Config.pixelsSent s.draws) }
    tbs := { s.tbs with marks := 0, outcome := 0 }
    stu := .reset
    lvs := .reset
    pxc := .reset
    chc := s.chc.softReset
    sns := { Sns.reset with results := s.sns.results }
    mdc := .reset
    rpu := { Rpu.reset with notifyMask := s.rpu.notifyMask }
    imn := { s.imn with marks := [] } }

/-- The replies of SOFT_RESET: its own, unless it is a broadcast, then ABORTED for each owed reply (R36). -/
def State.resetReplies (s : State) (p : Packet) (owed : List Owed) : State :=
  owed.foldl (fun s o => s.fill o.seq o.code .aborted .none true []) (s.answer p (.ok []))

/-- SOFT_RESET's effect, in R36's order; the dark bursts start at once (R37). -/
def State.softReset (s : State) (p : Packet) : State :=
  let owed := s.cmd.owed
  let s := { s with cmd := { Cmd.reset with lane := s.cmd.lane } }
  let s := allChains.foldl State.arbitrate s.resetUnits
  (s.resetReplies p owed).pump

/-- SOFT_RESET (R36). -/
def execSoftReset (dt : Nat) (s : State) : Host.Outcome State Fault Refusal :=
  let s := s.advance dt
  .next <|
    match s.flying Config.codeSoftReset with
    | some p => if p.payload.isEmpty then s.softReset p else s.finish p (some (.plain .badLength))
    | none => s

end Sys2Proof.Machine
end

