-- ==== Sys2Proof/Machine/Dispatch.lean ====
section
/-! DEFINITION. The dispatch: one arm for each command of the table, each one call of its meaning. -/

namespace Sys2Proof.Machine

/-- The effect of a command on everything but the queue of waiting commands. -/
def exec (i : Instr) (s : State) : Host.Outcome State Fault Refusal :=
  match i with
  | .powerOn straps => Sys2Proof.Machine.execPowerOn straps s
  | .resetn straps => Sys2Proof.Machine.execResetn straps s
  | .frameStartMarker dt last => Sys2Proof.Machine.execFrameStartMarker dt last s
  | .activeLine dt pixels => Sys2Proof.Machine.execActiveLine dt pixels s
  | .sidePacket dt line bytes => Sys2Proof.Machine.execSidePacket dt line bytes s
  | .inputActiveEnd dt last => Sys2Proof.Machine.execInputActiveEnd dt last s
  | .characterError dt place => Sys2Proof.Machine.execCharacterError dt place s
  | .elasticBufferSlip dt place => Sys2Proof.Machine.execElasticBufferSlip dt place s
  | .frameTimeout dt => Sys2Proof.Machine.execFrameTimeout dt s
  | .outputFrameStart dt scanFirst => Sys2Proof.Machine.execOutputFrameStart dt scanFirst s
  | .outputBlankingLine dt line => Sys2Proof.Machine.execOutputBlankingLine dt line s
  | .firstActiveLine dt => Sys2Proof.Machine.execFirstActiveLine dt s
  | .outputLineBegin dt => Sys2Proof.Machine.execOutputLineBegin dt s
  | .outputActiveEnd dt => Sys2Proof.Machine.execOutputActiveEnd dt s
  | .solveComplete dt => Sys2Proof.Machine.execSolveComplete dt s
  | .burstDone dt chain => Sys2Proof.Machine.execBurstDone dt chain s
  | .darkBurstDone dt chain => Sys2Proof.Machine.execDarkBurstDone dt chain s
  | .readbackSlot dt chain bytes => Sys2Proof.Machine.execReadbackSlot dt chain bytes s
  | .latchSent dt chain => Sys2Proof.Machine.execLatchSent dt chain s
  | .releaseSent dt chain => Sys2Proof.Machine.execReleaseSent dt chain s
  | .assignmentSent dt chain => Sys2Proof.Machine.execAssignmentSent dt chain s
  | .acknowledgement dt chain bytes => Sys2Proof.Machine.execAcknowledgement dt chain bytes s
  | .enumAckTimeout dt chain => Sys2Proof.Machine.execEnumAckTimeout dt chain s
  | .passRequestSent dt chain => Sys2Proof.Machine.execPassRequestSent dt chain s
  | .passAnswer dt chain bytes => Sys2Proof.Machine.execPassAnswer dt chain bytes s
  | .passTimeout dt chain => Sys2Proof.Machine.execPassTimeout dt chain s
  | .conversionEnd dt raw => Sys2Proof.Machine.execConversionEnd dt raw s
  | .transmissionEnd dt => Sys2Proof.Machine.execTransmissionEnd dt s
  | .identify dt => Sys2Proof.Machine.execIdentify dt s
  | .writeTable dt => Sys2Proof.Machine.execWriteTable dt s
  | .readTable dt => Sys2Proof.Machine.execReadTable dt s
  | .commit dt => Sys2Proof.Machine.execCommit dt s
  | .cancelCommit dt => Sys2Proof.Machine.execCancelCommit dt s
  | .setMode dt => Sys2Proof.Machine.execSetMode dt s
  | .readStatus dt => Sys2Proof.Machine.execReadStatus dt s
  | .clearCounters dt => Sys2Proof.Machine.execClearCounters dt s
  | .clearFaults dt => Sys2Proof.Machine.execClearFaults dt s
  | .enumerateChain dt => Sys2Proof.Machine.execEnumerateChain dt s
  | .driverPass dt => Sys2Proof.Machine.execDriverPass dt s
  | .senseStart dt => Sys2Proof.Machine.execSenseStart dt s
  | .senseAbort dt => Sys2Proof.Machine.execSenseAbort dt s
  | .errorLogClear dt => Sys2Proof.Machine.execErrorLogClear dt s
  | .injectError dt => Sys2Proof.Machine.execInjectError dt s
  | .timeSet dt => Sys2Proof.Machine.execTimeSet dt s
  | .timeAdjust dt => Sys2Proof.Machine.execTimeAdjust dt s
  | .softReset dt => Sys2Proof.Machine.execSoftReset dt s
  | .badCommand dt => Sys2Proof.Machine.execBadCommand dt s

end Sys2Proof.Machine
end

