-- ==== Sys2Proof/Safety.lean ====
section
/-! DEFINITION. The terms in which claims about the part are made: what a command in flight is, what a reply on its way
is, what a step leaves alone, and the invariants that every step keeps. -/

namespace Sys2Proof.Machine

/-! ## Commands and replies -/

/-- The packet `p` is the command in flight, with the reservations R29 gives it. -/
def State.executing (s : State) (p : Packet) : Prop := s.cmd.inFlight = some ⟨p, p.reserves⟩

/-- The replies on their way, oldest first: the one on the lane and the filled ones. -/
def Cmd.outgoing (c : Cmd) : List Reply :=
  (match c.lane with
    | some (.reply r) => [r]
    | some (.report _) => []
    | none => []) ++ c.filled

/-- The reply to `p` that carries `result` and `data`, with the tag of the state in which it is built (R33). -/
def replyTo (t : State) (p : Packet) (result : Result) (data : List Word) : Reply :=
  ⟨t.tag, p.seq, p.code, result, .none, true, data⟩

/-- From `s` to `t` the command unit has queued these replies behind those on their way, and owes what it owed. -/
def State.replied (s t : State) (rs : List Reply) : Prop :=
  t.cmd.outgoing = s.cmd.outgoing ++ rs ∧ t.cmd.owed = s.cmd.owed

/-- The command in flight has ended: the command unit is free, or has taken the oldest packet (R26). -/
def State.tookNext (s t : State) : Prop :=
  (t.cmd.inFlight = none ∧ t.cmd.queue = s.cmd.queue) ∨
    ∃ q, t.cmd.inFlight = some ⟨q, q.reserves⟩ ∧ s.cmd.queue = q :: t.cmd.queue

/-- The command answers `result` and `data`, unless it is a broadcast, and ends. -/
def State.answered (s t : State) (p : Packet) (result : Result) (data : List Word) : Prop :=
  s.replied t (if p.broadcast then [] else [replyTo t p result data]) ∧ s.tookNext t

/-- No error and no injection mark waits at a word. -/
def State.cleanAt (s : State) (a : Nat) : Prop := s.verdict a = none

/-- No error and no injection mark waits in the active SETTINGS entry `i`. -/
def State.cleanSetting (s : State) (i : Nat) : Prop :=
  s.cleanAt (wordKey 1 (2 * i)) ∧ s.cleanAt (wordKey 1 (2 * i + 1))

/-- The packet in flight is `p`, of this code, and no error waits in the active DEVICE_TAG, which its reply reads. -/
def State.runs (s : State) (p : Packet) (code : Byte) : Prop :=
  s.executing p ∧ p.code = code ∧ s.cleanSetting Config.deviceTag

/-- No error and no injection mark waits anywhere. -/
def State.quiet (s : State) : Prop := s.imn.marks = [] ∧ s.imn.upsets = []

/-- `t` with the time, the command unit and the report slot of `s`: what the end of a command may change is put
back. -/
def State.restored (s t : State) : State :=
  { t with clock := s.clock, cmd := s.cmd, rpu := { t.rpu with slot := s.rpu.slot } }

/-- From `s` to `t` only time, the command unit and the report slot have changed. -/
def State.keptElsewhere (s t : State) : Prop := s.restored t = s

/-- One row of the command table: the code, the row's command, whether a broadcast of it is discarded (R31), and its
payload lengths ("Commands" of Wire Formats). -/
structure CommandRow where
  code    : Byte
  instr   : Nat → Instr
  silent  : Bool
  accepts : Nat → Bool

/-- The 18 commands. -/
def commandRows : List CommandRow :=
  [⟨0x01, .identify, true, (· == 0)⟩, ⟨0x10, .writeTable, false, fun n => decide (3 ≤ n ∧ n ≤ 120)⟩,
   ⟨0x11, .readTable, true, (· == 4)⟩, ⟨0x12, .commit, false, (· == 1)⟩, ⟨0x13, .cancelCommit, false, (· == 0)⟩,
   ⟨0x20, .setMode, false, (· == 1)⟩, ⟨0x30, .readStatus, true, (· == 0)⟩,
   ⟨0x31, .clearCounters, false, (· == 0)⟩, ⟨0x40, .clearFaults, false, fun n => n == 0 || n == 2⟩] ++
  [⟨0x41, .enumerateChain, false, (· == 1)⟩, ⟨0x42, .driverPass, true, (· == 7)⟩,
   ⟨0x50, .senseStart, true, (· == 1)⟩, ⟨0x51, .senseAbort, false, (· == 0)⟩,
   ⟨0x60, .errorLogClear, false, (· == 0)⟩, ⟨0x61, .injectError, false, (· == 3)⟩,
   ⟨0x70, .timeSet, false, (· == 2)⟩, ⟨0x71, .timeAdjust, false, (· == 2)⟩, ⟨0x7E, .softReset, false, (· == 0)⟩]

/-! ## Output frames -/

/-- The next output frame can start: none is in progress, and either a followed frame-start marker stands in the delay
(R12) or a free-run frame has its due time (R13, R14). -/
def State.frameStartDue (s : State) : Prop :=
  s.ftu.phase.isOver = true ∧
    ((s.ftu.state = .following ∧ ∃ rest, s.ftu.delay = .start :: rest) ∨
      (s.ftu.state = .freeRun ∧ ∃ due, s.ftu.freeDue = some due))

/-- The first active line can be taken: the frame is in its blanking, and a followed frame's line 0 has ended at the
input (R12, R13). -/
def State.firstLineDue (s : State) : Prop :=
  s.ftu.phase = .blanking ∧
    (s.ftu.state = .freeRun ∨ (s.ftu.state = .following ∧
      ∃ pixels damaged offGeometry width rest, s.ftu.delay = .line pixels damaged offGeometry width :: rest))

/-- The output active end can be sent (R12, R13). -/
def State.activeEndDue (s : State) : Prop :=
  (∃ n, s.ftu.phase = .active n) ∧
    (s.ftu.state = .freeRun ∨ (s.ftu.state = .following ∧ ∃ rest, s.ftu.delay = .activeEnd :: rest))

/-- The latest set carries this tag and references chain `k`, outside STANDBY, and the chain has not taken it (R100,
R101). -/
def State.offers (s : State) (k : ChainNo) (tag : SolveTag) : Prop :=
  s.mdc.mode ≠ .standby ∧ s.lvs.lastSet.tag = some tag ∧ s.lvs.lastSet.references k.val = true ∧
    s.pxc.taken[k] ≠ some tag

/-- Chain `k` takes the latest set at a first active line (R100). -/
def State.takesLatest (s : State) (k : ChainNo) : Prop :=
  ∃ tag, s.offers k tag ∧ s.chc.chains[k].doneTag = some tag

/-- Chain `k` is late at a first active line: its burst for the latest set is running or waiting (R101, R120). -/
def State.lateAtFirstLine (s : State) (k : ChainNo) : Prop :=
  ∃ tag, s.offers k tag ∧ s.chc.chains[k].doneTag ≠ some tag ∧
    ((∃ job devices slot, s.chc.chains[k].activity = .burst job devices slot ∧ job.tag = tag) ∨
      ∃ job, s.chc.chains[k].waiting = some job ∧ job.tag = tag)

/-! ## Solves -/

/-- The captured copy of the solve `v`, which starts in `s` over the grid record `g`: what R74 captures as it stands, R75's
duration in whole microseconds (notes/assumptions/2.md), the F of each grid zone and the jumps of R86 and R87 as they
are at the start (notes/assumptions/10.md); no zone is marked by a CLEAR_FAULTS yet (notes/assumptions/30.md). -/
def State.captured (s : State) (g : Grid) (v : Solve) : Prop :=
  let zones := s.mem.active Config.gridColumns * s.mem.active Config.gridRows
  let delta := s.mem.active Config.sceneCutDelta
  (∀ table < 4, ∀ i < Config.memoryWords (2 * table + 1),
    v.tables.word (wordKey (2 * table + 1) i) = s.mem.word (wordKey (2 * table + 1) i)) ∧
  v.grid = g ∧ v.thermal = s.sns.thermal ∧ v.foldback = s.sns.foldback ∧ v.latches = s.chc.latches ∧
  (∀ z < zones, sparseGet (fun _ => 0) v.prevF z = (s.mem.word (zoneF z)).toNat) ∧
  v.dueAt = v.startedAt + (400 + 3 * zones + 19) / 20 ∧ v.setsGprev = true ∧ v.unlit = [] ∧
  (v.lockJump = true ↔ v.source = .statistics ∧ s.lvs.lockJump = true) ∧
  (v.sceneCut = true ↔ v.source = .statistics ∧ 0 < delta ∧
    ∃ before, s.lvs.gprev = some before ∧ (delta ≤ v.mean - before ∨ delta ≤ before - v.mean))

/-! ## Invariants -/

/-- The command unit (R25, R29, R30, R132): at most 16 packets wait; no ninth reply entry is needed; the command in
flight holds its reservations; there is one owed outcome for each pass-through entry, at most four, and one for a manual
conversion. -/
def State.commandInv (s : State) : Prop :=
  s.cmd.queue.length ≤ 16 ∧
  s.cmd.filled.length + s.cmd.owed.length + (s.cmd.inFlight.map InFlight.reserved).getD 0 ≤ 8 ∧
  (∀ f, s.cmd.inFlight = some f → f.reserved = f.packet.reserves) ∧
  (s.cmd.owed.filter (fun o => o.owner == .chains)).length = s.chc.passQueue.length ∧
  s.chc.passQueue.length ≤ 4 ∧
  (s.cmd.owed.filter (fun o => o.owner == .sense)).length =
    (match s.sns.converter with
      | .manual _ _ => 1
      | .idle | .scanning _ _ => 0)

/-- The error log (R179): at most four entries; OVERFLOW exactly when an error has been lost, and only with a full
log. -/
def State.logInv (s : State) : Prop :=
  s.imn.log.length ≤ 4 ∧ s.imn.lost ≤ 65535 ∧ (s.imn.overflow = true ↔ s.imn.lost ≠ 0) ∧
    (s.imn.overflow = true → s.imn.log.length = 4)

/-- The over-temperature hold (R125, R145): the sense unit's copy equals the chain controller's value, and while it is
set the chain's thermal state is HOT. -/
def State.heldInv (s : State) : Prop :=
  ∀ k : ChainNo, s.sns.overTemp[k] = s.chc.chains[k].overTemp ∧
    (s.sns.overTemp[k] = true → s.sns.thermal[k] = .hot)

/-- What STANDBY means outside the mode controller (R73, R97, R104, R121, R135): no solve, an all-zero last set, every
display level 0, and on every chain no update burst, no done tag and no pending latch. -/
def State.standbyInv (s : State) : Prop :=
  s.mdc.mode = .standby →
    s.lvs.solve = none ∧ s.lvs.lastSet = .zero ∧ s.pxc.display = [] ∧ s.pxc.displayChain = [] ∧
    (∀ k : ChainNo, s.pxc.taken[k] = none) ∧
    ∀ k : ChainNo, s.chc.chains[k].waiting = none ∧ s.chc.chains[k].doneTag = none ∧
      s.chc.chains[k].latchPending = false ∧ s.chc.chains[k].activity.code ≠ 1

/-- No two mapped entries of the active ZONE_MAP name one channel (R46). -/
def State.mapInv (s : State) : Prop :=
  ∀ y z, y < Config.zones → z < Config.zones → y ≠ z → ∀ c, (s.mem.mapEntry 1 y).channel = some c →
    (s.mem.mapEntry 1 z).channel ≠ some c

/-- Every SETTINGS entry of a bank lies in its range (R51). -/
def Memory.settingsLegal (mem : Memory) (bank : Nat) : Prop :=
  ∀ i < 43, (Config.setting i).lo ≤ mem.setting bank i ∧ mem.setting bank i ≤ (Config.setting i).hi

/-- The protected memories: in canonical form, as are the marks and the verdicts, all three at protected words only;
SETTINGS in range in both banks and in the captured copy of a solve in flight. -/
def State.memoryInv (s : State) : Prop :=
  s.mem.wf = true ∧ (∀ a, s.verdict a ≠ none → protectedKey a = true) ∧
    s.mem.settingsLegal 0 ∧ s.mem.settingsLegal 1 ∧ ∀ v, s.lvs.solve = some v → v.tables.settingsLegal 1

end Sys2Proof.Machine
end

