-- ==== Sys2Proof/Certificates/Slice0/Obligations.lean ====
section
/-! DEFINITION. The statements about the part, for the provers. Each is about one step of the part or about one rule's
arithmetic; OBLIGATIONS.json lists them with their titles and the rules they rest on. -/

open Sys2Proof Sys2Proof.Machine

/-! ## The step -/

/-- The command at the front of the queue executes on the state with the rest of the queue; with no command waiting a
step is one microsecond, which is the model's choice (notes/assumptions/3.md). -/
def Obligations.StepRunsFrontCommand : Prop :=
  ∀ s : State,
    (∀ (c : Instr) (rest : List Instr), s.pending = c :: rest → step s = exec c { s with pending := rest }) ∧
    (s.pending = [] → ∃ t, step s = .next t ∧ t.clock.now = s.clock.now + 1 ∧
      t.clock.frame = s.clock.frame + 1 ∧ { t with clock := s.clock } = s)

/-! ## Resets -/

/-- POWER_ON and RESETN: every unit at its power-on values, the tables at their power-on contents. -/
def Obligations.PowerOnAndResetnValues : Prop :=
  ∀ (straps : BitVec 3) (s : State), ∃ t,
    exec (.powerOn straps) s = .next t ∧ exec (.resetn straps) s = .next t ∧ t.pending = s.pending ∧
    (t.lrx.input = .noSignal ∧ t.lrx.record = none ∧ t.lrx.candidate = none ∧ t.lrx.runCount = 0 ∧
      t.lrx.locked = none ∧ t.lrx.period = 0 ∧ t.lrx.elastic = ⟨0, true⟩) ∧
    (t.ftu.state = .freeRun ∧ t.ftu.geometry = ⟨3840, 2160⟩ ∧ t.ftu.frameNumber = 0 ∧ t.ftu.adjust = none ∧
      t.ftu.lastLine = none ∧ t.clock.frame = 0) ∧
    (t.cmd.queue = [] ∧ t.cmd.inFlight = none ∧ t.cmd.free = 8 ∧ t.cmd.owed = [] ∧ t.cmd.lane = none) ∧
    (t.tbs.marks = 0 ∧ t.tbs.outcome = 0) ∧
    (t.stu.grid = none ∧ t.stu.lineBuffer = [] ∧ (∀ z, accAt t.stu.accumulators z = .zero) ∧
      (∀ z, statAt t.stu.stats z = .zero) ∧ t.stu.globalMean = 0) ∧
    (t.lvs.solve = none ∧ t.lvs.gprev = none ∧ t.lvs.lockJump = false ∧ t.lvs.lastSet = .zero ∧ t.lvs.k = 4096 ∧
      t.lvs.demand = 0 ∧ t.lvs.maxL4 = 0 ∧ t.lvs.outcome = .none ∧
      (∀ z, sparseGet (fun _ => false) t.lvs.reseed z = false) ∧
      ∀ z < Config.zones, t.mem.word (zoneT z) = 0 ∧ t.mem.word (zoneF z) = 0 ∧ t.mem.word (zoneL4 z) = 0 ∧
        t.mem.word (zoneDuty z) = 0) ∧
    (t.pxc.capture = none ∧ t.pxc.compensating = false ∧ t.pxc.clips = 0 ∧ (∀ k : ChainNo, t.pxc.taken[k] = none) ∧
      ∀ z, sparseGet (fun _ => 0) t.pxc.display z = 0 ∧ sparseGet (fun _ => none) t.pxc.displayChain z = none ∧
        sparseGet (fun _ => 0) t.pxc.field z = 0) ∧
    (∀ k : ChainNo, t.chc.chains[k] = ⟨0, false, .idle, [], none, none, false, none, false, none, none, false, false⟩) ∧
    (∀ key, t.chc.device key = ⟨.unknown, 0, 0, 0, false⟩) ∧
    (∀ n, channelCount t.chc.openCount n = 0 ∧ channelCount t.chc.shortCount n = 0) ∧
    (t.chc.passQueue = [] ∧ ∀ z, t.chc.latch z = .clear) ∧
    (t.sns.converter = .idle ∧ t.sns.foldback = false ∧ t.sns.foldCount = 0 ∧ (∀ i : Fin 9, t.sns.results[i] = 0) ∧
      ∀ k : ChainNo, t.sns.thermal[k] = .normal ∧ t.sns.sensorFault[k] = false ∧ t.sns.overTemp[k] = false) ∧
    (t.mdc.mode = .standby ∧ t.mdc.request = none ∧ t.mdc.reason = .none) ∧
    (t.rpu.flags = 0 ∧ t.rpu.charErrors = 0 ∧ t.rpu.packetErrors = 0 ∧ t.rpu.clips = 0 ∧ t.rpu.burstLate = 0 ∧
      t.rpu.slot = none ∧ t.rpu.counters = .zero ∧ t.attention = false ∧
      t.rpu.snapshot = ⟨.noSignal, .standby, Vector.replicate 8 .normal, false, 0, 0, 0⟩) ∧
    (t.imn.log = [] ∧ t.imn.overflow = false ∧ t.imn.lost = 0 ∧ t.quiet) ∧
    ∀ b < 2,
      (∀ i < 43, t.mem.setting b i = Config.defaultSetting straps i) ∧
      (∀ z < Config.zones, t.mem.mapEntry b z = ⟨none, 1, 128⟩) ∧
      (∀ i < 33, (t.mem.word (wordKey (bankMemory 2 b) i)).toNat = min 4095 (i * 128)) ∧
      (∀ i < 49, (t.mem.word (wordKey (bankMemory 3 b) i)).toNat = if i = 24 then 65535 else 0)

/-- SOFT_RESET in flight with no payload: what it stops and what it keeps in every unit, and its replies. DEVICE_TAG's
own words are taken to hold no error, since the replies read them. That free-run frame 0 is due at once is the model's
reading (notes/assumptions/6.md); that the pixels sent of a line in progress are a free value, whatever it is, is its
choice (notes/assumptions/24.md). -/
def Obligations.SoftResetStopsAndKeeps : Prop :=
  ∀ (dt : Nat) (s : State) (p : Packet),
    s.executing p → p.code = 0x7E → p.payload = [] →
    sparseGet (fun _ => none) s.imn.upsets (wordKey 1 60) = none →
    sparseGet (fun _ => none) s.imn.upsets (wordKey 1 61) = none →
    ∃ t, exec (.softReset dt) s = .next t ∧ t.pending = s.pending ∧ t.draws = s.draws + 1 ∧ t.clock = (s.advance dt).clock ∧
      (t.lrx.input = .noSignal ∧ t.lrx.record = none ∧ t.lrx.locked = none ∧ t.lrx.runCount = 0 ∧
        t.lrx.candidate = none ∧ t.lrx.period = 0 ∧ t.lrx.elastic = ⟨0, true⟩) ∧
      (t.ftu.state = .freeRun ∧ t.ftu.geometry = ⟨3840, 2160⟩ ∧ t.ftu.frameNumber = 0 ∧ t.ftu.adjust = none ∧
        t.ftu.lastLine = none ∧ t.ftu.phase = .none ∧ t.ftu.turnWaiting = false ∧ t.ftu.delay = [] ∧
        t.ftu.freeDue = some (s.clock.now + dt)) ∧
      (∀ pixels, s.ftu.panel = .line pixels → t.ftu.panel =
        if Config.pixelsSent s.draws < pixels.length then .lineCut (pixels.take (Config.pixelsSent s.draws))
        else .line pixels) ∧
      ((∀ pixels, s.ftu.panel ≠ .line pixels) → t.ftu.panel = s.ftu.panel) ∧
      (t.mdc.mode = .standby ∧ t.mdc.request = none ∧ t.mdc.reason = .none) ∧
      (t.stu.grid = none ∧ t.stu.lineBuffer = [] ∧ (∀ z, accAt t.stu.accumulators z = .zero) ∧
        (∀ z, statAt t.stu.stats z = .zero) ∧ t.stu.globalMean = 0) ∧
      (t.lvs.solve = none ∧ t.lvs.lastSet = .zero ∧ t.lvs.outcome = .none ∧ t.lvs.k = 4096 ∧ t.lvs.demand = 0 ∧
        t.lvs.maxL4 = 0 ∧ t.lvs.gprev = none ∧ t.lvs.lockJump = false ∧
        ∀ z, sparseGet (fun _ => false) t.lvs.reseed z = false) ∧
      (t.pxc.capture = none ∧ t.pxc.compensating = false ∧ t.pxc.clips = 0 ∧ (∀ k : ChainNo, t.pxc.taken[k] = none) ∧
        ∀ z, sparseGet (fun _ => 0) t.pxc.display z = 0 ∧ sparseGet (fun _ => none) t.pxc.displayChain z = none ∧
          sparseGet (fun _ => 0) t.pxc.field z = 0) ∧
      (t.tbs.marks = 0 ∧ t.tbs.outcome = 0 ∧ t.tbs.straps = s.tbs.straps) ∧
      (∀ a, keyMemory a ≠ 8 → t.mem.word a = s.mem.word a) ∧
      (∀ z < Config.zones, t.mem.word (zoneT z) = 0 ∧ t.mem.word (zoneF z) = 0 ∧ t.mem.word (zoneL4 z) = 0 ∧
        t.mem.word (zoneDuty z) = 0) ∧
      (t.imn.log = s.imn.log ∧ t.imn.overflow = s.imn.overflow ∧ t.imn.lost = s.imn.lost ∧ t.imn.marks = []) ∧
      (t.chc.latches = s.chc.latches ∧ t.chc.passQueue = [] ∧
        (∀ key < 192, t.chc.device key = ⟨(s.chc.device key).state, 0, 0, 0, false⟩) ∧
        (∀ n, channelCount t.chc.openCount n = 0 ∧ channelCount t.chc.shortCount n = 0) ∧
        ∀ k : ChainNo, t.chc.chains[k] =
          { count := s.chc.chains[k].count
            overlength := s.chc.chains[k].overlength
            activity := if 0 < s.chc.chains[k].count then .darkBurst s.chc.chains[k].count 0 else .idle
            message := if 0 < s.chc.chains[k].count then burstMessage s.chc.chains[k].count (fun _ _ => 0) else []
            awaiting := none, waiting := none, darkWaiting := false, doneTag := none, latchPending := false
            latchDue := none, lastLatch := none, overTemp := false, enumWaiting := false }) ∧
      (t.sns.results = s.sns.results ∧ t.sns.converter = .idle ∧ t.sns.foldback = false ∧ t.sns.foldCount = 0 ∧
        ∀ k : ChainNo, t.sns.thermal[k] = .normal ∧ t.sns.sensorFault[k] = false ∧ t.sns.overTemp[k] = false) ∧
      (t.rpu.flags = 0 ∧ t.rpu.charErrors = 0 ∧ t.rpu.packetErrors = 0 ∧ t.rpu.clips = 0 ∧ t.rpu.burstLate = 0 ∧
        t.rpu.slot = none ∧ t.rpu.counters = .zero ∧
        t.rpu.snapshot = ⟨.noSignal, .standby, Vector.replicate 8 .normal, false, 0, 0, 0⟩ ∧
        (t.attention = true ↔ t.chc.setLatches ≠ 0 ∨ t.chc.silentDevices ≠ 0 ∨ t.imn.log ≠ [])) ∧
      (t.cmd.queue = [] ∧ t.cmd.inFlight = none ∧ t.cmd.owed = [] ∧
        t.cmd.outgoing = ({ s.cmd with filled := [] } : Cmd).outgoing ++
          (if p.broadcast then [] else [replyTo t p .ok []]) ++
          s.cmd.owed.map (fun o => ⟨t.tag, o.seq, o.code, .aborted, .none, true, []⟩))

/-! ## The input link -/

/-- An input frame-start marker outside LOCKED opens a record, leaves NO_SIGNAL, measures the period and, where it
truncates a frame, empties the run. The locked geometry and the elastic buffer stay, and no line or packet of the new
frame carries a mark yet. -/
def Obligations.MarkerOpensFrame : Prop :=
  ∀ (dt : Nat) (last : Option (List Pixel)) (s : State),
    (s.lrx.input = .noSignal → s.lrx.record = none →
      ∃ t, exec (.frameStartMarker dt last) s = .next t ∧
        t.lrx = { s.lrx with
          input := .acquiring, record := some .opened, runCount := 0, candidate := none
          lineDamaged := false, packetErrored := none, packetLost := none
          lastMarker := s.clock.now + dt, timeout := t.mem.active Config.frameTimeout } ∧
        t.rpu.flags &&& Event.inputStateChanged.bit ≠ 0 ∧
        t.clock = (s.advance dt).clock ∧
        (s.cleanSetting Config.frameTimeout →
          { t with clock := s.clock, lrx := s.lrx, rpu := { t.rpu with flags := s.rpu.flags } } = s)) ∧
    (s.lrx.input = .acquiring → s.lrx.record = none ∨ last = none →
      ∃ t, exec (.frameStartMarker dt last) s = .next t ∧
        t.lrx = { s.lrx with
          record := some .opened, period := s.clock.now + dt - s.lrx.lastMarker
          runCount := if s.lrx.record = none then s.lrx.runCount else 0
          candidate := if s.lrx.record = none then s.lrx.candidate else none
          lineDamaged := false, packetErrored := none, packetLost := none
          lastMarker := s.clock.now + dt, timeout := t.mem.active Config.frameTimeout } ∧
        t.clock = (s.advance dt).clock ∧
        (s.cleanSetting Config.frameTimeout → { t with clock := s.clock, lrx := s.lrx } = s))

/-- An input frame-start marker in LOCKED: the first one after the lock cuts a free-run frame short, with no report and
no solve, and following begins; a later one joins the delay line, so that its frame is followed one line behind, and
discards the foreign packets that no output blanking line has taken. That those have no line of their own, that
FRAME_TIMEOUT is read ahead of a cut frame's turn, and that a cut frame's burst-late mask is dropped, are the model's
choices (notes/assumptions/31.md, notes/assumptions/26.md, notes/assumptions/36.md). -/
def Obligations.MarkerIsFollowed : Prop :=
  ∀ (dt : Nat) (last : Option (List Pixel)) (s : State),
    s.lrx.input = .locked → s.lrx.record = none →
    let opened (t : State) : Prop :=
      t.lrx = { s.lrx with
        record := some .opened, period := s.clock.now + dt - s.lrx.lastMarker
        lineDamaged := false, packetErrored := none, packetLost := none
        lastMarker := s.clock.now + dt, timeout := t.lrx.timeout } ∧
      (s.cleanSetting Config.frameTimeout → t.lrx.timeout = s.mem.active Config.frameTimeout)
    (s.ftu.state = .freeRun →
      ∃ t, exec (.frameStartMarker dt last) s = .next t ∧ opened t ∧
        t.ftu.state = .following ∧ t.ftu.delay = [.start] ∧ t.ftu.forward = [] ∧ t.ftu.freeDue = none ∧
        t.ftu.phase.isOver = true ∧ t.ftu.frameNumber = s.ftu.frameNumber ∧ t.ftu.stamp = s.ftu.stamp ∧
        t.rpu.slot = s.rpu.slot ∧ t.rpu.burstLate = (if s.ftu.phase.isOver then s.rpu.burstLate else 0) ∧
        t.cmd = s.cmd ∧
        (s.ftu.turnWaiting = false → t.lvs.solve = s.lvs.solve) ∧
        (s.ftu.turnWaiting = true → s.ftu.phase.isOver = false → s.lvs.solve ≠ none →
          t.lvs.solve = none ∧ t.lvs.outcome = .late ∧ t.ftu.turnWaiting = false ∧
          t.rpu.flags &&& Event.solveLate.bit ≠ 0)) ∧
    (s.ftu.state = .following →
      ∃ t, exec (.frameStartMarker dt last) s = .next t ∧ opened t ∧
        t.ftu = { s.ftu with delay := s.ftu.delay ++ [.start], forward := [] } ∧
        t.clock = (s.advance dt).clock ∧
        (s.cleanSetting Config.frameTimeout →
          { t with clock := s.clock, lrx := s.lrx, ftu := s.ftu } = s))

/-- An input active line while ACQUIRING: the record, and a line-length error below the limit. A marker that ends a line
is that line's end, then the marker. That the marker carries the line, and that the same marker leaves NO_SIGNAL where
its line's error has brought it there, are the model's choices (notes/assumptions/13.md, notes/assumptions/32.md). -/
def Obligations.ActiveLineIsJudged : Prop :=
  (∀ (dt : Nat) (pixels : List Pixel) (s : State), ∃ u, exec (.activeLine dt pixels) s = .next u ∧
    exec (.frameStartMarker dt (some pixels)) s = exec (.frameStartMarker 0 none) u ∧
    exec (.inputActiveEnd dt (some pixels)) s = exec (.inputActiveEnd 0 none) u) ∧
  ∀ (dt : Nat) (pixels : List Pixel) (s : State) (r : FrameRec),
    s.lrx.input = .acquiring → s.ftu.state = .freeRun → s.lrx.record = some r →
    ((r.width = none ∨ r.width = some pixels.length) →
      ∃ t, exec (.activeLine dt pixels) s = .next t ∧
        t.lrx.record = some { r with
          width := some pixels.length, lines := r.lines + 1, damaged := r.damaged || s.lrx.lineDamaged } ∧
        t.lrx.lineDamaged = false ∧ t.clock = (s.advance dt).clock ∧
        { t with clock := s.clock,
                 lrx := { t.lrx with record := s.lrx.record, lineDamaged := s.lrx.lineDamaged } } = s) ∧
    (∀ w, r.width = some w → w ≠ pixels.length → s.cleanSetting Config.losErrorLimit →
      min 65535 (r.errors + 1) < s.mem.active Config.losErrorLimit →
      ∃ t, exec (.activeLine dt pixels) s = .next t ∧
        t.lrx.record = some { r with lines := r.lines + 1, damaged := true, errors := min 65535 (r.errors + 1) } ∧
        t.lrx.lineDamaged = false ∧ t.rpu.charErrors = satAdd s.rpu.charErrors 1 ∧
        t.rpu.counters = s.rpu.counters.add 1 .characterErrors ∧ t.clock = (s.advance dt).clock ∧
        { t with clock := s.clock, lrx := { t.lrx with record := s.lrx.record, lineDamaged := s.lrx.lineDamaged },
                 rpu := { t.rpu with charErrors := s.rpu.charErrors, counters := s.rpu.counters } } = s)

/-- A followed active line is handed on with its marks, and adds to the statistics exactly when it carries neither
mark: at once when the frame turn has been taken, else it waits. Each pixel joins the accumulator of its cell. A line of
another length than the frame's width is damaged and counts as an error, below the limit. -/
def Obligations.FollowedLineIsHandedOn : Prop :=
  ∀ (dt : Nat) (pixels : List Pixel) (s : State) (r : FrameRec) (g : Geometry) (grid : Grid),
    s.lrx.input = .locked → s.lrx.locked = some g → s.ftu.state = .following → s.lrx.record = some r →
    s.stu.grid = some grid → s.stu.lineBuffer = [] →
    let zone (x : Nat) : Nat :=
      min (r.lines / grid.cellH) (grid.rows - 1) * grid.columns + min (x / grid.cellW) (grid.columns - 1)
    let demands (z : Nat) : List Nat := (pixels.zipIdx.filter (fun e => decide (zone e.2 = z))).map
      (fun e => max e.1.red.toNat (max e.1.green.toNat e.1.blue.toNat))
    (∀ w, r.width = some w → w ≠ pixels.length → s.cleanSetting Config.losErrorLimit →
      min 65535 (r.errors + 1) < s.mem.active Config.losErrorLimit →
      ∃ t off, exec (.activeLine dt pixels) s = .next t ∧
        (off = true ↔ r.offGeometry = true ∨ g.height ≤ r.lines) ∧
        t.ftu = { s.ftu with delay := s.ftu.delay ++ [.line pixels true off w] } ∧
        t.lrx.record = some { r with
          lines := r.lines + 1, errors := min 65535 (r.errors + 1), damaged := true, offGeometry := off } ∧
        t.rpu.charErrors = satAdd s.rpu.charErrors 1 ∧
        t.rpu.counters = s.rpu.counters.add 1 .characterErrors ∧ t.clock = (s.advance dt).clock ∧
        { t with clock := s.clock, ftu := s.ftu,
                 lrx := { t.lrx with record := s.lrx.record, lineDamaged := s.lrx.lineDamaged },
                 rpu := { t.rpu with charErrors := s.rpu.charErrors, counters := s.rpu.counters } } = s) ∧
    ((r.width = none ∨ r.width = some pixels.length) → ∃ t off, exec (.activeLine dt pixels) s = .next t ∧
      (off = true ↔ r.offGeometry = true ∨ (r.width = none ∧ pixels.length ≠ g.width) ∨ g.height ≤ r.lines) ∧
      t.ftu = { s.ftu with delay := s.ftu.delay ++ [.line pixels s.lrx.lineDamaged off pixels.length] } ∧
      t.lrx.record = some { r with
        width := some pixels.length, lines := r.lines + 1, damaged := r.damaged || s.lrx.lineDamaged,
        offGeometry := off } ∧
      (s.lrx.lineDamaged = true ∨ off = true → t.stu = s.stu) ∧
      (s.lrx.lineDamaged = false → off = false → s.ftu.turnTaken = true →
        t.stu = { s.stu with accumulators := grid.addPixels r.lines 0 pixels s.stu.accumulators } ∧
        ∀ z, let a := accAt s.stu.accumulators z
          accAt t.stu.accumulators z = ⟨(demands z).foldl max a.peak, a.sum + (demands z).sum,
            a.count + (demands z).length, a.bright + (demands z).countP (fun d => decide (grid.threshold ≤ d))⟩) ∧
      (s.lrx.lineDamaged = false → off = false → s.ftu.turnTaken = false →
        t.stu = { s.stu with lineBuffer := [(r.lines, pixels)] }) ∧
      t.clock = (s.advance dt).clock ∧
      { t with clock := s.clock, ftu := s.ftu, stu := s.stu,
               lrx := { t.lrx with record := s.lrx.record, lineDamaged := s.lrx.lineDamaged } } = s)

/-- The active end of a frame in ACQUIRING: when it is good, the run, and the lock at the LOCK_FRAMES-th good frame. -/
def Obligations.GoodFramesLock : Prop :=
  ∀ (dt : Nat) (s : State) (r : FrameRec),
    s.lrx.input = .acquiring → s.lrx.record = some r →
    s.cleanSetting Config.losErrorLimit → s.cleanSetting Config.lockFrames →
    let good (width : Nat) : Prop :=
      r.width = some width ∧ 128 ≤ width ∧ width ≤ 4096 ∧ 72 ≤ r.lines ∧ r.lines ≤ 2304 ∧
      r.errors < s.mem.active Config.losErrorLimit ∧ r.damaged = false
    let count (width : Nat) : Nat := if s.lrx.candidate = some ⟨width, r.lines⟩ then s.lrx.runCount + 1 else 1
    (∀ width, good width → s.mem.active Config.lockFrames ≤ count width →
      ∃ t, exec (.inputActiveEnd dt none) s = .next t ∧ t.lrx.input = .locked ∧
        t.lrx.locked = some ⟨width, r.lines⟩ ∧ t.lrx.record = none ∧ t.lrx.runCount = 0 ∧ t.lrx.candidate = none ∧
        t.lvs = { s.lvs with lockJump := true } ∧
        t.rpu = { s.rpu with flags := s.rpu.flags ||| Event.inputStateChanged.bit } ∧
        { t with clock := s.clock, lrx := s.lrx, lvs := s.lvs, rpu := s.rpu } = s) ∧
    (∀ width, good width → count width < s.mem.active Config.lockFrames →
      ∃ t, exec (.inputActiveEnd dt none) s = .next t ∧ t.lrx.input = .acquiring ∧
        t.lrx.locked = s.lrx.locked ∧ t.lrx.record = none ∧ t.lrx.candidate = some ⟨width, r.lines⟩ ∧
        t.lrx.runCount = count width ∧ { t with clock := s.clock, lrx := s.lrx } = s) ∧
    ((∀ width, ¬ good width) → 0 < s.mem.active Config.lockFrames →
      ∃ t, exec (.inputActiveEnd dt none) s = .next t ∧ t.lrx.input = .acquiring ∧
        t.lrx.locked = s.lrx.locked ∧ t.lrx.record = none ∧ t.lrx.candidate = none ∧ t.lrx.runCount = 0 ∧
        { t with clock := s.clock, lrx := s.lrx } = s)

/-- The active end of a followed frame that kept its geometry: statistics complete; a solve starts with the source of
the mode and its captured copy, and none in STANDBY. The whole microseconds of its due time, and the moment at which F is
read and the jumps are decided, are the model's (notes/assumptions/2.md, notes/assumptions/10.md), as are the zones that
a CLEAR_FAULTS marks in a solve, none at its start (notes/assumptions/30.md). -/
def Obligations.StatisticsCompleteAtActiveEnd : Prop :=
  ∀ (dt : Nat) (s : State) (r : FrameRec) (g : Geometry) (grid : Grid),
    s.lrx.input = .locked → s.lrx.locked = some g → s.ftu.state = .following → s.lrx.record = some r →
    r.offGeometry = false → g.height ≤ r.lines → s.stu.grid = some grid → s.quiet →
    ∃ t, exec (.inputActiveEnd dt none) s = .next t ∧ t.lrx.input = .locked ∧ t.lrx.record = none ∧
      t.ftu = { s.ftu with delay := s.ftu.delay ++ [.activeEnd] } ∧
      (∀ z, let a := accAt s.stu.accumulators z
        statAt t.stu.stats z =
          if z < grid.columns * grid.rows ∧ a.count ≠ 0 then ⟨a.peak, a.sum / a.count, a.bright, a.count⟩
          else ⟨0, 0, 0, 0⟩) ∧
      t.stu.globalMean = ((List.range (grid.columns * grid.rows)).map (fun z => (statAt t.stu.stats z).mean)).sum /
        (grid.columns * grid.rows) ∧
      t.rpu.flags = (if grid.misfit then s.rpu.flags ||| Event.gridMisfit.bit else s.rpu.flags) ∧
      (s.mdc.mode = .standby → t.lvs = s.lvs) ∧
      (s.mdc.mode ≠ .standby → ∃ v, t.lvs = { s.lvs with solve := some v } ∧
        v.tag = ⟨s.ftu.frameNumber, .statistics⟩ ∧ v.stats = t.stu.stats ∧ v.mean = t.stu.globalMean ∧
        v.startedAt = s.clock.now + dt ∧ s.captured grid v ∧
        v.source = (match s.mdc.mode with
          | .dimming => if grid.misfit then .safe else .statistics
          | .bypass => .bypass
          | .standby | .safe => .safe)) ∧
      { t with clock := s.clock, lrx := s.lrx, ftu := s.ftu, stu := s.stu, lvs := s.lvs,
               rpu := { t.rpu with flags := s.rpu.flags } } = s

/-- A character error or a slip: what is counted, and what it marks, with an open record and without one. That a packet
between two frames can be marked is the model's choice (notes/assumptions/13.md). -/
def Obligations.LinkErrorsAreCounted : Prop :=
  ∀ (dt : Nat) (place : LinkPlace) (s : State),
    (s.lrx.record = none →
      ∃ t, exec (.characterError dt place) s = .next t ∧ t.rpu.charErrors = satAdd s.rpu.charErrors 1 ∧
        t.rpu.counters = s.rpu.counters.add 1 .characterErrors ∧
        (∀ k, place = .blankingLine k → s.lrx.input ≠ .noSignal → t.lrx.packetErrored = some k) ∧
        ((∀ k, place ≠ .blankingLine k) ∨ s.lrx.input = .noSignal → t.lrx.packetErrored = s.lrx.packetErrored) ∧
        t.clock = (s.advance dt).clock ∧
        { t with clock := s.clock, lrx := { t.lrx with packetErrored := s.lrx.packetErrored },
                 rpu := { t.rpu with charErrors := s.rpu.charErrors, counters := s.rpu.counters } } = s) ∧
    (∀ r, s.lrx.record = some r → s.cleanSetting Config.losErrorLimit →
      min 65535 (r.errors + 1) < s.mem.active Config.losErrorLimit →
      ∃ t, exec (.characterError dt place) s = .next t ∧ t.rpu.charErrors = satAdd s.rpu.charErrors 1 ∧
        t.rpu.counters = s.rpu.counters.add 1 .characterErrors ∧
        t.lrx.record = some { r with errors := min 65535 (r.errors + 1) } ∧
        t.lrx.lineDamaged = (s.lrx.lineDamaged || decide (place = .activeLine) ||
          (decide (place ≠ .elsewhere) && decide (0 < r.lines))) ∧
        (∀ k, place = .blankingLine k → r.lines = 0 → t.lrx.packetErrored = some k) ∧
        t.clock = (s.advance dt).clock ∧
        { t with clock := s.clock,
                 lrx := { t.lrx with record := s.lrx.record, lineDamaged := s.lrx.lineDamaged,
                                     packetErrored := s.lrx.packetErrored },
                 rpu := { t.rpu with charErrors := s.rpu.charErrors, counters := s.rpu.counters } } = s) ∧
    ∃ t, exec (.elasticBufferSlip dt place) s = .next t ∧
      t.rpu = { s.rpu with flags := s.rpu.flags ||| Event.lineSlip.bit,
                           counters := s.rpu.counters.add 1 .lineSlips } ∧
      t.lrx.elastic = ⟨0, true⟩ ∧
      (s.lrx.record = none → (∀ k, place ≠ .blankingLine k) ∨ s.lrx.input = .noSignal →
        t.lrx = { s.lrx with elastic := ⟨0, true⟩ }) ∧
      (∀ k, s.lrx.record = none → place = .blankingLine k → s.lrx.input ≠ .noSignal →
        t.lrx = { s.lrx with elastic := ⟨0, true⟩, packetLost := some k }) ∧
      (∀ r, s.lrx.record = some r → place = .activeLine →
        t.lrx.lineDamaged = true ∧ t.lrx.record = some { r with damaged := true }) ∧
      (∀ r k, s.lrx.record = some r → r.lines = 0 → place = .blankingLine k →
        t.lrx.packetLost = some k ∧ t.lrx.record = some r) ∧
      t.clock = (s.advance dt).clock ∧ { t with clock := s.clock, lrx := s.lrx, rpu := s.rpu } = s

/-- Errors that reach LOS_ERROR_LIMIT, line-length errors among them, and the timeout, move the input to NO_SIGNAL; here,
while the FTU free-runs. That a timeout in NO_SIGNAL lets only time pass, and falls no sooner than due, is the model's
choice (notes/assumptions/4.md, notes/assumptions/2.md). -/
def Obligations.SignalIsLost : Prop :=
  ∀ (dt : Nat) (place : LinkPlace) (s : State), s.ftu.state = .freeRun →
    let lost (t : State) : Prop :=
      t.lrx.input = .noSignal ∧ t.lrx.record = none ∧ t.lrx.runCount = 0 ∧ t.lrx.candidate = none ∧
      t.lrx.period = 0 ∧ t.lrx.locked = s.lrx.locked ∧ (s.lrx.input = .locked → t.lvs.gprev = none)
    let counted (t : State) : Prop :=
      t.rpu = { s.rpu with flags := s.rpu.flags ||| Event.inputStateChanged.bit
                           charErrors := satAdd s.rpu.charErrors 1
                           counters := s.rpu.counters.add 1 .characterErrors } ∧
      t.clock = (s.advance dt).clock ∧ { t with clock := s.clock, lrx := s.lrx, lvs := s.lvs, rpu := s.rpu } = s
    (∀ r, s.lrx.record = some r → s.lrx.input ≠ .noSignal → s.cleanSetting Config.losErrorLimit →
      s.mem.active Config.losErrorLimit ≤ min 65535 (r.errors + 1) →
      (∃ t, exec (.characterError dt place) s = .next t ∧ lost t ∧ counted t) ∧
      ∀ pixels w, r.width = some w → w ≠ pixels.length →
        ∃ t, exec (.activeLine dt pixels) s = .next t ∧ lost t ∧ counted t) ∧
    (s.lrx.input ≠ .noSignal →
      ∃ t, exec (.frameTimeout dt) s = .next t ∧ lost t ∧
        t.clock.now = max (s.clock.now + dt) (s.lrx.lastMarker + s.lrx.timeout) ∧
        t.rpu = { s.rpu with flags := s.rpu.flags ||| Event.inputStateChanged.bit } ∧
        { t with clock := s.clock, lrx := s.lrx, lvs := s.lvs, rpu := s.rpu } = s) ∧
    (s.lrx.input = .noSignal → exec (.frameTimeout dt) s = .next (s.advance dt))

/-- A followed output frame is closed when the input is lost in its middle, by the timeout or by an error that reaches
LOS_ERROR_LIMIT: the output line in progress is completed, which is that of the input line that has ended, by the same
event or just before it; no further line is sent, its active end is sent, its report is queued, no solve starts, and
free-run begins. A line that waits for its frame's frame turn reaches no accumulator, whatever the close finds of that
frame. What a close reads and completes is the model's reading (notes/assumptions/14.md). -/
def Obligations.FollowedFrameIsClosed : Prop :=
  ∀ (dt : Nat) (s : State),
    s.lrx.input = .locked → s.ftu.state = .following →
    let discards (c : Instr) : Prop :=
      ∃ t, exec c s = .next t ∧ t.stu.lineBuffer = [] ∧ t.stu.accumulators = s.stu.accumulators
    (discards (.frameTimeout dt) ∧
      ∀ r place, s.lrx.record = some r → s.cleanSetting Config.losErrorLimit →
        s.mem.active Config.losErrorLimit ≤ min 65535 (r.errors + 1) → discards (.characterError dt place)) ∧
    (((∃ n, s.ftu.phase = .active n) ∨ s.ftu.phase = .blanking ∧ s.ftu.delay = []) → s.ftu.turnWaiting = false →
    s.quiet → s.rpu.slot = none → s.cmd.lane = none →
    let closes (c : Instr) (ends : Option (List Pixel) → Prop) : Prop :=
      ∃ t rep, exec c s = .next t ∧ t.lrx.input = .noSignal ∧ t.lrx.record = none ∧ t.ftu.state = .freeRun ∧
        t.ftu.phase = .ended ∧ t.ftu.panel = .activeEnd ∧ ends t.ftu.lastLine ∧ t.ftu.delay = [] ∧
        t.ftu.frameNumber = s.ftu.frameNumber ∧
        t.ftu.freeDue = some (max t.clock.now (s.ftu.startedAt + s.mem.active Config.freeRunPeriod)) ∧
        t.cmd.lane = some (.report rep) ∧ rep.frame = s.ftu.frameNumber ∧ rep.stamp = s.ftu.stamp ∧
        rep.input = .noSignal ∧ rep.flags = s.rpu.flags ||| Event.inputStateChanged.bit ∧
        t.rpu.flags = 0 ∧ t.lvs.gprev = none ∧ t.lvs.solve.isSome = s.lvs.solve.isSome ∧ t.mem = s.mem ∧ t.mdc = s.mdc
    let copied (width : Nat) (out : List Pixel) : Prop :=
      out.length = width ∧ ∀ x < width, out[x]? = some (((s.ftu.lastLine.getD [])[x]?).getD ⟨0, 0, 0⟩)
    let completed (last : Option (List Pixel)) : Prop :=
      (s.ftu.delay = [] → last = s.ftu.lastLine) ∧
      ∀ pixels damaged off width, s.ftu.delay = [.line pixels damaged off width] → ∃ out, last = some out ∧
        (damaged = true → copied width out) ∧
        (damaged = false → off = true ∨ s.pxc.compensating = false ∨ s.mdc.mode ≠ .dimming → out = pixels)
    closes (.frameTimeout dt) completed ∧
    ∀ r, s.lrx.record = some r → s.mem.active Config.losErrorLimit ≤ min 65535 (r.errors + 1) →
      (∀ place, closes (.characterError dt place) completed) ∧
      ∀ n pixels w, s.ftu.phase = .active n → r.width = some w → w ≠ pixels.length →
        closes (.activeLine dt pixels) (fun last =>
          s.ftu.delay = [] → ∃ out, last = some out ∧ copied w out))

/-- The input leaves LOCKED for ACQUIRING at the active end of an off-geometry or short frame, and at a marker that
truncates a frame: the run starts empty, no statistics complete, no solve starts, Gprev is invalid, and a line that waits
for its frame's frame turn reaches no accumulator. A followed output frame closes with its report, once the output line
in progress is completed, be it the frame's first: the one in the delay, and the one of the line that the truncating
marker ends. What a close reads and completes is the model's reading (notes/assumptions/14.md); that the marker carries
the line it ends is its choice (notes/assumptions/13.md). -/
def Obligations.GeometryIsLeft : Prop :=
  ∀ (dt : Nat) (s : State) (r : FrameRec) (g : Geometry),
    s.lrx.input = .locked → s.lrx.locked = some g → s.lrx.record = some r → s.quiet →
    let left (t : State) : Prop :=
      t.lrx.input = .acquiring ∧ t.lrx.locked = some g ∧ t.lrx.runCount = 0 ∧ t.lrx.candidate = none ∧
      t.stu.stats = s.stu.stats ∧ t.stu.globalMean = s.stu.globalMean ∧ t.lvs.gprev = none ∧ t.ftu.state = .freeRun
    let discarded (t : State) : Prop :=
      s.ftu.state = .following → t.stu.lineBuffer = [] ∧ t.stu.accumulators = s.stu.accumulators
    let closed (t : State) (rep : FrameReport) : Prop :=
      t.ftu.phase = .ended ∧ t.ftu.panel = .activeEnd ∧ t.ftu.delay = [] ∧ t.ftu.frameNumber = s.ftu.frameNumber ∧
      t.ftu.freeDue = some (max (s.clock.now + dt) (s.ftu.startedAt + s.mem.active Config.freeRunPeriod)) ∧
      t.cmd.lane = some (.report rep) ∧ rep.frame = s.ftu.frameNumber ∧ rep.stamp = s.ftu.stamp ∧
      rep.input = .acquiring ∧ rep.flags &&& Event.inputStateChanged.bit ≠ 0 ∧
      t.lvs.solve.isSome = s.lvs.solve.isSome ∧ t.mem = s.mem ∧ t.mdc = s.mdc
    let ready : Prop :=
      s.ftu.state = .following ∧ s.ftu.turnWaiting = false ∧ s.rpu.slot = none ∧ s.cmd.lane = none
    let copied (width : Nat) (out : List Pixel) : Prop :=
      out.length = width ∧ ∀ x < width, out[x]? = some (((s.ftu.lastLine.getD [])[x]?).getD ⟨0, 0, 0⟩)
    let begun (t : State) : Prop :=
      (∀ grid, s.stu.grid = some grid → t.pxc.capture.isSome) ∧
        ∀ k : ChainNo, t.chc.latchLines[k] = s.mem.active (32 + k.val)
    let completed (t : State) : Prop :=
      (∀ n, ready → s.ftu.phase = .active n → (∃ rep, closed t rep) ∧ t.pxc.field = s.pxc.field ∧
        (s.ftu.delay = [] → t.ftu.lastLine = s.ftu.lastLine)) ∧
      (ready → s.ftu.phase = .blanking → s.ftu.delay = [] →
        (∃ rep, closed t rep) ∧ t.ftu.lastLine = s.ftu.lastLine ∧ t.pxc.capture = s.pxc.capture) ∧
      ∀ pixels damaged off width, ready → (s.ftu.phase = .blanking ∨ ∃ n, s.ftu.phase = .active n) →
        s.ftu.delay = [.line pixels damaged off width] →
        (∃ rep, closed t rep) ∧ (∃ out, t.ftu.lastLine = some out ∧ (damaged = true → copied width out) ∧
          (damaged = false → off = true → out = pixels)) ∧ (s.ftu.phase = .blanking → begun t)
    (r.offGeometry = true ∨ r.lines < g.height →
      ∃ t, exec (.inputActiveEnd dt none) s = .next t ∧ left t ∧ discarded t ∧ t.lrx.record = none ∧
        t.lrx.period = s.lrx.period ∧
        (s.ftu.state = .freeRun → t.ftu = s.ftu ∧ t.rpu.flags = s.rpu.flags ||| Event.inputStateChanged.bit ∧
          t.lvs.solve.isSome = s.lvs.solve.isSome) ∧ completed t) ∧
    (∃ t, exec (.frameStartMarker dt none) s = .next t ∧ left t ∧ discarded t ∧ t.lrx.record = some .opened ∧
      t.lrx.period = s.clock.now + dt - s.lrx.lastMarker ∧ t.lrx.lastMarker = s.clock.now + dt ∧
      (s.ftu.state = .freeRun → t.ftu = s.ftu ∧ t.lvs.solve.isSome = s.lvs.solve.isSome) ∧ completed t ∧
      (s.ftu.turnWaiting = false → t.lrx.timeout = s.mem.active Config.frameTimeout)) ∧
    ∀ pixels, ready → s.ftu.delay = [] → (s.ftu.phase = .blanking ∨ ∃ n, s.ftu.phase = .active n) →
      r.width = none ∨ r.width = some pixels.length →
      ∃ t rep out, exec (.frameStartMarker dt (some pixels)) s = .next t ∧ left t ∧ closed t rep ∧
        t.lrx.record = some .opened ∧ t.ftu.lastLine = some out ∧
        (s.lrx.lineDamaged = true → copied pixels.length out) ∧
        (s.lrx.lineDamaged = false → r.offGeometry = true ∨ g.height ≤ r.lines ∨ s.mdc.mode ≠ .dimming → out = pixels) ∧
        (s.ftu.phase = .blanking → begun t)

/-! ## Side packets -/

/-- The bytes of a command packet pass the checks and read back as the packet. -/
def Obligations.PacketRoundTrip : Prop :=
  ∀ p : Packet, p.payload.length ≤ 120 →
    (packetBytes p).length = 6 + 2 * p.payload.length ∧
    declaredLength (packetBytes p) = some (packetBytes p).length ∧
    packetPasses false (packetBytes p) = true ∧ parsePacket (packetBytes p) = p

/-- A good packet for the part joins the tail of the queue; with nothing in flight, the oldest packet of the queue is taken
if the reply queue has room for its reply, and else the queue waits. A broadcast is forwarded besides, while the FTU
follows. Bytes behind the packet are discarded with one character error, below the limit. That a packet may come between
two frames is the model's choice (notes/assumptions/13.md). -/
def Obligations.PacketJoinsQueue : Prop :=
  ∀ (dt line : Nat) (s : State) (p : Packet),
    s.lrx.input ≠ .noSignal → (∀ r, s.lrx.record = some r → r.lines = 0) →
    s.lrx.packetErrored ≠ some line → s.lrx.packetLost ≠ some line → s.cleanSetting Config.deviceTag →
    p.payload.length ≤ 120 → p.tag = s.tag ∨ p.tag = 0xFF → s.cmd.queue.length < 16 →
    let joined (t : State) : Prop :=
      (s.cmd.inFlight ≠ none → t.cmd = { s.cmd with queue := s.cmd.queue ++ [p] }) ∧
      (∀ first rest, s.cmd.inFlight = none → s.cmd.queue ++ [p] = first :: rest →
        (first.reserves ≤ s.cmd.free →
          t.cmd = { s.cmd with queue := rest, inFlight := some ⟨first, first.reserves⟩ }) ∧
        (s.cmd.free < first.reserves → t.cmd = { s.cmd with queue := s.cmd.queue ++ [p] })) ∧
      t.ftu.forward = (if s.ftu.state = .following ∧ p.tag ≠ s.tag then s.ftu.forward ++ [(line, packetBytes p)]
        else s.ftu.forward) ∧
      t.clock = (s.advance dt).clock
    (∃ t, exec (.sidePacket dt line (packetBytes p)) s = .next t ∧ joined t ∧
      { t with clock := s.clock, cmd := s.cmd, ftu := { t.ftu with forward := s.ftu.forward },
               lrx := { t.lrx with packetErrored := s.lrx.packetErrored, packetLost := s.lrx.packetLost } } = s) ∧
    ∀ surplus, surplus ≠ [] → s.cleanSetting Config.losErrorLimit →
      (∀ r, s.lrx.record = some r → min 65535 (r.errors + 1) < s.mem.active Config.losErrorLimit) →
      ∃ t, exec (.sidePacket dt line (packetBytes p ++ surplus)) s = .next t ∧ joined t ∧
        t.lrx.record = s.lrx.record.map (fun r => { r with errors := min 65535 (r.errors + 1) }) ∧
        t.rpu = { s.rpu with charErrors := satAdd s.rpu.charErrors 1,
                             counters := s.rpu.counters.add 1 .characterErrors } ∧
        { t with clock := s.clock, cmd := s.cmd, ftu := { t.ftu with forward := s.ftu.forward }, rpu := s.rpu,
                 lrx := { t.lrx with record := s.lrx.record, packetErrored := s.lrx.packetErrored,
                                     packetLost := s.lrx.packetLost } } = s

/-- A packet for the part is dropped and counted when the queue is full, and when it is errored or fails its CRC; a
broadcast is forwarded all the same while the FTU follows, unless it is errored. A foreign packet is forwarded while
the FTU follows, unless it is errored, and discarded while it free-runs; the command unit never sees it. A packet whose
declared length runs past its line is discarded with one character error, as is one whose length field has not come
(notes/assumptions/25.md); a lost packet is discarded without one. In NO_SIGNAL everything is discarded. A packet on a
blanking line behind the frame's first active line is discarded too, and that line is an active line of no pixels. That
a packet may come between two frames is the model's choice (notes/assumptions/13.md). -/
def Obligations.PacketIsDroppedOrForwarded : Prop :=
  ∀ (dt line : Nat) (s : State) (bytes : List Byte),
    (s.lrx.input ≠ .noSignal → (∀ r, s.lrx.record = some r → r.lines = 0) →
      s.lrx.packetLost ≠ some line → s.cleanSetting Config.deviceTag →
      declaredLength bytes = some bytes.length → bytes.getD 0 0 = s.tag ∨ bytes.getD 0 0 = 0xFF →
      let dropped (t : State) (e : Event) (c : Counter) : Prop :=
        t.rpu = { s.rpu with flags := s.rpu.flags ||| e.bit,
                             packetErrors := satAdd s.rpu.packetErrors 1,
                             counters := s.rpu.counters.add 1 c } ∧
        t.ftu.forward = (if s.ftu.state = .following ∧ bytes.getD 0 0 ≠ s.tag ∧ s.lrx.packetErrored ≠ some line
          then s.ftu.forward ++ [(line, bytes)] else s.ftu.forward) ∧
        t.clock = (s.advance dt).clock ∧
        { t with clock := s.clock, rpu := s.rpu, ftu := { t.ftu with forward := s.ftu.forward },
                 lrx := { t.lrx with packetErrored := s.lrx.packetErrored, packetLost := s.lrx.packetLost } } = s
      (packetPasses (decide (s.lrx.packetErrored = some line)) bytes = false →
        ∃ t, exec (.sidePacket dt line bytes) s = .next t ∧ dropped t .packetCrcError .packetCrcErrors) ∧
      (packetPasses (decide (s.lrx.packetErrored = some line)) bytes = true → s.cmd.queue.length = 16 →
        ∃ t, exec (.sidePacket dt line bytes) s = .next t ∧ dropped t .packetDropped .packetsDropped)) ∧
    (s.lrx.input ≠ .noSignal → (∀ r, s.lrx.record = some r → r.lines = 0) →
      s.lrx.packetLost ≠ some line → s.cleanSetting Config.deviceTag →
      declaredLength bytes = some bytes.length → bytes.getD 0 0 ≠ s.tag → bytes.getD 0 0 ≠ 0xFF →
      ∃ t, exec (.sidePacket dt line bytes) s = .next t ∧
        t.ftu.forward = (if s.ftu.state = .following ∧ s.lrx.packetErrored ≠ some line
          then s.ftu.forward ++ [(line, bytes)] else s.ftu.forward) ∧
        t.clock = (s.advance dt).clock ∧
        { t with clock := s.clock, ftu := { t.ftu with forward := s.ftu.forward },
                 lrx := { t.lrx with packetErrored := s.lrx.packetErrored, packetLost := s.lrx.packetLost } } = s) ∧
    (s.lrx.input ≠ .noSignal → (∀ r, s.lrx.record = some r → r.lines = 0) → bytes ≠ [] →
      s.cleanSetting Config.deviceTag → s.cleanSetting Config.losErrorLimit →
      (∀ r, s.lrx.record = some r → min 65535 (r.errors + 1) < s.mem.active Config.losErrorLimit) →
      (∀ n, declaredLength bytes = some n → bytes.length < n) →
      (s.lrx.packetLost ≠ some line →
        ∃ t, exec (.sidePacket dt line bytes) s = .next t ∧
          t.lrx.record = s.lrx.record.map (fun r => { r with errors := min 65535 (r.errors + 1) }) ∧
          t.rpu = { s.rpu with charErrors := satAdd s.rpu.charErrors 1,
                               counters := s.rpu.counters.add 1 .characterErrors } ∧
          t.clock = (s.advance dt).clock ∧
          { t with clock := s.clock, rpu := s.rpu,
                   lrx := { t.lrx with record := s.lrx.record, packetErrored := s.lrx.packetErrored,
                                       packetLost := s.lrx.packetLost } } = s)) ∧
    (s.lrx.input ≠ .noSignal → (∀ r, s.lrx.record = some r → r.lines = 0) → bytes ≠ [] →
      s.lrx.packetLost = some line →
      ∃ t, exec (.sidePacket dt line bytes) s = .next t ∧ t.clock = (s.advance dt).clock ∧
        { t with clock := s.clock,
                 lrx := { t.lrx with packetErrored := s.lrx.packetErrored, packetLost := s.lrx.packetLost } } = s) ∧
    (∀ r, s.lrx.input ≠ .noSignal → s.lrx.record = some r → 0 < r.lines → bytes ≠ [] →
      exec (.sidePacket dt line bytes) s = exec (.activeLine dt []) s ∧
      ∀ w, s.lrx.input = .acquiring → s.ftu.state = .freeRun → r.width = some w → w ≠ 0 →
        s.cleanSetting Config.losErrorLimit → min 65535 (r.errors + 1) < s.mem.active Config.losErrorLimit →
        ∃ t, exec (.sidePacket dt line bytes) s = .next t ∧ t.cmd = s.cmd ∧ t.ftu = s.ftu ∧
          t.lrx.record = some { r with lines := r.lines + 1, damaged := true, errors := min 65535 (r.errors + 1) } ∧
          t.rpu.counters = s.rpu.counters.add 1 .characterErrors) ∧
    (s.lrx.input = .noSignal → exec (.sidePacket dt line bytes) s = .next (s.advance dt))

/-! ## Output frames -/

/-- An output frame start numbers and stamps its frame, after the pending adjust; a free-run frame reads its period
and falls no sooner than its due time. The frame turn is taken here, or waits for the solve in flight. The moment of
the period's read and the due time are the model's (notes/assumptions/14.md, notes/assumptions/2.md). -/
def Obligations.FrameStartNumbersAndStamps : Prop :=
  ∀ (dt : Nat) (scanFirst : Bool) (s : State), s.frameStartDue → s.quiet →
    ∃ t, exec (.outputFrameStart dt scanFirst) s = .next t ∧
      t.ftu.frameNumber = (if s.ftu.fresh then s.ftu.frameNumber else s.ftu.frameNumber + 1) ∧
      t.ftu.fresh = false ∧ t.ftu.adjust = none ∧
      t.clock.frame = s.clock.frame + BitVec.ofNat 32 (t.clock.now - s.clock.now) + s.ftu.adjust.getD 0 ∧
      t.ftu.stamp = t.clock.frame ∧ t.ftu.startedAt = t.clock.now ∧ t.ftu.phase = .blanking ∧
      t.ftu.panel = .frameStart ∧ t.ftu.geometry = s.lrx.locked.getD ⟨3840, 2160⟩ ∧
      t.ftu.state = s.ftu.state ∧ t.ftu.turnWaiting = s.lvs.solve.isSome ∧ t.lvs.solve = s.lvs.solve ∧
      (s.stu.lineBuffer = [] → t.stu.accumulators = []) ∧ t.lrx = s.lrx ∧ t.cmd = s.cmd ∧
      t.pending = s.pending ∧
      (s.ftu.state = .following →
        t.clock.now = s.clock.now + dt ∧ t.ftu.delay = s.ftu.delay.drop 1 ∧ t.ftu.freeFrame = false) ∧
      (∀ due, s.ftu.state = .freeRun → s.ftu.freeDue = some due →
        t.clock.now = max (s.clock.now + dt) due ∧ t.ftu.freeFrame = true ∧
        t.ftu.period = s.mem.active Config.freeRunPeriod ∧
        t.ftu.freeDue = some (t.ftu.startedAt + t.ftu.period) ∧ t.ftu.lastLine = none) ∧
      (s.lvs.solve = none → t.tbs.marks = 0 ∧ t.mdc.request = none ∧
        t.rpu.notifyMask = BitVec.ofNat 17 (t.mem.active Config.notifyMask) ∧
        let columns := t.mem.active Config.gridColumns
        let rows := t.mem.active Config.gridRows
        ∃ grid, t.stu.grid = some grid ∧ grid.width = t.ftu.geometry.width ∧ grid.height = t.ftu.geometry.height ∧
          grid.columns = columns ∧ grid.rows = rows ∧ grid.cellW = grid.width / columns ∧
          grid.cellH = grid.height / rows ∧ grid.threshold = t.mem.active Config.brightThreshold ∧
          (grid.misfit = true ↔ grid.cellW < 16 ∨ grid.cellH < 16)) ∧
      (s.lvs.solve.isSome = true →
        { t with clock := s.clock, ftu := s.ftu, sns := s.sns
                 stu := { t.stu with accumulators := s.stu.accumulators }
                 rpu := { t.rpu with flags := s.rpu.flags, counters := s.rpu.counters } } = s)

/-- The scan decision of an output frame start at which no mode request is pending: a scan outside STANDBY, an overrun
where the converter is busy, nothing in STANDBY. -/
def Obligations.ScanFollowsFrameStart : Prop :=
  ∀ (dt : Nat) (scanFirst : Bool) (s : State), s.frameStartDue → s.quiet → s.mdc.request = none →
    ∃ t, exec (.outputFrameStart dt scanFirst) s = .next t ∧ t.mdc.mode = s.mdc.mode ∧
      (s.mdc.mode = .standby → t.sns = s.sns ∧ t.rpu.counters = s.rpu.counters) ∧
      (s.mdc.mode ≠ .standby → s.sns.converter = .idle →
        t.sns = { s.sns with converter := .scanning 0 t.clock.now } ∧ t.rpu.counters = s.rpu.counters) ∧
      (s.mdc.mode ≠ .standby → s.sns.converter ≠ .idle →
        t.sns = s.sns ∧ t.rpu.counters = s.rpu.counters.add 1 .senseOverruns ∧
        t.rpu.flags &&& Event.senseOverrun.bit ≠ 0)

/-- A frame turn taken at an output frame start copies every marked table or none of them. Where one word of a marked
table's active bank is wrong beyond repair, the copy reads it: SAFE is entered, and every table is copied all the same.
That the copy reads the words it overwrites, and passes over marks, is the model's reading (notes/assumptions/28.md). -/
def Obligations.CommitIsAllOrNothing : Prop :=
  ∀ (dt : Nat) (scanFirst : Bool) (s : State), s.frameStartDue → s.lvs.solve = none →
    let copied (t : State) : Prop :=
      t.tbs.outcome = s.tbs.marks ∧ t.rpu.flags &&& Event.commitDone.bit ≠ 0 ∧
      ∀ table < 4, ∀ i < Config.memoryWords (2 * table),
        t.mem.word (wordKey (2 * table) i) = s.mem.word (wordKey (2 * table) i) ∧
        t.mem.word (wordKey (2 * table + 1) i) =
          if s.tbs.marks.getLsbD table then s.mem.word (wordKey (2 * table) i)
          else s.mem.word (wordKey (2 * table + 1) i)
    (s.quiet → ∃ t, exec (.outputFrameStart dt scanFirst) s = .next t ∧ t.tbs.marks = 0 ∧
      t.tbs.straps = s.tbs.straps ∧
      (s.tbs.marks = 0 → t.tbs.outcome = 0 ∧ ∀ a, keyMemory a < 8 → t.mem.word a = s.mem.word a) ∧
      (s.tbs.marks ≠ 0 → s.tbs.marks.getLsbD 1 = true → s.mem.duplicateChannel 0 = true →
        t.tbs.outcome = 0 ∧ t.rpu.flags &&& Event.commitFailed.bit ≠ 0 ∧
        ∀ a, keyMemory a < 8 → t.mem.word a = s.mem.word a) ∧
      (s.tbs.marks ≠ 0 → s.tbs.marks.getLsbD 1 = false ∨ s.mem.duplicateChannel 0 = false → copied t)) ∧
    ∀ table i, table < 4 → i < Config.memoryWords (2 * table + 1) → s.tbs.marks.getLsbD table = true →
      s.tbs.marks.getLsbD 1 = false ∨ s.mem.duplicateChannel 0 = false → s.imn.marks = [] →
      s.imn.upsets = [(wordKey (2 * table + 1) i, some .uncorrectable)] →
      ∃ t, exec (.outputFrameStart dt scanFirst) s = .next t ∧ t.tbs.marks = 0 ∧ copied t ∧
        t.mdc = ⟨.safe, none, .none⟩ ∧ t.rpu.flags &&& Event.memoryError.bit ≠ 0 ∧
        (s.mdc.mode ≠ .safe → t.rpu.flags &&& Event.modeChanged.bit ≠ 0) ∧
        t.rpu.counters.uncorrectable = satAdd s.rpu.counters.uncorrectable 1 ∧
        (s.imn.log.length < 4 →
          t.imn.log = s.imn.log ++ [⟨2 * table + 1, i, .uncorrectable, t.ftu.frameNumber⟩])

/-- A frame turn taken at an output frame start judges the pending mode request against the tables just committed. -/
def Obligations.ModeRequestIsJudged : Prop :=
  ∀ (dt : Nat) (scanFirst : Bool) (s : State), s.frameStartDue → s.quiet → s.lvs.solve = none →
    ∃ t, exec (.outputFrameStart dt scanFirst) s = .next t ∧ t.mdc.request = none ∧
      (s.mdc.request = none → t.mdc = { s.mdc with reason := .none }) ∧
      (∀ target, s.mdc.request = some target → target = .standby ∨ target = .safe →
        t.mdc = ⟨target, none, .none⟩ ∧
        (target ≠ s.mdc.mode → t.rpu.flags &&& Event.modeChanged.bit ≠ 0)) ∧
      ∀ target, s.mdc.request = some target → target = .bypass ∨ target = .dimming →
        ((∀ z < t.mem.active Config.gridColumns * t.mem.active Config.gridRows,
            (t.mem.mapEntry 1 z).channel = none) →
          t.mdc = ⟨s.mdc.mode, none, .noZones⟩ ∧ t.rpu.flags &&& Event.commitFailed.bit ≠ 0) ∧
        ((∃ z c, z < t.mem.active Config.gridColumns * t.mem.active Config.gridRows ∧
            (t.mem.mapEntry 1 z).channel = some c ∧
            ∀ k : ChainNo, k.val = c.chain → s.chc.chains[k].count ≤ c.device) →
          t.mdc = ⟨s.mdc.mode, none, .chainUnknown⟩ ∧ t.rpu.flags &&& Event.commitFailed.bit ≠ 0) ∧
        ((∃ z c, z < t.mem.active Config.gridColumns * t.mem.active Config.gridRows ∧
            (t.mem.mapEntry 1 z).channel = some c) →
          (∀ z < t.mem.active Config.gridColumns * t.mem.active Config.gridRows, ∀ c,
            (t.mem.mapEntry 1 z).channel = some c →
            ∃ k : ChainNo, k.val = c.chain ∧ c.device < s.chc.chains[k].count) →
          t.mdc = ⟨target, none, .none⟩ ∧ (target ≠ s.mdc.mode → t.rpu.flags &&& Event.modeChanged.bit ≠ 0))

/-- A request for STANDBY applied at a frame turn: the solver's, the compensator's and the chains' parts. That no zone is
left marked by a CLEAR_FAULTS follows from the model's reading of that mark (notes/assumptions/30.md). -/
def Obligations.StandbyEntryGoesDark : Prop :=
  ∀ (dt : Nat) (scanFirst : Bool) (s : State), s.frameStartDue → s.quiet → s.lvs.solve = none →
    s.mdc.request = some .standby → s.mdc.mode ≠ .standby →
    ∃ t, exec (.outputFrameStart dt scanFirst) s = .next t ∧ t.mdc.mode = .standby ∧ t.lvs.lastSet = .zero ∧
      t.lvs.reseed = [] ∧ t.lvs.unlit = [] ∧ t.lvs.k = s.lvs.k ∧ t.lvs.demand = s.lvs.demand ∧ t.lvs.gprev = s.lvs.gprev ∧
      t.lvs.lockJump = s.lvs.lockJump ∧
      (∀ z < Config.zones, t.mem.word (zoneT z) = s.mem.word (zoneT z) ∧ t.mem.word (zoneF z) = 0 ∧
        t.mem.word (zoneL4 z) = 0 ∧ t.mem.word (zoneDuty z) = 0) ∧
      t.pxc.display = [] ∧ t.pxc.displayChain = [] ∧
      ∀ k : ChainNo, t.pxc.taken[k] = none ∧ t.chc.chains[k].doneTag = none ∧ t.chc.chains[k].waiting = none ∧
        t.chc.chains[k].latchPending = false ∧ t.chc.chains[k].count = s.chc.chains[k].count ∧
        (s.chc.chains[k].activity = .idle ∨ (∃ job devices slot, s.chc.chains[k].activity = .burst job devices slot) →
          s.chc.chains[k].awaiting = none →
          (0 < s.chc.chains[k].count → t.chc.chains[k].activity = .darkBurst s.chc.chains[k].count 0 ∧
            t.chc.chains[k].message = burstMessage s.chc.chains[k].count (fun _ _ => 0)))

/-- An output blanking line carries the foreign packet of its input line, if there is one. -/
def Obligations.BlankingLineCarriesPacket : Prop :=
  ∀ (dt line : Nat) (s : State), s.ftu.phase = .blanking →
    ∃ t, exec (.outputBlankingLine dt line) s = .next t ∧
      (∀ bytes rest, s.ftu.forward = (line, bytes) :: rest → t.ftu.panel = .blanking line (some bytes)) ∧
      ((∀ e ∈ s.ftu.forward, e.1 ≠ line) →
        t.ftu.panel = .blanking line none ∧ t.ftu.forward = s.ftu.forward) ∧
      (∀ e, e ∈ t.ftu.forward ↔ e ∈ s.ftu.forward ∧ e.1 ≠ line) ∧ t.clock = (s.advance dt).clock ∧
      { t with clock := s.clock, ftu := { t.ftu with panel := s.ftu.panel, forward := s.ftu.forward } } = s

/-- A first active line with no frame turn waiting and no latch left over: the capture, the chains that take the
latest set and their latches, the compensating flag, and the light field of the display levels decided here where the
flag is set. The due time is the model's choice (notes/assumptions/2.md); that the zones whose latch was set since the
line before are noted, and forgotten here, is its reading of R103 (notes/assumptions/23.md). -/
def Obligations.FirstLineSettlesChains : Prop :=
  ∀ (dt : Nat) (s : State) (g : Grid), s.firstLineDue → s.ftu.turnWaiting = false → s.quiet →
    s.stu.grid = some g → (∀ k : ChainNo, s.chc.chains[k].latchPending = false ∧ s.chc.chains[k].latchDue = none) →
    ∃ t, exec (.firstActiveLine dt) s = .next t ∧ t.ftu = { s.ftu with phase := .active 0 } ∧
      t.clock.now = (if s.ftu.state = .freeRun then max (s.clock.now + dt) (s.ftu.startedAt + 800)
        else s.clock.now + dt) ∧
      t.pxc.capture = some ⟨s.mem.active Config.bref, s.mem.active Config.gainLimit, s.mem.active Config.clipMode,
        s.mem.active Config.blackFloor, (List.range 49).map s.mem.kernel, g, s.mdc.mode⟩ ∧
      (t.pxc.compensating = true ↔ s.ftu.state = .following ∧ s.mdc.mode = .dimming) ∧ t.pxc.clips = 0 ∧
      (t.pxc.compensating = true → ∀ cap, t.pxc.capture = some cap → t.pxc.field = cap.field t.pxc.display) ∧
      (t.pxc.compensating = false → t.pxc.field = s.pxc.field) ∧
      (∀ k : ChainNo, t.chc.latchLines[k] = s.mem.active (32 + k.val)) ∧
      (∀ k : ChainNo,
        (s.takesLatest k → s.mdc.mode ≠ .standby ∧ t.pxc.taken[k] = s.lvs.lastSet.tag ∧
          t.chc.chains[k].latchPending = true ∧
          (s.mem.active (32 + k.val) ≠ 0 → t.chc.chains[k] = { s.chc.chains[k] with latchPending := true }) ∧
          (s.mem.active (32 + k.val) = 0 → s.chc.chains[k].activity = .idle →
            t.chc.chains[k].activity = .latch (some s.ftu.frameNumber) ∧
            t.chc.chains[k].message = latchMessage)) ∧
        (¬ s.takesLatest k → t.pxc.taken[k] = s.pxc.taken[k] ∧ t.chc.chains[k] = s.chc.chains[k])) ∧
      t.chc.struck = [] ∧
      { t with clock := s.clock, ftu := s.ftu, pxc := s.pxc
               rpu := { t.rpu with flags := s.rpu.flags, counters := s.rpu.counters, burstLate := s.rpu.burstLate }
               chc := { t.chc with
                 chains := s.chc.chains, latchLines := s.chc.latchLines, struck := s.chc.struck } } = s

/-- The display level of every zone at a first active line, in R102's order, with R103's additions: a latch set since the
previous line, cleared again or not, and a latch cleared since the solve of the latest set started, give 0; all 0 in
STANDBY. That a latch cleared again counts, and which sets count as solved after a clear, are the model's readings
(notes/assumptions/23.md, notes/assumptions/30.md). -/
def Obligations.DisplayLevelsFollowChains : Prop :=
  ∀ (dt : Nat) (s : State), s.firstLineDue → s.ftu.turnWaiting = false → s.quiet →
    ∃ t, exec (.firstActiveLine dt) s = .next t ∧
      (s.mdc.mode = .standby → ∀ z, sparseGet (fun _ => 0) t.pxc.display z = 0) ∧
      (s.mdc.mode ≠ .standby → ∀ z < Config.zones,
        let zone := s.lvs.lastSet.zone z
        let chain := sparseGet (fun _ => none) s.pxc.displayChain z
        let freed := chain = none ∨ ∃ k : ChainNo, chain = some k.val ∧ s.takesLatest k
        let level := sparseGet (fun _ => 0) t.pxc.display z
        (zone.channel = none → freed → level = 0 ∧ sparseGet (fun _ => none) t.pxc.displayChain z = none) ∧
        let faulty := s.chc.latch z ≠ .clear ∨ sparseGet (fun _ => false) s.chc.struck z = true
        (faulty → level = 0) ∧
        (∀ (c : Channel) (k : ChainNo), zone.channel = some c → c.chain = k.val → s.takesLatest k → ¬ faulty →
          level = (if sparseGet (fun _ => false) s.lvs.unlit z then 0 else zone.level) ∧
          sparseGet (fun _ => none) t.pxc.displayChain z = some k.val) ∧
        (¬ faulty → (zone.channel = none → ¬ freed) →
          (∀ (c : Channel) (k : ChainNo), zone.channel = some c → c.chain = k.val → ¬ s.takesLatest k) →
          level = sparseGet (fun _ => 0) s.pxc.display z))

/-- The chains late at a first active line: the mask, the count and the event. That the mask replaces an earlier one
is the model's reading (notes/assumptions/18.md). -/
def Obligations.LateChainsAreReported : Prop :=
  ∀ (dt : Nat) (s : State), s.firstLineDue → s.ftu.turnWaiting = false → s.quiet →
    ∃ t n, exec (.firstActiveLine dt) s = .next t ∧
      (∀ k : ChainNo, t.rpu.burstLate.getLsbD k.val = true ↔ s.lateAtFirstLine k) ∧
      t.rpu.counters = s.rpu.counters.add n .burstsLate ∧
      n = (allChains.filter (fun k => t.rpu.burstLate.getLsbD k.val)).length ∧
      (n = 0 → t.rpu.flags = s.rpu.flags) ∧ (n ≠ 0 → t.rpu.flags = s.rpu.flags ||| Event.burstLate.bit) ∧
      ∀ k : ChainNo, s.lateAtFirstLine k → t.pxc.taken[k] = s.pxc.taken[k]

/-- A frame turn that still waits at the first active line abandons the solve it waited for and is taken there. -/
def Obligations.LateSolveIsAbandoned : Prop :=
  ∀ (dt : Nat) (s : State) (v : Solve), s.firstLineDue → s.ftu.turnWaiting = true → s.lvs.solve = some v → s.quiet →
    ∃ t, exec (.firstActiveLine dt) s = .next t ∧ t.ftu.phase = .active 0 ∧ t.ftu.turnWaiting = false ∧
      t.lvs.solve = none ∧ t.lvs.outcome = .late ∧ t.lvs.gprev = s.lvs.gprev ∧ t.lvs.lockJump = s.lvs.lockJump ∧
      t.lvs.k = s.lvs.k ∧ t.lvs.demand = s.lvs.demand ∧ t.lvs.maxL4 = s.lvs.maxL4 ∧
      t.rpu.counters.solvesLate = satAdd s.rpu.counters.solvesLate 1 ∧
      t.rpu.flags &&& Event.solveLate.bit ≠ 0 ∧ t.tbs.marks = 0 ∧ t.mdc.request = none ∧
      (s.mdc.request = none → t.lvs.lastSet = s.lvs.lastSet ∧
        ∀ z < Config.zones, t.mem.word (zoneF z) = s.mem.word (zoneF z) ∧
          t.mem.word (zoneL4 z) = s.mem.word (zoneL4 z))

/-- The four ways of an output active line. The due time of a free-run line is the model's choice
(notes/assumptions/2.md). -/
def Obligations.OutputLineIsSentFourWays : Prop :=
  ∀ (dt n : Nat) (s : State), s.ftu.phase = .active n →
    (∀ k : ChainNo, s.chc.latchLines[k] = n → s.chc.chains[k].latchPending = false) →
    (∀ pixels damaged off width rest, s.ftu.state = .following →
      s.ftu.delay = .line pixels damaged off width :: rest →
      ∃ t out clipped, exec (.outputLineBegin dt) s = .next t ∧
        t.ftu = { s.ftu with
          phase := .active (n + 1), delay := rest, lastLine := some out, panel := .line out } ∧
        t.pxc = { s.pxc with clips := s.pxc.clips + clipped } ∧ t.clock = (s.advance dt).clock ∧
        (damaged = true → clipped = 0 ∧ out.length = width ∧
          ∀ x, x < width → out[x]? = some (((s.ftu.lastLine.getD [])[x]?).getD ⟨0, 0, 0⟩)) ∧
        (damaged = false → off = true ∨ s.pxc.compensating = false ∨ s.mdc.mode ≠ .dimming →
          out = pixels ∧ clipped = 0) ∧
        (∀ cap, damaged = false → off = false → s.pxc.compensating = true → s.mdc.mode = .dimming →
          s.pxc.capture = some cap →
          out.length = pixels.length ∧
          (∀ x p, pixels[x]? = some p → out[x]? = some (cap.compensate s.pxc.field n x p).1) ∧
          clipped = ((List.range pixels.length).filter (fun x =>
            ((pixels[x]?).map (fun p => (cap.compensate s.pxc.field n x p).2)).getD false)).length) ∧
        { t with clock := s.clock, ftu := s.ftu, pxc := s.pxc } = s) ∧
    (s.ftu.state = .freeRun → n < s.ftu.geometry.height →
      ∃ t, exec (.outputLineBegin dt) s = .next t ∧
        t.ftu = { s.ftu with
          phase := .active (n + 1), panel := .line (List.replicate s.ftu.geometry.width ⟨0, 0, 0⟩) } ∧
        t.clock.now = max (s.clock.now + dt) (s.ftu.startedAt + 800 +
          n * (s.ftu.period - 1600) / s.ftu.geometry.height) ∧
        { t with clock := s.clock, ftu := s.ftu } = s)

/-- An output active end queues the frame's report, which goes to the lane, or waits in the slot, or is merged there;
the interval starts again, and the ATTN line falls with the flags. A free-run frame's active end starts a solve outside
STANDBY, with its captured copy. The due times, the read of DEVICE_TAG as the report is built, and the moment at which F
is read, are the model's (notes/assumptions/2.md, notes/assumptions/9.md, notes/assumptions/10.md), as are the zones
that a CLEAR_FAULTS marks in a solve, none at its start (notes/assumptions/30.md). -/
def Obligations.ActiveEndQueuesReport : Prop :=
  ∀ (dt : Nat) (s : State), s.activeEndDue → s.quiet →
    ∃ t rep, exec (.outputActiveEnd dt) s = .next t ∧ t.ftu.phase = .ended ∧ t.ftu.panel = .activeEnd ∧
      t.ftu.frameNumber = s.ftu.frameNumber ∧
      rep = (⟨s.tag, s.ftu.frameNumber, s.ftu.stamp, s.mdc.mode, s.lrx.input, s.mdc.request.isSome, s.tbs.outcome,
        s.mdc.reason, s.rpu.flags, s.attention, s.lvs.k, s.lvs.demand, s.lvs.maxL4, s.stu.globalMean,
        s.lvs.outcome, s.rpu.burstLate, s.sns.thermal, s.sns.foldback, s.rpu.charErrors,
        satAdd s.rpu.clips s.pxc.clips, s.rpu.packetErrors⟩ : FrameReport) ∧
      (s.rpu.slot = none → s.cmd.lane = none → t.cmd.lane = some (.report rep) ∧ t.rpu.slot = none) ∧
      (s.rpu.slot = none → s.cmd.lane ≠ none → t.cmd.lane = s.cmd.lane ∧ t.rpu.slot = some rep) ∧
      (∀ old, s.rpu.slot = some old → s.cmd.lane ≠ none → t.cmd.lane = s.cmd.lane ∧
        t.rpu.slot = some (old.merge rep) ∧
        t.rpu.counters.reportsLost = satAdd s.rpu.counters.reportsLost 1) ∧
      (s.rpu.slot = none → t.rpu.counters = s.rpu.counters.add s.pxc.clips .clippedPixels) ∧
      t.rpu.flags = 0 ∧ t.rpu.charErrors = 0 ∧ t.rpu.packetErrors = 0 ∧ t.rpu.clips = 0 ∧ t.rpu.burstLate = 0 ∧
      (t.attnLine = true ↔ s.attention = true ∨
        ∃ r, t.rpu.slot = some r ∧ r.flags.getLsbD 16 = true ∧ s.rpu.notifyMask.getLsbD 16 = true) ∧
      t.lvs.outcome = .none ∧ t.pxc = { s.pxc with clips := 0 } ∧
      t.cmd.filled = s.cmd.filled ∧ t.cmd.owed = s.cmd.owed ∧ t.mem = s.mem ∧ t.lrx = s.lrx ∧ t.stu = s.stu ∧
      t.sns = s.sns ∧ t.mdc = s.mdc ∧ t.tbs = s.tbs ∧ t.imn = s.imn ∧
      (s.ftu.state = .following → t.lvs.solve = s.lvs.solve ∧ t.ftu.delay = s.ftu.delay.drop 1 ∧
        t.clock = (s.advance dt).clock) ∧
      (s.ftu.state = .freeRun →
        t.clock.now = max (s.clock.now + dt) (s.ftu.startedAt + s.ftu.period - 800) ∧
        (s.mdc.mode = .standby → t.lvs.solve = s.lvs.solve) ∧
        (∀ g, s.mdc.mode ≠ .standby → s.stu.grid = some g → ∃ v, t.lvs.solve = some v ∧
          v.tag = ⟨s.ftu.frameNumber, .freeRun⟩ ∧ v.source = .safe ∧ v.startedAt = t.clock.now ∧
          s.captured g v))

/-- The merge of a report with the unsent one it replaces. -/
def Obligations.ReportsMerge : Prop :=
  ∀ old new : FrameReport,
    let m := old.merge new
    (m.tag = new.tag ∧ m.frame = new.frame ∧ m.stamp = new.stamp ∧ m.mode = new.mode ∧ m.input = new.input ∧
      m.transition = new.transition ∧ m.attention = new.attention ∧ m.k = new.k ∧ m.demand = new.demand ∧
      m.maxL4 = new.maxL4 ∧ m.globalMean = new.globalMean ∧ m.thermal = new.thermal ∧
      m.foldback = new.foldback) ∧
    (∀ e : Event, m.flags.getLsbD (e.number - 1) =
      (old.flags.getLsbD (e.number - 1) || new.flags.getLsbD (e.number - 1) || decide (e = .reportLost))) ∧
    (∀ k : ChainNo, m.burstLate.getLsbD k.val = (old.burstLate.getLsbD k.val || new.burstLate.getLsbD k.val)) ∧
    (∀ table < 4, m.committed.getLsbD table = (old.committed.getLsbD table || new.committed.getLsbD table)) ∧
    (new.reason ≠ .none → m.reason = new.reason) ∧ (new.reason = .none → m.reason = old.reason) ∧
    (m.solveStatus = .late ↔ old.solveStatus = .late ∨ new.solveStatus = .late) ∧
    (m.solveStatus = .none ↔ old.solveStatus = .none ∧ new.solveStatus = .none) ∧
    m.charErrors = min 4294967295 (old.charErrors + new.charErrors) ∧
    m.clips = min 4294967295 (old.clips + new.clips) ∧
    m.packetErrors = min 4294967295 (old.packetErrors + new.packetErrors)

/-! ## The level solver -/

/-- The target and the filter of a processed zone: the fixed targets (R80), the statistics-sourced stages (R82 to R84), and
the filter that moves toward sixteen times the target without passing it (R85), or jumps to it (R86 to R88). -/
def Obligations.TargetAndFilterOfAZone : Prop :=
  ∀ (v : Solve) (z : Nat),
    (v.source = .safe → v.target z = v.setting Config.safeLevel) ∧
    (v.source = .bypass → v.target z = v.setting Config.bypassLevel) ∧
    (v.source = .statistics →
      let threshold := v.setting Config.brightThreshold
      let st := statAt v.stats z
      let clamped := if threshold ≤ st.peak ∧ st.bright < v.setting Config.speckleLimit
        then max st.mean (threshold - 1) else st.peak
      let blended := (v.setting Config.blendWeight * clamped +
        (256 - v.setting Config.blendWeight) * st.mean + 128) / 256
      let low := v.tables.tonePoint (blended / 128)
      let high := v.tables.tonePoint (blended / 128 + 1)
      (v.target z : Int) = low + (((high : Int) - low) * (blended % 128 : Nat) + 64) / 128 ∧
      min low high ≤ v.target z ∧ v.target z ≤ max low high) ∧
    let before := sparseGet (fun _ => 0) v.prevF z
    let goal := 16 * v.target z
    let jump := v.sceneCut = true ∨ v.lockJump = true ∨ sparseGet (fun _ => false) v.reseed z = true
    (jump → v.newF z = goal) ∧
    (¬ jump → before < goal →
      v.newF z = before + max 1 ((goal - before) * v.setting Config.riseRate / 256)) ∧
    (¬ jump → goal < before →
      v.newF z = before - max 1 ((before - goal) * v.setting Config.fallRate / 256)) ∧
    (¬ jump → goal = before → v.newF z = before) ∧
    (v.setting Config.riseRate ≤ 256 → v.setting Config.fallRate ≤ 256 →
      min before goal ≤ v.newF z ∧ v.newF z ≤ max before goal)

/-- The later stages of a processed zone: the halo guard over its processed neighbours, the minimum, derating, the
budget scale, the duty; and the zone as its level set carries it. A latch set in the solve darkens its zone, cleared
again or not. That the neighbours go by the columns of the captured SETTINGS, also where the captured grid record has
others, is the model's choice (notes/assumptions/33.md); that the solve carries the zones which a CLEAR_FAULTS has
cleared meanwhile is its reading (notes/assumptions/30.md). -/
def Obligations.LevelStagesOfAZone : Prop :=
  ∀ (v : Solve) (now : Chc) (z : Nat) (e : MapEntry) (c : Channel) (k : ChainNo),
    v.processes z = true → v.entry z = e → e.channel = some c → c.chain = k.val →
    let l (n : Nat) : Nat := (v.newF n + 8) / 16
    let columns := v.setting Config.gridColumns
    let near (n : Nat) : Prop := n ≠ z ∧ n / columns ≤ z / columns + 1 ∧ z / columns ≤ n / columns + 1 ∧
      n % columns ≤ z % columns + 1 ∧ z % columns ≤ n % columns + 1 ∧ v.processes n = true
    let l3 := v.guarded z
    let level := ((v.levelSet now).zone z).level
    let caught : Prop := now.latch z ≠ .clear ∨ sparseGet (fun _ => false) v.unlit z = true
    (l z ≤ l3 ∧ v.setting Config.minLevel ≤ l3 ∧ (∀ n, near n → l n - v.setting Config.haloStep ≤ l3) ∧
      (l3 = l z ∨ l3 = v.setting Config.minLevel ∨ ∃ n, near n ∧ l3 = l n - v.setting Config.haloStep)) ∧
    (sparseGet (fun _ => .clear) v.latches z ≠ .clear → v.derated z = 0) ∧
    (sparseGet (fun _ => .clear) v.latches z = .clear →
      v.derated z = l3 * (match v.thermal[k] with
        | .normal => 256
        | .warm => v.setting Config.warmFactor
        | .hot => v.setting Config.hotFactor) / 256) ∧
    v.scale = (if v.demand ≤ v.budget then 4096 else v.budget * 4096 / v.demand) ∧
    (caught ∨ sparseGet (fun _ => .clear) v.latches z ≠ .clear → level = 0 ∧ ((v.levelSet now).zone z).duty = 0) ∧
    (¬ caught → level = v.derated z * v.scale / 4096) ∧
    ((v.levelSet now).zone z).duty = min 65535 ((level * e.calibration + 4) / 8) ∧
    ((v.levelSet now).zone z).channel = some c

/-- The budget: the demand, the effective budget, the scale, the scaled levels; and the bound: the sum of level × weight
over the zones of a level set is at most the solve's effective budget, and that is at most POWER_BUDGET. That a late
fault's zone stays dark where a CLEAR_FAULTS has reached it goes by the marks of the model (notes/assumptions/30.md). -/
def Obligations.LevelsStayInBudget : Prop :=
  ∀ (v : Solve) (now : Chc),
    v.demand = ((List.range v.zones).map (fun z =>
      if v.processes z then v.derated z * (v.entry z).weight else 0)).sum ∧
    v.budget = v.setting Config.powerBudget * (if v.foldback then v.setting Config.foldFactor else 256) / 256 ∧
    (v.demand ≤ v.budget → v.scale = 4096) ∧
    (v.budget < v.demand → v.scale = v.budget * 4096 / v.demand ∧ v.scale ≤ 4095) ∧
    (∀ z, v.processes z = true → v.lateFault now z = false →
      ((v.levelSet now).zone z).level = v.derated z * v.scale / 4096 ∧
      (v.demand ≤ v.budget → ((v.levelSet now).zone z).level = v.derated z)) ∧
    (∀ z, v.processes z = true → v.lateFault now z = true → ((v.levelSet now).zone z).level = 0) ∧
    ((List.range v.zones).map (fun z => ((v.levelSet now).zone z).level * (v.entry z).weight)).sum ≤ v.budget ∧
    (v.setting Config.foldFactor ≤ 256 → v.budget ≤ v.setting Config.powerBudget)

/-- Solve complete: the zone records of all zones, the records for the report, what a statistics-sourced solve
updates; and the frame turn, where one waited for it. The due time is the model's choice (notes/assumptions/2.md); that
the reseed marks act as they stand at completion, and that the set goes with the zones that a CLEAR_FAULTS marked while it
was being solved, are its readings (notes/assumptions/10.md, notes/assumptions/30.md). -/
def Obligations.SolveCompleteWritesRecords : Prop :=
  ∀ (dt : Nat) (s : State) (started : Solve), s.lvs.solve = some started →
    let v : Solve := { started with reseed := s.lvs.reseed }
    (s.ftu.turnWaiting = false →
      ∃ t, exec (.solveComplete dt) s = .next t ∧ t.clock.now = max (s.clock.now + dt) v.dueAt ∧
        t.lvs.solve = none ∧ t.lvs.lastSet = v.levelSet s.chc ∧ t.lvs.lastSet.tag = some v.tag ∧
        (∀ z, (t.lvs.lastSet.zone z).level ≤ t.lvs.maxL4) ∧
        (t.lvs.maxL4 = 0 ∨ ∃ z, v.processes z = true ∧ (t.lvs.lastSet.zone z).level = t.lvs.maxL4) ∧
        (∀ z, v.processes z = false → t.lvs.lastSet.zone z = ⟨0, 0, none⟩) ∧
        t.lvs.unlit = v.unlit ∧ t.lvs.k = v.scale ∧ t.lvs.demand = v.demand ∧
        t.lvs.outcome = (if s.lvs.outcome = .late then .late else .onTime) ∧
        t.lvs.gprev = (if v.source = .statistics ∧ v.setsGprev = true then some v.mean else s.lvs.gprev) ∧
        t.lvs.lockJump = (s.lvs.lockJump && !v.lockJump) ∧
        (∀ z, sparseGet (fun _ => false) t.lvs.reseed z =
          (sparseGet (fun _ => false) s.lvs.reseed z && !v.processes z)) ∧
        (∀ z < Config.zones,
          (v.processes z = true →
            t.mem.word (zoneT z) = wordOfNat (v.target z) ∧ t.mem.word (zoneF z) = wordOfNat (v.newF z) ∧
            t.mem.word (zoneL4 z) = wordOfNat (t.lvs.lastSet.zone z).level ∧
            t.mem.word (zoneDuty z) = wordOfNat (t.lvs.lastSet.zone z).duty) ∧
          (v.processes z = false →
            t.mem.word (zoneT z) = 0 ∧ t.mem.word (zoneF z) = s.mem.word (zoneF z) ∧
            t.mem.word (zoneL4 z) = 0 ∧ t.mem.word (zoneDuty z) = 0)) ∧
        (∀ a, keyMemory a < 8 → t.mem.word a = s.mem.word a) ∧
        t.rpu = { s.rpu with
          flags := if v.sceneCut then s.rpu.flags ||| Event.sceneCut.bit else s.rpu.flags } ∧
        { t with clock := s.clock, mem := s.mem, lvs := s.lvs, rpu := s.rpu
                 imn := { t.imn with upsets := s.imn.upsets }
                 chc := { t.chc with chains := s.chc.chains, passQueue := s.chc.passQueue } } = s) ∧
    (s.ftu.turnWaiting = true → s.quiet →
      ∃ t, exec (.solveComplete dt) s = .next t ∧ t.ftu = { s.ftu with turnWaiting := false } ∧
        t.lvs.solve = none ∧ t.lvs.k = v.scale ∧ t.lvs.demand = v.demand ∧ t.tbs.marks = 0 ∧
        t.mdc.request = none ∧ (s.mdc.request = none → t.lvs.lastSet = v.levelSet s.chc))

/-- Solve complete hands its set to the chains: a referenced chain that is free starts the burst of the set, with the
duty of each zone and 0 on the other channels; a chain that sends something has the burst waiting; a chain that the set
does not reference loses its waiting burst. That the reseed marks act as they stand at completion is the model's
reading (notes/assumptions/10.md). -/
def Obligations.SolveCompleteStartsBursts : Prop :=
  ∀ (dt : Nat) (s : State) (started : Solve) (k : ChainNo),
    s.lvs.solve = some started → s.ftu.turnWaiting = false →
    let v : Solve := { started with reseed := s.lvs.reseed }
    ∃ t, exec (.solveComplete dt) s = .next t ∧
      let mapped (z : Nat) (device channel : Nat) : Prop :=
        v.processes z = true ∧ (v.entry z).channel = some ⟨k.val, device, channel⟩
      ((∀ z device channel, ¬ mapped z device channel) → t.chc.chains[k].waiting = none) ∧
      ((∃ z device channel, mapped z device channel) →
        (s.chc.chains[k].activity ≠ .idle →
          t.chc.chains[k].activity = s.chc.chains[k].activity ∧
          ∃ job, t.chc.chains[k].waiting = some job ∧ job.tag = v.tag) ∧
        (s.chc.chains[k].activity = .idle → s.chc.chains[k].awaiting = none →
          s.chc.chains[k].darkWaiting = false → s.chc.chains[k].latchPending = false →
          s.chc.chains[k].latchDue = none → s.chc.chains[k].enumWaiting = false →
          ∃ job devices, t.chc.chains[k] = { s.chc.chains[k] with
              waiting := none, activity := .burst job devices 0, message := burstMessage devices job.duty } ∧
            job.tag = v.tag ∧ s.chc.chains[k].count ≤ devices ∧
            (∀ z device channel, mapped z device channel → device < devices) ∧
            (devices = s.chc.chains[k].count ∨ ∃ z channel, 0 < devices ∧ mapped z (devices - 1) channel) ∧
            (∀ z device channel, mapped z device channel →
              (∀ y, mapped y device channel → y = z) →
              job.duty device channel = ((v.levelSet s.chc).zone z).duty) ∧
            (∀ device channel, (∀ z, ¬ mapped z device channel) → job.duty device channel = 0)))

/-! ## The pixel compensator -/

/-- The light field of a captured grid is the spread of the display levels, limited to 65535. The light at a pixel of a
laid grid is interpolated between the field values at the centres around it, by three floored divisions, and raised to
BLACK_FLOOR; before that it lies between the least and the greatest field value. -/
def Obligations.LightFieldAndPixelLight : Prop :=
  (∀ (cap : Capture) (display : Sparse Nat) (c r : Nat),
      c < cap.grid.columns → r < cap.grid.rows →
      sparseGet (fun _ => 0) (cap.field display) (r * cap.grid.columns + c) =
        min 65535 ((Finset.sum (Finset.range 7) (fun j => Finset.sum (Finset.range 7) (fun i =>
          if i ≤ c + 3 ∧ c + 3 - i < cap.grid.columns ∧ j ≤ r + 3 ∧ r + 3 - j < cap.grid.rows then
            cap.kernel.getD (7 * j + i) 0 *
              sparseGet (fun _ => 0) display ((r + 3 - j) * cap.grid.columns + (c + 3 - i))
          else 0))) / 65536)) ∧
    ∀ (cap : Capture) (field : Sparse Nat) (width height columns rows threshold x y : Nat),
      cap.grid = Grid.lay width height columns rows threshold → 1 ≤ columns → columns ≤ width → 1 ≤ rows →
      rows ≤ height → x < width → y < height →
      let middle (extent n i : Nat) : Nat :=
        if i + 1 = n then i * (extent / n) + (extent - i * (extent / n)) / 2
        else i * (extent / n) + extent / n / 2
      let around (extent n at' first second offset span : Nat) : Prop :=
        (at' < middle extent n 0 ∧ first = 0 ∧ second = 0 ∧ offset = 0) ∨
        (middle extent n 0 ≤ at' ∧ middle extent n (n - 1) ≤ at' ∧ first = n - 1 ∧ second = n - 1 ∧ offset = 0) ∨
        (middle extent n 0 ≤ at' ∧ at' < middle extent n (n - 1) ∧ first < n ∧ middle extent n first ≤ at' ∧
          (∀ i < n, middle extent n i ≤ at' → i ≤ first) ∧ second = first + 1 ∧
          offset = at' - middle extent n first ∧ span = middle extent n second - middle extent n first)
      let b (c r : Nat) : Int := (sparseGet (fun _ => 0) field (r * columns + c) : Nat)
      let join (p q : Int) (offset span : Nat) : Int := p + (q - p) * offset / span
      (∃ left right fx spanX top bottom fy spanY : Nat,
        around width columns x left right fx spanX ∧ around height rows y top bottom fy spanY ∧
        (cap.light field x y : Int) = max (cap.blackFloor : Int)
          (join (join (b left top) (b right top) fx spanX) (join (b left bottom) (b right bottom) fx spanX)
            fy spanY)) ∧
      ∀ low high : Nat, (∀ z < columns * rows, low ≤ sparseGet (fun _ => 0) field z ∧ sparseGet (fun _ => 0) field z ≤ high) →
        cap.blackFloor ≤ cap.light field x y ∧ low ≤ cap.light field x y ∧
          cap.light field x y ≤ max cap.blackFloor high

/-- The gain and the output of a compensated pixel, in both clip modes, and when it is clipped. -/
def Obligations.GainAndOutputOfAPixel : Prop :=
  ∀ (cap : Capture) (field : Sparse Nat) (x y : Nat) (p : Pixel),
    let gain := min cap.gainLimit (cap.bref * 1024 / cap.light field x y)
    let top := max p.red.toNat (max p.green.toNat p.blue.toNat)
    let out := cap.compensate field y x p
    (cap.clipMode = 0 →
      out.1.red.toNat = min 4095 ((p.red.toNat * gain + 512) / 1024) ∧
      out.1.green.toNat = min 4095 ((p.green.toNat * gain + 512) / 1024) ∧
      out.1.blue.toNat = min 4095 ((p.blue.toNat * gain + 512) / 1024) ∧
      (out.2 = true ↔ 4095 < (p.red.toNat * gain + 512) / 1024 ∨ 4095 < (p.green.toNat * gain + 512) / 1024 ∨
        4095 < (p.blue.toNat * gain + 512) / 1024)) ∧
    (cap.clipMode = 1 →
      let used := if 4193280 < top * gain then 4193280 / top else gain
      out.1.red.toNat = (p.red.toNat * used + 512) / 1024 ∧
      out.1.green.toNat = (p.green.toNat * used + 512) / 1024 ∧
      out.1.blue.toNat = (p.blue.toNat * used + 512) / 1024 ∧
      (out.2 = true ↔ 4193280 < top * gain) ∧ (out.2 = true ↔ used < gain))

/-! ## The chains -/

/-- An update burst ends: its tag becomes the done tag, and the arbiter starts the first message that can start. -/
def Obligations.BurstEndsAndArbiterChooses : Prop :=
  ∀ (dt : Nat) (s : State) (k : ChainNo) (job : BurstJob) (d : Nat), s.chc.chains[k].activity = .burst job d d →
    ∃ t, exec (.burstDone dt k) s = .next t ∧ t.chc.chains[k].doneTag = some job.tag ∧
      t.chc.chains[k].activity =
        (match s.chc.chains[k].latchDue with
        | some f => .latch (some f)
        | none =>
          if s.chc.chains[k].awaiting.isSome then .idle
          else if s.chc.chains[k].darkWaiting then .darkBurst s.chc.chains[k].count 0
          else if s.chc.chains[k].latchPending then .idle
          else if s.chc.chains[k].enumWaiting then .enumerate .release
          else match s.chc.chains[k].waiting with
            | some next => .burst next (next.covers s.chc.chains[k].count) 0
            | none => if s.chc.passQueue.any (fun e => e.chain == k) then .passRequest else .idle) ∧
      t.chc.chains[k].latchPending = s.chc.chains[k].latchPending ∧
      t.chc.chains[k].lastLatch = s.chc.chains[k].lastLatch ∧ t.chc.chains[k].count = s.chc.chains[k].count ∧
      (∀ j : ChainNo, j ≠ k → t.chc.chains[j] = s.chc.chains[j]) ∧ t.clock = (s.advance dt).clock ∧
      { t with clock := s.clock
               chc := { t.chc with chains := s.chc.chains, passQueue := s.chc.passQueue } } = s

/-- A latch falls due when its line begins, and one still pending at the output active end, at a cut of its frame, or at
the next first active line falls due there. It is sent at once on an IDLE chain, and waits on a busy one. A dark burst
ends in its own latch, ahead of anything else. A sent latch clears latch pending and leaves the frame in which it fell
due, but for the latch of a dark burst. -/
def Obligations.LatchesFollowTheirRules : Prop :=
  ∀ (dt : Nat) (s : State) (k : ChainNo),
    let falls (t : State) (k : ChainNo) : Prop :=
      s.chc.chains[k].latchPending = true → s.chc.chains[k].latchDue = none →
      (s.chc.chains[k].activity = .idle →
        t.chc.chains[k] = { s.chc.chains[k] with
          activity := .latch (some s.ftu.frameNumber), message := latchMessage }) ∧
      (s.chc.chains[k].activity ≠ .idle → (∀ f, s.chc.chains[k].activity ≠ .latch (some f)) →
        t.chc.chains[k] = { s.chc.chains[k] with latchDue := some s.ftu.frameNumber })
    (s.activeEndDue →
      ∃ t, exec (.outputActiveEnd dt) s = .next t ∧ ∀ k : ChainNo, falls t k ∧
        (s.chc.chains[k].latchPending = false → t.chc.chains[k] = s.chc.chains[k])) ∧
    (s.lrx.input = .locked → s.lrx.record = none → s.ftu.state = .freeRun → s.ftu.phase.isOver = false →
      s.ftu.turnWaiting = false →
      ∃ t, exec (.frameStartMarker dt none) s = .next t ∧ ∀ k : ChainNo, falls t k ∧
        (s.chc.chains[k].latchPending = false → t.chc.chains[k] = s.chc.chains[k])) ∧
    (s.firstLineDue → s.ftu.turnWaiting = false →
      ∃ t, exec (.firstActiveLine dt) s = .next t ∧ ∀ k : ChainNo, falls t k) ∧
    (∀ n, s.ftu.phase = .active n →
      (s.ftu.state = .following ∧ (∃ pixels damaged off width rest,
          s.ftu.delay = .line pixels damaged off width :: rest)) ∨
        (s.ftu.state = .freeRun ∧ n < s.ftu.geometry.height) →
      ∃ t, exec (.outputLineBegin dt) s = .next t ∧
        ∀ k : ChainNo,
          (s.chc.latchLines[k] = n → falls t k) ∧
          (s.chc.latchLines[k] ≠ n ∨ s.chc.chains[k].latchPending = false →
            t.chc.chains[k] = s.chc.chains[k])) ∧
    (∀ d, s.chc.chains[k].activity = .darkBurst d d →
      ∃ t, exec (.darkBurstDone dt k) s = .next t ∧
        t.chc.chains[k] = { s.chc.chains[k] with activity := .latch none, message := latchMessage } ∧
        (∀ j : ChainNo, j ≠ k → t.chc.chains[j] = s.chc.chains[j]) ∧ t.clock = (s.advance dt).clock ∧
        { t with clock := s.clock, chc := { t.chc with chains := s.chc.chains } } = s) ∧
    (∀ frame, s.chc.chains[k].activity = .latch frame →
      ∃ t, exec (.latchSent dt k) s = .next t ∧
        (∀ f, frame = some f →
          t.chc.chains[k].latchPending = false ∧ t.chc.chains[k].lastLatch = some f) ∧
        (frame = none → t.chc.chains[k].latchPending = s.chc.chains[k].latchPending ∧
          t.chc.chains[k].lastLatch = s.chc.chains[k].lastLatch) ∧
        (s.chc.chains[k].latchDue = none → s.chc.chains[k].darkWaiting = false →
          s.chc.chains[k].enumWaiting = false → s.chc.chains[k].waiting = none →
          (∀ e ∈ s.chc.passQueue, e.chain ≠ k) →
          t.chc.chains[k].activity = .idle ∧ t.chc.passQueue = s.chc.passQueue) ∧
        (∀ j : ChainNo, j ≠ k → t.chc.chains[j] = s.chc.chains[j]) ∧ t.clock = (s.advance dt).clock ∧
        { t with clock := s.clock
                 chc := { t.chc with chains := s.chc.chains, passQueue := s.chc.passQueue } } = s)

/-- A good status in a readback slot of an update burst or a dark burst: the device record, the counts of its channels,
the fault latch of a zone whose channel is confirmed, which only an update burst can set, and the over-temperature hold of
the chain, which follows its 24 records and is passed to the sense unit when it changes. That a latch set here is noted
for the next first active line is the model's reading of R103 (notes/assumptions/23.md). -/
def Obligations.GoodStatusUpdatesRecords : Prop :=
  ∀ (dt : Nat) (s : State) (k : ChainNo) (zones : List BurstZone) (d i : Nat) (opens shorts : Word) (flags : Byte),
    ((∃ tag, s.chc.chains[k].activity = .burst ⟨tag, zones⟩ d i) ∨
      (s.chc.chains[k].activity = .darkBurst d i ∧ zones = [])) → i < d → i < 24 →
    s.cleanSetting Config.faultConfirm → s.cleanSetting Config.missLimit →
    ∃ t, exec (.readbackSlot dt k (withCrc8 ([0x3C, byteOf i] ++ wordBytes opens ++ wordBytes shorts ++ [flags]))) s
        = .next t ∧
      t.chc.device (24 * k.val + i) = ⟨.ok, 0, opens, shorts, flags.getLsbD 0⟩ ∧
      (∀ key, key ≠ 24 * k.val + i → t.chc.device key = s.chc.device key) ∧
      (∀ c < 16,
        channelCount t.chc.openCount (16 * (24 * k.val + i) + c) =
          (if opens.getLsbD c then min 15 (channelCount s.chc.openCount (16 * (24 * k.val + i) + c) + 1) else 0) ∧
        channelCount t.chc.shortCount (16 * (24 * k.val + i) + c) =
          (if shorts.getLsbD c then min 15 (channelCount s.chc.shortCount (16 * (24 * k.val + i) + c) + 1)
            else 0)) ∧
      (∀ n, n / 16 ≠ 24 * k.val + i → channelCount t.chc.openCount n = channelCount s.chc.openCount n ∧
        channelCount t.chc.shortCount n = channelCount s.chc.shortCount n) ∧
      (∀ z, s.chc.latch z ≠ .clear ∨ (∀ b ∈ zones, b.zone = z → b.device ≠ i) →
        t.chc.latch z = s.chc.latch z) ∧
      (∀ b ∈ zones, b.device = i → b.channel < 16 → s.chc.latch b.zone = .clear →
        (∀ a ∈ zones, a.device = i → a.channel = b.channel → a = b) → (∀ a ∈ zones, a.zone = b.zone → a = b) →
        t.chc.latch b.zone =
          (if s.mem.active 40 ≤ channelCount t.chc.openCount (16 * (24 * k.val + i) + b.channel) then .opened
          else if s.mem.active 40 ≤ channelCount t.chc.shortCount (16 * (24 * k.val + i) + b.channel) then .shorted
          else .clear) ∧
        (t.chc.latch b.zone ≠ .clear → t.rpu.flags &&& Event.zoneFaultNew.bit ≠ 0 ∧
          sparseGet (fun _ => false) t.chc.struck b.zone = true)) ∧
      (∀ z, t.chc.latch z = s.chc.latch z →
        sparseGet (fun _ => false) t.chc.struck z = sparseGet (fun _ => false) s.chc.struck z) ∧
      (flags.getLsbD 0 = true → t.chc.chains[k].overTemp = true ∧
        (s.chc.chains[k].overTemp = false → t.sns.overTemp[k] = true ∧ t.sns.thermal[k] = .hot)) ∧
      (t.chc.chains[k].overTemp = true ↔ ∃ j < 24, (t.chc.device (24 * k.val + j)).overTemp = true) ∧
      (t.chc.chains[k].overTemp = s.chc.chains[k].overTemp → t.sns = s.sns) ∧
      (t.chc.chains[k].overTemp ≠ s.chc.chains[k].overTemp → t.sns = { s.sns with
        overTemp := s.sns.overTemp.set k t.chc.chains[k].overTemp
        thermal := if t.chc.chains[k].overTemp then s.sns.thermal.set k .hot else s.sns.thermal }) ∧
      t.chc.chains[k] = { s.chc.chains[k] with
        overTemp := t.chc.chains[k].overTemp
        activity := match s.chc.chains[k].activity with
          | .burst job d i => .burst job d (i + 1)
          | .darkBurst d i => .darkBurst d (i + 1)
          | .idle => .idle
          | .latch f => .latch f
          | .enumerate p => .enumerate p
          | .passRequest => .passRequest } ∧
      (∀ j : ChainNo, j ≠ k → t.chc.chains[j] = s.chc.chains[j]) ∧ t.clock = (s.advance dt).clock ∧
      { t with clock := s.clock, sns := s.sns, rpu := { t.rpu with flags := s.rpu.flags }
               chc := { t.chc with
                 devices := s.chc.devices, openCount := s.chc.openCount, shortCount := s.chc.shortCount
                 latches := s.chc.latches, struck := s.chc.struck, chains := s.chc.chains } } = s

/-- Any other outcome of a readback slot is a miss: of the chain's record, only the place in the burst moves on. -/
def Obligations.MissedSlotIsCounted : Prop :=
  ∀ (dt : Nat) (s : State) (k : ChainNo) (d i : Nat) (bytes : List Byte),
    ((∃ job, s.chc.chains[k].activity = .burst job d i) ∨ s.chc.chains[k].activity = .darkBurst d i) → i < d →
    s.cleanSetting Config.faultConfirm → s.cleanSetting Config.missLimit →
    (bytes.length ≠ 8 ∨ bytes[0]? ≠ some 0x3C ∨ bytes[1]? ≠ some (byteOf i) ∨
      bytes[7]? ≠ some (crc8 (bytes.take 7))) →
    ∃ t, exec (.readbackSlot dt k bytes) s = .next t ∧
      let before := s.chc.device (24 * k.val + i)
      let silent := s.mem.active 41 ≤ min 15 (before.misses + 1) ∧ before.state ≠ .noResponse
      t.chc.device (24 * k.val + i) = { before with
        misses := min 15 (before.misses + 1), state := if silent then .noResponse else before.state } ∧
      (∀ key, key ≠ 24 * k.val + i → t.chc.device key = s.chc.device key) ∧
      t.rpu = { s.rpu with
        counters := s.rpu.counters.add 1 .readbackMisses
        flags := if silent then s.rpu.flags ||| Event.deviceNoResponse.bit else s.rpu.flags } ∧
      t.chc.chains[k] = { s.chc.chains[k] with
        activity := match s.chc.chains[k].activity with
          | .burst job d i => .burst job d (i + 1)
          | .darkBurst d i => .darkBurst d (i + 1)
          | .idle => .idle
          | .latch f => .latch f
          | .enumerate p => .enumerate p
          | .passRequest => .passRequest } ∧
      (∀ j : ChainNo, j ≠ k → t.chc.chains[j] = s.chc.chains[j]) ∧ t.clock = (s.advance dt).clock ∧
      { t with clock := s.clock, rpu := s.rpu
               chc := { t.chc with devices := s.chc.devices, chains := s.chc.chains } } = s

/-- An enumeration sweep goes from the release over the assignments to its end, which a 25th device, a bad
acknowledgement or the wait of 20 µs brings. That a bad acknowledgement ends the sweep at once, and the due time of
the wait, are the model's (notes/assumptions/19.md, notes/assumptions/2.md). -/
def Obligations.SweepCountsDevices : Prop :=
  ∀ (dt : Nat) (s : State) (k : ChainNo),
    let ended (t : State) (count : Nat) (overlength : Bool) : Prop :=
      t.chc.chains[k].count = count ∧ t.chc.chains[k].overlength = overlength ∧
      t.chc.chains[k].sweeping = false ∧
      (∀ i < 24, t.chc.device (24 * k.val + i) = ⟨.unknown, 0, 0, 0, false⟩) ∧
      (∀ n, n / 384 = k.val → channelCount t.chc.openCount n = 0 ∧ channelCount t.chc.shortCount n = 0) ∧
      t.chc.chains[k].overTemp = false ∧
      t.rpu = { s.rpu with flags := s.rpu.flags ||| Event.enumDone.bit } ∧ t.chc.latches = s.chc.latches ∧
      (∀ j : ChainNo, j ≠ k → t.chc.chains[j] = s.chc.chains[j]) ∧ t.mem = s.mem ∧ t.cmd = s.cmd ∧ t.mdc = s.mdc
    (s.chc.chains[k].activity = .enumerate .release →
      ∃ t, exec (.releaseSent dt k) s = .next t ∧
        t = (s.advance dt).setChain k { s.chc.chains[k] with
          activity := .enumerate (.assigning 0), message := withCrc8 [0xA4, 0] }) ∧
    (∀ n, s.chc.chains[k].activity = .enumerate (.assigning n) →
      ∃ t, exec (.assignmentSent dt k) s = .next t ∧
        t = (s.advance dt).setChain k { s.chc.chains[k] with
          activity := .enumerate (.waiting n (s.clock.now + dt)), message := [] }) ∧
    (∀ n since, s.chc.chains[k].activity = .enumerate (.waiting n since) → s.chc.chains[k].enumWaiting = false →
      (s.clock.now + dt ≤ since + 20 →
        (n ≠ 24 → ∃ t, exec (.acknowledgement dt k (withCrc8 [0x3C, byteOf n])) s = .next t ∧
          t = (s.advance dt).setChain k { s.chc.chains[k] with
            activity := .enumerate (.assigning (n + 1)), message := withCrc8 [0xA4, byteOf (n + 1)] }) ∧
        (n = 24 → ∃ t, exec (.acknowledgement dt k (withCrc8 [0x3C, byteOf n])) s = .next t ∧ ended t 24 true) ∧
        (∀ bytes, bytes ≠ withCrc8 [0x3C, byteOf n] →
          ∃ t, exec (.acknowledgement dt k bytes) s = .next t ∧ ended t n false)) ∧
      ∃ t, exec (.enumAckTimeout dt k) s = .next t ∧ t.clock.now = max (s.clock.now + dt) (since + 20) ∧
        ended t n false)

/-- A pass-through exchange: the request's end, a good answer within 2 ms, a discarded one, and the timeout. The due
time of the timeout is the model's choice (notes/assumptions/2.md). -/
def Obligations.PassThroughExchange : Prop :=
  ∀ (dt : Nat) (s : State) (k : ChainNo),
    (s.chc.chains[k].activity = .passRequest → s.chc.chains[k].latchDue = none →
      ∃ t, exec (.passRequestSent dt k) s = .next t ∧
        t = (s.advance dt).setChain k { s.chc.chains[k] with
          activity := .idle, message := [], awaiting := some (s.clock.now + dt) }) ∧
    ∀ since e o, s.chc.chains[k].awaiting = some since → s.chc.passQueue[s.chc.exchange k]? = some e →
      (s.cmd.owed.filter (fun o => o.owner == .chains))[s.chc.exchange k]? = some o →
      let delivered (t : State) (result : Result) (data : List Word) : Prop :=
        t.cmd.outgoing = s.cmd.outgoing ++ [⟨t.tag, o.seq, o.code, result, .none, true, data⟩] ∧
        t.cmd.owed.length + 1 = s.cmd.owed.length ∧ t.chc.passQueue.length + 1 = s.chc.passQueue.length ∧
        t.chc.chains[k].awaiting = none ∧ t.chc.latches = s.chc.latches ∧
        (∀ j : ChainNo, j ≠ k → t.chc.chains[j] = s.chc.chains[j]) ∧
        (s.cleanSetting Config.deviceTag → t.mem = s.mem ∧ t.mdc = s.mdc)
      (∀ answer, answer.length ≤ 8 → s.clock.now + dt ≤ since + 2000 →
        ∃ t, exec (.passAnswer dt k
            (withCrc8 (0x3C :: byteOf e.device :: byteOf answer.length :: answer))) s = .next t ∧
          delivered t .ok (wordOfNat answer.length :: packWords ((answer ++ List.replicate 8 0).take 8))) ∧
      (∀ bytes, (∀ answer, bytes ≠ withCrc8 (0x3C :: byteOf e.device :: byteOf answer.length :: answer)) →
        exec (.passAnswer dt k bytes) s = .next (s.advance dt)) ∧
      ∃ t, exec (.passTimeout dt k) s = .next t ∧ t.clock.now = max (s.clock.now + dt) (since + 2000) ∧
        delivered t .timeout []

/-! ## The sense unit and the return lane -/

/-- A conversion ends 16 µs after its start: its result is stored, a scan goes on to the next input, a manual
conversion delivers its reply. The due time is the model's choice (notes/assumptions/2.md). -/
def Obligations.ConversionStoresResult : Prop :=
  ∀ (dt : Nat) (raw : BitVec 10) (s : State) (i since : Nat), i ≤ 8 → s.quiet →
    let r := if (s.mem.active 42).testBit i then 1023 - raw.toNat else raw.toNat
    let stored (t : State) : Prop :=
      t.clock.now = max (s.clock.now + dt) (since + 16) ∧ t.sns.results[i]? = some r ∧
      (∀ j, j ≠ i → t.sns.results[j]? = s.sns.results[j]?) ∧ t.sns.overTemp = s.sns.overTemp ∧
      (∀ j : ChainNo, j.val ≠ i → t.sns.thermal[j] = s.sns.thermal[j] ∧
        t.sns.sensorFault[j] = s.sns.sensorFault[j]) ∧
      (i ≠ 8 → t.sns.foldback = s.sns.foldback ∧ t.sns.foldCount = s.sns.foldCount)
    (s.sns.converter = .scanning i since →
      ∃ t, exec (.conversionEnd dt raw) s = .next t ∧ stored t ∧
        t.sns.converter = (if i = 8 then .idle else .scanning (i + 1) (since + 16)) ∧
        { t with clock := s.clock, sns := s.sns } = s) ∧
    (∀ o, s.sns.converter = .manual i since → s.cmd.owed.filter (fun o => o.owner == .sense) = [o] →
      ∃ t, exec (.conversionEnd dt raw) s = .next t ∧ stored t ∧ t.sns.converter = .idle ∧
        t.cmd.outgoing = s.cmd.outgoing ++
          [⟨s.tag, o.seq, o.code, .ok, .none, true, [wordOfNat i, wordOfNat raw.toNat, wordOfNat r]⟩] ∧
        t.cmd.owed.filter (fun o => o.owner == .sense) = [] ∧
        { t with clock := s.clock, sns := s.sns, cmd := s.cmd
                 rpu := { t.rpu with slot := s.rpu.slot } } = s)

/-- What the result of a conversion, scanned or manual, does to its chain's thermal state, or to the foldback state. -/
def Obligations.ResultsDriveThermalAndFoldback : Prop :=
  ∀ (dt : Nat) (raw : BitVec 10) (s : State) (i since : Nat), s.quiet → i ≤ 8 →
    s.sns.converter = .scanning i since ∨ s.sns.converter = .manual i since →
    let r := if (s.mem.active 42).testBit i then 1023 - raw.toNat else raw.toNat
    let warmOn := s.mem.active 16
    let warmOff := min (s.mem.active 17) warmOn
    let hotOn := s.mem.active 18
    let hotOff := min (s.mem.active 19) hotOn
    let foldOn := s.mem.active 20
    let foldOff := min (s.mem.active 21) foldOn
    ∃ t, exec (.conversionEnd dt raw) s = .next t ∧ t.sns.results[i]? = some r ∧
      (∀ k : ChainNo, k.val = i →
        (r = 0 ∨ r = 1023 → t.sns.thermal[k] = .hot ∧ t.sns.sensorFault[k] = true) ∧
        (r ≠ 0 → r ≠ 1023 → t.sns.sensorFault[k] = false ∧
          (s.sns.overTemp[k] = true → t.sns.thermal[k] = .hot) ∧
          (s.sns.overTemp[k] = false →
            (s.sns.thermal[k] ≠ .hot → hotOn ≤ r → t.sns.thermal[k] = .hot) ∧
            (s.sns.thermal[k] = .normal → r < hotOn → warmOn ≤ r → t.sns.thermal[k] = .warm) ∧
            (s.sns.thermal[k] = .normal → r < hotOn → r < warmOn → t.sns.thermal[k] = .normal) ∧
            (s.sns.thermal[k] = .warm → r < hotOn → r < warmOff → t.sns.thermal[k] = .normal) ∧
            (s.sns.thermal[k] = .warm → r < hotOn → warmOff ≤ r → t.sns.thermal[k] = .warm) ∧
            (s.sns.thermal[k] = .hot → r < hotOff → t.sns.thermal[k] = .warm) ∧
            (s.sns.thermal[k] = .hot → hotOff ≤ r → t.sns.thermal[k] = .hot)))) ∧
      (i = 8 →
        (s.sns.foldback = false → foldOn ≤ r → s.sns.foldCount = 0 → ¬ t.sns.foldback ∧ t.sns.foldCount = 1) ∧
        (s.sns.foldback = false → foldOn ≤ r → s.sns.foldCount = 1 → t.sns.foldback ∧ t.sns.foldCount = 0) ∧
        (s.sns.foldback = false → r < foldOn → ¬ t.sns.foldback ∧ t.sns.foldCount = 0) ∧
        (s.sns.foldback = true → r < foldOff → s.sns.foldCount = 0 → t.sns.foldback ∧ t.sns.foldCount = 1) ∧
        (s.sns.foldback = true → r < foldOff → s.sns.foldCount = 1 → ¬ t.sns.foldback ∧ t.sns.foldCount = 0) ∧
        (s.sns.foldback = true → foldOff ≤ r → t.sns.foldback ∧ t.sns.foldCount = 0))

/-- The return lane chooses again when a transmission ends: the report in the slot, else the oldest filled reply. What a
transmission carries: the start symbol and the bytes of a reply and of a frame report, whose counts are coded there. -/
def Obligations.LaneChoosesNextPacket : Prop :=
  let value (bytes : List Byte) (first n : Nat) : Nat :=
    ((bytes.drop first).take n).foldl (fun v b => 256 * v + b.toNat) 0
  (∀ r : Reply, ∃ b, (LanePacket.reply r).wire = (false, b) ∧ b.length = 9 + 2 * r.data.length ∧
    value b 0 1 = r.tag.toNat ∧ value b 1 1 = r.seq.toNat ∧ value b 2 1 = r.code.toNat ∧
    [Result.ok, .clamped, .badCommand, .badLength, .badTable, .range, .notInMode, .busy, .configInvalid, .timeout,
      .aborted, .readOnly][value b 3 1]? = some r.result ∧
    [Reason.none, .duplicateChannel, .noZones, .chainUnknown][value b 4 1]? = some r.reason ∧
    value b 5 1 = (if r.final then 1 else 0) ∧ value b 6 1 = r.data.length % 256 ∧
    (∀ i w, r.data[i]? = some w → value b (7 + 2 * i) 2 = w.toNat) ∧
    value b (7 + 2 * r.data.length) 2 = (crc16 (b.take (7 + 2 * r.data.length))).toNat) ∧
  (∀ r : FrameReport, ∃ b, (LanePacket.report r).wire = (true, b) ∧ b.length = 34 ∧
    value b 0 1 = r.tag.toNat ∧ value b 1 4 = r.frame.toNat ∧ value b 5 4 = r.stamp.toNat ∧
    [Mode.standby, .bypass, .dimming, .safe][value b 9 1 % 4]? = some r.mode ∧
    [InputState.noSignal, .acquiring, .locked][value b 9 1 / 4 % 4]? = some r.input ∧
    value b 9 1 / 16 = (if r.transition then 1 else 0) + (if r.attention then 2 else 0) +
      (if r.foldback then 4 else 0) ∧
    value b 10 1 = r.committed.toNat ∧
    [Reason.none, .duplicateChannel, .noZones, .chainUnknown][value b 11 1]? = some r.reason ∧
    value b 12 3 = r.flags.toNat ∧ value b 15 2 = r.k % 65536 ∧ value b 17 4 = r.demand % 4294967296 ∧
    value b 21 2 = r.maxL4 % 65536 ∧ value b 23 2 = r.globalMean % 65536 ∧
    [SolveOutcome.none, .onTime, .late][value b 25 1]? = some r.solveStatus ∧ value b 26 1 = r.burstLate.toNat ∧
    (∀ k : ChainNo, [Thermal.normal, .warm, .hot][value b 27 2 / 4 ^ k.val % 4]? = some r.thermal[k]) ∧
    value b 29 1 = compactCode r.charErrors ∧ value b 30 1 = compactCode r.clips ∧
    value b 31 1 = compactCode r.packetErrors ∧ value b 32 2 = (crc16 (b.take 32)).toNat) ∧
  (∀ c : Nat, (c < 32 → compactCode c = c) ∧ (524288 ≤ c → compactCode c = 32 * 7 + 31) ∧
    ∀ e, 32 ≤ c → 1 ≤ e → e ≤ 7 → c / 4 ^ e < 32 → (∀ d, 1 ≤ d → d < e → 32 ≤ c / 4 ^ d) →
      compactCode c = 32 * e + c / 4 ^ e) ∧
  ∀ (dt : Nat) (s : State), s.cmd.lane ≠ none →
    ∃ t, exec (.transmissionEnd dt) s = .next t ∧
      (∀ r, s.rpu.slot = some r → t.cmd.lane = some (.report r) ∧ t.rpu.slot = none ∧
        t.cmd.filled = s.cmd.filled) ∧
      (∀ r rest, s.rpu.slot = none → s.cmd.filled = r :: rest →
        t.cmd.lane = some (.reply r) ∧ t.cmd.filled = rest ∧ t.rpu.slot = none) ∧
      (s.rpu.slot = none → s.cmd.filled = [] → t.cmd.lane = none ∧ t.cmd.filled = [] ∧ t.rpu.slot = none) ∧
      t.cmd.owed = s.cmd.owed ∧
      (s.cmd.inFlight ≠ none → t.cmd.inFlight = s.cmd.inFlight ∧ t.cmd.queue = s.cmd.queue) ∧
      (∀ p rest, s.cmd.inFlight = none → s.cmd.queue = p :: rest →
        (p.reserves = 0 ∨ p.reserves + t.cmd.filled.length + t.cmd.owed.length ≤ 8 →
          t.cmd.inFlight = some ⟨p, p.reserves⟩ ∧ t.cmd.queue = rest) ∧
        (p.reserves ≠ 0 → 8 < p.reserves + t.cmd.filled.length + t.cmd.owed.length →
          t.cmd.inFlight = none ∧ t.cmd.queue = s.cmd.queue)) ∧
      (s.cmd.inFlight = none → s.cmd.queue = [] → t.cmd.inFlight = none ∧ t.cmd.queue = []) ∧
      t.clock = (s.advance dt).clock ∧
      { t with clock := s.clock, cmd := s.cmd, rpu := { t.rpu with slot := s.rpu.slot } } = s

/-! ## Commands of the source

Each statement is about the packet in flight, `p`. Its reply reads the active DEVICE_TAG: `State.runs` takes that entry's
two words to hold no error. -/

/-- Refusals that every command shares: an unknown code, a wrong payload length; and the broadcasts that are
discarded. -/
def Obligations.CommandsAreRefused : Prop :=
  ∀ (dt : Nat) (s : State) (p : Packet),
    (s.runs p p.code → (∀ row ∈ commandRows, row.code ≠ p.code) →
      ∃ t, exec (.badCommand dt) s = .next t ∧ s.answered t p .badCommand [] ∧ t.clock = (s.advance dt).clock ∧
        s.keptElsewhere t) ∧
    ∀ row ∈ commandRows, s.runs p row.code →
      (row.silent = true → p.broadcast = true →
        ∃ t, exec (row.instr dt) s = .next t ∧ s.replied t [] ∧ s.tookNext t ∧ t.clock = (s.advance dt).clock ∧
          s.keptElsewhere t) ∧
      ((row.silent && p.broadcast) = false → row.accepts p.payload.length = false →
        ∃ t, exec (row.instr dt) s = .next t ∧ s.answered t p .badLength [] ∧ t.clock = (s.advance dt).clock ∧
          s.keptElsewhere t)

/-- IDENTIFY and READ_STATUS: their data, and the snapshot that READ_STATUS takes. The ATTN line is asserted exactly while
attention is set, an enabled event is pending, or the waiting report carries an enabled REPORT_LOST. -/
def Obligations.IdentityAndStatusAreReturned : Prop :=
  (∀ s : State, s.attnLine = true ↔ s.attention = true ∨
    (∃ e : Event, s.rpu.flags.getLsbD (e.number - 1) = true ∧ s.rpu.notifyMask.getLsbD (e.number - 1) = true) ∨
    ∃ r, s.rpu.slot = some r ∧ r.flags.getLsbD 16 = true ∧ s.rpu.notifyMask.getLsbD 16 = true) ∧
  ∀ (dt : Nat) (s : State) (p : Packet), p.payload = [] → p.broadcast = false →
    (s.runs p 0x01 →
      ∃ t, exec (.identify dt) s = .next t ∧
        s.answered t p .ok [0x2336, 3, wordOfNat (s.mem.active Config.deviceTag)] ∧
        t.clock = (s.advance dt).clock ∧ s.keptElsewhere t) ∧
    (s.runs p 0x30 →
      ∃ t, exec (.readStatus dt) s = .next t ∧
        s.answered t p .ok
          ((let c := s.rpu.counters
            [c.packetCrcErrors, c.packetsDropped, c.characterErrors, c.lineSlips, c.solvesLate, c.burstsLate,
             c.readbackMisses, c.reportsLost, c.senseOverruns, c.corrected, c.uncorrectable,
             c.clippedPixels].flatMap natWords) ++
           [wordOfNat ((s.lrx.locked.map Geometry.width).getD 0),
            wordOfNat ((s.lrx.locked.map Geometry.height).getD 0)] ++ natWords s.lrx.period ++
           [wordOfNat (256 * s.lrx.input.code + s.mdc.mode.code), wordOfNat (thermalWord s.sns.thermal),
            wordOfNat ((if s.sns.foldback then 1 else 0) + (if s.attention then 2 else 0)),
            wordOfNat s.chc.setLatches, wordOfNat s.chc.silentDevices, wordOfNat s.imn.log.length]) ∧
        t.rpu.snapshot = s.watched ∧ t.attention = false ∧ t.clock = (s.advance dt).clock ∧
        s.keptElsewhere { t with rpu := { t.rpu with snapshot := s.rpu.snapshot } })

/-- WRITE_TABLE: its checks in order, and the words it stores in the staging bank, each with fresh check bits. That a
word's check bits are held as a verdict is the model's choice (notes/assumptions/8.md). -/
def Obligations.WriteTableStoresStaging : Prop :=
  ∀ (dt : Nat) (s : State) (p : Packet) (w0 w1 : Word) (data : List Word),
    s.runs p 0x10 → p.payload = w0 :: w1 :: data → 1 ≤ data.length → data.length ≤ 118 →
    let table := w0.toNat
    let start := w1.toNat
    let per := if table ≤ 1 then 2 else 1
    let size := if table = 0 then 43 else if table = 1 then 2304 else if table = 2 then 33 else 49
    let n := data.length / per
    let word (i j : Nat) : Word := data.getD (per * i + j) 0
    let value (i : Nat) : Nat := (word i 0).toNat * 65536 + (word i 1).toNat
    let row (i : Nat) : Config.Setting := Config.setting (start + i)
    let outside (i : Nat) : Prop := value i < (row i).lo ∨ (row i).hi < value i
    let refused (i : Nat) : Prop :=
      (table = 0 ∧ (row i).refuse = true ∧ outside i) ∨
      (table = 1 ∧ (word i 0).getLsbD 15 = true ∧
        (7 < ((word i 0).toNat / 2048) % 16 ∨ 23 < ((word i 0).toNat / 64) % 32))
    let clamps (i : Nat) : Prop :=
      (table = 0 ∧ outside i) ∨ (table = 1 ∧ (word i 1).toNat / 256 = 0) ∨ (table = 2 ∧ 4095 < (word i 0).toNat)
    let stops (r : Result) : Prop :=
      ∃ t, exec (.writeTable dt) s = .next t ∧ s.answered t p r [] ∧ t.clock = (s.advance dt).clock ∧
        s.keptElsewhere t
    (7 < table → stops .badTable) ∧
    (table ≤ 7 → 3 < table → stops .readOnly) ∧
    (table ≤ 3 → data.length % per ≠ 0 → stops .badLength) ∧
    (table ≤ 3 → data.length % per = 0 → size ≤ start ∨ size < start + n → stops .range) ∧
    (table ≤ 3 → data.length % per = 0 → start < size → start + n ≤ size → (∃ i < n, refused i) → stops .range) ∧
    (table ≤ 3 → data.length % per = 0 → start < size → start + n ≤ size → (∀ i < n, ¬ refused i) →
      ∃ t r, exec (.writeTable dt) s = .next t ∧ s.answered t p r [] ∧ t.clock = (s.advance dt).clock ∧
        (r = .ok ∨ r = .clamped) ∧ (r = .clamped ↔ ∃ i < n, clamps i) ∧
        (∀ i < n, table = 0 → t.mem.setting 0 (start + i) = max (row i).lo (min (row i).hi (value i))) ∧
        (∀ i < n, table = 1 →
          t.mem.word (wordKey 2 (2 * (start + i))) =
            (if (word i 0).getLsbD 15 then word i 0 &&& 0xFFFC else 0) ∧
          t.mem.word (wordKey 2 (2 * (start + i) + 1)) =
            (if (word i 1).toNat / 256 = 0 then word i 1 ||| 0x0100 else word i 1)) ∧
        (∀ i < n, table = 2 →
          t.mem.word (wordKey 4 (start + i)) = if 4095 < (word i 0).toNat then 4095 else word i 0) ∧
        (∀ i < n, table = 3 → t.mem.word (wordKey 6 (start + i)) = word i 0) ∧
        (∀ a, (a < wordKey (2 * table) (per * start) ∨ wordKey (2 * table) (per * (start + n)) ≤ a) →
          t.mem.word a = s.mem.word a ∧
          sparseGet (fun _ => none) t.imn.upsets a = sparseGet (fun _ => none) s.imn.upsets a) ∧
        (∀ a, wordKey (2 * table) (per * start) ≤ a → a < wordKey (2 * table) (per * (start + n)) →
          sparseGet (fun _ => none) t.imn.upsets a = none ∧
          sparseGet (fun _ => none) t.imn.marks a = sparseGet (fun _ => none) s.imn.marks a) ∧
        s.keptElsewhere { t with mem := s.mem, imn := { t.imn with upsets := s.imn.upsets } })

/-- READ_TABLE: its checks in order, the seven descriptive words, and the words of the entries, with the fields of each
live table at their places. -/
def Obligations.ReadTableReturnsEntries : Prop :=
  ∀ (dt : Nat) (s : State) (p : Packet) (w0 w1 w2 w3 : Word),
    s.runs p 0x11 → p.broadcast = false → p.payload = [w0, w1, w2, w3] → s.quiet →
    let table := w0.toNat
    let bank := w1.toNat
    let start := w2.toNat
    let count := w3.toNat
    let per := [2, 2, 1, 1, 8, 4, 3, 4].getD table 0
    let size := [43, 2304, 33, 49, 2304, 8, 192, 4].getD table 0
    let stops (r : Result) : Prop :=
      ∃ t, exec (.readTable dt) s = .next t ∧ s.answered t p r [] ∧ t.clock = (s.advance dt).clock ∧
        s.keptElsewhere t
    (7 < table → stops .badTable) ∧
    (table ≤ 3 → 1 < bank → stops .badTable) ∧
    (3 < table → table ≤ 7 → 0 < bank → stops .badTable) ∧
    (table ≤ 3 ∧ bank ≤ 1 ∨ 3 < table ∧ table ≤ 7 ∧ bank = 0 →
      (count = 0 ∨ 112 < count * per → stops .range) ∧
      (0 < count → count * per ≤ 112 → size ≤ start ∨ size < start + count → stops .range) ∧
      (0 < count → count * per ≤ 112 → start < size → start + count ≤ size →
        ∃ t data, exec (.readTable dt) s = .next t ∧
          s.answered t p .ok ([w0, w1, w2, w3, s.tbs.marks.zeroExtend 16] ++ dwordWords s.ftu.frameNumber ++ data) ∧
          data.length = count * per ∧
          (∀ i < count, ∀ j < per,
            (table ≤ 3 → data[per * i + j]? =
              some (s.mem.word (wordKey (2 * table + bank) (per * (start + i) + j)))) ∧
            (table = 4 → data[per * i + j]? = (s.zoneWords (start + i))[j]?) ∧
            (∀ k : ChainNo, table = 5 → k.val = start + i → data[per * i + j]? = (s.chainWords k)[j]?) ∧
            (table = 6 → data[per * i + j]? = (s.deviceWords (start + i))[j]?) ∧
            (table = 7 → data[per * i + j]? = (s.logWords (start + i))[j]?)) ∧
          let w (i j : Nat) : Nat := (data.getD (per * i + j) 0).toNat
          (table = 4 → ∀ i < count,
            let z := start + i
            let figures := statAt s.stu.stats z
            let shown := sparseGet (fun _ => 0) s.pxc.display z
            (figures.peak ≤ 4095 → w i 0 % 4096 = figures.peak ∧
              [FaultLatch.clear, .opened, .shorted][w i 0 / 4096]? = some (s.chc.latch z)) ∧
            (figures.mean ≤ 4095 → w i 1 = figures.mean) ∧ (shown ≤ 4095 → w i 2 = shown) ∧
            w i 3 / 256 = compactCode figures.bright ∧ w i 3 % 256 = compactCode figures.count ∧
            w i 4 = (s.mem.word (zoneT z)).toNat ∧ w i 5 = (s.mem.word (zoneF z)).toNat ∧
            w i 6 = (s.mem.word (zoneL4 z)).toNat ∧ w i 7 = (s.mem.word (zoneDuty z)).toNat) ∧
          (table = 5 → ∀ i < count, ∀ k : ChainNo, k.val = start + i →
            let c := s.chc.chains[k]
            let bit (n : Nat) : Prop := w i 0 / 2 ^ n % 2 = 1
            (c.count ≤ 24 → w i 0 % 32 = c.count ∧ (bit 5 ↔ c.overlength = true) ∧
              w i 0 / 64 % 8 = (match c.activity with
                | .idle => 0
                | .burst _ _ _ => 1
                | .darkBurst _ _ => 2
                | .latch _ => 3
                | .enumerate _ => 4
                | .passRequest => 5) ∧
              (bit 9 ↔ c.awaiting ≠ none) ∧ (bit 10 ↔ c.waiting ≠ none) ∧ (bit 11 ↔ c.latchPending = true) ∧
              (bit 12 ↔ c.overTemp = true) ∧ (bit 13 ↔ c.doneTag ≠ none) ∧ (bit 14 ↔ c.lastLatch ≠ none) ∧
              (bit 15 ↔ c.enumWaiting = true ∨ ∃ phase, c.activity = .enumerate phase)) ∧
            (∀ r, s.sns.results[k.val]? = some r → r ≤ 1023 → w i 1 % 1024 = r ∧
              [Thermal.normal, .warm, .hot][w i 1 / 1024 % 4]? = some s.sns.thermal[k] ∧
              w i 1 / 4096 = if s.sns.sensorFault[k] then 1 else 0) ∧
            w i 2 = (c.doneTag.map (fun tag => tag.frame.toNat % 65536)).getD 0 ∧
            w i 3 = (c.lastLatch.map (fun frame => frame.toNat % 65536)).getD 0) ∧
          (table = 6 → ∀ i < count,
            let r := s.chc.device (start + i)
            (r.misses ≤ 15 → [DeviceState.unknown, .ok, .noResponse][w i 0 % 4]? = some r.state ∧
              w i 0 / 4 % 16 = r.misses ∧ w i 0 / 64 = if r.overTemp then 1 else 0) ∧
            w i 1 = r.opens.toNat ∧ w i 2 = r.shorts.toNat) ∧
          (table = 7 → ∀ i < count,
            (s.imn.log[start + i]? = none → w i 0 = 0 ∧ w i 1 = 0 ∧ w i 2 = 0 ∧ w i 3 = 0) ∧
            ∀ e, s.imn.log[start + i]? = some e → e.memory ≤ 8 → e.index < 18432 →
              w i 0 % 16 = e.memory ∧ w i 0 / 16 = (if e.kind = .corrected then 1 else 2) ∧ w i 1 = e.index ∧
              w i 2 * 65536 + w i 3 = e.frame.toNat) ∧
          t.clock = (s.advance dt).clock ∧ s.keptElsewhere t))

/-- COMMIT marks tables whose staging content passes, and SET_MODE holds a request: their checks in order. -/
def Obligations.CommitAndModeAreHeld : Prop :=
  ∀ (dt : Nat) (s : State) (p : Packet) (w : Word), p.payload = [w] →
    (s.runs p 0x12 → s.quiet →
      (15 < w.toNat →
        ∃ t, exec (.commit dt) s = .next t ∧ s.answered t p .badTable [] ∧ t.clock = (s.advance dt).clock ∧
          s.keptElsewhere t) ∧
      (w.toNat ≤ 15 → w.getLsbD 1 = true → s.mem.duplicateChannel 0 = true →
        ∃ t, exec (.commit dt) s = .next t ∧
          s.replied t (if p.broadcast then []
            else [⟨t.tag, p.seq, p.code, .configInvalid, .duplicateChannel, true, []⟩]) ∧
          s.tookNext t ∧ t.clock = (s.advance dt).clock ∧ s.keptElsewhere t) ∧
      (w.toNat ≤ 15 → w.getLsbD 1 = false ∨ s.mem.duplicateChannel 0 = false →
        ∃ t, exec (.commit dt) s = .next t ∧ s.answered t p .ok [] ∧
          (∀ table < 4, t.tbs.marks.getLsbD table = (s.tbs.marks.getLsbD table || w.getLsbD table)) ∧
          t.clock = (s.advance dt).clock ∧
          s.keptElsewhere { t with tbs := { t.tbs with marks := s.tbs.marks } })) ∧
    (s.runs p 0x20 →
      (3 < w.toNat →
        ∃ t, exec (.setMode dt) s = .next t ∧ s.answered t p .range [] ∧ t.clock = (s.advance dt).clock ∧
          s.keptElsewhere t) ∧
      (w.toNat ≤ 3 → s.mdc.request ≠ none ∨ (∃ k : ChainNo, s.chc.chains[k].enumerating = true) →
        ∃ t, exec (.setMode dt) s = .next t ∧ s.answered t p .busy [] ∧ t.clock = (s.advance dt).clock ∧
          s.keptElsewhere t) ∧
      (∀ target : Mode, w.toNat = target.code → s.mdc.request = none →
        (∀ k : ChainNo, s.chc.chains[k].enumerating = false) →
        ∃ t, exec (.setMode dt) s = .next t ∧ s.answered t p .ok [] ∧ t.mdc.request = some target ∧
          t.clock = (s.advance dt).clock ∧
          s.keptElsewhere { t with mdc := { t.mdc with request := none } }))

/-- The commands that clear or load registers: CANCEL_COMMIT, CLEAR_COUNTERS, ERROR_LOG_CLEAR, TIME_SET, TIME_ADJUST. -/
def Obligations.RegistersAreClearedAndLoaded : Prop :=
  ∀ (dt : Nat) (s : State) (p : Packet),
    (s.runs p 0x13 → p.payload = [] →
      ∃ t, exec (.cancelCommit dt) s = .next t ∧ s.answered t p .ok [] ∧ t.tbs.marks = 0 ∧
        t.clock = (s.advance dt).clock ∧ s.keptElsewhere { t with tbs := { t.tbs with marks := s.tbs.marks } }) ∧
    (s.runs p 0x31 → p.payload = [] →
      ∃ t, exec (.clearCounters dt) s = .next t ∧ s.answered t p .ok [] ∧ (∀ n ∈ t.rpu.counters.list, n = 0) ∧
        t.clock = (s.advance dt).clock ∧
        s.keptElsewhere { t with rpu := { t.rpu with counters := s.rpu.counters } }) ∧
    (s.runs p 0x60 → p.payload = [] →
      ∃ t, exec (.errorLogClear dt) s = .next t ∧
        s.answered t p .ok
          [wordOfNat s.imn.log.length, if s.imn.overflow then 1 else 0, wordOfNat s.imn.lost] ∧
        t.imn.log = [] ∧ t.imn.overflow = false ∧ t.imn.lost = 0 ∧ t.clock = (s.advance dt).clock ∧
        s.keptElsewhere { t with imn := { t.imn with
          log := s.imn.log, overflow := s.imn.overflow, lost := s.imn.lost } }) ∧
    ∀ hi lo : Word, p.payload = [hi, lo] →
      (s.runs p 0x70 →
        ∃ t, exec (.timeSet dt) s = .next t ∧ s.answered t p .ok [] ∧ t.clock.now = s.clock.now + dt ∧
          t.clock.frame.toNat = hi.toNat * 65536 + lo.toNat ∧ t.ftu.adjust = s.ftu.adjust ∧ s.keptElsewhere t) ∧
      (s.runs p 0x71 →
        ∃ t adjust, exec (.timeAdjust dt) s = .next t ∧ s.answered t p .ok [] ∧
          t.clock = (s.advance dt).clock ∧ t.ftu.adjust = some adjust ∧
          adjust.toNat = hi.toNat * 65536 + lo.toNat ∧
          s.keptElsewhere { t with ftu := { t.ftu with adjust := s.ftu.adjust } })

/-- CLEAR_FAULTS: all zones, or a range of zones whose channels the active map names; another length is refused. A
zone whose latch was set is not lit by the last set or by that of a solve in flight; that these are the sets not solved
after the clear is the model's reading (notes/assumptions/30.md). -/
def Obligations.FaultsAreCleared : Prop :=
  ∀ (dt : Nat) (s : State) (p : Packet), s.runs p 0x40 →
    let marks (before after : Sparse Bool) (covered : Nat → Prop) : Prop :=
      ∀ z, sparseGet (fun _ => false) after z = true ↔
        sparseGet (fun _ => false) before z = true ∨ (covered z ∧ s.chc.latch z ≠ .clear)
    let darkened (t : State) (covered : Nat → Prop) : Prop :=
      marks s.lvs.unlit t.lvs.unlit covered ∧ (s.lvs.solve = none → t.lvs.solve = none) ∧
      ∀ v, s.lvs.solve = some v → ∃ w, t.lvs.solve = some w ∧ marks v.unlit w.unlit covered ∧
        { w with unlit := v.unlit } = v
    (p.payload.length ≠ 0 → p.payload.length ≠ 2 →
      ∃ t, exec (.clearFaults dt) s = .next t ∧ s.answered t p .badLength [] ∧ t.clock = (s.advance dt).clock ∧
        s.keptElsewhere t) ∧
    (p.payload = [] →
      ∃ t, exec (.clearFaults dt) s = .next t ∧ s.answered t p .ok [wordOfNat s.chc.setLatches] ∧
        (∀ z, t.chc.latch z = .clear) ∧ darkened t (fun _ => True) ∧
        (∀ n, channelCount t.chc.openCount n = 0 ∧ channelCount t.chc.shortCount n = 0) ∧
        t.clock = (s.advance dt).clock ∧
        s.keptElsewhere { t with
          chc := { t.chc with
            latches := s.chc.latches, openCount := s.chc.openCount, shortCount := s.chc.shortCount }
          lvs := { t.lvs with unlit := s.lvs.unlit, solve := s.lvs.solve } }) ∧
    ∀ first last : Word, p.payload = [first, last] →
      (last.toNat < first.toNat ∨ 2303 < last.toNat →
        ∃ t, exec (.clearFaults dt) s = .next t ∧ s.answered t p .range [] ∧ t.clock = (s.advance dt).clock ∧
          s.keptElsewhere t) ∧
      (first.toNat ≤ last.toNat → last.toNat ≤ 2303 → s.quiet →
        let covered (z : Nat) : Prop := first.toNat ≤ z ∧ z ≤ last.toNat
        let mapped (n : Nat) : Prop := ∃ z c, covered z ∧ (s.mem.mapEntry 1 z).channel = some c ∧
          n = (c.chain * 24 + c.device) * 16 + c.channel
        ∃ t cleared, exec (.clearFaults dt) s = .next t ∧ s.answered t p .ok [wordOfNat cleared] ∧
          (∀ z, (covered z → t.chc.latch z = .clear) ∧ (¬ covered z → t.chc.latch z = s.chc.latch z)) ∧
          t.chc.setLatches + cleared = s.chc.setLatches ∧ darkened t covered ∧
          (∀ n, (mapped n → channelCount t.chc.openCount n = 0 ∧ channelCount t.chc.shortCount n = 0) ∧
            (¬ mapped n → channelCount t.chc.openCount n = channelCount s.chc.openCount n ∧
              channelCount t.chc.shortCount n = channelCount s.chc.shortCount n)) ∧
          t.clock = (s.advance dt).clock ∧
          s.keptElsewhere { t with
            chc := { t.chc with
              latches := s.chc.latches, openCount := s.chc.openCount, shortCount := s.chc.shortCount }
            lvs := { t.lvs with unlit := s.lvs.unlit, solve := s.lvs.solve } })

/-- ENUMERATE_CHAIN: its checks in order; the sweep starts on a free chain and waits on another. -/
def Obligations.EnumerationIsAccepted : Prop :=
  ∀ (dt : Nat) (s : State) (p : Packet) (w : Word), s.runs p 0x41 → p.payload = [w] →
    let stops (r : Result) : Prop :=
      ∃ t, exec (.enumerateChain dt) s = .next t ∧ s.answered t p r [] ∧ t.clock = (s.advance dt).clock ∧
        s.keptElsewhere t
    (7 < w.toNat → stops .range) ∧
    (w.toNat ≤ 7 → s.mdc.mode ≠ .standby → stops .notInMode) ∧
    (w.toNat ≤ 7 → s.mdc.mode = .standby → (∃ k : ChainNo, s.chc.chains[k].enumerating = true) → stops .busy) ∧
    (∀ k : ChainNo, w.toNat = k.val → s.mdc.mode = .standby →
      (∀ j : ChainNo, s.chc.chains[j].enumerating = false) →
      ∃ t, exec (.enumerateChain dt) s = .next t ∧ s.answered t p .ok [] ∧ t.chc.chains[k].enumerating = true ∧
        (s.chc.chains[k].activity ≠ .idle →
          t.chc.chains[k] = { s.chc.chains[k] with enumWaiting := true }) ∧
        (s.chc.chains[k].activity = .idle → s.chc.chains[k].latchDue = none → s.chc.chains[k].awaiting = none →
          s.chc.chains[k].darkWaiting = false → s.chc.chains[k].latchPending = false →
          t.chc.chains[k] = { s.chc.chains[k] with
            enumWaiting := false, activity := .enumerate .release, message := withCrc8 [0xA3] }) ∧
        (∀ j : ChainNo, j ≠ k → t.chc.chains[j] = s.chc.chains[j]) ∧ t.clock = (s.advance dt).clock ∧
        s.keptElsewhere { t with chc := { t.chc with chains := s.chc.chains } })

/-- DRIVER_PASS: its checks in order; the entry joins the queue, the outcome is owed, and the arbiter of an idle chain
starts what comes first: what stood ahead of the entry, an older entry of the chain, or the entry itself. -/
def Obligations.PassThroughIsAccepted : Prop :=
  ∀ (dt : Nat) (s : State) (p : Packet) (chain device count : Word) (words : List Word),
    s.runs p 0x42 → p.broadcast = false → p.payload = chain :: device :: count :: words → words.length = 4 →
    let stops (r : Result) : Prop :=
      ∃ t, exec (.driverPass dt) s = .next t ∧ s.answered t p r [] ∧ t.clock = (s.advance dt).clock ∧
        s.keptElsewhere t
    let bytes := (words.flatMap wordBytes).take count.toNat
    (7 < chain.toNat ∨ 23 < device.toNat ∨ count.toNat = 0 ∨ 8 < count.toNat → stops .range) ∧
    (chain.toNat ≤ 7 → device.toNat ≤ 23 → 0 < count.toNat → count.toNat ≤ 8 → 4 ≤ s.chc.passQueue.length →
      stops .busy) ∧
    (∀ k : ChainNo, chain.toNat = k.val → device.toNat ≤ 23 → 0 < count.toNat → count.toNat ≤ 8 →
      s.chc.passQueue.length < 4 →
      ∃ t, exec (.driverPass dt) s = .next t ∧
        t.cmd.outgoing = s.cmd.outgoing ++ [⟨t.tag, p.seq, p.code, .ok, .none, false, []⟩] ∧
        t.cmd.owed = s.cmd.owed ++ [⟨p.seq, p.code, .chains⟩] ∧ s.tookNext t ∧
        (∀ j : ChainNo, j ≠ k → t.chc.chains[j] = s.chc.chains[j]) ∧
        let c := s.chc.chains[k]
        let queued (c' : ChainRec) : Prop :=
          t.chc.passQueue = s.chc.passQueue ++ [⟨k, device.toNat, bytes, p.seq, false⟩] ∧ t.chc.chains[k] = c'
        (c.activity ≠ .idle → queued c) ∧
        (c.activity = .idle →
          (∀ f, c.latchDue = some f →
            queued { c with latchDue := none, activity := .latch (some f), message := latchMessage }) ∧
          (c.latchDue = none → c.awaiting ≠ none → queued c) ∧
          (c.latchDue = none → c.awaiting = none →
            (c.darkWaiting = true →
              queued { c with darkWaiting := false, activity := .darkBurst c.count 0
                              message := burstMessage c.count (fun _ _ => 0) }) ∧
            (c.darkWaiting = false → c.latchPending = true → queued c) ∧
            (c.darkWaiting = false → c.latchPending = false → c.enumWaiting = true →
              queued { c with enumWaiting := false, activity := .enumerate .release, message := withCrc8 [0xA3] }) ∧
            (c.darkWaiting = false → c.latchPending = false → c.enumWaiting = false →
              (∀ job, c.waiting = some job →
                queued { c with waiting := none, activity := .burst job (job.covers c.count) 0
                                message := burstMessage (job.covers c.count) job.duty }) ∧
              (∀ older e newer, c.waiting = none → s.chc.passQueue = older ++ e :: newer → e.chain = k →
                (∀ o ∈ older, o.chain ≠ k) →
                t.chc.passQueue = older ++ { e with started := true } ::
                  (newer ++ [⟨k, device.toNat, bytes, p.seq, false⟩]) ∧
                t.chc.chains[k] = { c with
                  activity := .passRequest
                  message := withCrc8 ([0xA5, byteOf e.device, byteOf e.bytes.length] ++ e.bytes) }) ∧
              (c.waiting = none → (∀ e ∈ s.chc.passQueue, e.chain ≠ k) →
                t.chc.passQueue = s.chc.passQueue ++ [⟨k, device.toNat, bytes, p.seq, true⟩] ∧
                t.chc.chains[k] = { c with
                  activity := .passRequest
                  message := withCrc8 ([0xA5, byteOf device.toNat, byteOf count.toNat] ++ bytes) })))) ∧
        t.clock = (s.advance dt).clock ∧
        s.keptElsewhere { t with chc := { t.chc with
          passQueue := s.chc.passQueue, chains := s.chc.chains } })

/-- SENSE_START and SENSE_ABORT: the checks, the conversion that starts with its reply owed, and what an abort stops. -/
def Obligations.SenseCommandsControlConverter : Prop :=
  ∀ (dt : Nat) (s : State) (p : Packet),
    (∀ w : Word, s.runs p 0x50 → p.broadcast = false → p.payload = [w] →
      (8 < w.toNat →
        ∃ t, exec (.senseStart dt) s = .next t ∧ s.answered t p .range [] ∧ t.clock = (s.advance dt).clock ∧
          s.keptElsewhere t) ∧
      (w.toNat ≤ 8 → s.sns.converter ≠ .idle →
        ∃ t, exec (.senseStart dt) s = .next t ∧ s.answered t p .busy [] ∧ t.clock = (s.advance dt).clock ∧
          s.keptElsewhere t) ∧
      (w.toNat ≤ 8 → s.sns.converter = .idle →
        ∃ t, exec (.senseStart dt) s = .next t ∧ t.sns.converter = .manual w.toNat (s.clock.now + dt) ∧
          t.cmd.outgoing = s.cmd.outgoing ∧ t.cmd.owed = s.cmd.owed ++ [⟨p.seq, p.code, .sense⟩] ∧
          s.tookNext t ∧ t.clock = (s.advance dt).clock ∧
          s.keptElsewhere { t with sns := { t.sns with converter := s.sns.converter } })) ∧
    (s.runs p 0x51 → p.payload = [] →
      ((∀ i since, s.sns.converter ≠ .manual i since) →
        ∃ t, exec (.senseAbort dt) s = .next t ∧ s.answered t p .ok [] ∧ t.sns.converter = .idle ∧
          t.clock = (s.advance dt).clock ∧
          s.keptElsewhere { t with sns := { t.sns with converter := s.sns.converter } }) ∧
      (∀ i since o, s.sns.converter = .manual i since → s.cmd.owed.filter (fun o => o.owner == .sense) = [o] →
        ∃ t, exec (.senseAbort dt) s = .next t ∧ t.sns.converter = .idle ∧
          t.cmd.outgoing = s.cmd.outgoing ++ [⟨s.tag, o.seq, o.code, .aborted, .none, true, []⟩] ++
            (if p.broadcast then [] else [replyTo t p .ok []]) ∧
          t.cmd.owed.filter (fun o => o.owner == .sense) = [] ∧ s.tookNext t ∧
          t.clock = (s.advance dt).clock ∧
          s.keptElsewhere { t with sns := { t.sns with converter := s.sns.converter } }))

/-! ## Memory integrity -/

/-- INJECT_ERROR sets a mark after its checks; and a mark on a TONE_CURVE point acts at the READ_TABLE that reads the
point. A word's check bits are held as a verdict, the model's choice (notes/assumptions/8.md). -/
def Obligations.InjectedErrorActsAtNextRead : Prop :=
  ∀ (dt : Nat) (s : State) (p : Packet),
    (∀ memory index kind : Word, s.runs p 0x61 → p.payload = [memory, index, kind] →
      let size := [86, 86, 4608, 4608, 33, 33, 49, 49, 18432].getD memory.toNat 0
      let stops (r : Result) : Prop :=
        ∃ t, exec (.injectError dt) s = .next t ∧ s.answered t p r [] ∧ t.clock = (s.advance dt).clock ∧
          s.keptElsewhere t
      (8 < memory.toNat → stops .badTable) ∧
      (memory.toNat ≤ 8 → size ≤ index.toNat ∨ (memory.toNat = 8 ∧ index.toNat % 8 < 4) ∨ 1 < kind.toNat →
        stops .range) ∧
      (memory.toNat ≤ 8 → index.toNat < size → (memory.toNat = 8 → 4 ≤ index.toNat % 8) → kind.toNat ≤ 1 →
        ∃ t, exec (.injectError dt) s = .next t ∧
          t.cmd.owed = s.cmd.owed ∧ s.tookNext t ∧
          (wordKey memory.toNat index.toNat ≠ wordKey 1 60 → wordKey memory.toNat index.toNat ≠ wordKey 1 61 →
            s.answered t p .ok [] ∧
            t.verdict (wordKey memory.toNat index.toNat) =
              some (if kind.toNat = 0 then .corrected else .uncorrectable) ∧
            (∀ a, a ≠ wordKey memory.toNat index.toNat → t.verdict a = s.verdict a) ∧
            t.clock = (s.advance dt).clock ∧
            s.keptElsewhere { t with imn := { t.imn with marks := s.imn.marks } }))) ∧
    (∀ (bank point : Word) (kind : ErrorKind), s.runs p 0x11 → p.broadcast = false →
      p.payload = [2, bank, point, 1] → bank.toNat ≤ 1 → point.toNat < 33 →
      sparseGet (fun _ => none) s.imn.marks (wordKey (4 + bank.toNat) point.toNat) = some kind →
      s.imn.log.length < 4 →
      ∃ t w, exec (.readTable dt) s = .next t ∧
        s.answered t p .ok ([2, bank, point, 1, s.tbs.marks.zeroExtend 16] ++ dwordWords s.ftu.frameNumber ++ [w]) ∧
        w = (if kind = .corrected then s.mem.word (wordKey (4 + bank.toNat) point.toNat)
          else wordOfNat (min 4095 (point.toNat * 128))) ∧
        t.mem.word (wordKey (4 + bank.toNat) point.toNat) = w ∧
        t.verdict (wordKey (4 + bank.toNat) point.toNat) = none ∧
        t.imn.log = s.imn.log ++ [⟨4 + bank.toNat, point.toNat, kind, s.ftu.frameNumber⟩] ∧
        t.rpu.counters = s.rpu.counters.add 1 (if kind = .corrected then .corrected else .uncorrectable) ∧
        (kind = .corrected ∨ bank = 0 → t.mdc = s.mdc) ∧
        (kind = .uncorrectable → t.rpu.flags &&& Event.memoryError.bit ≠ 0) ∧
        (kind = .uncorrectable → bank = 1 → t.mdc.mode = .safe ∧ t.mdc.request = none ∧
          (s.mdc.mode ≠ .safe → t.rpu.flags &&& Event.modeChanged.bit ≠ 0)))

/-! ## What every step keeps -/

/-- Every step keeps the command unit's bounds: the queues, the reservations, the owed replies. -/
def Obligations.StepKeepsReplyReservations : Prop :=
  ∀ s t : State, s.commandInv → step s = .next t → t.commandInv

/-- Every step keeps the protected memories canonical, every SETTINGS value in its range, and the active ZONE_MAP free
of duplicate channels. The canonical form is the model's choice (notes/assumptions/12.md). -/
def Obligations.StepKeepsTablesLegal : Prop :=
  ∀ s t : State, s.memoryInv → s.mapInv → step s = .next t → t.memoryInv ∧ t.mapInv

/-- Every step keeps what STANDBY means in the other units, the error log's bounds, and the over-temperature hold. -/
def Obligations.StepKeepsUnitsConsistent : Prop :=
  ∀ s t : State, s.standbyInv → s.logInv → s.heldInv → step s = .next t → t.standbyInv ∧ t.logInv ∧ t.heldInv

/-- The invariants hold after power-on, whatever the straps, and so at the model's reset state. That the reset state's
straps are 0 is the model's choice (notes/assumptions/1.md). -/
def Obligations.InvariantsHoldAtPowerOn : Prop :=
  (∀ straps : BitVec 3, let s := State.powerOn straps
    s.commandInv ∧ s.memoryInv ∧ s.mapInv ∧ s.standbyInv ∧ s.logInv ∧ s.heldInv) ∧
  State.reset = State.powerOn 0
end

