-- ==== Sys2Proof/Laws/Sparse.lean ====
section
/-! SUPPORT. The laws of sparse arrays: a read after a write, and the canonical form, for each operation. -/

namespace Sys2Proof.Laws

open Sys2Proof.Machine

variable {α : Type} [DecidableEq α]

omit [DecidableEq α] in
theorem sparseGet_of_not_mem (d : Nat → α) (m : Sparse α) (k : Nat) (h : ∀ e ∈ m, e.1 ≠ k) :
    sparseGet d m k = d k := by
  induction m with
  | nil => rfl
  | cons e m ih =>
    obtain ⟨j, v⟩ := e
    have hj : j ≠ k := h (j, v) (by simp)
    simp only [sparseGet, hj, if_false]
    exact ih (fun e he => h e (by simp [he]))

omit [DecidableEq α] in
theorem sparseGet_append_of_not_mem (d : Nat → α) (m n : Sparse α) (k : Nat) (h : ∀ e ∈ m, e.1 ≠ k) :
    sparseGet d (m ++ n) k = sparseGet d n k := by
  induction m with
  | nil => rfl
  | cons e m ih =>
    obtain ⟨j, v⟩ := e
    have hj : j ≠ k := h (j, v) (by simp)
    simp only [List.cons_append, sparseGet, hj, if_false]
    exact ih (fun e he => h e (by simp [he]))

omit [DecidableEq α] in
theorem sparseGet_append_of_not_mem_right (d : Nat → α) (m n : Sparse α) (k : Nat) (h : ∀ e ∈ n, e.1 ≠ k) :
    sparseGet d (m ++ n) k = sparseGet d m k := by
  induction m with
  | nil => simpa [sparseGet] using sparseGet_of_not_mem d n k h
  | cons e m ih => simp only [List.cons_append, sparseGet, ih]

omit [DecidableEq α] in
/-- Dropping pairs of other indexes changes no read of `k`. -/
theorem sparseGet_filter (d : Nat → α) (m : Sparse α) (k : Nat) (p : Nat × α → Bool)
    (h : ∀ e ∈ m, e.1 = k → p e = true) : sparseGet d (m.filter p) k = sparseGet d m k := by
  induction m with
  | nil => rfl
  | cons e m ih =>
    obtain ⟨j, v⟩ := e
    have ih := ih (fun e he => h e (by simp [he]))
    by_cases hp : p (j, v) = true
    · simp only [List.filter_cons_of_pos hp, sparseGet, ih]
    · have hj : j ≠ k := fun hj => hp (h (j, v) (by simp) hj)
      simp only [List.filter_cons_of_neg hp, sparseGet, hj, if_false, ih]

omit [DecidableEq α] in
theorem sparseGet_insert (d : Nat → α) (m : Sparse α) (k j : Nat) (v : α) (h : ∀ e ∈ m, e.1 ≠ k) :
    sparseGet d (sparseInsert k v m) j = if j = k then v else sparseGet d m j := by
  induction m with
  | nil => simp [sparseInsert, sparseGet, eq_comm]
  | cons e m ih =>
    obtain ⟨i, w⟩ := e
    have hi : i ≠ k := h (i, w) (by simp)
    have ih := ih (fun e he => h e (by simp [he]))
    simp only [sparseInsert]
    split
    · simp [sparseGet, eq_comm]
    · simp only [sparseGet, ih]
      by_cases hij : i = j
      · subst hij; simp [hi]
      · simp [hij]

/-- A read after a write to the same index gives the value written. -/
@[simp] theorem sparseGet_put_same (d : Nat → α) (m : Sparse α) (k : Nat) (v : α) :
    sparseGet d (sparsePut d m k v) k = v := by
  unfold sparsePut
  split
  · next hv => rw [sparseGet_of_not_mem] <;> simp [hv]
  · rw [sparseGet_insert] <;> simp

/-- A write leaves every other index alone. -/
theorem sparseGet_put_other (d : Nat → α) (m : Sparse α) (k j : Nat) (v : α) (h : j ≠ k) :
    sparseGet d (sparsePut d m k v) j = sparseGet d m j := by
  have hf : sparseGet d (m.filter (fun e => e.1 != k)) j = sparseGet d m j :=
    sparseGet_filter d m j _ (by rintro e _ rfl; simpa using h)
  unfold sparsePut
  split
  · exact hf
  · rw [sparseGet_insert _ _ _ _ _ (by simp), if_neg h, hf]

/-- What a read gives after a write. -/
theorem sparseGet_put (d : Nat → α) (m : Sparse α) (k j : Nat) (v : α) :
    sparseGet d (sparsePut d m k v) j = if j = k then v else sparseGet d m j := by
  split
  · next h => subst h; simp
  · next h => exact sparseGet_put_other d m k j v h

theorem mem_tabulate (d : Nat → α) (lo n : Nat) (f : Nat → α) (e : Nat × α) :
    e ∈ sparseTabulate d lo n f ↔ ∃ i < n, f i ≠ d (lo + i) ∧ e = (lo + i, f i) := by
  simp only [sparseTabulate, List.mem_filterMap, List.mem_range]
  constructor
  · rintro ⟨i, hi, h⟩
    split at h
    · cases h
    · next hne => exact ⟨i, hi, hne, by cases h; rfl⟩
  · rintro ⟨i, hi, hne, rfl⟩
    exact ⟨i, hi, by rw [if_neg hne]⟩

theorem tabulate_succ (d : Nat → α) (lo n : Nat) (f : Nat → α) :
    sparseTabulate d lo (n + 1) f =
      sparseTabulate d lo n f ++ (if f n = d (lo + n) then [] else [(lo + n, f n)]) := by
  simp only [sparseTabulate, List.range_succ, List.filterMap_append]
  congr 1
  by_cases h : f n = d (lo + n) <;> simp [h]

/-- What a read of a tabulated array gives. -/
theorem sparseGet_tabulate (d : Nat → α) (lo n : Nat) (f : Nat → α) (k : Nat) :
    sparseGet d (sparseTabulate d lo n f) k = if lo ≤ k ∧ k < lo + n then f (k - lo) else d k := by
  induction n with
  | zero => rw [if_neg (by omega)]; rfl
  | succ n ih =>
    rw [tabulate_succ]
    by_cases hk : k = lo + n
    · subst hk
      rw [sparseGet_append_of_not_mem]
      · by_cases h : f n = d (lo + n) <;> simp [sparseGet, h]
      · intro e he
        obtain ⟨i, hi, -, rfl⟩ := (mem_tabulate ..).1 he
        simp only; omega
    · rw [sparseGet_append_of_not_mem_right, ih]
      · have : (lo ≤ k ∧ k < lo + n) ↔ (lo ≤ k ∧ k < lo + (n + 1)) := by omega
        simp only [this]
      · intro e he
        split at he
        · cases he
        · simp only [List.mem_singleton] at he
          subst he; simp only; omega

/-- What a read gives after a write of a range. -/
theorem sparseGet_putRange (d : Nat → α) (m : Sparse α) (lo n : Nat) (f : Nat → α) (k : Nat) :
    sparseGet d (sparsePutRange d m lo n f) k =
      if lo ≤ k ∧ k < lo + n then f (k - lo) else sparseGet d m k := by
  unfold sparsePutRange
  by_cases h1 : k < lo
  · rw [List.append_assoc, sparseGet_append_of_not_mem_right, if_neg (by omega)]
    · exact sparseGet_filter d m k _ (by rintro e _ rfl; simpa using h1)
    · intro e he
      rcases List.mem_append.1 he with he | he
      · obtain ⟨i, _, _, rfl⟩ := (mem_tabulate ..).1 he
        simp only; omega
      · have := (List.mem_filter.1 he).2
        simp only [decide_eq_true_eq] at this
        omega
  · by_cases h2 : k < lo + n
    · rw [sparseGet_append_of_not_mem_right, sparseGet_append_of_not_mem, sparseGet_tabulate]
      · rw [if_pos (by omega), if_pos (by omega)]
      · intro e he
        have := (List.mem_filter.1 he).2
        simp only [decide_eq_true_eq] at this
        omega
      · intro e he
        have := (List.mem_filter.1 he).2
        simp only [decide_eq_true_eq] at this
        omega
    · rw [sparseGet_append_of_not_mem, if_neg (by omega)]
      · exact sparseGet_filter d m k _ (by rintro e _ rfl; simp; omega)
      · intro e he
        rcases List.mem_append.1 he with he | he
        · have := (List.mem_filter.1 he).2
          simp only [decide_eq_true_eq] at this
          omega
        · obtain ⟨i, _, _, rfl⟩ := (mem_tabulate ..).1 he
          simp only; omega

omit [DecidableEq α] in
/-- What a read gives after indexes are put back to their default. -/
theorem sparseGet_clear (d : Nat → α) (p : Nat → Bool) (m : Sparse α) (k : Nat) :
    sparseGet d (sparseClear p m) k = if p k then d k else sparseGet d m k := by
  unfold sparseClear
  split
  · next h =>
    apply sparseGet_of_not_mem
    intro e he hk
    have := (List.mem_filter.1 he).2
    rw [hk, h] at this
    simp at this
  · next h => exact sparseGet_filter d m k _ (by rintro e _ rfl; simp [h])

/-! ## The canonical form -/

/-- The canonical form, as a statement about the list. -/
theorem sparseWf_iff (d : Nat → α) (m : Sparse α) :
    sparseWf d m = true ↔ (∀ e ∈ m, e.2 ≠ d e.1) ∧ m.Pairwise (fun a b => a.1 < b.1) := by
  induction m with
  | nil => simp [sparseWf]
  | cons e m ih =>
    obtain ⟨k, v⟩ := e
    simp only [sparseWf, Bool.and_eq_true, decide_eq_true_eq, List.all_eq_true, ih, List.mem_cons,
      forall_eq_or_imp, List.pairwise_cons]
    tauto

@[simp] theorem sparseWf_nil (d : Nat → α) : sparseWf d ([] : Sparse α) = true := rfl

theorem sparseWf_filter (d : Nat → α) (m : Sparse α) (p : Nat × α → Bool) (h : sparseWf d m = true) :
    sparseWf d (m.filter p) = true := by
  rw [sparseWf_iff] at *
  exact ⟨fun e he => h.1 e (List.mem_filter.1 he).1, h.2.filter p⟩

theorem sparseWf_clear (d : Nat → α) (p : Nat → Bool) (m : Sparse α) (h : sparseWf d m = true) :
    sparseWf d (sparseClear p m) = true := sparseWf_filter d m _ h

omit [DecidableEq α] in
theorem mem_insert (k : Nat) (v : α) (m : Sparse α) (e : Nat × α) :
    e ∈ sparseInsert k v m ↔ e = (k, v) ∨ e ∈ m := by
  induction m with
  | nil => simp [sparseInsert]
  | cons a m ih =>
    simp only [sparseInsert]
    split
    · simp
    · simp only [List.mem_cons, ih]; tauto

theorem sparseWf_insert (d : Nat → α) (m : Sparse α) (k : Nat) (v : α) (h : sparseWf d m = true) (hv : v ≠ d k)
    (hk : ∀ e ∈ m, e.1 ≠ k) : sparseWf d (sparseInsert k v m) = true := by
  induction m with
  | nil => simp [sparseInsert, sparseWf, hv]
  | cons a m ih =>
    obtain ⟨j, w⟩ := a
    have h' := (sparseWf_iff d _).1 h
    have hp := List.pairwise_cons.1 h'.2
    simp only [sparseInsert]
    split
    · next hlt =>
      rw [sparseWf_iff]
      refine ⟨?_, List.pairwise_cons.2 ⟨?_, h'.2⟩⟩
      · intro e he
        rcases List.mem_cons.1 he with rfl | he
        · exact hv
        · exact h'.1 e he
      · intro e he
        rcases List.mem_cons.1 he with rfl | he
        · exact hlt
        · exact lt_trans hlt (hp.1 e he)
    · next hlt =>
      have hjk : j ≠ k := hk (j, w) (by simp)
      have hm : sparseWf d m = true :=
        (sparseWf_iff d m).2 ⟨fun e he => h'.1 e (by simp [he]), hp.2⟩
      have := (sparseWf_iff d _).1 (ih hm (fun e he => hk e (by simp [he])))
      rw [sparseWf_iff]
      refine ⟨?_, List.pairwise_cons.2 ⟨?_, this.2⟩⟩
      · intro e he
        rcases List.mem_cons.1 he with rfl | he
        · exact h'.1 (j, w) (by simp)
        · exact this.1 e he
      · intro e he
        rcases (mem_insert ..).1 he with rfl | he
        · simp only; omega
        · exact hp.1 e he

/-- A write keeps the canonical form. -/
theorem sparseWf_put (d : Nat → α) (m : Sparse α) (k : Nat) (v : α) (h : sparseWf d m = true) :
    sparseWf d (sparsePut d m k v) = true := by
  unfold sparsePut
  split
  · exact sparseWf_filter d m _ h
  · next hv => exact sparseWf_insert d _ k v (sparseWf_filter d m _ h) hv (by simp)

theorem sparseWf_tabulate (d : Nat → α) (lo n : Nat) (f : Nat → α) : sparseWf d (sparseTabulate d lo n f) = true := by
  rw [sparseWf_iff]
  constructor
  · intro e he
    obtain ⟨i, -, hne, rfl⟩ := (mem_tabulate ..).1 he
    exact hne
  · induction n with
    | zero => simp [sparseTabulate]
    | succ n ih =>
      rw [tabulate_succ, List.pairwise_append]
      refine ⟨ih, by split <;> simp, ?_⟩
      intro a ha b hb
      obtain ⟨i, hi, -, rfl⟩ := (mem_tabulate ..).1 ha
      split at hb
      · cases hb
      · simp only [List.mem_singleton] at hb
        subst hb; simp only; omega

/-- A write of a range keeps the canonical form. -/
theorem sparseWf_putRange (d : Nat → α) (m : Sparse α) (lo n : Nat) (f : Nat → α) (h : sparseWf d m = true) :
    sparseWf d (sparsePutRange d m lo n f) = true := by
  have h1 := (sparseWf_iff d _).1 (sparseWf_filter d m (fun e => e.1 < lo) h)
  have h2 := (sparseWf_iff d _).1 (sparseWf_tabulate d lo n f)
  have h3 := (sparseWf_iff d _).1 (sparseWf_filter d m (fun e => lo + n ≤ e.1) h)
  unfold sparsePutRange
  rw [sparseWf_iff]
  constructor
  · intro e he
    rcases List.mem_append.1 he with he | he
    · rcases List.mem_append.1 he with he | he
      · exact h1.1 e he
      · exact h2.1 e he
    · exact h3.1 e he
  · rw [List.pairwise_append, List.pairwise_append]
    refine ⟨⟨h1.2, h2.2, ?_⟩, h3.2, ?_⟩
    · intro a ha b hb
      have ha := (List.mem_filter.1 ha).2
      obtain ⟨i, -, -, rfl⟩ := (mem_tabulate ..).1 hb
      simp only [decide_eq_true_eq] at ha ⊢
      omega
    · intro a ha b hb
      have hb := (List.mem_filter.1 hb).2
      simp only [decide_eq_true_eq] at hb
      rcases List.mem_append.1 ha with ha | ha
      · have ha := (List.mem_filter.1 ha).2
        simp only [decide_eq_true_eq] at ha
        omega
      · obtain ⟨i, hi, -, rfl⟩ := (mem_tabulate ..).1 ha
        simp only; omega

omit [DecidableEq α] in
@[simp] theorem sparseGet_nil (d : Nat → α) (k : Nat) : sparseGet d ([] : Sparse α) k = d k := rfl

/-- What a read gives after marks are set. -/
theorem sparseGet_mark (m : Sparse Bool) (ks : List Nat) (k : Nat) :
    sparseGet (fun _ => false) (sparseMark m ks) k = (sparseGet (fun _ => false) m k || ks.contains k) := by
  induction ks generalizing m with
  | nil => simp [sparseMark]
  | cons j ks ih =>
    have : sparseMark m (j :: ks) = sparseMark (sparsePut (fun _ => false) m j true) ks := rfl
    rw [this, ih, sparseGet_put, List.contains_cons]
    by_cases h : k = j <;> simp [h, beq_eq_false_iff_ne.mpr]

/-- Setting marks keeps the canonical form. -/
theorem sparseWf_mark (m : Sparse Bool) (ks : List Nat) (h : sparseWf (fun _ => false) m = true) :
    sparseWf (fun _ => false) (sparseMark m ks) = true := by
  induction ks generalizing m with
  | nil => exact h
  | cons j ks ih => exact ih _ (sparseWf_put _ m j true h)

end Sys2Proof.Laws
end

