-- ==== Sys2Proof/Laws/Memory.lean ====
section
/-! SUPPORT. The protected memories: what a read gives after each operation, and that every operation keeps the canonical
form. -/

namespace Sys2Proof.Laws

open Sys2Proof.Machine

/-! ## Keys -/

theorem keyMemory_wordKey (m i : Nat) (h : i < 32768) : keyMemory (wordKey m i) = m := by
  unfold keyMemory wordKey; omega

theorem keyIndex_wordKey (m i : Nat) (h : i < 32768) : keyIndex (wordKey m i) = i := by
  unfold keyIndex wordKey; omega

theorem wordKey_inj (m n i j : Nat) (hi : i < 32768) (hj : j < 32768) :
    wordKey m i = wordKey n j ↔ m = n ∧ i = j := by
  unfold wordKey; omega

/-- A word of a bank of a loaded table is protected. -/
theorem protectedKey_bank (m i : Nat) (hm : m < 8) (hi : i < Config.memoryWords m) :
    protectedKey (wordKey m i) = true := by
  have hs : Config.memoryWords m ≤ 4608 := by
    unfold Config.memoryWords
    rcases m with _ | _ | _ | _ | _ | _ | _ | _ | _ <;> first | decide | omega
  have hi' : i < 32768 := by omega
  simp [protectedKey, keyMemory_wordKey _ _ hi', keyIndex_wordKey _ _ hi', hi, hm]
  omega

/-- A solver word of a zone is protected. -/
theorem protectedKey_zone (z j : Nat) (hz : z < Config.zones) (h4 : 4 ≤ j) (h8 : j < 8) :
    protectedKey (wordKey 8 (8 * z + j)) = true := by
  unfold Config.zones at hz
  have hi' : 8 * z + j < 32768 := by omega
  have hw : Config.memoryWords 8 = 18432 := rfl
  simp [protectedKey, keyMemory_wordKey _ _ hi', keyIndex_wordKey _ _ hi', hw]
  omega

/-! ## Reads after writes -/

@[simp] theorem word_store_same (mem : Memory) (a : Nat) (v : Word) : (mem.store a v).word a = v := by
  simp [Memory.store, Memory.word]

theorem word_store_other (mem : Memory) (a b : Nat) (v : Word) (h : b ≠ a) :
    (mem.store a v).word b = mem.word b := by
  simp [Memory.store, Memory.word, sparseGet_put_other _ _ _ _ _ h]

/-- What the copy of a staging bank leaves: its own words in the active bank, every other word as it was. -/
theorem word_copyBank (mem : Memory) (table a : Nat) :
    (mem.copyBank table).word a =
      if wordKey (bankMemory table 1) 0 ≤ a ∧
          a < wordKey (bankMemory table 1) 0 + Config.memoryWords (bankMemory table 0) then
        mem.word (wordKey (bankMemory table 0) (a - wordKey (bankMemory table 1) 0))
      else mem.word a := by
  unfold Memory.copyBank Memory.word
  rw [sparseGet_putRange]

/-- A solve's captured copy holds the active banks' words. -/
theorem word_activeWords (mem : Memory) (a : Nat) (h8 : keyMemory a < 8) (h1 : keyMemory a % 2 = 1) :
    mem.activeWords.word a = mem.word a := by
  unfold Memory.activeWords Memory.word
  exact sparseGet_filter _ _ _ _ (by rintro e _ rfl; simp [h8, h1])

/-- A solve's captured copy gives the active SETTINGS. -/
theorem active_activeWords (mem : Memory) (i : Nat) (h : i < 43) : mem.activeWords.active i = mem.active i := by
  unfold Memory.active Memory.setting
  rw [word_activeWords, word_activeWords]
  all_goals rw [keyMemory_wordKey _ _ (by omega)]
  all_goals decide

/-! ## The canonical form -/

theorem memory_wf_iff (mem : Memory) :
    mem.wf = true ↔ sparseWf unlistedWord mem = true ∧ ∀ e ∈ mem, protectedKey e.1 = true := by
  simp [Memory.wf, Bool.and_eq_true, List.all_eq_true]

theorem wf_store (mem : Memory) (a : Nat) (v : Word) (h : mem.wf = true) (ha : protectedKey a = true) :
    (mem.store a v).wf = true := by
  rw [memory_wf_iff] at h ⊢
  refine ⟨sparseWf_put _ _ _ _ h.1, fun e he => ?_⟩
  unfold Memory.store sparsePut at he
  split at he
  · exact h.2 e (List.mem_of_mem_filter he)
  · rcases (mem_insert a v _ e).1 he with rfl | he
    · exact ha
    · exact h.2 e (List.mem_of_mem_filter he)

theorem wf_clear (mem : Memory) (p : Nat → Bool) (h : mem.wf = true) : Memory.wf (sparseClear p mem) = true := by
  rw [memory_wf_iff] at h ⊢
  exact ⟨sparseWf_clear _ _ _ h.1, fun e he => h.2 e (List.mem_of_mem_filter he)⟩

theorem wf_activeWords (mem : Memory) (h : mem.wf = true) : mem.activeWords.wf = true := by
  rw [memory_wf_iff] at h ⊢
  exact ⟨sparseWf_filter _ _ _ h.1, fun e he => h.2 e (List.mem_of_mem_filter he)⟩

theorem wf_copyBank (mem : Memory) (table : Nat) (ht : table < 4) (h : mem.wf = true) :
    (mem.copyBank table).wf = true := by
  rw [memory_wf_iff] at h ⊢
  refine ⟨sparseWf_putRange _ _ _ _ _ h.1, fun e he => ?_⟩
  unfold Memory.copyBank sparsePutRange at he
  rcases List.mem_append.1 he with he | he
  · rcases List.mem_append.1 he with he | he
    · exact h.2 e (List.mem_of_mem_filter he)
    · obtain ⟨i, hi, -, rfl⟩ := (mem_tabulate ..).1 he
      have hk : wordKey (bankMemory table 1) 0 + i = wordKey (bankMemory table 1) i := by unfold wordKey; omega
      simp only [hk]
      have hs : Config.memoryWords (bankMemory table 1) = Config.memoryWords (bankMemory table 0) := by
        rcases table with _ | _ | _ | _ | _ <;> first | rfl | omega
      exact protectedKey_bank _ _ (by unfold bankMemory; omega) (by omega)
  · exact h.2 e (List.mem_of_mem_filter he)

theorem wf_writeWord (s : State) (a : Nat) (v : Word) (h : s.mem.wf = true) (ha : protectedKey a = true) :
    (s.writeWord a v).mem.wf = true := wf_store _ _ _ h ha

theorem wf_zeroZoneWords (s : State) (places : List Nat) (h : s.mem.wf = true) :
    (s.zeroZoneWords places).mem.wf = true := wf_clear _ _ h

theorem wf_writeZone (s : State) (v : Solve) (l : ZoneLevel) (z : Nat) (hz : z < Config.zones)
    (h : s.mem.wf = true) : (s.writeZone v l z).mem.wf = true :=
  wf_writeWord _ _ _ (wf_writeWord _ _ _ (wf_writeWord _ _ _ (wf_writeWord _ _ _ h
    (protectedKey_zone z 4 hz (by decide) (by decide))) (protectedKey_zone z 5 hz (by decide) (by decide)))
    (protectedKey_zone z 6 hz (by decide) (by decide))) (protectedKey_zone z 7 hz (by decide) (by decide))

theorem wf_powerOn (straps : BitVec 3) : (Memory.powerOn straps).wf = true :=
  wf_store _ _ _ (wf_store _ _ _ rfl (by decide)) (by decide)

/-- The model's reset state has its memory in canonical form. -/
theorem wf_reset : State.reset.mem.wf = true := wf_powerOn 0

end Sys2Proof.Laws
end

