-- ==== Sys2Proof/Laws/State.lean ====
section
/-! SUPPORT. What each shared operation on the state leaves unchanged: one lemma for each field it does not touch, so that
no proof unfolds a record update. The operations that touch few fields have a lemma for those too. -/

namespace Sys2Proof.Machine

/-- A field that every step of a fold keeps is kept by the fold. -/
theorem foldl_keeps {α β : Type} (f : State → β) (g : State → α → State) (h : ∀ s a, f (g s a) = f s) (l : List α)
    (s : State) : f (l.foldl g s) = f s := by
  induction l generalizing s with
  | nil => rfl
  | cons a l ih => rw [List.foldl_cons, ih, h]

/-! ### `State.advance` -/

@[simp] theorem State.advance_pending (s : State) (dt : Nat) : (s.advance dt).pending = s.pending := rfl
@[simp] theorem State.advance_draws (s : State) (dt : Nat) : (s.advance dt).draws = s.draws := rfl
@[simp] theorem State.advance_mem (s : State) (dt : Nat) : (s.advance dt).mem = s.mem := rfl
@[simp] theorem State.advance_lrx (s : State) (dt : Nat) : (s.advance dt).lrx = s.lrx := rfl
@[simp] theorem State.advance_ftu (s : State) (dt : Nat) : (s.advance dt).ftu = s.ftu := rfl
@[simp] theorem State.advance_cmd (s : State) (dt : Nat) : (s.advance dt).cmd = s.cmd := rfl
@[simp] theorem State.advance_tbs (s : State) (dt : Nat) : (s.advance dt).tbs = s.tbs := rfl
@[simp] theorem State.advance_stu (s : State) (dt : Nat) : (s.advance dt).stu = s.stu := rfl
@[simp] theorem State.advance_lvs (s : State) (dt : Nat) : (s.advance dt).lvs = s.lvs := rfl
@[simp] theorem State.advance_pxc (s : State) (dt : Nat) : (s.advance dt).pxc = s.pxc := rfl
@[simp] theorem State.advance_chc (s : State) (dt : Nat) : (s.advance dt).chc = s.chc := rfl
@[simp] theorem State.advance_sns (s : State) (dt : Nat) : (s.advance dt).sns = s.sns := rfl
@[simp] theorem State.advance_mdc (s : State) (dt : Nat) : (s.advance dt).mdc = s.mdc := rfl
@[simp] theorem State.advance_rpu (s : State) (dt : Nat) : (s.advance dt).rpu = s.rpu := rfl
@[simp] theorem State.advance_imn (s : State) (dt : Nat) : (s.advance dt).imn = s.imn := rfl

@[simp] theorem State.advance_now (s : State) (dt : Nat) : (s.advance dt).clock.now = s.clock.now + dt := rfl

@[simp] theorem State.advance_frame (s : State) (dt : Nat) :
    (s.advance dt).clock.frame = s.clock.frame + BitVec.ofNat 32 dt := rfl

@[simp] theorem State.advance_zero (s : State) : s.advance 0 = s := by simp [State.advance]

/-! ### `State.advanceTo` -/

@[simp] theorem State.advanceTo_pending (s : State) (t : Nat) : (s.advanceTo t).pending = s.pending := rfl
@[simp] theorem State.advanceTo_draws (s : State) (t : Nat) : (s.advanceTo t).draws = s.draws := rfl
@[simp] theorem State.advanceTo_mem (s : State) (t : Nat) : (s.advanceTo t).mem = s.mem := rfl
@[simp] theorem State.advanceTo_lrx (s : State) (t : Nat) : (s.advanceTo t).lrx = s.lrx := rfl
@[simp] theorem State.advanceTo_ftu (s : State) (t : Nat) : (s.advanceTo t).ftu = s.ftu := rfl
@[simp] theorem State.advanceTo_cmd (s : State) (t : Nat) : (s.advanceTo t).cmd = s.cmd := rfl
@[simp] theorem State.advanceTo_tbs (s : State) (t : Nat) : (s.advanceTo t).tbs = s.tbs := rfl
@[simp] theorem State.advanceTo_stu (s : State) (t : Nat) : (s.advanceTo t).stu = s.stu := rfl
@[simp] theorem State.advanceTo_lvs (s : State) (t : Nat) : (s.advanceTo t).lvs = s.lvs := rfl
@[simp] theorem State.advanceTo_pxc (s : State) (t : Nat) : (s.advanceTo t).pxc = s.pxc := rfl
@[simp] theorem State.advanceTo_chc (s : State) (t : Nat) : (s.advanceTo t).chc = s.chc := rfl
@[simp] theorem State.advanceTo_sns (s : State) (t : Nat) : (s.advanceTo t).sns = s.sns := rfl
@[simp] theorem State.advanceTo_mdc (s : State) (t : Nat) : (s.advanceTo t).mdc = s.mdc := rfl
@[simp] theorem State.advanceTo_rpu (s : State) (t : Nat) : (s.advanceTo t).rpu = s.rpu := rfl
@[simp] theorem State.advanceTo_imn (s : State) (t : Nat) : (s.advanceTo t).imn = s.imn := rfl

@[simp] theorem State.advanceTo_now (s : State) (t : Nat) : (s.advanceTo t).clock.now = max s.clock.now t := by
  simp only [State.advanceTo, State.advance_now]; omega

/-! ### `State.raise` -/

@[simp] theorem State.raise_pending (s : State) (e : Event) : (s.raise e).pending = s.pending := rfl
@[simp] theorem State.raise_draws (s : State) (e : Event) : (s.raise e).draws = s.draws := rfl
@[simp] theorem State.raise_clock (s : State) (e : Event) : (s.raise e).clock = s.clock := rfl
@[simp] theorem State.raise_mem (s : State) (e : Event) : (s.raise e).mem = s.mem := rfl
@[simp] theorem State.raise_lrx (s : State) (e : Event) : (s.raise e).lrx = s.lrx := rfl
@[simp] theorem State.raise_ftu (s : State) (e : Event) : (s.raise e).ftu = s.ftu := rfl
@[simp] theorem State.raise_cmd (s : State) (e : Event) : (s.raise e).cmd = s.cmd := rfl
@[simp] theorem State.raise_tbs (s : State) (e : Event) : (s.raise e).tbs = s.tbs := rfl
@[simp] theorem State.raise_stu (s : State) (e : Event) : (s.raise e).stu = s.stu := rfl
@[simp] theorem State.raise_lvs (s : State) (e : Event) : (s.raise e).lvs = s.lvs := rfl
@[simp] theorem State.raise_pxc (s : State) (e : Event) : (s.raise e).pxc = s.pxc := rfl
@[simp] theorem State.raise_chc (s : State) (e : Event) : (s.raise e).chc = s.chc := rfl
@[simp] theorem State.raise_sns (s : State) (e : Event) : (s.raise e).sns = s.sns := rfl
@[simp] theorem State.raise_mdc (s : State) (e : Event) : (s.raise e).mdc = s.mdc := rfl
@[simp] theorem State.raise_imn (s : State) (e : Event) : (s.raise e).imn = s.imn := rfl

@[simp] theorem State.raise_flags (s : State) (e : Event) : (s.raise e).rpu.flags = s.rpu.flags ||| e.bit := rfl
@[simp] theorem State.raise_counters (s : State) (e : Event) : (s.raise e).rpu.counters = s.rpu.counters := rfl
@[simp] theorem State.raise_slot (s : State) (e : Event) : (s.raise e).rpu.slot = s.rpu.slot := rfl
@[simp] theorem State.raise_snapshot (s : State) (e : Event) : (s.raise e).rpu.snapshot = s.rpu.snapshot := rfl
@[simp] theorem State.raise_notifyMask (s : State) (e : Event) : (s.raise e).rpu.notifyMask = s.rpu.notifyMask := rfl

/-! ### `State.count` -/

@[simp] theorem State.count_pending (s : State) (c : Counter) (n : Nat) : (s.count c n).pending = s.pending := rfl
@[simp] theorem State.count_draws (s : State) (c : Counter) (n : Nat) : (s.count c n).draws = s.draws := rfl
@[simp] theorem State.count_clock (s : State) (c : Counter) (n : Nat) : (s.count c n).clock = s.clock := rfl
@[simp] theorem State.count_mem (s : State) (c : Counter) (n : Nat) : (s.count c n).mem = s.mem := rfl
@[simp] theorem State.count_lrx (s : State) (c : Counter) (n : Nat) : (s.count c n).lrx = s.lrx := rfl
@[simp] theorem State.count_ftu (s : State) (c : Counter) (n : Nat) : (s.count c n).ftu = s.ftu := rfl
@[simp] theorem State.count_cmd (s : State) (c : Counter) (n : Nat) : (s.count c n).cmd = s.cmd := rfl
@[simp] theorem State.count_tbs (s : State) (c : Counter) (n : Nat) : (s.count c n).tbs = s.tbs := rfl
@[simp] theorem State.count_stu (s : State) (c : Counter) (n : Nat) : (s.count c n).stu = s.stu := rfl
@[simp] theorem State.count_lvs (s : State) (c : Counter) (n : Nat) : (s.count c n).lvs = s.lvs := rfl
@[simp] theorem State.count_pxc (s : State) (c : Counter) (n : Nat) : (s.count c n).pxc = s.pxc := rfl
@[simp] theorem State.count_chc (s : State) (c : Counter) (n : Nat) : (s.count c n).chc = s.chc := rfl
@[simp] theorem State.count_sns (s : State) (c : Counter) (n : Nat) : (s.count c n).sns = s.sns := rfl
@[simp] theorem State.count_mdc (s : State) (c : Counter) (n : Nat) : (s.count c n).mdc = s.mdc := rfl
@[simp] theorem State.count_imn (s : State) (c : Counter) (n : Nat) : (s.count c n).imn = s.imn := rfl

@[simp] theorem State.count_counters (s : State) (c : Counter) (n : Nat) :
    (s.count c n).rpu.counters = s.rpu.counters.add n c := rfl
@[simp] theorem State.count_flags (s : State) (c : Counter) (n : Nat) : (s.count c n).rpu.flags = s.rpu.flags := rfl
@[simp] theorem State.count_slot (s : State) (c : Counter) (n : Nat) : (s.count c n).rpu.slot = s.rpu.slot := rfl
@[simp] theorem State.count_snapshot (s : State) (c : Counter) (n : Nat) :
    (s.count c n).rpu.snapshot = s.rpu.snapshot := rfl
@[simp] theorem State.count_notifyMask (s : State) (c : Counter) (n : Nat) :
    (s.count c n).rpu.notifyMask = s.rpu.notifyMask := rfl

/-! ### `State.countCharError` -/

@[simp] theorem State.countCharError_pending (s : State) : (s.countCharError).pending = s.pending := rfl
@[simp] theorem State.countCharError_draws (s : State) : (s.countCharError).draws = s.draws := rfl
@[simp] theorem State.countCharError_clock (s : State) : (s.countCharError).clock = s.clock := rfl
@[simp] theorem State.countCharError_mem (s : State) : (s.countCharError).mem = s.mem := rfl
@[simp] theorem State.countCharError_lrx (s : State) : (s.countCharError).lrx = s.lrx := rfl
@[simp] theorem State.countCharError_ftu (s : State) : (s.countCharError).ftu = s.ftu := rfl
@[simp] theorem State.countCharError_cmd (s : State) : (s.countCharError).cmd = s.cmd := rfl
@[simp] theorem State.countCharError_tbs (s : State) : (s.countCharError).tbs = s.tbs := rfl
@[simp] theorem State.countCharError_stu (s : State) : (s.countCharError).stu = s.stu := rfl
@[simp] theorem State.countCharError_lvs (s : State) : (s.countCharError).lvs = s.lvs := rfl
@[simp] theorem State.countCharError_pxc (s : State) : (s.countCharError).pxc = s.pxc := rfl
@[simp] theorem State.countCharError_chc (s : State) : (s.countCharError).chc = s.chc := rfl
@[simp] theorem State.countCharError_sns (s : State) : (s.countCharError).sns = s.sns := rfl
@[simp] theorem State.countCharError_mdc (s : State) : (s.countCharError).mdc = s.mdc := rfl
@[simp] theorem State.countCharError_imn (s : State) : (s.countCharError).imn = s.imn := rfl

/-! ### `State.countPacketError` -/

@[simp] theorem State.countPacketError_pending (s : State) (e : Event) (c : Counter) : (s.countPacketError e c).pending = s.pending := rfl
@[simp] theorem State.countPacketError_draws (s : State) (e : Event) (c : Counter) : (s.countPacketError e c).draws = s.draws := rfl
@[simp] theorem State.countPacketError_clock (s : State) (e : Event) (c : Counter) : (s.countPacketError e c).clock = s.clock := rfl
@[simp] theorem State.countPacketError_mem (s : State) (e : Event) (c : Counter) : (s.countPacketError e c).mem = s.mem := rfl
@[simp] theorem State.countPacketError_lrx (s : State) (e : Event) (c : Counter) : (s.countPacketError e c).lrx = s.lrx := rfl
@[simp] theorem State.countPacketError_ftu (s : State) (e : Event) (c : Counter) : (s.countPacketError e c).ftu = s.ftu := rfl
@[simp] theorem State.countPacketError_cmd (s : State) (e : Event) (c : Counter) : (s.countPacketError e c).cmd = s.cmd := rfl
@[simp] theorem State.countPacketError_tbs (s : State) (e : Event) (c : Counter) : (s.countPacketError e c).tbs = s.tbs := rfl
@[simp] theorem State.countPacketError_stu (s : State) (e : Event) (c : Counter) : (s.countPacketError e c).stu = s.stu := rfl
@[simp] theorem State.countPacketError_lvs (s : State) (e : Event) (c : Counter) : (s.countPacketError e c).lvs = s.lvs := rfl
@[simp] theorem State.countPacketError_pxc (s : State) (e : Event) (c : Counter) : (s.countPacketError e c).pxc = s.pxc := rfl
@[simp] theorem State.countPacketError_chc (s : State) (e : Event) (c : Counter) : (s.countPacketError e c).chc = s.chc := rfl
@[simp] theorem State.countPacketError_sns (s : State) (e : Event) (c : Counter) : (s.countPacketError e c).sns = s.sns := rfl
@[simp] theorem State.countPacketError_mdc (s : State) (e : Event) (c : Counter) : (s.countPacketError e c).mdc = s.mdc := rfl
@[simp] theorem State.countPacketError_imn (s : State) (e : Event) (c : Counter) : (s.countPacketError e c).imn = s.imn := rfl

/-! ### `State.setChain` -/

@[simp] theorem State.setChain_pending (s : State) (k : ChainNo) (c : ChainRec) : (s.setChain k c).pending = s.pending := rfl
@[simp] theorem State.setChain_draws (s : State) (k : ChainNo) (c : ChainRec) : (s.setChain k c).draws = s.draws := rfl
@[simp] theorem State.setChain_clock (s : State) (k : ChainNo) (c : ChainRec) : (s.setChain k c).clock = s.clock := rfl
@[simp] theorem State.setChain_mem (s : State) (k : ChainNo) (c : ChainRec) : (s.setChain k c).mem = s.mem := rfl
@[simp] theorem State.setChain_lrx (s : State) (k : ChainNo) (c : ChainRec) : (s.setChain k c).lrx = s.lrx := rfl
@[simp] theorem State.setChain_ftu (s : State) (k : ChainNo) (c : ChainRec) : (s.setChain k c).ftu = s.ftu := rfl
@[simp] theorem State.setChain_cmd (s : State) (k : ChainNo) (c : ChainRec) : (s.setChain k c).cmd = s.cmd := rfl
@[simp] theorem State.setChain_tbs (s : State) (k : ChainNo) (c : ChainRec) : (s.setChain k c).tbs = s.tbs := rfl
@[simp] theorem State.setChain_stu (s : State) (k : ChainNo) (c : ChainRec) : (s.setChain k c).stu = s.stu := rfl
@[simp] theorem State.setChain_lvs (s : State) (k : ChainNo) (c : ChainRec) : (s.setChain k c).lvs = s.lvs := rfl
@[simp] theorem State.setChain_pxc (s : State) (k : ChainNo) (c : ChainRec) : (s.setChain k c).pxc = s.pxc := rfl
@[simp] theorem State.setChain_sns (s : State) (k : ChainNo) (c : ChainRec) : (s.setChain k c).sns = s.sns := rfl
@[simp] theorem State.setChain_mdc (s : State) (k : ChainNo) (c : ChainRec) : (s.setChain k c).mdc = s.mdc := rfl
@[simp] theorem State.setChain_rpu (s : State) (k : ChainNo) (c : ChainRec) : (s.setChain k c).rpu = s.rpu := rfl
@[simp] theorem State.setChain_imn (s : State) (k : ChainNo) (c : ChainRec) : (s.setChain k c).imn = s.imn := rfl

@[simp] theorem State.setChain_chain_same (s : State) (k : ChainNo) (c : ChainRec) :
    (s.setChain k c).chc.chains[k] = c := by simp [State.setChain]

theorem State.setChain_chain_other (s : State) (k j : ChainNo) (c : ChainRec) (h : k ≠ j) :
    (s.setChain k c).chc.chains[j] = s.chc.chains[j] := by
  have : k.val ≠ j.val := fun e => h (Fin.ext e)
  simp [State.setChain, this]

@[simp] theorem State.setChain_devices (s : State) (k : ChainNo) (c : ChainRec) :
    (s.setChain k c).chc.devices = s.chc.devices := rfl
@[simp] theorem State.setChain_openCount (s : State) (k : ChainNo) (c : ChainRec) :
    (s.setChain k c).chc.openCount = s.chc.openCount := rfl
@[simp] theorem State.setChain_shortCount (s : State) (k : ChainNo) (c : ChainRec) :
    (s.setChain k c).chc.shortCount = s.chc.shortCount := rfl
@[simp] theorem State.setChain_latches (s : State) (k : ChainNo) (c : ChainRec) :
    (s.setChain k c).chc.latches = s.chc.latches := rfl
@[simp] theorem State.setChain_passQueue (s : State) (k : ChainNo) (c : ChainRec) :
    (s.setChain k c).chc.passQueue = s.chc.passQueue := rfl
@[simp] theorem State.setChain_latchLines (s : State) (k : ChainNo) (c : ChainRec) :
    (s.setChain k c).chc.latchLines = s.chc.latchLines := rfl

/-! ### `State.writeWord` -/

@[simp] theorem State.writeWord_pending (s : State) (a : Nat) (v : Word) : (s.writeWord a v).pending = s.pending := rfl
@[simp] theorem State.writeWord_draws (s : State) (a : Nat) (v : Word) : (s.writeWord a v).draws = s.draws := rfl
@[simp] theorem State.writeWord_clock (s : State) (a : Nat) (v : Word) : (s.writeWord a v).clock = s.clock := rfl
@[simp] theorem State.writeWord_lrx (s : State) (a : Nat) (v : Word) : (s.writeWord a v).lrx = s.lrx := rfl
@[simp] theorem State.writeWord_ftu (s : State) (a : Nat) (v : Word) : (s.writeWord a v).ftu = s.ftu := rfl
@[simp] theorem State.writeWord_cmd (s : State) (a : Nat) (v : Word) : (s.writeWord a v).cmd = s.cmd := rfl
@[simp] theorem State.writeWord_tbs (s : State) (a : Nat) (v : Word) : (s.writeWord a v).tbs = s.tbs := rfl
@[simp] theorem State.writeWord_stu (s : State) (a : Nat) (v : Word) : (s.writeWord a v).stu = s.stu := rfl
@[simp] theorem State.writeWord_lvs (s : State) (a : Nat) (v : Word) : (s.writeWord a v).lvs = s.lvs := rfl
@[simp] theorem State.writeWord_pxc (s : State) (a : Nat) (v : Word) : (s.writeWord a v).pxc = s.pxc := rfl
@[simp] theorem State.writeWord_chc (s : State) (a : Nat) (v : Word) : (s.writeWord a v).chc = s.chc := rfl
@[simp] theorem State.writeWord_sns (s : State) (a : Nat) (v : Word) : (s.writeWord a v).sns = s.sns := rfl
@[simp] theorem State.writeWord_mdc (s : State) (a : Nat) (v : Word) : (s.writeWord a v).mdc = s.mdc := rfl
@[simp] theorem State.writeWord_rpu (s : State) (a : Nat) (v : Word) : (s.writeWord a v).rpu = s.rpu := rfl

@[simp] theorem State.writeWord_mem (s : State) (a : Nat) (v : Word) : (s.writeWord a v).mem = s.mem.store a v := rfl
@[simp] theorem State.writeWord_marks (s : State) (a : Nat) (v : Word) :
    (s.writeWord a v).imn.marks = s.imn.marks := rfl
@[simp] theorem State.writeWord_log (s : State) (a : Nat) (v : Word) : (s.writeWord a v).imn.log = s.imn.log := rfl
@[simp] theorem State.writeWord_overflow (s : State) (a : Nat) (v : Word) :
    (s.writeWord a v).imn.overflow = s.imn.overflow := rfl
@[simp] theorem State.writeWord_lost (s : State) (a : Nat) (v : Word) :
    (s.writeWord a v).imn.lost = s.imn.lost := rfl

/-! ### `State.logError` -/

@[simp] theorem State.logError_pending (s : State) (a : Nat) (k : ErrorKind) : (s.logError a k).pending = s.pending := by
  unfold State.logError; split <;> rfl
@[simp] theorem State.logError_draws (s : State) (a : Nat) (k : ErrorKind) : (s.logError a k).draws = s.draws := by
  unfold State.logError; split <;> rfl
@[simp] theorem State.logError_clock (s : State) (a : Nat) (k : ErrorKind) : (s.logError a k).clock = s.clock := by
  unfold State.logError; split <;> rfl
@[simp] theorem State.logError_mem (s : State) (a : Nat) (k : ErrorKind) : (s.logError a k).mem = s.mem := by
  unfold State.logError; split <;> rfl
@[simp] theorem State.logError_lrx (s : State) (a : Nat) (k : ErrorKind) : (s.logError a k).lrx = s.lrx := by
  unfold State.logError; split <;> rfl
@[simp] theorem State.logError_ftu (s : State) (a : Nat) (k : ErrorKind) : (s.logError a k).ftu = s.ftu := by
  unfold State.logError; split <;> rfl
@[simp] theorem State.logError_cmd (s : State) (a : Nat) (k : ErrorKind) : (s.logError a k).cmd = s.cmd := by
  unfold State.logError; split <;> rfl
@[simp] theorem State.logError_tbs (s : State) (a : Nat) (k : ErrorKind) : (s.logError a k).tbs = s.tbs := by
  unfold State.logError; split <;> rfl
@[simp] theorem State.logError_stu (s : State) (a : Nat) (k : ErrorKind) : (s.logError a k).stu = s.stu := by
  unfold State.logError; split <;> rfl
@[simp] theorem State.logError_lvs (s : State) (a : Nat) (k : ErrorKind) : (s.logError a k).lvs = s.lvs := by
  unfold State.logError; split <;> rfl
@[simp] theorem State.logError_pxc (s : State) (a : Nat) (k : ErrorKind) : (s.logError a k).pxc = s.pxc := by
  unfold State.logError; split <;> rfl
@[simp] theorem State.logError_chc (s : State) (a : Nat) (k : ErrorKind) : (s.logError a k).chc = s.chc := by
  unfold State.logError; split <;> rfl
@[simp] theorem State.logError_sns (s : State) (a : Nat) (k : ErrorKind) : (s.logError a k).sns = s.sns := by
  unfold State.logError; split <;> rfl
@[simp] theorem State.logError_mdc (s : State) (a : Nat) (k : ErrorKind) : (s.logError a k).mdc = s.mdc := by
  unfold State.logError; split <;> rfl
@[simp] theorem State.logError_rpu (s : State) (a : Nat) (k : ErrorKind) : (s.logError a k).rpu = s.rpu := by
  unfold State.logError; split <;> rfl

/-! ### `State.autoSafe` -/

@[simp] theorem State.autoSafe_pending (s : State) : (s.autoSafe).pending = s.pending := by
  unfold State.autoSafe; dsimp only; split <;> rfl
@[simp] theorem State.autoSafe_draws (s : State) : (s.autoSafe).draws = s.draws := by
  unfold State.autoSafe; dsimp only; split <;> rfl
@[simp] theorem State.autoSafe_clock (s : State) : (s.autoSafe).clock = s.clock := by
  unfold State.autoSafe; dsimp only; split <;> rfl
@[simp] theorem State.autoSafe_mem (s : State) : (s.autoSafe).mem = s.mem := by
  unfold State.autoSafe; dsimp only; split <;> rfl
@[simp] theorem State.autoSafe_lrx (s : State) : (s.autoSafe).lrx = s.lrx := by
  unfold State.autoSafe; dsimp only; split <;> rfl
@[simp] theorem State.autoSafe_ftu (s : State) : (s.autoSafe).ftu = s.ftu := by
  unfold State.autoSafe; dsimp only; split <;> rfl
@[simp] theorem State.autoSafe_cmd (s : State) : (s.autoSafe).cmd = s.cmd := by
  unfold State.autoSafe; dsimp only; split <;> rfl
@[simp] theorem State.autoSafe_tbs (s : State) : (s.autoSafe).tbs = s.tbs := by
  unfold State.autoSafe; dsimp only; split <;> rfl
@[simp] theorem State.autoSafe_stu (s : State) : (s.autoSafe).stu = s.stu := by
  unfold State.autoSafe; dsimp only; split <;> rfl
@[simp] theorem State.autoSafe_lvs (s : State) : (s.autoSafe).lvs = s.lvs := by
  unfold State.autoSafe; dsimp only; split <;> rfl
@[simp] theorem State.autoSafe_pxc (s : State) : (s.autoSafe).pxc = s.pxc := by
  unfold State.autoSafe; dsimp only; split <;> rfl
@[simp] theorem State.autoSafe_chc (s : State) : (s.autoSafe).chc = s.chc := by
  unfold State.autoSafe; dsimp only; split <;> rfl
@[simp] theorem State.autoSafe_sns (s : State) : (s.autoSafe).sns = s.sns := by
  unfold State.autoSafe; dsimp only; split <;> rfl
@[simp] theorem State.autoSafe_imn (s : State) : (s.autoSafe).imn = s.imn := by
  unfold State.autoSafe; dsimp only; split <;> rfl

/-! ### Reads through the integrity monitor -/

theorem foldl_writeWord_keeps {β : Type} (f : State → β) (h : ∀ s a v, f (State.writeWord s a v) = f s)
    (l : List (Nat × Word)) (s : State) : f (l.foldl (fun s e => s.writeWord e.1 e.2) s) = f s :=
  foldl_keeps f _ (fun s e => h s e.1 e.2) l s

/-! ### `State.readWord` -/

@[simp] theorem State.readWord_pending (s : State) (a : Nat) : (s.readWord a).pending = s.pending := by
  unfold State.readWord
  split
  · rfl
  · simp
  · dsimp only
    have h := foldl_writeWord_keeps State.pending (fun _ _ _ => rfl)
    split
    · simp [h]
    · split <;> simp [h]
@[simp] theorem State.readWord_draws (s : State) (a : Nat) : (s.readWord a).draws = s.draws := by
  unfold State.readWord
  split
  · rfl
  · simp
  · dsimp only
    have h := foldl_writeWord_keeps State.draws (fun _ _ _ => rfl)
    split
    · simp [h]
    · split <;> simp [h]
@[simp] theorem State.readWord_clock (s : State) (a : Nat) : (s.readWord a).clock = s.clock := by
  unfold State.readWord
  split
  · rfl
  · simp
  · dsimp only
    have h := foldl_writeWord_keeps State.clock (fun _ _ _ => rfl)
    split
    · simp [h]
    · split <;> simp [h]
@[simp] theorem State.readWord_lrx (s : State) (a : Nat) : (s.readWord a).lrx = s.lrx := by
  unfold State.readWord
  split
  · rfl
  · simp
  · dsimp only
    have h := foldl_writeWord_keeps State.lrx (fun _ _ _ => rfl)
    split
    · simp [h]
    · split <;> simp [h]
@[simp] theorem State.readWord_ftu (s : State) (a : Nat) : (s.readWord a).ftu = s.ftu := by
  unfold State.readWord
  split
  · rfl
  · simp
  · dsimp only
    have h := foldl_writeWord_keeps State.ftu (fun _ _ _ => rfl)
    split
    · simp [h]
    · split <;> simp [h]
@[simp] theorem State.readWord_cmd (s : State) (a : Nat) : (s.readWord a).cmd = s.cmd := by
  unfold State.readWord
  split
  · rfl
  · simp
  · dsimp only
    have h := foldl_writeWord_keeps State.cmd (fun _ _ _ => rfl)
    split
    · simp [h]
    · split <;> simp [h]
@[simp] theorem State.readWord_tbs (s : State) (a : Nat) : (s.readWord a).tbs = s.tbs := by
  unfold State.readWord
  split
  · rfl
  · simp
  · dsimp only
    have h := foldl_writeWord_keeps State.tbs (fun _ _ _ => rfl)
    split
    · simp [h]
    · split <;> simp [h]
@[simp] theorem State.readWord_stu (s : State) (a : Nat) : (s.readWord a).stu = s.stu := by
  unfold State.readWord
  split
  · rfl
  · simp
  · dsimp only
    have h := foldl_writeWord_keeps State.stu (fun _ _ _ => rfl)
    split
    · simp [h]
    · split <;> simp [h]
@[simp] theorem State.readWord_pxc (s : State) (a : Nat) : (s.readWord a).pxc = s.pxc := by
  unfold State.readWord
  split
  · rfl
  · simp
  · dsimp only
    have h := foldl_writeWord_keeps State.pxc (fun _ _ _ => rfl)
    split
    · simp [h]
    · split <;> simp [h]
@[simp] theorem State.readWord_chc (s : State) (a : Nat) : (s.readWord a).chc = s.chc := by
  unfold State.readWord
  split
  · rfl
  · simp
  · dsimp only
    have h := foldl_writeWord_keeps State.chc (fun _ _ _ => rfl)
    split
    · simp [h]
    · split <;> simp [h]
@[simp] theorem State.readWord_sns (s : State) (a : Nat) : (s.readWord a).sns = s.sns := by
  unfold State.readWord
  split
  · rfl
  · simp
  · dsimp only
    have h := foldl_writeWord_keeps State.sns (fun _ _ _ => rfl)
    split
    · simp [h]
    · split <;> simp [h]

/-! ### `State.readRange` -/

@[simp] theorem State.readRange_pending (s : State) (lo : Nat) (n : Nat) : (s.readRange lo n).pending = s.pending := foldl_keeps State.pending _ (fun s _ => State.readWord_pending s _) _ s
@[simp] theorem State.readRange_draws (s : State) (lo : Nat) (n : Nat) : (s.readRange lo n).draws = s.draws := foldl_keeps State.draws _ (fun s _ => State.readWord_draws s _) _ s
@[simp] theorem State.readRange_clock (s : State) (lo : Nat) (n : Nat) : (s.readRange lo n).clock = s.clock := foldl_keeps State.clock _ (fun s _ => State.readWord_clock s _) _ s
@[simp] theorem State.readRange_lrx (s : State) (lo : Nat) (n : Nat) : (s.readRange lo n).lrx = s.lrx := foldl_keeps State.lrx _ (fun s _ => State.readWord_lrx s _) _ s
@[simp] theorem State.readRange_ftu (s : State) (lo : Nat) (n : Nat) : (s.readRange lo n).ftu = s.ftu := foldl_keeps State.ftu _ (fun s _ => State.readWord_ftu s _) _ s
@[simp] theorem State.readRange_cmd (s : State) (lo : Nat) (n : Nat) : (s.readRange lo n).cmd = s.cmd := foldl_keeps State.cmd _ (fun s _ => State.readWord_cmd s _) _ s
@[simp] theorem State.readRange_tbs (s : State) (lo : Nat) (n : Nat) : (s.readRange lo n).tbs = s.tbs := foldl_keeps State.tbs _ (fun s _ => State.readWord_tbs s _) _ s
@[simp] theorem State.readRange_stu (s : State) (lo : Nat) (n : Nat) : (s.readRange lo n).stu = s.stu := foldl_keeps State.stu _ (fun s _ => State.readWord_stu s _) _ s
@[simp] theorem State.readRange_pxc (s : State) (lo : Nat) (n : Nat) : (s.readRange lo n).pxc = s.pxc := foldl_keeps State.pxc _ (fun s _ => State.readWord_pxc s _) _ s
@[simp] theorem State.readRange_chc (s : State) (lo : Nat) (n : Nat) : (s.readRange lo n).chc = s.chc := foldl_keeps State.chc _ (fun s _ => State.readWord_chc s _) _ s
@[simp] theorem State.readRange_sns (s : State) (lo : Nat) (n : Nat) : (s.readRange lo n).sns = s.sns := foldl_keeps State.sns _ (fun s _ => State.readWord_sns s _) _ s

/-! ### `State.readSetting` -/

@[simp] theorem State.readSetting_pending (s : State) (i : Nat) : (s.readSetting i).pending = s.pending := State.readRange_pending s _ _
@[simp] theorem State.readSetting_draws (s : State) (i : Nat) : (s.readSetting i).draws = s.draws := State.readRange_draws s _ _
@[simp] theorem State.readSetting_clock (s : State) (i : Nat) : (s.readSetting i).clock = s.clock := State.readRange_clock s _ _
@[simp] theorem State.readSetting_lrx (s : State) (i : Nat) : (s.readSetting i).lrx = s.lrx := State.readRange_lrx s _ _
@[simp] theorem State.readSetting_ftu (s : State) (i : Nat) : (s.readSetting i).ftu = s.ftu := State.readRange_ftu s _ _
@[simp] theorem State.readSetting_cmd (s : State) (i : Nat) : (s.readSetting i).cmd = s.cmd := State.readRange_cmd s _ _
@[simp] theorem State.readSetting_tbs (s : State) (i : Nat) : (s.readSetting i).tbs = s.tbs := State.readRange_tbs s _ _
@[simp] theorem State.readSetting_stu (s : State) (i : Nat) : (s.readSetting i).stu = s.stu := State.readRange_stu s _ _
@[simp] theorem State.readSetting_pxc (s : State) (i : Nat) : (s.readSetting i).pxc = s.pxc := State.readRange_pxc s _ _
@[simp] theorem State.readSetting_chc (s : State) (i : Nat) : (s.readSetting i).chc = s.chc := State.readRange_chc s _ _
@[simp] theorem State.readSetting_sns (s : State) (i : Nat) : (s.readSetting i).sns = s.sns := State.readRange_sns s _ _

/-! ### `State.readSettings` -/

@[simp] theorem State.readSettings_pending (s : State) (is : List Nat) : (s.readSettings is).pending = s.pending := foldl_keeps State.pending _ (fun s i => State.readSetting_pending s i) _ s
@[simp] theorem State.readSettings_draws (s : State) (is : List Nat) : (s.readSettings is).draws = s.draws := foldl_keeps State.draws _ (fun s i => State.readSetting_draws s i) _ s
@[simp] theorem State.readSettings_clock (s : State) (is : List Nat) : (s.readSettings is).clock = s.clock := foldl_keeps State.clock _ (fun s i => State.readSetting_clock s i) _ s
@[simp] theorem State.readSettings_lrx (s : State) (is : List Nat) : (s.readSettings is).lrx = s.lrx := foldl_keeps State.lrx _ (fun s i => State.readSetting_lrx s i) _ s
@[simp] theorem State.readSettings_ftu (s : State) (is : List Nat) : (s.readSettings is).ftu = s.ftu := foldl_keeps State.ftu _ (fun s i => State.readSetting_ftu s i) _ s
@[simp] theorem State.readSettings_cmd (s : State) (is : List Nat) : (s.readSettings is).cmd = s.cmd := foldl_keeps State.cmd _ (fun s i => State.readSetting_cmd s i) _ s
@[simp] theorem State.readSettings_tbs (s : State) (is : List Nat) : (s.readSettings is).tbs = s.tbs := foldl_keeps State.tbs _ (fun s i => State.readSetting_tbs s i) _ s
@[simp] theorem State.readSettings_stu (s : State) (is : List Nat) : (s.readSettings is).stu = s.stu := foldl_keeps State.stu _ (fun s i => State.readSetting_stu s i) _ s
@[simp] theorem State.readSettings_pxc (s : State) (is : List Nat) : (s.readSettings is).pxc = s.pxc := foldl_keeps State.pxc _ (fun s i => State.readSetting_pxc s i) _ s
@[simp] theorem State.readSettings_chc (s : State) (is : List Nat) : (s.readSettings is).chc = s.chc := foldl_keeps State.chc _ (fun s i => State.readSetting_chc s i) _ s
@[simp] theorem State.readSettings_sns (s : State) (is : List Nat) : (s.readSettings is).sns = s.sns := foldl_keeps State.sns _ (fun s i => State.readSetting_sns s i) _ s

/-! ### Replies and the lane -/

/-! ### `State.sendNext` -/

@[simp] theorem State.sendNext_pending (s : State) : (s.sendNext).pending = s.pending := by
  unfold State.sendNext; split <;> [rfl; (split <;> [rfl; (split <;> rfl)])]
@[simp] theorem State.sendNext_draws (s : State) : (s.sendNext).draws = s.draws := by
  unfold State.sendNext; split <;> [rfl; (split <;> [rfl; (split <;> rfl)])]
@[simp] theorem State.sendNext_clock (s : State) : (s.sendNext).clock = s.clock := by
  unfold State.sendNext; split <;> [rfl; (split <;> [rfl; (split <;> rfl)])]
@[simp] theorem State.sendNext_mem (s : State) : (s.sendNext).mem = s.mem := by
  unfold State.sendNext; split <;> [rfl; (split <;> [rfl; (split <;> rfl)])]
@[simp] theorem State.sendNext_lrx (s : State) : (s.sendNext).lrx = s.lrx := by
  unfold State.sendNext; split <;> [rfl; (split <;> [rfl; (split <;> rfl)])]
@[simp] theorem State.sendNext_ftu (s : State) : (s.sendNext).ftu = s.ftu := by
  unfold State.sendNext; split <;> [rfl; (split <;> [rfl; (split <;> rfl)])]
@[simp] theorem State.sendNext_tbs (s : State) : (s.sendNext).tbs = s.tbs := by
  unfold State.sendNext; split <;> [rfl; (split <;> [rfl; (split <;> rfl)])]
@[simp] theorem State.sendNext_stu (s : State) : (s.sendNext).stu = s.stu := by
  unfold State.sendNext; split <;> [rfl; (split <;> [rfl; (split <;> rfl)])]
@[simp] theorem State.sendNext_lvs (s : State) : (s.sendNext).lvs = s.lvs := by
  unfold State.sendNext; split <;> [rfl; (split <;> [rfl; (split <;> rfl)])]
@[simp] theorem State.sendNext_pxc (s : State) : (s.sendNext).pxc = s.pxc := by
  unfold State.sendNext; split <;> [rfl; (split <;> [rfl; (split <;> rfl)])]
@[simp] theorem State.sendNext_chc (s : State) : (s.sendNext).chc = s.chc := by
  unfold State.sendNext; split <;> [rfl; (split <;> [rfl; (split <;> rfl)])]
@[simp] theorem State.sendNext_sns (s : State) : (s.sendNext).sns = s.sns := by
  unfold State.sendNext; split <;> [rfl; (split <;> [rfl; (split <;> rfl)])]
@[simp] theorem State.sendNext_mdc (s : State) : (s.sendNext).mdc = s.mdc := by
  unfold State.sendNext; split <;> [rfl; (split <;> [rfl; (split <;> rfl)])]
@[simp] theorem State.sendNext_imn (s : State) : (s.sendNext).imn = s.imn := by
  unfold State.sendNext; split <;> [rfl; (split <;> [rfl; (split <;> rfl)])]

/-! ### `State.takeNext` -/

@[simp] theorem State.takeNext_pending (s : State) : (s.takeNext).pending = s.pending := by
  unfold State.takeNext; split <;> [(split <;> rfl); rfl]
@[simp] theorem State.takeNext_draws (s : State) : (s.takeNext).draws = s.draws := by
  unfold State.takeNext; split <;> [(split <;> rfl); rfl]
@[simp] theorem State.takeNext_clock (s : State) : (s.takeNext).clock = s.clock := by
  unfold State.takeNext; split <;> [(split <;> rfl); rfl]
@[simp] theorem State.takeNext_mem (s : State) : (s.takeNext).mem = s.mem := by
  unfold State.takeNext; split <;> [(split <;> rfl); rfl]
@[simp] theorem State.takeNext_lrx (s : State) : (s.takeNext).lrx = s.lrx := by
  unfold State.takeNext; split <;> [(split <;> rfl); rfl]
@[simp] theorem State.takeNext_ftu (s : State) : (s.takeNext).ftu = s.ftu := by
  unfold State.takeNext; split <;> [(split <;> rfl); rfl]
@[simp] theorem State.takeNext_tbs (s : State) : (s.takeNext).tbs = s.tbs := by
  unfold State.takeNext; split <;> [(split <;> rfl); rfl]
@[simp] theorem State.takeNext_stu (s : State) : (s.takeNext).stu = s.stu := by
  unfold State.takeNext; split <;> [(split <;> rfl); rfl]
@[simp] theorem State.takeNext_lvs (s : State) : (s.takeNext).lvs = s.lvs := by
  unfold State.takeNext; split <;> [(split <;> rfl); rfl]
@[simp] theorem State.takeNext_pxc (s : State) : (s.takeNext).pxc = s.pxc := by
  unfold State.takeNext; split <;> [(split <;> rfl); rfl]
@[simp] theorem State.takeNext_chc (s : State) : (s.takeNext).chc = s.chc := by
  unfold State.takeNext; split <;> [(split <;> rfl); rfl]
@[simp] theorem State.takeNext_sns (s : State) : (s.takeNext).sns = s.sns := by
  unfold State.takeNext; split <;> [(split <;> rfl); rfl]
@[simp] theorem State.takeNext_mdc (s : State) : (s.takeNext).mdc = s.mdc := by
  unfold State.takeNext; split <;> [(split <;> rfl); rfl]
@[simp] theorem State.takeNext_rpu (s : State) : (s.takeNext).rpu = s.rpu := by
  unfold State.takeNext; split <;> [(split <;> rfl); rfl]
@[simp] theorem State.takeNext_imn (s : State) : (s.takeNext).imn = s.imn := by
  unfold State.takeNext; split <;> [(split <;> rfl); rfl]

/-! ### `State.pump` -/

@[simp] theorem State.pump_pending (s : State) : (s.pump).pending = s.pending := by
  unfold State.pump; rw [State.takeNext_pending, State.sendNext_pending]
@[simp] theorem State.pump_draws (s : State) : (s.pump).draws = s.draws := by
  unfold State.pump; rw [State.takeNext_draws, State.sendNext_draws]
@[simp] theorem State.pump_clock (s : State) : (s.pump).clock = s.clock := by
  unfold State.pump; rw [State.takeNext_clock, State.sendNext_clock]
@[simp] theorem State.pump_mem (s : State) : (s.pump).mem = s.mem := by
  unfold State.pump; rw [State.takeNext_mem, State.sendNext_mem]
@[simp] theorem State.pump_lrx (s : State) : (s.pump).lrx = s.lrx := by
  unfold State.pump; rw [State.takeNext_lrx, State.sendNext_lrx]
@[simp] theorem State.pump_ftu (s : State) : (s.pump).ftu = s.ftu := by
  unfold State.pump; rw [State.takeNext_ftu, State.sendNext_ftu]
@[simp] theorem State.pump_tbs (s : State) : (s.pump).tbs = s.tbs := by
  unfold State.pump; rw [State.takeNext_tbs, State.sendNext_tbs]
@[simp] theorem State.pump_stu (s : State) : (s.pump).stu = s.stu := by
  unfold State.pump; rw [State.takeNext_stu, State.sendNext_stu]
@[simp] theorem State.pump_lvs (s : State) : (s.pump).lvs = s.lvs := by
  unfold State.pump; rw [State.takeNext_lvs, State.sendNext_lvs]
@[simp] theorem State.pump_pxc (s : State) : (s.pump).pxc = s.pxc := by
  unfold State.pump; rw [State.takeNext_pxc, State.sendNext_pxc]
@[simp] theorem State.pump_chc (s : State) : (s.pump).chc = s.chc := by
  unfold State.pump; rw [State.takeNext_chc, State.sendNext_chc]
@[simp] theorem State.pump_sns (s : State) : (s.pump).sns = s.sns := by
  unfold State.pump; rw [State.takeNext_sns, State.sendNext_sns]
@[simp] theorem State.pump_mdc (s : State) : (s.pump).mdc = s.mdc := by
  unfold State.pump; rw [State.takeNext_mdc, State.sendNext_mdc]
@[simp] theorem State.pump_imn (s : State) : (s.pump).imn = s.imn := by
  unfold State.pump; rw [State.takeNext_imn, State.sendNext_imn]

/-! ### `State.fill` -/

@[simp] theorem State.fill_pending (s : State) (seq : Byte) (code : Byte) (r : Result) (w : Reason) (final : Bool) (data : List Word) : (s.fill seq code r w final data).pending = s.pending := 
  State.readSetting_pending s _
@[simp] theorem State.fill_draws (s : State) (seq : Byte) (code : Byte) (r : Result) (w : Reason) (final : Bool) (data : List Word) : (s.fill seq code r w final data).draws = s.draws := 
  State.readSetting_draws s _
@[simp] theorem State.fill_clock (s : State) (seq : Byte) (code : Byte) (r : Result) (w : Reason) (final : Bool) (data : List Word) : (s.fill seq code r w final data).clock = s.clock := 
  State.readSetting_clock s _
@[simp] theorem State.fill_lrx (s : State) (seq : Byte) (code : Byte) (r : Result) (w : Reason) (final : Bool) (data : List Word) : (s.fill seq code r w final data).lrx = s.lrx := 
  State.readSetting_lrx s _
@[simp] theorem State.fill_ftu (s : State) (seq : Byte) (code : Byte) (r : Result) (w : Reason) (final : Bool) (data : List Word) : (s.fill seq code r w final data).ftu = s.ftu := 
  State.readSetting_ftu s _
@[simp] theorem State.fill_tbs (s : State) (seq : Byte) (code : Byte) (r : Result) (w : Reason) (final : Bool) (data : List Word) : (s.fill seq code r w final data).tbs = s.tbs := 
  State.readSetting_tbs s _
@[simp] theorem State.fill_stu (s : State) (seq : Byte) (code : Byte) (r : Result) (w : Reason) (final : Bool) (data : List Word) : (s.fill seq code r w final data).stu = s.stu := 
  State.readSetting_stu s _
@[simp] theorem State.fill_pxc (s : State) (seq : Byte) (code : Byte) (r : Result) (w : Reason) (final : Bool) (data : List Word) : (s.fill seq code r w final data).pxc = s.pxc := 
  State.readSetting_pxc s _
@[simp] theorem State.fill_chc (s : State) (seq : Byte) (code : Byte) (r : Result) (w : Reason) (final : Bool) (data : List Word) : (s.fill seq code r w final data).chc = s.chc := 
  State.readSetting_chc s _
@[simp] theorem State.fill_sns (s : State) (seq : Byte) (code : Byte) (r : Result) (w : Reason) (final : Bool) (data : List Word) : (s.fill seq code r w final data).sns = s.sns := 
  State.readSetting_sns s _

/-! ### `State.deliver` -/

@[simp] theorem State.deliver_pending (s : State) (o : OwingUnit) (n : Nat) (r : Result) (data : List Word) : (s.deliver o n r data).pending = s.pending := by
  unfold State.deliver; split <;> simp
@[simp] theorem State.deliver_draws (s : State) (o : OwingUnit) (n : Nat) (r : Result) (data : List Word) : (s.deliver o n r data).draws = s.draws := by
  unfold State.deliver; split <;> simp
@[simp] theorem State.deliver_clock (s : State) (o : OwingUnit) (n : Nat) (r : Result) (data : List Word) : (s.deliver o n r data).clock = s.clock := by
  unfold State.deliver; split <;> simp
@[simp] theorem State.deliver_lrx (s : State) (o : OwingUnit) (n : Nat) (r : Result) (data : List Word) : (s.deliver o n r data).lrx = s.lrx := by
  unfold State.deliver; split <;> simp
@[simp] theorem State.deliver_ftu (s : State) (o : OwingUnit) (n : Nat) (r : Result) (data : List Word) : (s.deliver o n r data).ftu = s.ftu := by
  unfold State.deliver; split <;> simp
@[simp] theorem State.deliver_tbs (s : State) (o : OwingUnit) (n : Nat) (r : Result) (data : List Word) : (s.deliver o n r data).tbs = s.tbs := by
  unfold State.deliver; split <;> simp
@[simp] theorem State.deliver_stu (s : State) (o : OwingUnit) (n : Nat) (r : Result) (data : List Word) : (s.deliver o n r data).stu = s.stu := by
  unfold State.deliver; split <;> simp
@[simp] theorem State.deliver_pxc (s : State) (o : OwingUnit) (n : Nat) (r : Result) (data : List Word) : (s.deliver o n r data).pxc = s.pxc := by
  unfold State.deliver; split <;> simp
@[simp] theorem State.deliver_chc (s : State) (o : OwingUnit) (n : Nat) (r : Result) (data : List Word) : (s.deliver o n r data).chc = s.chc := by
  unfold State.deliver; split <;> simp
@[simp] theorem State.deliver_sns (s : State) (o : OwingUnit) (n : Nat) (r : Result) (data : List Word) : (s.deliver o n r data).sns = s.sns := by
  unfold State.deliver; split <;> simp

/-! ### `State.release` -/

@[simp] theorem State.release_pending (s : State) : (s.release).pending = s.pending := rfl
@[simp] theorem State.release_draws (s : State) : (s.release).draws = s.draws := rfl
@[simp] theorem State.release_clock (s : State) : (s.release).clock = s.clock := rfl
@[simp] theorem State.release_mem (s : State) : (s.release).mem = s.mem := rfl
@[simp] theorem State.release_lrx (s : State) : (s.release).lrx = s.lrx := rfl
@[simp] theorem State.release_ftu (s : State) : (s.release).ftu = s.ftu := rfl
@[simp] theorem State.release_tbs (s : State) : (s.release).tbs = s.tbs := rfl
@[simp] theorem State.release_stu (s : State) : (s.release).stu = s.stu := rfl
@[simp] theorem State.release_lvs (s : State) : (s.release).lvs = s.lvs := rfl
@[simp] theorem State.release_pxc (s : State) : (s.release).pxc = s.pxc := rfl
@[simp] theorem State.release_chc (s : State) : (s.release).chc = s.chc := rfl
@[simp] theorem State.release_sns (s : State) : (s.release).sns = s.sns := rfl
@[simp] theorem State.release_mdc (s : State) : (s.release).mdc = s.mdc := rfl
@[simp] theorem State.release_rpu (s : State) : (s.release).rpu = s.rpu := rfl
@[simp] theorem State.release_imn (s : State) : (s.release).imn = s.imn := rfl

/-! ### `State.answer` -/

@[simp] theorem State.answer_pending (s : State) (p : Packet) (a : Answer) : (s.answer p a).pending = s.pending := by
  unfold State.answer; split <;> simp
@[simp] theorem State.answer_draws (s : State) (p : Packet) (a : Answer) : (s.answer p a).draws = s.draws := by
  unfold State.answer; split <;> simp
@[simp] theorem State.answer_clock (s : State) (p : Packet) (a : Answer) : (s.answer p a).clock = s.clock := by
  unfold State.answer; split <;> simp
@[simp] theorem State.answer_lrx (s : State) (p : Packet) (a : Answer) : (s.answer p a).lrx = s.lrx := by
  unfold State.answer; split <;> simp
@[simp] theorem State.answer_ftu (s : State) (p : Packet) (a : Answer) : (s.answer p a).ftu = s.ftu := by
  unfold State.answer; split <;> simp
@[simp] theorem State.answer_tbs (s : State) (p : Packet) (a : Answer) : (s.answer p a).tbs = s.tbs := by
  unfold State.answer; split <;> simp
@[simp] theorem State.answer_stu (s : State) (p : Packet) (a : Answer) : (s.answer p a).stu = s.stu := by
  unfold State.answer; split <;> simp
@[simp] theorem State.answer_pxc (s : State) (p : Packet) (a : Answer) : (s.answer p a).pxc = s.pxc := by
  unfold State.answer; split <;> simp
@[simp] theorem State.answer_chc (s : State) (p : Packet) (a : Answer) : (s.answer p a).chc = s.chc := by
  unfold State.answer; split <;> simp
@[simp] theorem State.answer_sns (s : State) (p : Packet) (a : Answer) : (s.answer p a).sns = s.sns := by
  unfold State.answer; split <;> simp

/-! ### `State.finish` -/

@[simp] theorem State.finish_pending (s : State) (p : Packet) (a : Option Answer) : (s.finish p a).pending = s.pending := by
  unfold State.finish; split <;> simp
@[simp] theorem State.finish_draws (s : State) (p : Packet) (a : Option Answer) : (s.finish p a).draws = s.draws := by
  unfold State.finish; split <;> simp
@[simp] theorem State.finish_clock (s : State) (p : Packet) (a : Option Answer) : (s.finish p a).clock = s.clock := by
  unfold State.finish; split <;> simp
@[simp] theorem State.finish_lrx (s : State) (p : Packet) (a : Option Answer) : (s.finish p a).lrx = s.lrx := by
  unfold State.finish; split <;> simp
@[simp] theorem State.finish_ftu (s : State) (p : Packet) (a : Option Answer) : (s.finish p a).ftu = s.ftu := by
  unfold State.finish; split <;> simp
@[simp] theorem State.finish_tbs (s : State) (p : Packet) (a : Option Answer) : (s.finish p a).tbs = s.tbs := by
  unfold State.finish; split <;> simp
@[simp] theorem State.finish_stu (s : State) (p : Packet) (a : Option Answer) : (s.finish p a).stu = s.stu := by
  unfold State.finish; split <;> simp
@[simp] theorem State.finish_pxc (s : State) (p : Packet) (a : Option Answer) : (s.finish p a).pxc = s.pxc := by
  unfold State.finish; split <;> simp
@[simp] theorem State.finish_chc (s : State) (p : Packet) (a : Option Answer) : (s.finish p a).chc = s.chc := by
  unfold State.finish; split <;> simp
@[simp] theorem State.finish_sns (s : State) (p : Packet) (a : Option Answer) : (s.finish p a).sns = s.sns := by
  unfold State.finish; split <;> simp

/-! ### Chains -/

/-! ### `State.arbitrate` -/

@[simp] theorem State.arbitrate_pending (s : State) (k : ChainNo) : (s.arbitrate k).pending = s.pending := by
  unfold State.arbitrate; dsimp only
  split <;> [(split <;> [rfl; (split <;> [(split <;> rfl); rfl])]); rfl]
@[simp] theorem State.arbitrate_draws (s : State) (k : ChainNo) : (s.arbitrate k).draws = s.draws := by
  unfold State.arbitrate; dsimp only
  split <;> [(split <;> [rfl; (split <;> [(split <;> rfl); rfl])]); rfl]
@[simp] theorem State.arbitrate_clock (s : State) (k : ChainNo) : (s.arbitrate k).clock = s.clock := by
  unfold State.arbitrate; dsimp only
  split <;> [(split <;> [rfl; (split <;> [(split <;> rfl); rfl])]); rfl]
@[simp] theorem State.arbitrate_mem (s : State) (k : ChainNo) : (s.arbitrate k).mem = s.mem := by
  unfold State.arbitrate; dsimp only
  split <;> [(split <;> [rfl; (split <;> [(split <;> rfl); rfl])]); rfl]
@[simp] theorem State.arbitrate_lrx (s : State) (k : ChainNo) : (s.arbitrate k).lrx = s.lrx := by
  unfold State.arbitrate; dsimp only
  split <;> [(split <;> [rfl; (split <;> [(split <;> rfl); rfl])]); rfl]
@[simp] theorem State.arbitrate_ftu (s : State) (k : ChainNo) : (s.arbitrate k).ftu = s.ftu := by
  unfold State.arbitrate; dsimp only
  split <;> [(split <;> [rfl; (split <;> [(split <;> rfl); rfl])]); rfl]
@[simp] theorem State.arbitrate_cmd (s : State) (k : ChainNo) : (s.arbitrate k).cmd = s.cmd := by
  unfold State.arbitrate; dsimp only
  split <;> [(split <;> [rfl; (split <;> [(split <;> rfl); rfl])]); rfl]
@[simp] theorem State.arbitrate_tbs (s : State) (k : ChainNo) : (s.arbitrate k).tbs = s.tbs := by
  unfold State.arbitrate; dsimp only
  split <;> [(split <;> [rfl; (split <;> [(split <;> rfl); rfl])]); rfl]
@[simp] theorem State.arbitrate_stu (s : State) (k : ChainNo) : (s.arbitrate k).stu = s.stu := by
  unfold State.arbitrate; dsimp only
  split <;> [(split <;> [rfl; (split <;> [(split <;> rfl); rfl])]); rfl]
@[simp] theorem State.arbitrate_lvs (s : State) (k : ChainNo) : (s.arbitrate k).lvs = s.lvs := by
  unfold State.arbitrate; dsimp only
  split <;> [(split <;> [rfl; (split <;> [(split <;> rfl); rfl])]); rfl]
@[simp] theorem State.arbitrate_pxc (s : State) (k : ChainNo) : (s.arbitrate k).pxc = s.pxc := by
  unfold State.arbitrate; dsimp only
  split <;> [(split <;> [rfl; (split <;> [(split <;> rfl); rfl])]); rfl]
@[simp] theorem State.arbitrate_sns (s : State) (k : ChainNo) : (s.arbitrate k).sns = s.sns := by
  unfold State.arbitrate; dsimp only
  split <;> [(split <;> [rfl; (split <;> [(split <;> rfl); rfl])]); rfl]
@[simp] theorem State.arbitrate_mdc (s : State) (k : ChainNo) : (s.arbitrate k).mdc = s.mdc := by
  unfold State.arbitrate; dsimp only
  split <;> [(split <;> [rfl; (split <;> [(split <;> rfl); rfl])]); rfl]
@[simp] theorem State.arbitrate_rpu (s : State) (k : ChainNo) : (s.arbitrate k).rpu = s.rpu := by
  unfold State.arbitrate; dsimp only
  split <;> [(split <;> [rfl; (split <;> [(split <;> rfl); rfl])]); rfl]
@[simp] theorem State.arbitrate_imn (s : State) (k : ChainNo) : (s.arbitrate k).imn = s.imn := by
  unfold State.arbitrate; dsimp only
  split <;> [(split <;> [rfl; (split <;> [(split <;> rfl); rfl])]); rfl]

/-! ### `State.freeChain` -/

@[simp] theorem State.freeChain_pending (s : State) (k : ChainNo) : (s.freeChain k).pending = s.pending := by
  simp [State.freeChain]
@[simp] theorem State.freeChain_draws (s : State) (k : ChainNo) : (s.freeChain k).draws = s.draws := by
  simp [State.freeChain]
@[simp] theorem State.freeChain_clock (s : State) (k : ChainNo) : (s.freeChain k).clock = s.clock := by
  simp [State.freeChain]
@[simp] theorem State.freeChain_mem (s : State) (k : ChainNo) : (s.freeChain k).mem = s.mem := by
  simp [State.freeChain]
@[simp] theorem State.freeChain_lrx (s : State) (k : ChainNo) : (s.freeChain k).lrx = s.lrx := by
  simp [State.freeChain]
@[simp] theorem State.freeChain_ftu (s : State) (k : ChainNo) : (s.freeChain k).ftu = s.ftu := by
  simp [State.freeChain]
@[simp] theorem State.freeChain_cmd (s : State) (k : ChainNo) : (s.freeChain k).cmd = s.cmd := by
  simp [State.freeChain]
@[simp] theorem State.freeChain_tbs (s : State) (k : ChainNo) : (s.freeChain k).tbs = s.tbs := by
  simp [State.freeChain]
@[simp] theorem State.freeChain_stu (s : State) (k : ChainNo) : (s.freeChain k).stu = s.stu := by
  simp [State.freeChain]
@[simp] theorem State.freeChain_lvs (s : State) (k : ChainNo) : (s.freeChain k).lvs = s.lvs := by
  simp [State.freeChain]
@[simp] theorem State.freeChain_pxc (s : State) (k : ChainNo) : (s.freeChain k).pxc = s.pxc := by
  simp [State.freeChain]
@[simp] theorem State.freeChain_sns (s : State) (k : ChainNo) : (s.freeChain k).sns = s.sns := by
  simp [State.freeChain]
@[simp] theorem State.freeChain_mdc (s : State) (k : ChainNo) : (s.freeChain k).mdc = s.mdc := by
  simp [State.freeChain]
@[simp] theorem State.freeChain_rpu (s : State) (k : ChainNo) : (s.freeChain k).rpu = s.rpu := by
  simp [State.freeChain]
@[simp] theorem State.freeChain_imn (s : State) (k : ChainNo) : (s.freeChain k).imn = s.imn := by
  simp [State.freeChain]

/-! ### `State.latchFallsDue` -/

@[simp] theorem State.latchFallsDue_pending (s : State) (k : ChainNo) : (s.latchFallsDue k).pending = s.pending := by
  unfold State.latchFallsDue; dsimp only; split <;> simp
@[simp] theorem State.latchFallsDue_draws (s : State) (k : ChainNo) : (s.latchFallsDue k).draws = s.draws := by
  unfold State.latchFallsDue; dsimp only; split <;> simp
@[simp] theorem State.latchFallsDue_clock (s : State) (k : ChainNo) : (s.latchFallsDue k).clock = s.clock := by
  unfold State.latchFallsDue; dsimp only; split <;> simp
@[simp] theorem State.latchFallsDue_mem (s : State) (k : ChainNo) : (s.latchFallsDue k).mem = s.mem := by
  unfold State.latchFallsDue; dsimp only; split <;> simp
@[simp] theorem State.latchFallsDue_lrx (s : State) (k : ChainNo) : (s.latchFallsDue k).lrx = s.lrx := by
  unfold State.latchFallsDue; dsimp only; split <;> simp
@[simp] theorem State.latchFallsDue_ftu (s : State) (k : ChainNo) : (s.latchFallsDue k).ftu = s.ftu := by
  unfold State.latchFallsDue; dsimp only; split <;> simp
@[simp] theorem State.latchFallsDue_cmd (s : State) (k : ChainNo) : (s.latchFallsDue k).cmd = s.cmd := by
  unfold State.latchFallsDue; dsimp only; split <;> simp
@[simp] theorem State.latchFallsDue_tbs (s : State) (k : ChainNo) : (s.latchFallsDue k).tbs = s.tbs := by
  unfold State.latchFallsDue; dsimp only; split <;> simp
@[simp] theorem State.latchFallsDue_stu (s : State) (k : ChainNo) : (s.latchFallsDue k).stu = s.stu := by
  unfold State.latchFallsDue; dsimp only; split <;> simp
@[simp] theorem State.latchFallsDue_lvs (s : State) (k : ChainNo) : (s.latchFallsDue k).lvs = s.lvs := by
  unfold State.latchFallsDue; dsimp only; split <;> simp
@[simp] theorem State.latchFallsDue_pxc (s : State) (k : ChainNo) : (s.latchFallsDue k).pxc = s.pxc := by
  unfold State.latchFallsDue; dsimp only; split <;> simp
@[simp] theorem State.latchFallsDue_sns (s : State) (k : ChainNo) : (s.latchFallsDue k).sns = s.sns := by
  unfold State.latchFallsDue; dsimp only; split <;> simp
@[simp] theorem State.latchFallsDue_mdc (s : State) (k : ChainNo) : (s.latchFallsDue k).mdc = s.mdc := by
  unfold State.latchFallsDue; dsimp only; split <;> simp
@[simp] theorem State.latchFallsDue_rpu (s : State) (k : ChainNo) : (s.latchFallsDue k).rpu = s.rpu := by
  unfold State.latchFallsDue; dsimp only; split <;> simp
@[simp] theorem State.latchFallsDue_imn (s : State) (k : ChainNo) : (s.latchFallsDue k).imn = s.imn := by
  unfold State.latchFallsDue; dsimp only; split <;> simp

/-! ### `State.latchesFallDue` -/

@[simp] theorem State.latchesFallDue_pending (s : State) : (s.latchesFallDue).pending = s.pending := foldl_keeps State.pending _ State.latchFallsDue_pending _ s
@[simp] theorem State.latchesFallDue_draws (s : State) : (s.latchesFallDue).draws = s.draws := foldl_keeps State.draws _ State.latchFallsDue_draws _ s
@[simp] theorem State.latchesFallDue_clock (s : State) : (s.latchesFallDue).clock = s.clock := foldl_keeps State.clock _ State.latchFallsDue_clock _ s
@[simp] theorem State.latchesFallDue_mem (s : State) : (s.latchesFallDue).mem = s.mem := foldl_keeps State.mem _ State.latchFallsDue_mem _ s
@[simp] theorem State.latchesFallDue_lrx (s : State) : (s.latchesFallDue).lrx = s.lrx := foldl_keeps State.lrx _ State.latchFallsDue_lrx _ s
@[simp] theorem State.latchesFallDue_ftu (s : State) : (s.latchesFallDue).ftu = s.ftu := foldl_keeps State.ftu _ State.latchFallsDue_ftu _ s
@[simp] theorem State.latchesFallDue_cmd (s : State) : (s.latchesFallDue).cmd = s.cmd := foldl_keeps State.cmd _ State.latchFallsDue_cmd _ s
@[simp] theorem State.latchesFallDue_tbs (s : State) : (s.latchesFallDue).tbs = s.tbs := foldl_keeps State.tbs _ State.latchFallsDue_tbs _ s
@[simp] theorem State.latchesFallDue_stu (s : State) : (s.latchesFallDue).stu = s.stu := foldl_keeps State.stu _ State.latchFallsDue_stu _ s
@[simp] theorem State.latchesFallDue_lvs (s : State) : (s.latchesFallDue).lvs = s.lvs := foldl_keeps State.lvs _ State.latchFallsDue_lvs _ s
@[simp] theorem State.latchesFallDue_pxc (s : State) : (s.latchesFallDue).pxc = s.pxc := foldl_keeps State.pxc _ State.latchFallsDue_pxc _ s
@[simp] theorem State.latchesFallDue_sns (s : State) : (s.latchesFallDue).sns = s.sns := foldl_keeps State.sns _ State.latchFallsDue_sns _ s
@[simp] theorem State.latchesFallDue_mdc (s : State) : (s.latchesFallDue).mdc = s.mdc := foldl_keeps State.mdc _ State.latchFallsDue_mdc _ s
@[simp] theorem State.latchesFallDue_rpu (s : State) : (s.latchesFallDue).rpu = s.rpu := foldl_keeps State.rpu _ State.latchFallsDue_rpu _ s
@[simp] theorem State.latchesFallDue_imn (s : State) : (s.latchesFallDue).imn = s.imn := foldl_keeps State.imn _ State.latchFallsDue_imn _ s

/-! ### `State.handOff` -/

@[simp] theorem State.handOff_pending (s : State) (l : LevelSet) : (s.handOff l).pending = s.pending := foldl_keeps State.pending _ (fun s k => by simp) _ s
@[simp] theorem State.handOff_draws (s : State) (l : LevelSet) : (s.handOff l).draws = s.draws := foldl_keeps State.draws _ (fun s k => by simp) _ s
@[simp] theorem State.handOff_clock (s : State) (l : LevelSet) : (s.handOff l).clock = s.clock := foldl_keeps State.clock _ (fun s k => by simp) _ s
@[simp] theorem State.handOff_mem (s : State) (l : LevelSet) : (s.handOff l).mem = s.mem := foldl_keeps State.mem _ (fun s k => by simp) _ s
@[simp] theorem State.handOff_lrx (s : State) (l : LevelSet) : (s.handOff l).lrx = s.lrx := foldl_keeps State.lrx _ (fun s k => by simp) _ s
@[simp] theorem State.handOff_ftu (s : State) (l : LevelSet) : (s.handOff l).ftu = s.ftu := foldl_keeps State.ftu _ (fun s k => by simp) _ s
@[simp] theorem State.handOff_cmd (s : State) (l : LevelSet) : (s.handOff l).cmd = s.cmd := foldl_keeps State.cmd _ (fun s k => by simp) _ s
@[simp] theorem State.handOff_tbs (s : State) (l : LevelSet) : (s.handOff l).tbs = s.tbs := foldl_keeps State.tbs _ (fun s k => by simp) _ s
@[simp] theorem State.handOff_stu (s : State) (l : LevelSet) : (s.handOff l).stu = s.stu := foldl_keeps State.stu _ (fun s k => by simp) _ s
@[simp] theorem State.handOff_lvs (s : State) (l : LevelSet) : (s.handOff l).lvs = s.lvs := foldl_keeps State.lvs _ (fun s k => by simp) _ s
@[simp] theorem State.handOff_pxc (s : State) (l : LevelSet) : (s.handOff l).pxc = s.pxc := foldl_keeps State.pxc _ (fun s k => by simp) _ s
@[simp] theorem State.handOff_sns (s : State) (l : LevelSet) : (s.handOff l).sns = s.sns := foldl_keeps State.sns _ (fun s k => by simp) _ s
@[simp] theorem State.handOff_mdc (s : State) (l : LevelSet) : (s.handOff l).mdc = s.mdc := foldl_keeps State.mdc _ (fun s k => by simp) _ s
@[simp] theorem State.handOff_rpu (s : State) (l : LevelSet) : (s.handOff l).rpu = s.rpu := foldl_keeps State.rpu _ (fun s k => by simp) _ s
@[simp] theorem State.handOff_imn (s : State) (l : LevelSet) : (s.handOff l).imn = s.imn := foldl_keeps State.imn _ (fun s k => by simp) _ s

/-! ### `State.latchesOfLine` -/

@[simp] theorem State.latchesOfLine_pending (s : State) (n : Nat) : (s.latchesOfLine n).pending = s.pending := foldl_keeps State.pending _ State.latchFallsDue_pending _ s
@[simp] theorem State.latchesOfLine_draws (s : State) (n : Nat) : (s.latchesOfLine n).draws = s.draws := foldl_keeps State.draws _ State.latchFallsDue_draws _ s
@[simp] theorem State.latchesOfLine_clock (s : State) (n : Nat) : (s.latchesOfLine n).clock = s.clock := foldl_keeps State.clock _ State.latchFallsDue_clock _ s
@[simp] theorem State.latchesOfLine_mem (s : State) (n : Nat) : (s.latchesOfLine n).mem = s.mem := foldl_keeps State.mem _ State.latchFallsDue_mem _ s
@[simp] theorem State.latchesOfLine_lrx (s : State) (n : Nat) : (s.latchesOfLine n).lrx = s.lrx := foldl_keeps State.lrx _ State.latchFallsDue_lrx _ s
@[simp] theorem State.latchesOfLine_ftu (s : State) (n : Nat) : (s.latchesOfLine n).ftu = s.ftu := foldl_keeps State.ftu _ State.latchFallsDue_ftu _ s
@[simp] theorem State.latchesOfLine_cmd (s : State) (n : Nat) : (s.latchesOfLine n).cmd = s.cmd := foldl_keeps State.cmd _ State.latchFallsDue_cmd _ s
@[simp] theorem State.latchesOfLine_tbs (s : State) (n : Nat) : (s.latchesOfLine n).tbs = s.tbs := foldl_keeps State.tbs _ State.latchFallsDue_tbs _ s
@[simp] theorem State.latchesOfLine_stu (s : State) (n : Nat) : (s.latchesOfLine n).stu = s.stu := foldl_keeps State.stu _ State.latchFallsDue_stu _ s
@[simp] theorem State.latchesOfLine_lvs (s : State) (n : Nat) : (s.latchesOfLine n).lvs = s.lvs := foldl_keeps State.lvs _ State.latchFallsDue_lvs _ s
@[simp] theorem State.latchesOfLine_pxc (s : State) (n : Nat) : (s.latchesOfLine n).pxc = s.pxc := foldl_keeps State.pxc _ State.latchFallsDue_pxc _ s
@[simp] theorem State.latchesOfLine_sns (s : State) (n : Nat) : (s.latchesOfLine n).sns = s.sns := foldl_keeps State.sns _ State.latchFallsDue_sns _ s
@[simp] theorem State.latchesOfLine_mdc (s : State) (n : Nat) : (s.latchesOfLine n).mdc = s.mdc := foldl_keeps State.mdc _ State.latchFallsDue_mdc _ s
@[simp] theorem State.latchesOfLine_rpu (s : State) (n : Nat) : (s.latchesOfLine n).rpu = s.rpu := foldl_keeps State.rpu _ State.latchFallsDue_rpu _ s
@[simp] theorem State.latchesOfLine_imn (s : State) (n : Nat) : (s.latchesOfLine n).imn = s.imn := foldl_keeps State.imn _ State.latchFallsDue_imn _ s

/-! ### `State.standbyChains` -/

@[simp] theorem State.standbyChains_pending (s : State) : (s.standbyChains).pending = s.pending := foldl_keeps State.pending _ (fun s k => by simp) _ s
@[simp] theorem State.standbyChains_draws (s : State) : (s.standbyChains).draws = s.draws := foldl_keeps State.draws _ (fun s k => by simp) _ s
@[simp] theorem State.standbyChains_clock (s : State) : (s.standbyChains).clock = s.clock := foldl_keeps State.clock _ (fun s k => by simp) _ s
@[simp] theorem State.standbyChains_mem (s : State) : (s.standbyChains).mem = s.mem := foldl_keeps State.mem _ (fun s k => by simp) _ s
@[simp] theorem State.standbyChains_lrx (s : State) : (s.standbyChains).lrx = s.lrx := foldl_keeps State.lrx _ (fun s k => by simp) _ s
@[simp] theorem State.standbyChains_ftu (s : State) : (s.standbyChains).ftu = s.ftu := foldl_keeps State.ftu _ (fun s k => by simp) _ s
@[simp] theorem State.standbyChains_cmd (s : State) : (s.standbyChains).cmd = s.cmd := foldl_keeps State.cmd _ (fun s k => by simp) _ s
@[simp] theorem State.standbyChains_tbs (s : State) : (s.standbyChains).tbs = s.tbs := foldl_keeps State.tbs _ (fun s k => by simp) _ s
@[simp] theorem State.standbyChains_stu (s : State) : (s.standbyChains).stu = s.stu := foldl_keeps State.stu _ (fun s k => by simp) _ s
@[simp] theorem State.standbyChains_lvs (s : State) : (s.standbyChains).lvs = s.lvs := foldl_keeps State.lvs _ (fun s k => by simp) _ s
@[simp] theorem State.standbyChains_pxc (s : State) : (s.standbyChains).pxc = s.pxc := foldl_keeps State.pxc _ (fun s k => by simp) _ s
@[simp] theorem State.standbyChains_sns (s : State) : (s.standbyChains).sns = s.sns := foldl_keeps State.sns _ (fun s k => by simp) _ s
@[simp] theorem State.standbyChains_mdc (s : State) : (s.standbyChains).mdc = s.mdc := foldl_keeps State.mdc _ (fun s k => by simp) _ s
@[simp] theorem State.standbyChains_rpu (s : State) : (s.standbyChains).rpu = s.rpu := foldl_keeps State.rpu _ (fun s k => by simp) _ s
@[simp] theorem State.standbyChains_imn (s : State) : (s.standbyChains).imn = s.imn := foldl_keeps State.imn _ (fun s k => by simp) _ s

/-! ### `State.zeroZoneWords` -/

@[simp] theorem State.zeroZoneWords_pending (s : State) (places : List Nat) : (s.zeroZoneWords places).pending = s.pending := rfl
@[simp] theorem State.zeroZoneWords_draws (s : State) (places : List Nat) : (s.zeroZoneWords places).draws = s.draws := rfl
@[simp] theorem State.zeroZoneWords_clock (s : State) (places : List Nat) : (s.zeroZoneWords places).clock = s.clock := rfl
@[simp] theorem State.zeroZoneWords_lrx (s : State) (places : List Nat) : (s.zeroZoneWords places).lrx = s.lrx := rfl
@[simp] theorem State.zeroZoneWords_ftu (s : State) (places : List Nat) : (s.zeroZoneWords places).ftu = s.ftu := rfl
@[simp] theorem State.zeroZoneWords_cmd (s : State) (places : List Nat) : (s.zeroZoneWords places).cmd = s.cmd := rfl
@[simp] theorem State.zeroZoneWords_tbs (s : State) (places : List Nat) : (s.zeroZoneWords places).tbs = s.tbs := rfl
@[simp] theorem State.zeroZoneWords_stu (s : State) (places : List Nat) : (s.zeroZoneWords places).stu = s.stu := rfl
@[simp] theorem State.zeroZoneWords_lvs (s : State) (places : List Nat) : (s.zeroZoneWords places).lvs = s.lvs := rfl
@[simp] theorem State.zeroZoneWords_pxc (s : State) (places : List Nat) : (s.zeroZoneWords places).pxc = s.pxc := rfl
@[simp] theorem State.zeroZoneWords_chc (s : State) (places : List Nat) : (s.zeroZoneWords places).chc = s.chc := rfl
@[simp] theorem State.zeroZoneWords_sns (s : State) (places : List Nat) : (s.zeroZoneWords places).sns = s.sns := rfl
@[simp] theorem State.zeroZoneWords_mdc (s : State) (places : List Nat) : (s.zeroZoneWords places).mdc = s.mdc := rfl
@[simp] theorem State.zeroZoneWords_rpu (s : State) (places : List Nat) : (s.zeroZoneWords places).rpu = s.rpu := rfl

/-! ### `State.writeZone` -/

@[simp] theorem State.writeZone_pending (s : State) (v : Solve) (l : ZoneLevel) (z : Nat) : (s.writeZone v l z).pending = s.pending := rfl
@[simp] theorem State.writeZone_draws (s : State) (v : Solve) (l : ZoneLevel) (z : Nat) : (s.writeZone v l z).draws = s.draws := rfl
@[simp] theorem State.writeZone_clock (s : State) (v : Solve) (l : ZoneLevel) (z : Nat) : (s.writeZone v l z).clock = s.clock := rfl
@[simp] theorem State.writeZone_lrx (s : State) (v : Solve) (l : ZoneLevel) (z : Nat) : (s.writeZone v l z).lrx = s.lrx := rfl
@[simp] theorem State.writeZone_ftu (s : State) (v : Solve) (l : ZoneLevel) (z : Nat) : (s.writeZone v l z).ftu = s.ftu := rfl
@[simp] theorem State.writeZone_cmd (s : State) (v : Solve) (l : ZoneLevel) (z : Nat) : (s.writeZone v l z).cmd = s.cmd := rfl
@[simp] theorem State.writeZone_tbs (s : State) (v : Solve) (l : ZoneLevel) (z : Nat) : (s.writeZone v l z).tbs = s.tbs := rfl
@[simp] theorem State.writeZone_stu (s : State) (v : Solve) (l : ZoneLevel) (z : Nat) : (s.writeZone v l z).stu = s.stu := rfl
@[simp] theorem State.writeZone_lvs (s : State) (v : Solve) (l : ZoneLevel) (z : Nat) : (s.writeZone v l z).lvs = s.lvs := rfl
@[simp] theorem State.writeZone_pxc (s : State) (v : Solve) (l : ZoneLevel) (z : Nat) : (s.writeZone v l z).pxc = s.pxc := rfl
@[simp] theorem State.writeZone_chc (s : State) (v : Solve) (l : ZoneLevel) (z : Nat) : (s.writeZone v l z).chc = s.chc := rfl
@[simp] theorem State.writeZone_sns (s : State) (v : Solve) (l : ZoneLevel) (z : Nat) : (s.writeZone v l z).sns = s.sns := rfl
@[simp] theorem State.writeZone_mdc (s : State) (v : Solve) (l : ZoneLevel) (z : Nat) : (s.writeZone v l z).mdc = s.mdc := rfl
@[simp] theorem State.writeZone_rpu (s : State) (v : Solve) (l : ZoneLevel) (z : Nat) : (s.writeZone v l z).rpu = s.rpu := rfl

/-! ### `Lvs.keepDark`, `Solve.withMarks` -/

@[simp] theorem Lvs.keepDark_reseed (l : Lvs) (zones : List Nat) : (l.keepDark zones).reseed = l.reseed := rfl
@[simp] theorem Lvs.keepDark_gprev (l : Lvs) (zones : List Nat) : (l.keepDark zones).gprev = l.gprev := rfl
@[simp] theorem Lvs.keepDark_lockJump (l : Lvs) (zones : List Nat) : (l.keepDark zones).lockJump = l.lockJump := rfl
@[simp] theorem Lvs.keepDark_lastSet (l : Lvs) (zones : List Nat) : (l.keepDark zones).lastSet = l.lastSet := rfl
@[simp] theorem Lvs.keepDark_k (l : Lvs) (zones : List Nat) : (l.keepDark zones).k = l.k := rfl
@[simp] theorem Lvs.keepDark_demand (l : Lvs) (zones : List Nat) : (l.keepDark zones).demand = l.demand := rfl
@[simp] theorem Lvs.keepDark_maxL4 (l : Lvs) (zones : List Nat) : (l.keepDark zones).maxL4 = l.maxL4 := rfl
@[simp] theorem Lvs.keepDark_outcome (l : Lvs) (zones : List Nat) : (l.keepDark zones).outcome = l.outcome := rfl
@[simp] theorem Lvs.keepDark_unlit (l : Lvs) (zones : List Nat) :
    (l.keepDark zones).unlit = sparseMark l.unlit zones := rfl
@[simp] theorem Lvs.keepDark_nil (l : Lvs) : l.keepDark [] = l := by
  cases l
  simp [Lvs.keepDark, sparseMark]

@[simp] theorem Solve.withMarks_tag (v : Solve) (m : Sparse Bool) : (v.withMarks m).tag = v.tag := rfl
@[simp] theorem Solve.withMarks_startedAt (v : Solve) (m : Sparse Bool) : (v.withMarks m).startedAt = v.startedAt := rfl
@[simp] theorem Solve.withMarks_dueAt (v : Solve) (m : Sparse Bool) : (v.withMarks m).dueAt = v.dueAt := rfl
@[simp] theorem Solve.withMarks_tables (v : Solve) (m : Sparse Bool) : (v.withMarks m).tables = v.tables := rfl
@[simp] theorem Solve.withMarks_grid (v : Solve) (m : Sparse Bool) : (v.withMarks m).grid = v.grid := rfl
@[simp] theorem Solve.withMarks_stats (v : Solve) (m : Sparse Bool) : (v.withMarks m).stats = v.stats := rfl
@[simp] theorem Solve.withMarks_mean (v : Solve) (m : Sparse Bool) : (v.withMarks m).mean = v.mean := rfl
@[simp] theorem Solve.withMarks_thermal (v : Solve) (m : Sparse Bool) : (v.withMarks m).thermal = v.thermal := rfl
@[simp] theorem Solve.withMarks_foldback (v : Solve) (m : Sparse Bool) : (v.withMarks m).foldback = v.foldback := rfl
@[simp] theorem Solve.withMarks_latches (v : Solve) (m : Sparse Bool) : (v.withMarks m).latches = v.latches := rfl
@[simp] theorem Solve.withMarks_source (v : Solve) (m : Sparse Bool) : (v.withMarks m).source = v.source := rfl
@[simp] theorem Solve.withMarks_lockJump (v : Solve) (m : Sparse Bool) : (v.withMarks m).lockJump = v.lockJump := rfl
@[simp] theorem Solve.withMarks_sceneCut (v : Solve) (m : Sparse Bool) : (v.withMarks m).sceneCut = v.sceneCut := rfl
@[simp] theorem Solve.withMarks_prevF (v : Solve) (m : Sparse Bool) : (v.withMarks m).prevF = v.prevF := rfl
@[simp] theorem Solve.withMarks_unlit (v : Solve) (m : Sparse Bool) : (v.withMarks m).unlit = v.unlit := rfl
@[simp] theorem Solve.withMarks_setsGprev (v : Solve) (m : Sparse Bool) : (v.withMarks m).setsGprev = v.setsGprev := rfl
@[simp] theorem Solve.withMarks_reseed (v : Solve) (m : Sparse Bool) : (v.withMarks m).reseed = m := rfl
@[simp] theorem Solve.withMarks_setting (v : Solve) (m : Sparse Bool) (i : Nat) :
    (v.withMarks m).setting i = v.setting i := rfl
@[simp] theorem Solve.withMarks_entry (v : Solve) (m : Sparse Bool) (z : Nat) :
    (v.withMarks m).entry z = v.entry z := rfl
@[simp] theorem Solve.withMarks_processes (v : Solve) (m : Sparse Bool) (z : Nat) :
    (v.withMarks m).processes z = v.processes z := rfl
@[simp] theorem Solve.withMarks_processed (v : Solve) (m : Sparse Bool) :
    (v.withMarks m).processed = v.processed := rfl
@[simp] theorem Solve.withMarks_target (v : Solve) (m : Sparse Bool) (z : Nat) :
    (v.withMarks m).target z = v.target z := rfl
@[simp] theorem Solve.withMarks_self (v : Solve) : v.withMarks v.reseed = v := rfl

end Sys2Proof.Machine
end

