-- ==== Sys2Proof/Laws/Ops.lean ====
section
/-! SUPPORT. What the shared operations do, said once for each: reads through the integrity monitor, the return lane and
the reply queue, the end of a command, the arbiter of a chain. -/

namespace Sys2Proof.Laws

open Sys2Proof.Machine

/-! ## Reads through the integrity monitor -/

theorem verdict_of_quiet (s : State) (h : s.quiet) (a : Nat) : s.verdict a = none := by
  simp [State.verdict, h.1, h.2]

/-- A read of a clean word changes nothing. -/
theorem readWord_of_clean (s : State) (a : Nat) (h : s.cleanAt a) : s.readWord a = s := by
  unfold State.cleanAt at h
  unfold State.readWord
  simp only [h]

/-- A read of a corrected word: its mark and its error are gone, it is counted and logged. -/
theorem readWord_of_corrected (s : State) (a : Nat) (h : s.verdict a = some .corrected) :
    s.readWord a =
      ((({ s with imn := { s.imn with marks := sparsePut (fun _ => none) s.imn.marks a none } }).writeWord a
        (s.mem.word a)).count .corrected 1).logError a .corrected := by
  unfold State.readWord
  simp only [h]

/-- A read of clean words changes nothing. -/
theorem readRange_of_clean (s : State) (lo n : Nat) (h : ∀ i < n, s.cleanAt (lo + i)) : s.readRange lo n = s := by
  unfold State.readRange
  have : (List.range n).filter (fun i => (s.verdict (lo + i)).isSome) = [] := by
    rw [List.filter_eq_nil_iff]
    intro i hi
    rw [h i (List.mem_range.1 hi)]
    simp
  rw [this]
  rfl

theorem readSetting_of_clean (s : State) (i : Nat) (h : s.cleanSetting i) : s.readSetting i = s := by
  refine readRange_of_clean s _ _ fun j hj => ?_
  rcases j with _ | _ | j
  · exact h.1
  · have := h.2
    unfold wordKey at this ⊢
    simpa [Nat.add_assoc] using this
  · omega

theorem cleanSetting_of_quiet (s : State) (h : s.quiet) (i : Nat) : s.cleanSetting i :=
  ⟨verdict_of_quiet s h _, verdict_of_quiet s h _⟩

theorem readRange_of_quiet (s : State) (h : s.quiet) (lo n : Nat) : s.readRange lo n = s :=
  readRange_of_clean s lo n fun _ _ => verdict_of_quiet s h _

theorem readSetting_of_quiet (s : State) (h : s.quiet) (i : Nat) : s.readSetting i = s :=
  readSetting_of_clean s i (cleanSetting_of_quiet s h i)

theorem readSettings_of_quiet (s : State) (h : s.quiet) (is : List Nat) : s.readSettings is = s := by
  induction is with
  | nil => rfl
  | cons i is ih =>
    show (is.foldl State.readSetting (s.readSetting i)) = s
    rw [readSetting_of_quiet s h]
    exact ih

theorem readWhilePending_of_quiet (s : State) (h : s.quiet) (lo n : Nat) : s.readWhilePending lo n = s := by
  unfold State.readWhilePending
  have : (List.range n).filter (fun i => (s.verdict (lo + i)).isSome) = [] := by
    rw [List.filter_eq_nil_iff]
    intro i _
    simp [verdict_of_quiet s h]
  rw [this]
  rfl

/-- A commit copy finds nothing where no error waits. -/
theorem readOverwritten_of_quiet (s : State) (h : s.quiet) (t : Nat) : s.readOverwritten t = s := by
  unfold State.readOverwritten
  simp [verdict_of_quiet s h]

theorem readTables_of_quiet (s : State) (h : s.quiet) : s.readTables = s := by
  simp [State.readTables, readRange_of_quiet s h]

theorem readFilters_of_quiet (s : State) (h : s.quiet) : s.readFilters = s := by
  unfold State.readFilters
  dsimp only
  generalize ((List.range _).filter _) = l
  induction l with
  | nil => rfl
  | cons z l ih =>
    rw [List.foldl_cons, readWord_of_clean s _ (verdict_of_quiet s h _)]
    exact ih

/-- Writing words leaves a quiet part quiet. -/
theorem quiet_writeWord (s : State) (a : Nat) (v : Word) (h : s.quiet) : (s.writeWord a v).quiet :=
  ⟨h.1, by
    show sparsePut (fun _ => none) s.imn.upsets a none = []
    rw [h.2]
    rfl⟩

theorem quiet_zeroZoneWords (s : State) (places : List Nat) (h : s.quiet) : (s.zeroZoneWords places).quiet :=
  ⟨h.1, by
    show sparseClear _ s.imn.upsets = []
    rw [h.2]
    rfl⟩

/-! ## The return lane and the reply queue -/

/-- The lane's choice moves no reply out of its order. -/
@[simp] theorem sendNext_outgoing (s : State) : s.sendNext.cmd.outgoing = s.cmd.outgoing := by
  unfold State.sendNext
  split
  · rfl
  · next hl =>
    split
    · simp [Cmd.outgoing, hl]
    · split
      · next hf => simp [Cmd.outgoing, hl, hf]
      · rfl

@[simp] theorem sendNext_owed (s : State) : s.sendNext.cmd.owed = s.cmd.owed := by
  unfold State.sendNext
  split <;> [rfl; (split <;> [rfl; (split <;> rfl)])]

@[simp] theorem sendNext_inFlight (s : State) : s.sendNext.cmd.inFlight = s.cmd.inFlight := by
  unfold State.sendNext
  split <;> [rfl; (split <;> [rfl; (split <;> rfl)])]

@[simp] theorem sendNext_queue (s : State) : s.sendNext.cmd.queue = s.cmd.queue := by
  unfold State.sendNext
  split <;> [rfl; (split <;> [rfl; (split <;> rfl)])]

@[simp] theorem takeNext_outgoing (s : State) : s.takeNext.cmd.outgoing = s.cmd.outgoing := by
  unfold State.takeNext
  split <;> [(split <;> rfl); rfl]

@[simp] theorem takeNext_owed (s : State) : s.takeNext.cmd.owed = s.cmd.owed := by
  unfold State.takeNext
  split <;> [(split <;> rfl); rfl]

@[simp] theorem takeNext_filled (s : State) : s.takeNext.cmd.filled = s.cmd.filled := by
  unfold State.takeNext
  split <;> [(split <;> rfl); rfl]

@[simp] theorem takeNext_lane (s : State) : s.takeNext.cmd.lane = s.cmd.lane := by
  unfold State.takeNext
  split <;> [(split <;> rfl); rfl]

@[simp] theorem pump_outgoing (s : State) : s.pump.cmd.outgoing = s.cmd.outgoing := by
  unfold State.pump; rw [takeNext_outgoing, sendNext_outgoing]

@[simp] theorem pump_owed (s : State) : s.pump.cmd.owed = s.cmd.owed := by
  unfold State.pump; rw [takeNext_owed, sendNext_owed]

/-- What the command unit's look at its queue can do: nothing, or take the oldest packet. -/
theorem takeNext_cases (s : State) (h : s.cmd.inFlight = none) :
    (s.takeNext.cmd.inFlight = none ∧ s.takeNext.cmd.queue = s.cmd.queue) ∨
      ∃ q, s.takeNext.cmd.inFlight = some ⟨q, q.reserves⟩ ∧ s.cmd.queue = q :: s.takeNext.cmd.queue := by
  unfold State.takeNext
  split
  · next q rest _ hq =>
    split
    · exact .inr ⟨q, rfl, hq⟩
    · exact .inl ⟨h, rfl⟩
  · exact .inl ⟨h, rfl⟩

theorem pump_cases (s : State) (h : s.cmd.inFlight = none) :
    (s.pump.cmd.inFlight = none ∧ s.pump.cmd.queue = s.cmd.queue) ∨
      ∃ q, s.pump.cmd.inFlight = some ⟨q, q.reserves⟩ ∧ s.cmd.queue = q :: s.pump.cmd.queue := by
  have := takeNext_cases s.sendNext (by simpa using h)
  simpa [State.pump] using this

/-- The lane and the command unit touch the command unit and the report slot alone. -/
theorem pump_kept (s : State) (c : Cmd) (x : Option FrameReport) :
    { s.pump with cmd := c, rpu := { s.pump.rpu with slot := x } } =
      { s with cmd := c, rpu := { s.rpu with slot := x } } := by
  unfold State.pump State.takeNext
  have hs : { s.sendNext with cmd := c, rpu := { s.sendNext.rpu with slot := x } } =
      { s with cmd := c, rpu := { s.rpu with slot := x } } := by
    unfold State.sendNext
    split <;> [rfl; (split <;> [rfl; (split <;> rfl)])]
  split
  · split
    · exact hs
    · exact hs
  · exact hs

/-- Filling a reply while DEVICE_TAG is clean changes the filled list alone. -/
theorem fill_of_clean (s : State) (h : s.cleanSetting Config.deviceTag) (seq code : Byte) (r : Result) (why : Reason)
    (final : Bool) (data : List Word) :
    s.fill seq code r why final data =
      { s with cmd := { s.cmd with filled := s.cmd.filled ++ [⟨s.tag, seq, code, r, why, final, data⟩] } } := by
  unfold State.fill
  rw [readSetting_of_clean s _ h]

/-- Filling a reply puts it behind the outgoing ones, with the tag of the state after. -/
theorem fill_outgoing (s : State) (seq code : Byte) (r : Result) (why : Reason) (final : Bool) (data : List Word) :
    (s.fill seq code r why final data).cmd.outgoing =
      s.cmd.outgoing ++ [⟨(s.fill seq code r why final data).tag, seq, code, r, why, final, data⟩] := by
  simp [State.fill, Cmd.outgoing, State.tag]

@[simp] theorem fill_owed (s : State) (seq code : Byte) (r : Result) (why : Reason) (final : Bool)
    (data : List Word) : (s.fill seq code r why final data).cmd.owed = s.cmd.owed := by
  simp [State.fill]

/-- A command that changed the state from `s` to `u` and answers `r` ends: it is answered. -/
theorem finish_answered (s u : State) (p : Packet) (r : Result) (data : List Word)
    (ho : u.cmd.outgoing = s.cmd.outgoing) (hw : u.cmd.owed = s.cmd.owed) (hq : u.cmd.queue = s.cmd.queue) :
    s.answered (u.finish p (some ⟨r, .none, true, data⟩)) p r data := by
  unfold State.finish State.answered State.replied State.answer
  by_cases hb : p.broadcast
  · simp only [hb, if_true]
    refine ⟨⟨(pump_outgoing _).trans (ho.trans (List.append_nil _).symm), (pump_owed _).trans hw⟩, ?_⟩
    unfold State.tookNext
    have := pump_cases u.release rfl
    rw [show u.release.cmd.queue = s.cmd.queue from hq] at this
    exact this
  · simp only [Bool.not_eq_true] at hb
    simp only [hb]
    have hf : ∀ v : State, v.cmd.inFlight = none → v.cmd.queue = s.cmd.queue →
        (v.fill p.seq p.code r .none true data).cmd.inFlight = none ∧
          (v.fill p.seq p.code r .none true data).cmd.queue = s.cmd.queue := by
      intro v h1 h2
      simp [State.fill, h1, h2]
    have hr := hf u.release rfl hq
    refine ⟨⟨?_, ?_⟩, ?_⟩
    · simp only [pump_outgoing]
      rw [show (if false = true then u.release else u.release.fill p.seq p.code r .none true data) =
        u.release.fill p.seq p.code r .none true data from rfl, fill_outgoing]
      simp only [replyTo, State.tag, State.pump_mem]
      rw [show u.release.cmd.outgoing = s.cmd.outgoing from ho]
      rfl
    · exact (pump_owed _).trans ((fill_owed _ _ _ _ _ _ _).trans hw)
    · unfold State.tookNext
      have := pump_cases (u.release.fill p.seq p.code r .none true data) hr.1
      rw [hr.2] at this
      simpa using this

/-- The end of a command with a clean DEVICE_TAG changes the command unit and the report slot alone. -/
theorem finish_kept (u : State) (p : Packet) (a : Option Answer) (h : u.cleanSetting Config.deviceTag) (c : Cmd)
    (x : Option FrameReport) :
    { u.finish p a with cmd := c, rpu := { (u.finish p a).rpu with slot := x } } =
      { u with cmd := c, rpu := { u.rpu with slot := x } } := by
  unfold State.finish
  cases a with
  | none => exact pump_kept _ c x
  | some a =>
    simp only
    rw [pump_kept]
    unfold State.answer
    split
    · rfl
    · rw [fill_of_clean u.release h]
      rfl

/-- What a command row does when the packet in flight carries its code. -/
theorem execute_runs (s : State) (p : Packet) (code : Byte) (silent : Bool) (accepts : Nat → Bool)
    (body : Packet → State → State × Option Answer) (h : s.executing p) (hc : p.code = code) :
    s.execute code silent accepts body =
      if silent && p.broadcast then s.finish p none
      else if accepts p.payload.length then (body p s).1.finish p (body p s).2
      else s.finish p (some (.plain .badLength)) := by
  have hf : s.flying code = some p := by
    unfold State.executing at h
    unfold State.flying
    rw [h]
    simp [hc]
  unfold State.execute
  rw [hf]

/-! ## The arbiter -/

/-- The arbiter of a chain touches that chain's record and the pass-through queue alone. -/
theorem arbitrate_kept (s : State) (k : ChainNo) :
    { s.arbitrate k with chc := { (s.arbitrate k).chc with chains := s.chc.chains, passQueue := s.chc.passQueue } } =
      s := by
  unfold State.arbitrate State.setChain
  dsimp only
  split
  · split
    · rfl
    · split
      · split <;> rfl
      · rfl
  · rfl

theorem arbitrate_other (s : State) (k j : ChainNo) (h : j ≠ k) :
    (s.arbitrate k).chc.chains[j] = s.chc.chains[j] := by
  have hv : k.val ≠ j.val := fun e => h (Fin.ext e).symm
  unfold State.arbitrate State.setChain
  dsimp only
  split
  · split
    · simp [Vector.getElem_set_ne, hv]
    · split
      · split <;> simp [Vector.getElem_set_ne, hv]
      · rfl
  · rfl

/-- A chain that sends something is left to it. -/
theorem arbitrate_busy (s : State) (k : ChainNo) (h : s.chc.chains[k].isIdle = false) : s.arbitrate k = s := by
  unfold State.arbitrate
  simp only [h, Bool.false_eq_true, if_false]

/-- A due latch goes first. -/
theorem arbitrate_latch (s : State) (k : ChainNo) (f : Dword) (h : s.chc.chains[k].isIdle = true)
    (hl : s.chc.chains[k].latchDue = some f) :
    s.arbitrate k = s.setChain k ({ s.chc.chains[k] with latchDue := none }.sending (.latch (some f)) latchMessage) := by
  unfold State.arbitrate
  simp only [h, if_true, hl]

/-- An IDLE chain with no latch due starts what its record lets start. -/
theorem arbitrate_next (s : State) (k : ChainNo) (h : s.chc.chains[k].isIdle = true)
    (hl : s.chc.chains[k].latchDue = none) :
    s.arbitrate k =
      match s.chc.chains[k].next (s.chc.passQueue.find? (fun e => e.chain == k)) with
      | some c =>
        if c.activity = .passRequest then
          { s.setChain k c with chc := { (s.setChain k c).chc with passQueue := startPass k s.chc.passQueue } }
        else s.setChain k c
      | none => s := by
  unfold State.arbitrate
  simp only [h, if_true, hl]
  split
  · next hn => simp only [hn]; rfl
  · next hn => simp only [hn]

/-- A chain that is IDLE is IDLE by its activity. -/
theorem isIdle_iff (c : ChainRec) : c.isIdle = true ↔ c.activity = .idle := by
  unfold ChainRec.isIdle
  split <;> simp_all

/-! ## The over-temperature hold -/

/-- The hold stands exactly while some device record of the chain has its flag set. -/
theorem heldNow_iff (c : Chc) (k : ChainNo) :
    c.heldNow k = true ↔ ∃ i < 24, (c.device (24 * k.val + i)).overTemp = true := by
  simp [Chc.heldNow, deviceKey, Config.devicesPerChain]

/-! ## Fault latches -/

/-- The listed zones are exactly the covered ones whose latch is set. -/
theorem mem_faultyZones (c : Chc) (covered : Nat → Bool) (z : Nat) :
    z ∈ c.faultyZones covered ↔ covered z = true ∧ c.latch z ≠ .clear := by
  have hm : c.latch z ≠ .clear → z ∈ c.latches.map Prod.fst := by
    intro h
    by_contra hn
    refine h (sparseGet_of_not_mem _ _ _ ?_)
    rintro e he rfl
    exact hn (List.mem_map_of_mem he)
  unfold Chc.faultyZones
  rw [List.mem_filter]
  simp only [Bool.and_eq_true, decide_eq_true_eq]
  exact ⟨fun h => h.2, fun h => ⟨hm h.2, h⟩⟩

/-- Which zones the last solved set lights no longer, once a CLEAR_FAULTS has cleared latches. -/
theorem keepDark_unlit_iff (l : Lvs) (c : Chc) (covered : Nat → Bool) (z : Nat) :
    sparseGet (fun _ => false) (l.keepDark (c.faultyZones covered)).unlit z = true ↔
      sparseGet (fun _ => false) l.unlit z = true ∨ (covered z = true ∧ c.latch z ≠ .clear) := by
  rw [Lvs.keepDark_unlit, sparseGet_mark, Bool.or_eq_true, List.contains_iff_mem, mem_faultyZones]

/-! ## The levels of a solve (R91, R94) -/

/-- A late fault: clear at capture, and set now or cleared again while the solve runs. -/
theorem lateFault_iff (v : Solve) (now : Chc) (z : Nat) :
    v.lateFault now z = true ↔
      (now.latch z ≠ .clear ∨ sparseGet (fun _ => false) v.unlit z = true) ∧
        sparseGet (fun _ => .clear) v.latches z = .clear := by
  simp [Solve.lateFault]

theorem level_of_lateFault (v : Solve) (now : Chc) (scale z : Nat) (h : v.lateFault now z = true) :
    v.level now scale z = 0 := by
  simp [Solve.level, h]

theorem level_of_no_lateFault (v : Solve) (now : Chc) (scale z : Nat) (h : v.lateFault now z = false) :
    v.level now scale z = v.derated z * scale / 4096 := by
  simp [Solve.level, h]

/-! ## The accumulators of a line (R60, R64) -/

/-- The demands of the pixels, from pixel `x` on, that line `y` gives zone `z`. -/
def demandsOf (g : Grid) (y x z : Nat) (pixels : List Pixel) : List Nat :=
  ((pixels.zipIdx x).filter (fun e => decide (g.zoneAt e.2 y = z))).map (fun e => pixelDemand e.1)

/-- What a line adds to each accumulator. -/
theorem accAt_addPixels (g : Grid) (y x z : Nat) (pixels : List Pixel) (m : Sparse Accumulator) :
    accAt (g.addPixels y x pixels m) z =
      ⟨(demandsOf g y x z pixels).foldl max (accAt m z).peak, (accAt m z).sum + (demandsOf g y x z pixels).sum,
        (accAt m z).count + (demandsOf g y x z pixels).length,
        (accAt m z).bright + (demandsOf g y x z pixels).countP (fun d => decide (g.threshold ≤ d))⟩ := by
  induction pixels generalizing x m with
  | nil => simp [Grid.addPixels, demandsOf]
  | cons p rest ih =>
    rw [Grid.addPixels, ih]
    have hput : accAt (sparsePut (fun _ => .zero) m (g.zoneAt x y)
        ((accAt m (g.zoneAt x y)).addPixel g.threshold (pixelDemand p))) z =
        if z = g.zoneAt x y then (accAt m (g.zoneAt x y)).addPixel g.threshold (pixelDemand p) else accAt m z :=
      sparseGet_put _ _ _ _ _
    rw [hput]
    by_cases h : g.zoneAt x y = z
    · subst h
      by_cases hb : g.threshold ≤ pixelDemand p <;>
        simp [demandsOf, Accumulator.addPixel, hb] <;> omega
    · simp [demandsOf, h, Ne.symm h]

/-! ## The statistics unit under a frame turn and a close (R63) -/

/-- Taking the marks leaves the statistics unit. -/
@[simp] theorem applyMarks_stu (s : State) : s.applyMarks.stu = s.stu := by
  have active (s : State) (t : Nat) : (s.readOverwritten t).stu = s.stu :=
    foldl_keeps State.stu _ (fun s _ => State.readWord_stu s _) _ s
  have copy (s : State) (t : Nat) : (s.copyTable t).stu = s.stu := by simp [State.copyTable, active]
  have copies (l : List Nat) (s : State) : (l.foldl State.copyTable s).stu = s.stu := foldl_keeps State.stu _ copy l s
  have valid (s : State) (m : BitVec 4) : (s.validateStaging m).1.stu = s.stu := by
    unfold State.validateStaging; split <;> simp
  unfold State.applyMarks
  dsimp only
  split
  · rfl
  · split <;> simp [copies, valid]

/-- Handling the mode request leaves the statistics unit. -/
@[simp] theorem handleRequest_stu (s : State) : s.handleRequest.stu = s.stu := by
  have pend (s : State) (lo n : Nat) : (s.readWhilePending lo n).stu = s.stu :=
    foldl_keeps State.stu _ (fun s i => by split <;> simp) _ s
  have reads (s : State) : s.readForMode.stu = s.stu := by simp [State.readForMode, pend]
  have change (s : State) (m : Mode) : (s.changeMode m).stu = s.stu := by
    unfold State.changeMode; dsimp only; split
    · rfl
    · split <;> simp [State.standbyEntry]
  unfold State.handleRequest
  split
  · rfl
  · dsimp only
    split <;> split
    · exact reads s
    · split <;> simp [change, reads]
    · rfl
    · split <;> simp [change]

/-- With no line in the buffer, adding the waiting lines leaves the accumulators. -/
theorem addWaitingLines_accumulators (s : State) (h : s.stu.lineBuffer = []) :
    s.addWaitingLines.stu.lineBuffer = [] ∧ s.addWaitingLines.stu.accumulators = s.stu.accumulators := by
  unfold State.addWaitingLines
  split <;> simp [h]

/-- With no line in the buffer, laying the grid leaves the accumulators. -/
theorem layGrid_accumulators (s : State) (h : s.stu.lineBuffer = []) :
    s.layGrid.stu.lineBuffer = [] ∧ s.layGrid.stu.accumulators = s.stu.accumulators := by
  unfold State.layGrid
  generalize hu : s.readSettings [Config.gridColumns, Config.gridRows, Config.brightThreshold] = u
  have hs : u.stu = s.stu := by rw [← hu, State.readSettings_stu]
  dsimp only
  rw [← hs] at h ⊢
  exact addWaitingLines_accumulators _ h

/-- With no line in the buffer, a frame turn leaves the accumulators. -/
theorem frameTurn_accumulators (s : State) (h : s.stu.lineBuffer = []) :
    s.frameTurn.stu.lineBuffer = [] ∧ s.frameTurn.stu.accumulators = s.stu.accumulators := by
  unfold State.frameTurn
  generalize hu : ({ s with ftu := { s.ftu with turnWaiting := false } }).applyMarks.handleRequest = u
  have hs : u.stu = s.stu := by rw [← hu, handleRequest_stu, applyMarks_stu]
  dsimp only
  rw [State.readSetting_stu]
  rw [← hs] at h ⊢
  exact layGrid_accumulators _ h

/-- The same of a frame turn that is taken now, if one waits. -/
theorem forceTurn_accumulators (s : State) (h : s.stu.lineBuffer = []) :
    s.forceTurn.stu.lineBuffer = [] ∧ s.forceTurn.stu.accumulators = s.stu.accumulators := by
  have late : s.abandonLate.stu = s.stu := by unfold State.abandonLate; split <;> rfl
  unfold State.forceTurn
  split
  · rw [← late]; exact frameTurn_accumulators _ (by rwa [late])
  · exact ⟨h, rfl⟩

/-! ## The close of a followed frame (R14) -/

@[simp] theorem flushLines_nil (s : State) : s.flushLines [] = s := rfl
@[simp] theorem flushLines_start (s : State) (rest : List Delayed) : s.flushLines (.start :: rest) = s := rfl
@[simp] theorem flushLines_activeEnd (s : State) (rest : List Delayed) : s.flushLines (.activeEnd :: rest) = s := rfl

/-- In the active lines, an ended line is sent as the next one. -/
theorem flushLines_active (s : State) (n : Nat) (pixels : List Pixel) (damaged off : Bool) (width : Nat)
    (rest : List Delayed) (h : s.ftu.phase = .active n) :
    s.flushLines (.line pixels damaged off width :: rest) =
      (s.sendLine n pixels damaged off width).flushLines rest := by
  simp [State.flushLines, h]

/-- In the blanking, the first active line is taken and line 0 is sent. -/
theorem flushLines_blanking (s : State) (pixels : List Pixel) (damaged off : Bool) (width : Nat)
    (rest : List Delayed) (h : s.ftu.phase = .blanking) :
    s.flushLines (.line pixels damaged off width :: rest) =
      (s.firstLine.sendLine 0 pixels damaged off width).flushLines rest := by
  simp [State.flushLines, h]

theorem stopFollowing_of_freeRun (s : State) (h : s.ftu.state = .freeRun) : s.stopFollowing = s := by
  simp [State.stopFollowing, h]

/-- A first active line takes a waiting frame turn; with no line in the buffer the accumulators stay. -/
theorem firstLine_accumulators (s : State) (h : s.stu.lineBuffer = []) :
    s.firstLine.stu.lineBuffer = [] ∧ s.firstLine.stu.accumulators = s.stu.accumulators := by
  have capture (s : State) : s.captureFrame.stu = s.stu := by
    unfold State.captureFrame; dsimp only; split <;> simp
  have late (s : State) (v) : (s.reportLate v).stu = s.stu := by
    unfold State.reportLate; dsimp only; split <;> simp
  have display (s : State) (v) : (s.setDisplay v).stu = s.stu := by unfold State.setDisplay; split <;> rfl
  have light (s : State) : s.lightFrame.stu = s.stu := by
    unfold State.lightFrame; split
    · split <;> rfl
    · rfl
  have h' : s.firstLine.stu = s.forceTurn.stu := by
    simp [State.firstLine, State.permitLatches, State.readLatchLines, light, display, late, capture]
  rw [h']
  exact forceTurn_accumulators s h

/-- The lines of a close leave the accumulators where no line waits in the buffer. -/
theorem flushLines_accumulators (l : List Delayed) (s : State) (h : s.stu.lineBuffer = []) :
    (s.flushLines l).stu.lineBuffer = [] ∧ (s.flushLines l).stu.accumulators = s.stu.accumulators := by
  have send (s : State) (n p d o w) : (s.sendLine n p d o w).stu = s.stu := by simp [State.sendLine]
  induction l generalizing s with
  | nil => exact ⟨h, rfl⟩
  | cons e rest ih =>
    match e with
    | .start | .activeEnd => exact ⟨h, rfl⟩
    | .line pixels damaged off width =>
      unfold State.flushLines
      split
      · next n _ =>
        have := ih (s.sendLine n pixels damaged off width) (by rwa [send])
        exact ⟨this.1, this.2.trans (by rw [send])⟩
      · have hf := firstLine_accumulators s h
        have := ih (s.firstLine.sendLine 0 pixels damaged off width) (by rw [send]; exact hf.1)
        exact ⟨this.1, this.2.trans (by rw [send]; exact hf.2)⟩
      · exact ⟨h, rfl⟩
      · exact ⟨h, rfl⟩

/-- A close discards the lines that wait for their frame turn: none of them reaches an accumulator (R63). -/
theorem stopFollowing_accumulators (s : State) (h : s.ftu.state = .following) :
    s.stopFollowing.stu.lineBuffer = [] ∧ s.stopFollowing.stu.accumulators = s.stu.accumulators := by
  have ended (s : State) : s.sendActiveEnd.stu = s.stu := by
    have slot (s : State) (r) : (s.fillSlot r).stu = s.stu := by unfold State.fillSlot; split <;> simp
    simp [State.sendActiveEnd, State.queueReport, State.handClips, State.startInterval, slot]
  have close (s : State) (h : s.stu.lineBuffer = []) :
      s.closeFrame.stu.lineBuffer = [] ∧ s.closeFrame.stu.accumulators = s.stu.accumulators := by
    unfold State.closeFrame
    split
    · exact ⟨h, rfl⟩
    · rw [ended]; exact forceTurn_accumulators s h
  have hf := flushLines_accumulators s.ftu.delay { s with stu := { s.stu with lineBuffer := [] } } rfl
  unfold State.stopFollowing
  rw [h]
  dsimp only
  generalize State.flushLines _ _ = u at hf ⊢
  have hc := close { u with ftu := { u.ftu with delay := [], forward := [] } } hf.1
  rw [State.readSetting_stu]
  exact ⟨hc.1, hc.2.trans hf.2⟩

/-- Whatever it closes, the FTU free-runs afterwards. -/
@[simp] theorem stopFollowing_state (s : State) : s.stopFollowing.ftu.state = .freeRun := by
  unfold State.stopFollowing
  split
  · next h => exact h
  · rfl

end Sys2Proof.Laws
end

