-- ==== Sys2Proof/Laws/PerInstr.lean ====
section
/-! SUPPORT. The family of lemmas with one lemma for each command: the table gives bits to no row, so no word spells the
command. -/

namespace Sys2Proof.Laws

/-- No word of any width spells the command. -/
def NoWordSpells.Statement (i : Instr) : Prop := ∀ nbits w : Nat, decodeTableWord nbits w ≠ some i

/-- The decoder over the table's bits answers nothing. -/
theorem noWord_spells (i : Instr) : NoWordSpells.Statement i := fun _ _ h => nomatch h

theorem NoWordSpells.powerOn (straps : BitVec 3) :
    NoWordSpells.Statement (.powerOn straps) := noWord_spells _
theorem NoWordSpells.resetn (straps : BitVec 3) :
    NoWordSpells.Statement (.resetn straps) := noWord_spells _
theorem NoWordSpells.frameStartMarker (dt : Nat) (last : Option (List Pixel)) :
    NoWordSpells.Statement (.frameStartMarker dt last) := noWord_spells _
theorem NoWordSpells.activeLine (dt : Nat) (pixels : List Pixel) :
    NoWordSpells.Statement (.activeLine dt pixels) := noWord_spells _
theorem NoWordSpells.sidePacket (dt line : Nat) (bytes : List Byte) :
    NoWordSpells.Statement (.sidePacket dt line bytes) := noWord_spells _
theorem NoWordSpells.inputActiveEnd (dt : Nat) (last : Option (List Pixel)) :
    NoWordSpells.Statement (.inputActiveEnd dt last) := noWord_spells _
theorem NoWordSpells.characterError (dt : Nat) (place : LinkPlace) :
    NoWordSpells.Statement (.characterError dt place) := noWord_spells _
theorem NoWordSpells.elasticBufferSlip (dt : Nat) (place : LinkPlace) :
    NoWordSpells.Statement (.elasticBufferSlip dt place) := noWord_spells _
theorem NoWordSpells.frameTimeout (dt : Nat) :
    NoWordSpells.Statement (.frameTimeout dt) := noWord_spells _
theorem NoWordSpells.outputFrameStart (dt : Nat) (scanFirst : Bool) :
    NoWordSpells.Statement (.outputFrameStart dt scanFirst) := noWord_spells _
theorem NoWordSpells.outputBlankingLine (dt line : Nat) :
    NoWordSpells.Statement (.outputBlankingLine dt line) := noWord_spells _
theorem NoWordSpells.firstActiveLine (dt : Nat) :
    NoWordSpells.Statement (.firstActiveLine dt) := noWord_spells _
theorem NoWordSpells.outputLineBegin (dt : Nat) :
    NoWordSpells.Statement (.outputLineBegin dt) := noWord_spells _
theorem NoWordSpells.outputActiveEnd (dt : Nat) :
    NoWordSpells.Statement (.outputActiveEnd dt) := noWord_spells _
theorem NoWordSpells.solveComplete (dt : Nat) :
    NoWordSpells.Statement (.solveComplete dt) := noWord_spells _
theorem NoWordSpells.burstDone (dt : Nat) (chain : ChainNo) :
    NoWordSpells.Statement (.burstDone dt chain) := noWord_spells _
theorem NoWordSpells.darkBurstDone (dt : Nat) (chain : ChainNo) :
    NoWordSpells.Statement (.darkBurstDone dt chain) := noWord_spells _
theorem NoWordSpells.readbackSlot (dt : Nat) (chain : ChainNo) (bytes : List Byte) :
    NoWordSpells.Statement (.readbackSlot dt chain bytes) := noWord_spells _
theorem NoWordSpells.latchSent (dt : Nat) (chain : ChainNo) :
    NoWordSpells.Statement (.latchSent dt chain) := noWord_spells _
theorem NoWordSpells.releaseSent (dt : Nat) (chain : ChainNo) :
    NoWordSpells.Statement (.releaseSent dt chain) := noWord_spells _
theorem NoWordSpells.assignmentSent (dt : Nat) (chain : ChainNo) :
    NoWordSpells.Statement (.assignmentSent dt chain) := noWord_spells _
theorem NoWordSpells.acknowledgement (dt : Nat) (chain : ChainNo) (bytes : List Byte) :
    NoWordSpells.Statement (.acknowledgement dt chain bytes) := noWord_spells _
theorem NoWordSpells.enumAckTimeout (dt : Nat) (chain : ChainNo) :
    NoWordSpells.Statement (.enumAckTimeout dt chain) := noWord_spells _
theorem NoWordSpells.passRequestSent (dt : Nat) (chain : ChainNo) :
    NoWordSpells.Statement (.passRequestSent dt chain) := noWord_spells _
theorem NoWordSpells.passAnswer (dt : Nat) (chain : ChainNo) (bytes : List Byte) :
    NoWordSpells.Statement (.passAnswer dt chain bytes) := noWord_spells _
theorem NoWordSpells.passTimeout (dt : Nat) (chain : ChainNo) :
    NoWordSpells.Statement (.passTimeout dt chain) := noWord_spells _
theorem NoWordSpells.conversionEnd (dt : Nat) (raw : BitVec 10) :
    NoWordSpells.Statement (.conversionEnd dt raw) := noWord_spells _
theorem NoWordSpells.transmissionEnd (dt : Nat) :
    NoWordSpells.Statement (.transmissionEnd dt) := noWord_spells _
theorem NoWordSpells.identify (dt : Nat) :
    NoWordSpells.Statement (.identify dt) := noWord_spells _
theorem NoWordSpells.writeTable (dt : Nat) :
    NoWordSpells.Statement (.writeTable dt) := noWord_spells _
theorem NoWordSpells.readTable (dt : Nat) :
    NoWordSpells.Statement (.readTable dt) := noWord_spells _
theorem NoWordSpells.commit (dt : Nat) :
    NoWordSpells.Statement (.commit dt) := noWord_spells _
theorem NoWordSpells.cancelCommit (dt : Nat) :
    NoWordSpells.Statement (.cancelCommit dt) := noWord_spells _
theorem NoWordSpells.setMode (dt : Nat) :
    NoWordSpells.Statement (.setMode dt) := noWord_spells _
theorem NoWordSpells.readStatus (dt : Nat) :
    NoWordSpells.Statement (.readStatus dt) := noWord_spells _
theorem NoWordSpells.clearCounters (dt : Nat) :
    NoWordSpells.Statement (.clearCounters dt) := noWord_spells _
theorem NoWordSpells.clearFaults (dt : Nat) :
    NoWordSpells.Statement (.clearFaults dt) := noWord_spells _
theorem NoWordSpells.enumerateChain (dt : Nat) :
    NoWordSpells.Statement (.enumerateChain dt) := noWord_spells _
theorem NoWordSpells.driverPass (dt : Nat) :
    NoWordSpells.Statement (.driverPass dt) := noWord_spells _
theorem NoWordSpells.senseStart (dt : Nat) :
    NoWordSpells.Statement (.senseStart dt) := noWord_spells _
theorem NoWordSpells.senseAbort (dt : Nat) :
    NoWordSpells.Statement (.senseAbort dt) := noWord_spells _
theorem NoWordSpells.errorLogClear (dt : Nat) :
    NoWordSpells.Statement (.errorLogClear dt) := noWord_spells _
theorem NoWordSpells.injectError (dt : Nat) :
    NoWordSpells.Statement (.injectError dt) := noWord_spells _
theorem NoWordSpells.timeSet (dt : Nat) :
    NoWordSpells.Statement (.timeSet dt) := noWord_spells _
theorem NoWordSpells.timeAdjust (dt : Nat) :
    NoWordSpells.Statement (.timeAdjust dt) := noWord_spells _
theorem NoWordSpells.softReset (dt : Nat) : NoWordSpells.Statement (.softReset dt) := noWord_spells _
theorem NoWordSpells.badCommand (dt : Nat) :
    NoWordSpells.Statement (.badCommand dt) := noWord_spells _

end Sys2Proof.Laws
end

