-- ==== Sys2Proof/Tests/Slice0.lean ====
section
/-! SUPPORT. The model's own tests. First the smoke of `Instr.wellFormed`; then the reference's check values and worked
examples; then one step on small states; then, for every statement with hypotheses, a state and operands that meet them
(`witness_…`, one for each clause). -/

namespace Sys2Proof.Tests

-- The theorems of this file are elaborated one after the other: side by side, their kernel evaluations wait on each
-- other in one thread apiece.
set_option Elab.async false

open Sys2Proof.Machine Sys2Proof.Laws

/-! ## Well-formed terms -/

theorem test_wf_side_packet_has_a_tag : (Instr.sidePacket 0 3 []).wellFormed = false := rfl
theorem test_wf_readback_slot_is_eight_bytes :
    (Instr.readbackSlot 0 2 (List.replicate 9 0x3C)).wellFormed = false := rfl
theorem test_wf_acknowledgement_is_three_bytes :
    (Instr.acknowledgement 0 2 (List.replicate 4 0x3C)).wellFormed = false := rfl
theorem test_wf_pass_answer_is_twelve_bytes :
    (Instr.passAnswer 0 2 (List.replicate 13 0x3C)).wellFormed = false := rfl
theorem test_wf_good_terms :
    (Instr.sidePacket 0 3 [0x20]).wellFormed = true ∧ (Instr.acknowledgement 0 2 [0x3C, 0, 0]).wellFormed = true :=
  ⟨rfl, rfl⟩

/-! ## Check values and worked examples of the reference -/

/-- The ASCII digits "123456789". -/
def digits : List Byte := [0x31, 0x32, 0x33, 0x34, 0x35, 0x36, 0x37, 0x38, 0x39]

/-- R185: the CRC-16 of "123456789" is 0x29B1. -/
theorem test_crc16_check_value : crc16 digits = 0x29B1 := by decide +kernel
/-- R185: the CRC-8 of "123456789" is 0xF4. -/
theorem test_crc8_check_value : crc8 digits = 0xF4 := by decide +kernel

/-- R82: P = 3,900, M = 300, C = 40 clamps to 3,071; C = 400 keeps the peak. -/
theorem test_speckle_clamp :
    speckleClamp 3072 200 3900 300 40 = 3071 ∧ speckleClamp 3072 200 3900 300 400 = 3900 := by decide
/-- R83: W = 192, P′ = 3,071, M = 300 blend to 2,378. -/
theorem test_blend : blend 192 3071 300 = 2378 := by decide
/-- R84: Y = 2,720 falling to 2,600 with f = 84 gives 2,641; the worked zone's rising segment gives 2,679. -/
theorem test_tone :
    tone (fun i => if i = 22 then 2720 else 2600) 2900 = 2641 ∧
      tone (fun i => if i = 22 then 2600 else 2720) 2900 = 2679 := by decide
/-- R85: RISE_RATE 96 from F = 0 toward 2,048 gives 12,288 and L 768, then 19,968 and L 1,248. -/
theorem test_filter :
    filterStep 96 32 0 32768 = 12288 ∧ filterOutput 12288 = 768 ∧ filterStep 96 32 12288 32768 = 19968 ∧
      filterOutput 19968 = 1248 := by decide
/-- The worked zone: F 38,000 toward 42,864 at 64 gives 39,216 and L 2,451; neighbour 3,100 and HALO_STEP 600 lift it to
2,500; WARM_FACTOR 230 gives 2,246; K 3,150; L4 1,727; calibration 136 gives duty 29,359. -/
theorem test_worked_zone :
    filterStep 64 32 38000 (16 * 2679) = 39216 ∧ filterOutput 39216 = 2451 ∧ haloGuard 600 2451 [3100] = 2500 ∧
      2500 * deratingFactor 230 128 .warm / 256 = 2246 ∧ budgetScale 5200000 4000000 = 3150 ∧
      2246 * 3150 / 4096 = 1727 ∧ dutyOf 1727 136 = 29359 := by decide
/-- The same solve under foldback: B_eff 2,000,000, K 1,575, L4 863, duty 14,671. -/
theorem test_worked_zone_folded :
    effectiveBudget 4000000 128 true = 2000000 ∧ budgetScale 5200000 2000000 = 1575 ∧ 2246 * 1575 / 4096 = 863 ∧
      dutyOf 863 136 = 14671 := by decide
/-- R95: 4095 at 128 gives 65,520; at 255 it is held at 65,535. -/
theorem test_duty_limit : dutyOf 4095 128 = 65520 ∧ dutyOf 4095 255 = 65535 ∧ dutyOf 4095 0 = 0 := by decide
/-- R75: 2,304 zones take 365.6 µs, in whole microseconds 366. -/
theorem test_solve_time : Config.solveTime 2304 = 366 := rfl
/-- R107: the table of centres for 2560 × 1080 with 48 × 27 cells. -/
theorem test_centres :
    centre 2560 53 48 0 = 26 ∧ centre 2560 53 48 46 = 2464 ∧ centre 2560 53 48 47 = 2525 := by decide +kernel
/-- R108: with 64 columns on 3840, x = 1,245 lies 15 past column 20; 10 takes column 0, 3,835 column 63. -/
theorem test_surround :
    surround 3840 60 64 1245 = ⟨20, 21, 15, 60⟩ ∧ surround 3840 60 64 10 = ⟨0, 0, 0, 1⟩ ∧
      surround 3840 60 64 3835 = ⟨63, 63, 0, 1⟩ := by decide +kernel
/-- R109: 1,600 and 1,400 at 7 of 60 give 1,576. -/
theorem test_interpolate : interpolate 1600 1400 7 60 = 1576 := by decide
/-- R110: BREF 4095 behind 4,094 gives 1,024, behind the floor of 16 the limit. -/
theorem test_gain : gainOf 4095 4096 4094 = 1024 ∧ gainOf 4095 4096 16 = 4096 := by decide +kernel
/-- Worked example of the compensation: gain 2,795 clips (1800, 900, 100) to (4095, 2457, 273) in component mode, and
keeps the hue as (4094, 2047, 227). -/
theorem test_output_pixel :
    outputPixel 0 2795 ⟨1800, 900, 100⟩ = (⟨4095, 2457, 273⟩, true) ∧
      outputPixel 1 2795 ⟨1800, 900, 100⟩ = (⟨4094, 2047, 227⟩, true) := by decide +kernel
/-- R168: four rows of the table of compact codes. -/
theorem test_compact_code :
    compactCode 31 = 31 ∧ compactCode 127 = 63 ∧ compactCode 14280 = 173 ∧ compactCode 600000 = 255 := by decide +kernel
/-- R138: SENSE_INVERT turns a code round. -/
theorem test_sense_result : senseResult 2 1 1000 = 23 ∧ senseResult 2 0 1000 = 1000 := by decide
/-- R143: NORMAL goes straight to HOT, HOT to WARM at most. -/
theorem test_thermal :
    thermalNext 600 560 720 680 .normal 720 = .hot ∧ thermalNext 600 560 720 680 .hot 100 = .warm := by decide
/-- R147: two results in a row enter FOLDBACK. -/
theorem test_foldback :
    foldbackNext 900 850 false 0 900 = (false, 1) ∧ foldbackNext 900 850 false 1 900 = (true, 0) := by decide
/-- R51: a RISE_RATE of 0 is stored as 1, a GAIN_LIMIT of 900 as 1024; DEVICE_TAG 0xFF is refused. -/
theorem test_settings_clamp :
    storedEntry 0 Config.riseRate [0, 0] = [0, 1] ∧ storedEntry 0 Config.gainLimit [0, 900] = [0, 1024] ∧
      entryRefused 0 Config.deviceTag [0, 0xFF] = true ∧ entryRefused 0 Config.deviceTag [0, 0xFE] = false := by
  decide
/-- R53: an unmapped entry loses its channel fields, a weight of 0 becomes 1, device 24 is refused. -/
theorem test_map_entry :
    storedEntry 1 0 [0x0BFC, 0x0080] = [0, 0x0180] ∧ entryRefused 1 0 [0x8000 + 24 * 64, 0x0180] = true ∧
      entryRefused 1 0 [0x8000 + 23 * 64, 0x0180] = false := by decide

/-! ## Small states -/

/-- A packet for a part with its straps at 0. -/
def packet (code : Byte) (payload : List Word) : Packet := ⟨0x20, 7, code, payload⟩

/-- After reset, with this packet in flight. -/
def flight (code : Byte) (payload : List Word) : State :=
  { State.reset with cmd := { State.reset.cmd with
      inFlight := some ⟨packet code payload, (packet code payload).reserves⟩ } }

/-- After reset, with chain 2 changed. -/
def withChain (f : ChainRec → ChainRec) : State := State.reset.setChain 2 (f State.reset.chc.chains[(2 : ChainNo)])

/-- ACQUIRING, with this record open. -/
def acquiring (r : Option FrameRec) : State :=
  { State.reset with lrx := { State.reset.lrx with input := .acquiring, record := r } }

/-- A grid of one cell. -/
def oneCell : Grid := Grid.lay 128 72 1 1 3072

/-- LOCKED at 128 × 72 and following, with this record open. -/
def locked (r : Option FrameRec) : State :=
  { State.reset with
    lrx := { State.reset.lrx with input := .locked, locked := some ⟨128, 72⟩, record := r }
    ftu := { State.reset.ftu with state := .following, freeDue := none }
    stu := { State.reset.stu with grid := some oneCell } }

/-- A following part in output phase `phase` with this delay. -/
def output (phase : OutPhase) (delay : List Delayed) : State :=
  { locked none with ftu := { (locked none).ftu with phase := phase, delay := delay } }

/-- A part that free-runs in output phase `phase`. -/
def freeRun (phase : OutPhase) : State :=
  { State.reset with
    ftu := { State.reset.ftu with phase := phase }
    stu := { State.reset.stu with grid := some oneCell } }

/-- A good frame of 128 × 72. -/
def goodFrame : FrameRec := ⟨some 128, 72, 0, false, false⟩

/-- A solve over empty tables. -/
def solve : Solve :=
  ⟨⟨0, .statistics⟩, 0, 23, [], oneCell, [], 0, Vector.replicate 8 .normal, false, [], .statistics, false, false, [],
    [], [], true⟩

/-- The state with this solve in flight. -/
def solving (s : State) : State := { s with lvs := { s.lvs with solve := some solve } }

/-- The state in this mode. -/
def inMode (m : Mode) (s : State) : State := { s with mdc := { s.mdc with mode := m } }

/-- The state with this mode requested. -/
def asking (m : Mode) (s : State) : State := { s with mdc := { s.mdc with request := some m } }

/-- A line of `n` black pixels in the delay. -/
def blackLine (n : Nat) (damaged off : Bool) : Delayed := .line (List.replicate n blackPixel) damaged off n

/-- What a command leaves of the state, looked at through `f`. -/
def after {α : Type} (o : Host.Outcome State Fault Refusal) (f : State → α) : Option α :=
  match o with
  | .next t => some (f t)
  | .fault _ => none
  | .refused _ => none

theorem reset_quiet : State.reset.quiet := ⟨rfl, rfl⟩

/-! ## One step -/

theorem test_power_on_samples_straps :
    after (exec (.powerOn 5) State.reset) (fun t => (t.mem.active Config.deviceTag, t.tbs.straps)) =
      some (0x25, 5) := by decide +kernel
theorem test_marker_leaves_no_signal :
    after (exec (.frameStartMarker 3 none) State.reset) (fun t => (t.lrx.input, t.lrx.lastMarker)) =
      some (.acquiring, 3) := by decide +kernel
/-- R4: a line of another width damages the frame and counts as an error. -/
theorem test_line_length_error :
    after (exec (.activeLine 0 [blackPixel]) (acquiring (some goodFrame)))
      (fun t => (t.lrx.record.map FrameRec.errors, t.rpu.charErrors)) = some (some 1, 1) := by decide +kernel
/-- R8: with the default LOCK_FRAMES of 4, the fourth good frame in a row locks. -/
theorem test_lock_at_fourth_frame :
    after (exec (.inputActiveEnd 0 none)
      (let s := acquiring (some goodFrame)
       { s with lrx := { s.lrx with candidate := some ⟨128, 72⟩, runCount := 3 } }))
      (fun t => (t.lrx.input, t.lrx.locked)) = some (.locked, some ⟨128, 72⟩) := by decide +kernel
theorem test_side_packet_is_taken :
    after (exec (.sidePacket 0 3 (packetBytes (packet 0x01 []))) (acquiring none))
      (fun t => t.cmd.inFlight.map InFlight.packet) = some (some (packet 0x01 [])) := by decide +kernel
theorem test_bad_crc_is_counted :
    after (exec (.sidePacket 0 3 [0x20, 7, 1, 0, 0, 0]) (acquiring none))
      (fun t => (t.cmd.queue, t.rpu.counters.packetCrcErrors)) = some ([], 1) := by decide +kernel
theorem test_frame_timeout_waits_for_its_moment :
    after (exec (.frameTimeout 10) (acquiring none)) (fun t => (t.lrx.input, t.clock.now)) =
      some (.noSignal, 25000) := by decide +kernel
theorem test_first_frame_is_zero :
    after (exec (.outputFrameStart 4 true) State.reset)
      (fun t => (t.ftu.frameNumber, t.ftu.stamp, t.ftu.freeDue)) = some (0, 4, some 16671) := by decide +kernel
/-- R13: free-run line 1 of 2,160 begins 800 + floor((16667 − 1600) / 2160) µs after the frame start. -/
theorem test_free_run_line_time :
    after (exec (.outputLineBegin 0) (freeRun (.active 1))) (fun t => (t.clock.now, t.ftu.phase)) =
      some (806, .active 2) := by decide +kernel
/-- R6: a damaged line repeats the most recent line. -/
theorem test_damaged_line_is_copied :
    after (exec (.outputLineBegin 0)
      (let s := output (.active 1) [blackLine 2 true false]
       { s with ftu := { s.ftu with lastLine := some [⟨1, 2, 3⟩] } })) (fun t => t.ftu.panel) =
      some (.line [⟨1, 2, 3⟩, blackPixel]) := by decide +kernel
theorem test_report_goes_to_idle_lane :
    after (exec (.outputActiveEnd 0) (output (.active 72) [.activeEnd]))
      (fun t => (t.cmd.lane.isSome, t.rpu.slot, t.ftu.phase)) = some (true, none, .ended) := by decide +kernel
theorem test_burst_done_sets_done_tag :
    after (exec (.burstDone 0 2) (withChain (fun c => { c with activity := .burst ⟨⟨5, .freeRun⟩, []⟩ 3 3 })))
      (fun t => t.chc.chains[(2 : ChainNo)].doneTag) = some (some ⟨5, .freeRun⟩) := by decide +kernel
theorem test_latch_sent_records_frame :
    after (exec (.latchSent 0 2) (withChain (fun c => { c with activity := .latch (some 9), latchPending := true })))
      (fun t => (t.chc.chains[(2 : ChainNo)].lastLatch, t.chc.chains[(2 : ChainNo)].latchPending)) =
      some (some 9, false) := by decide +kernel
/-- R130: a 25th device sets OVERLENGTH. -/
theorem test_overlength :
    after (exec (.acknowledgement 5 2 (withCrc8 [0x3C, 24]))
      (withChain (fun c => { c with activity := .enumerate (.waiting 24 0) })))
      (fun t => (t.chc.chains[(2 : ChainNo)].count, t.chc.chains[(2 : ChainNo)].overlength)) = some (24, true) := by
  decide +kernel
theorem test_enum_timeout_counts :
    after (exec (.enumAckTimeout 5 2) (withChain (fun c => { c with activity := .enumerate (.waiting 3 0) })))
      (fun t => (t.chc.chains[(2 : ChainNo)].count, t.clock.now)) = some (3, 20) := by decide +kernel
theorem test_missed_slot :
    after (exec (.readbackSlot 0 2 []) (withChain (fun c => { c with activity := .darkBurst 1 0 })))
      (fun t => ((t.chc.device 48).misses, t.rpu.counters.readbackMisses)) = some (1, 1) := by decide +kernel
/-- R138, R144: a raw code of 1023 is a fault code. -/
theorem test_sensor_fault :
    after (exec (.conversionEnd 0 1023)
      { State.reset with sns := { State.reset.sns with converter := .scanning 3 0 } })
      (fun t => (t.sns.thermal[(3 : ChainNo)], t.sns.converter, t.clock.now)) =
      some (.hot, .scanning 4 16, 16) := by decide +kernel
theorem test_identify :
    after (exec (.identify 0) (flight 0x01 [])) (fun t => t.cmd.outgoing.map Reply.data) =
      some [[0x2336, 3, 0x20]] := by decide +kernel
theorem test_write_table_clamps :
    after (exec (.writeTable 0) (flight 0x10 [0, 5, 0, 0]))
      (fun t => (t.mem.setting 0 Config.riseRate, t.mem.setting 1 Config.riseRate,
        t.cmd.outgoing.map Reply.result)) = some (1, 96, [.clamped]) := by decide +kernel
theorem test_read_table_returns_curve :
    after (exec (.readTable 0) (flight 0x11 [2, 1, 31, 2])) (fun t => t.cmd.outgoing.map Reply.data) =
      some [[2, 1, 31, 2, 0, 0, 0, 3968, 4095]] := by decide +kernel
theorem test_commit_marks :
    after (exec (.commit 0) (flight 0x12 [5])) (fun t => t.tbs.marks) = some 5 := by decide +kernel
theorem test_set_mode_is_held :
    after (exec (.setMode 0) (flight 0x20 [3])) (fun t => (t.mdc.request, t.mdc.mode)) =
      some (some .safe, .standby) := by decide +kernel
theorem test_read_status_has_34_words :
    after (exec (.readStatus 0) (flight 0x30 [])) (fun t => t.cmd.outgoing.map (fun r => r.data.length)) =
      some [34] := by decide +kernel
theorem test_enumerate_starts_release :
    after (exec (.enumerateChain 0) (flight 0x41 [2])) (fun t => t.chc.chains[(2 : ChainNo)].activity) =
      some (.enumerate .release) := by decide +kernel
theorem test_driver_pass_goes_out :
    after (exec (.driverPass 0) (flight 0x42 [2, 5, 3, 0x0102, 0x0304, 0, 0]))
      (fun t => (t.chc.passQueue, t.cmd.owed.length, t.cmd.outgoing.map Reply.final)) =
      some ([⟨2, 5, [1, 2, 3], 7, true⟩], 1, [false]) := by decide +kernel
theorem test_sense_start_owes :
    after (exec (.senseStart 6) (flight 0x50 [8])) (fun t => (t.sns.converter, t.cmd.owed.length, t.cmd.outgoing)) =
      some (.manual 8 6, 1, []) := by decide +kernel
theorem test_inject_marks :
    after (exec (.injectError 0) (flight 0x61 [5, 2, 1])) (fun t => t.verdict (wordKey 5 2)) =
      some (some .uncorrectable) := by decide +kernel
theorem test_time_set :
    after (exec (.timeSet 9) (flight 0x70 [1, 2])) (fun t => (t.clock.frame, t.clock.now)) = some (65538, 9) := by
  decide +kernel
theorem test_bad_command :
    after (exec (.badCommand 0) (flight 0x77 [])) (fun t => t.cmd.outgoing.map Reply.result) =
      some [.badCommand] := by decide +kernel
theorem test_wrong_length :
    after (exec (.cancelCommit 0) (flight 0x13 [0])) (fun t => t.cmd.outgoing.map Reply.result) =
      some [.badLength] := by decide +kernel
theorem test_soft_reset_aborts_owed :
    after (exec (.softReset 0)
      (let s := flight 0x7E []
       { s with cmd := { s.cmd with owed := [⟨3, 0x50, .sense⟩] } }))
      (fun t => t.cmd.outgoing.map (fun r => (r.seq, r.result))) = some [(7, .ok), (3, .aborted)] := by
  decide +kernel
/-- R21: a line in progress is cut off where it stands. -/
theorem test_soft_reset_cuts_line :
    (PanelItem.line [⟨1, 2, 3⟩, blackPixel]).cutOff 1 = .lineCut [⟨1, 2, 3⟩] ∧
      (PanelItem.line [⟨1, 2, 3⟩, blackPixel]).cutOff 2 = .line [⟨1, 2, 3⟩, blackPixel] := ⟨rfl, rfl⟩
/-- R14: a one-line frame that loses its geometry at its active end closes with its line sent. -/
theorem test_one_line_frame_closes_naturally :
    after (exec (.inputActiveEnd 0 none)
      (let s := locked (some ⟨some 1, 1, 0, false, true⟩)
       { s with ftu := { s.ftu with phase := .blanking, delay := [.line [⟨1, 2, 3⟩] false true 1] } }))
      (fun t => (t.lrx.input, t.ftu.state, t.ftu.phase, t.ftu.lastLine)) =
      some (.acquiring, .freeRun, .ended, some [⟨1, 2, 3⟩]) := by decide +kernel
/-- R12, R14: a marker that truncates a followed frame ends a line, whose output line has begun and is completed. -/
theorem test_truncated_frame_completes_its_line :
    after (exec (.frameStartMarker 0 (some [⟨1, 2, 3⟩]))
      (let s := locked (some ⟨some 1, 1, 0, false, true⟩)
       { s with ftu := { s.ftu with phase := .active 1 } }))
      (fun t => (t.lrx.input, t.ftu.state, t.ftu.phase, t.ftu.lastLine)) =
      some (.acquiring, .freeRun, .ended, some [⟨1, 2, 3⟩]) := by decide +kernel
/-- R6, R14: the line whose length brings the errors to LOS_ERROR_LIMIT goes out as a copy, cut to its frame's width. -/
theorem test_limit_line_is_copied_at_the_close :
    after (exec (.activeLine 0 [])
      (let s := locked (some ⟨some 1, 1, 63, false, false⟩)
       { s with ftu := { s.ftu with phase := .active 1, lastLine := some [⟨1, 2, 3⟩, ⟨4, 5, 6⟩] } }))
      (fun t => (t.lrx.input, t.ftu.state, t.ftu.phase, t.ftu.lastLine)) =
      some (.noSignal, .freeRun, .ended, some [⟨1, 2, 3⟩]) := by decide +kernel
/-- A followed frame in its blanking whose line 0 has ended and waits for the frame turn, a solve being in flight. -/
def waitingLine (r : Option FrameRec) : State :=
  let s := locked r
  { s with
    ftu := { s.ftu with phase := .blanking, turnWaiting := true, delay := [.line [⟨1, 2, 3⟩] false false 1] }
    stu := { s.stu with lineBuffer := [(0, [⟨1, 2, 3⟩])] }
    lvs := { s.lvs with solve := some solve } }
/-- R63: a close discards the waiting line 0, though its frame turn is taken and its output line sent. -/
theorem test_close_discards_waiting_line :
    after (exec (.frameTimeout 0) (waitingLine none))
      (fun t => (t.stu.accumulators.isEmpty, t.stu.lineBuffer.isEmpty, t.ftu.turnWaiting, t.ftu.lastLine)) =
      some (true, true, false, some [⟨1, 2, 3⟩]) := by decide +kernel
/-- R63: at a first active line the waiting line 0 is added. -/
theorem test_first_line_adds_waiting_line :
    after (exec (.firstActiveLine 0) (waitingLine none)) (fun t => (accAt t.stu.accumulators 0, t.stu.lineBuffer)) =
      some (⟨3, 3, 1, 0⟩, []) := by decide +kernel
/-- R91: a latch set and cleared again while the solve runs leaves its zone at 0 in that solve. -/
theorem test_latch_set_and_cleared_while_solving :
    after (exec (.solveComplete 0)
      { State.reset with lvs := { State.reset.lvs with solve := some { solve with
          source := .safe, lockJump := true, unlit := [(0, true)], tables := Memory.store [] (wordKey 3 0) 0x9000 } } })
      (fun t => ((t.lvs.lastSet.zone 0).level, (t.mem.word (zoneL4 0)).toNat, t.lvs.maxL4)) = some (0, 0, 0) := by
  decide +kernel
/-- R88, R178: a mark set while the solve runs makes it jump, to 16 times SAFE_LEVEL. -/
theorem test_mark_set_while_solving_jumps :
    after (exec (.solveComplete 0)
      { State.reset with lvs := { State.reset.lvs with
          reseed := [(0, true)]
          solve := some { solve with source := .safe, tables := Memory.store [] (wordKey 3 0) 0x9000 } } })
      (fun t => ((t.mem.word (zoneF 0)).toNat, t.lvs.reseed)) = some (16 * 512, []) := by decide +kernel
/-- R159: the commit copy meets two wrong bits at an active word that it overwrites, and enters SAFE. -/
theorem test_commit_copy_finds_error :
    after (exec (.outputFrameStart 0 true)
      { State.reset with
        tbs := ⟨8, 0, 0⟩
        mdc := ⟨.standby, some .standby, .none⟩
        imn := { State.reset.imn with upsets := [(wordKey 7 3, some .uncorrectable)] } })
      (fun t => (t.mdc, t.tbs.outcome, t.imn.log.length)) = some (⟨.safe, none, .none⟩, 8, 1) := by decide +kernel
/-- R136: a dark burst that waits is no waiting burst of CHAIN_STATE. -/
theorem test_chain_words_dark :
    (withChain (fun c => { c with darkWaiting := true })).chainWords 2 = [0, 0, 0, 0] := by decide +kernel
/-- R103: a cleared latch keeps the zone dark under the last set and under that of the solve in flight. -/
theorem test_clear_faults_keeps_zone_dark :
    after (exec (.clearFaults 0)
      (let s := solving (flight 0x40 [])
       { s with chc := { s.chc with latches := [(7, .opened)] } }))
      (fun t => (t.chc.latch 7, t.lvs.unlit, t.lvs.solve.map Solve.unlit)) =
      some (.clear, [(7, true)], some [(7, true)]) := by decide +kernel
/-- The command at the front of the queue runs first, and nothing is spelled by a word. -/
theorem test_step_and_fetch :
    after (step (State.reset.withCommand (.timeAdjust 2))) (fun t => (t.pending, t.clock.now)) = some ([], 2) ∧
      (State.reset.withFetchWord 16 0).pending = [] := by decide +kernel


/-! ## Hypotheses that are met: the step, resets, the input link -/

theorem witness_StepRunsFrontCommand_command :
    (State.reset.withCommand (.identify 0)).pending = [.identify 0] := rfl
theorem witness_StepRunsFrontCommand_idle : State.reset.pending = [] := rfl

theorem witness_SoftResetStopsAndKeeps :
    (flight 0x7E []).executing (packet 0x7E []) ∧ (packet 0x7E []).code = 0x7E ∧ (packet 0x7E []).payload = [] ∧
      sparseGet (fun _ => none) (flight 0x7E []).imn.upsets (wordKey 1 60) = none ∧
      sparseGet (fun _ => none) (flight 0x7E []).imn.upsets (wordKey 1 61) = none := ⟨rfl, rfl, rfl, rfl, rfl⟩
/-- SOFT_RESET in flight while a line of two pixels stands on the panel link. -/
def cutting : State := { flight 0x7E [] with ftu := { Ftu.reset 0 with panel := .line [blackPixel, blackPixel] } }
theorem witness_SoftResetStopsAndKeeps_cut :
    cutting.executing (packet 0x7E []) ∧ cutting.ftu.panel = .line [blackPixel, blackPixel] ∧
      ∀ pixels, (flight 0x7E []).ftu.panel ≠ .line pixels := ⟨rfl, rfl, by rintro _ ⟨⟩⟩

theorem witness_MarkerOpensFrame_first : State.reset.lrx.input = .noSignal ∧ State.reset.lrx.record = none :=
  ⟨rfl, rfl⟩
theorem witness_MarkerOpensFrame_truncates :
    (acquiring (some goodFrame)).lrx.input = .acquiring ∧
      ((acquiring (some goodFrame)).lrx.record = none ∨ (none : Option (List Pixel)) = none) := ⟨rfl, .inr rfl⟩
theorem witness_MarkerOpensFrame_next :
    (acquiring none).lrx.input = .acquiring ∧
      ((acquiring none).lrx.record = none ∨ some [blackPixel] = none) := ⟨rfl, .inl rfl⟩

/-- LOCKED, a free-run frame in its blanking with a frame turn that waits for a solve. -/
def cutShort : State :=
  let s := solving (locked none)
  { s with ftu := { s.ftu with state := .freeRun, phase := .blanking, turnWaiting := true } }

theorem witness_MarkerIsFollowed_cuts :
    cutShort.lrx.input = .locked ∧ cutShort.lrx.record = none ∧ cutShort.ftu.state = .freeRun ∧
      cutShort.ftu.turnWaiting = true ∧ cutShort.ftu.phase.isOver = false ∧ cutShort.lvs.solve ≠ none :=
  ⟨rfl, rfl, rfl, rfl, rfl, nofun⟩
theorem witness_MarkerIsFollowed_follows :
    (locked none).lrx.input = .locked ∧ (locked none).lrx.record = none ∧ (locked none).ftu.state = .following :=
  ⟨rfl, rfl, rfl⟩

theorem witness_ActiveLineIsJudged_right :
    (acquiring (some .opened)).lrx.input = .acquiring ∧ (acquiring (some .opened)).ftu.state = .freeRun ∧
      (acquiring (some .opened)).lrx.record = some .opened ∧
      (FrameRec.opened.width = none ∨ FrameRec.opened.width = some [blackPixel].length) := ⟨rfl, rfl, rfl, .inl rfl⟩
theorem witness_ActiveLineIsJudged_wrong :
    (acquiring (some goodFrame)).lrx.input = .acquiring ∧ (acquiring (some goodFrame)).ftu.state = .freeRun ∧
      (acquiring (some goodFrame)).lrx.record = some goodFrame ∧ goodFrame.width = some 128 ∧
      128 ≠ [blackPixel].length ∧ (acquiring (some goodFrame)).cleanSetting Config.losErrorLimit ∧
      min 65535 (goodFrame.errors + 1) < (acquiring (some goodFrame)).mem.active Config.losErrorLimit :=
  ⟨rfl, rfl, rfl, rfl, by decide, ⟨rfl, rfl⟩, by decide +kernel⟩

theorem witness_FollowedLineIsHandedOn :
    let s := locked (some .opened)
    s.lrx.input = .locked ∧ s.lrx.locked = some ⟨128, 72⟩ ∧ s.ftu.state = .following ∧
      s.lrx.record = some .opened ∧
      (FrameRec.opened.width = none ∨ FrameRec.opened.width = some (List.replicate 128 blackPixel).length) ∧
      s.stu.grid = some oneCell ∧ s.stu.lineBuffer = [] ∧ s.ftu.turnTaken = true :=
  ⟨rfl, rfl, rfl, rfl, .inl rfl, rfl, rfl, rfl⟩
theorem witness_FollowedLineIsHandedOn_wrong_length :
    let s := locked (some goodFrame)
    s.lrx.record = some goodFrame ∧ goodFrame.width = some 128 ∧ 128 ≠ [blackPixel].length ∧
      s.cleanSetting Config.losErrorLimit ∧
      min 65535 (goodFrame.errors + 1) < s.mem.active Config.losErrorLimit ∧ s.stu.grid = some oneCell ∧
      s.stu.lineBuffer = [] := ⟨rfl, rfl, by decide, ⟨rfl, rfl⟩, by decide +kernel, rfl, rfl⟩
theorem witness_FollowedLineIsHandedOn_waits :
    let s := output .none [.start]
    s.lrx.input = .locked ∧ s.ftu.state = .following ∧ s.ftu.turnTaken = false := ⟨rfl, rfl, rfl⟩

/-- ACQUIRING at the end of a good frame with a run of `n`. -/
def run (n : Nat) : State :=
  let s := acquiring (some goodFrame)
  { s with lrx := { s.lrx with candidate := some ⟨128, 72⟩, runCount := n } }

theorem witness_GoodFramesLock_locks :
    (run 3).lrx.input = .acquiring ∧ (run 3).lrx.record = some goodFrame ∧
      (run 3).cleanSetting Config.losErrorLimit ∧ (run 3).cleanSetting Config.lockFrames ∧
      (goodFrame.width = some 128 ∧ 72 ≤ goodFrame.lines ∧ goodFrame.lines ≤ 2304 ∧
        goodFrame.errors < (run 3).mem.active Config.losErrorLimit ∧ goodFrame.damaged = false) ∧
      (run 3).mem.active Config.lockFrames ≤
        (if (run 3).lrx.candidate = some ⟨128, goodFrame.lines⟩ then (run 3).lrx.runCount + 1 else 1) :=
  ⟨rfl, rfl, ⟨rfl, rfl⟩, ⟨rfl, rfl⟩, ⟨rfl, by decide, by decide, by decide +kernel, rfl⟩, by decide +kernel⟩
theorem witness_GoodFramesLock_counts :
    goodFrame.errors < (run 2).mem.active Config.losErrorLimit ∧
      (if (run 2).lrx.candidate = some ⟨128, goodFrame.lines⟩ then (run 2).lrx.runCount + 1 else 1) <
        (run 2).mem.active Config.lockFrames := ⟨by decide +kernel, by decide +kernel⟩
theorem witness_GoodFramesLock_bad :
    let s := acquiring (some { goodFrame with damaged := true })
    s.lrx.record = some { goodFrame with damaged := true } ∧
      ({ goodFrame with damaged := true } : FrameRec).damaged = true ∧ 0 < s.mem.active Config.lockFrames :=
  ⟨rfl, rfl, by decide +kernel⟩

theorem witness_StatisticsCompleteAtActiveEnd (m : Mode) :
    let s := inMode m (locked (some goodFrame))
    s.lrx.input = .locked ∧ s.lrx.locked = some ⟨128, 72⟩ ∧ s.ftu.state = .following ∧
      s.lrx.record = some goodFrame ∧ goodFrame.offGeometry = false ∧ (⟨128, 72⟩ : Geometry).height ≤ goodFrame.lines ∧
      s.stu.grid = some oneCell ∧ s.quiet := ⟨rfl, rfl, rfl, rfl, rfl, by decide, rfl, ⟨rfl, rfl⟩⟩

theorem witness_LinkErrorsAreCounted_closed : State.reset.lrx.record = none := rfl
theorem witness_LinkErrorsAreCounted_between :
    (acquiring none).lrx.record = none ∧ (acquiring none).lrx.input ≠ .noSignal ∧
      LinkPlace.blankingLine 3 = .blankingLine 3 ∧ State.reset.lrx.input = .noSignal ∧
      ∀ k, LinkPlace.activeLine ≠ .blankingLine k := ⟨rfl, nofun, rfl, rfl, nofun⟩
theorem witness_LinkErrorsAreCounted_open :
    let s := acquiring (some goodFrame)
    s.lrx.record = some goodFrame ∧ s.cleanSetting Config.losErrorLimit ∧
      min 65535 (goodFrame.errors + 1) < s.mem.active Config.losErrorLimit :=
  ⟨rfl, ⟨rfl, rfl⟩, by decide +kernel⟩
theorem witness_LinkErrorsAreCounted_blanking :
    (acquiring (some .opened)).lrx.record = some .opened ∧ FrameRec.opened.lines = 0 := ⟨rfl, rfl⟩

theorem witness_SignalIsLost_errors :
    let s := acquiring (some { goodFrame with errors := 63 })
    s.ftu.state = .freeRun ∧ s.lrx.record = some { goodFrame with errors := 63 } ∧ s.lrx.input ≠ .noSignal ∧
      s.cleanSetting Config.losErrorLimit ∧ s.mem.active Config.losErrorLimit ≤ min 65535 (63 + 1) :=
  ⟨rfl, rfl, nofun, ⟨rfl, rfl⟩, by decide +kernel⟩
theorem witness_SignalIsLost_line :
    ({ goodFrame with errors := 63 } : FrameRec).width = some 128 ∧ 128 ≠ [blackPixel].length := ⟨rfl, by decide⟩
theorem witness_SignalIsLost_timeout :
    (acquiring none).ftu.state = .freeRun ∧ (acquiring none).lrx.input ≠ .noSignal := ⟨rfl, nofun⟩

theorem witness_FollowedFrameIsClosed (delay : List Delayed) :
    let s := output (.active 5) delay
    s.lrx.input = .locked ∧ s.ftu.state = .following ∧
      ((∃ n, s.ftu.phase = .active n) ∨ s.ftu.phase = .blanking ∧ s.ftu.delay = []) ∧
      s.ftu.turnWaiting = false ∧ s.quiet ∧ s.rpu.slot = none ∧ s.cmd.lane = none ∧ s.ftu.delay = delay :=
  ⟨rfl, rfl, .inl ⟨5, rfl⟩, rfl, ⟨rfl, rfl⟩, rfl, rfl, rfl⟩
theorem witness_FollowedFrameIsClosed_blanking :
    let s := output .blanking []
    (∃ n, s.ftu.phase = .active n) ∨ s.ftu.phase = .blanking ∧ s.ftu.delay = [] := .inr ⟨rfl, rfl⟩
theorem witness_FollowedFrameIsClosed_line :
    (output (.active 5) [blackLine 128 true false]).ftu.delay = [.line (List.replicate 128 blackPixel) true false 128] ∧
      (output (.active 5) [blackLine 128 false false]).pxc.compensating = false := ⟨rfl, rfl⟩

/-- The same part at the last error before the limit, in a frame of width 128. -/
theorem witness_FollowedFrameIsClosed_errors :
    let r : FrameRec := { goodFrame with errors := 63 }
    let s := { output (.active 5) [] with lrx := (locked (some r)).lrx }
    s.lrx.input = .locked ∧ s.ftu.state = .following ∧ s.ftu.phase = .active 5 ∧ s.ftu.turnWaiting = false ∧ s.quiet ∧
      s.rpu.slot = none ∧ s.cmd.lane = none ∧ s.lrx.record = some r ∧
      s.mem.active Config.losErrorLimit ≤ min 65535 (r.errors + 1) ∧ r.width = some 128 ∧ 128 ≠ [blackPixel].length :=
  ⟨rfl, rfl, rfl, rfl, ⟨rfl, rfl⟩, rfl, rfl, rfl, by decide +kernel, rfl, by decide⟩

/-- A part whose line 0 waits for its frame turn, at the last error before the limit. -/
theorem witness_FollowedFrameIsClosed_waiting_line :
    let r : FrameRec := { goodFrame with errors := 63 }
    let s := waitingLine (some r)
    s.lrx.input = .locked ∧ s.ftu.state = .following ∧ s.stu.lineBuffer ≠ [] ∧ s.lrx.record = some r ∧
      s.cleanSetting Config.losErrorLimit ∧ s.mem.active Config.losErrorLimit ≤ min 65535 (r.errors + 1) :=
  ⟨rfl, rfl, nofun, rfl, ⟨rfl, rfl⟩, by decide +kernel⟩

/-- LOCKED and following in output phase `phase`, with this record and delay. -/
def leaving (r : FrameRec) (phase : OutPhase) (delay : List Delayed) : State :=
  { locked (some r) with ftu := { (locked (some r)).ftu with phase := phase, delay := delay } }
/-- A frame of one line of another width. -/
def offFrame : FrameRec := ⟨some 100, 1, 0, false, true⟩

theorem witness_GeometryIsLeft_following (phase : OutPhase) (delay : List Delayed) :
    let s := leaving offFrame phase delay
    s.lrx.input = .locked ∧ s.lrx.locked = some ⟨128, 72⟩ ∧ s.lrx.record = some offFrame ∧ s.quiet ∧
      offFrame.offGeometry = true ∧ s.ftu.state = .following ∧ s.ftu.turnWaiting = false ∧ s.rpu.slot = none ∧
      s.cmd.lane = none ∧ s.ftu.phase = phase ∧ s.ftu.delay = delay ∧ s.stu.grid = some oneCell :=
  ⟨rfl, rfl, rfl, ⟨rfl, rfl⟩, rfl, rfl, rfl, rfl, rfl, rfl, rfl, rfl⟩
theorem witness_GeometryIsLeft_one_line :
    (leaving offFrame .blanking [blackLine 100 false true]).ftu.phase = .blanking ∧
      (leaving offFrame .blanking [blackLine 100 false true]).ftu.delay =
        [.line (List.replicate 100 blackPixel) false true 100] ∧
      (leaving offFrame (.active 3) []).ftu.phase = .active 3 := ⟨rfl, rfl, rfl⟩
theorem witness_GeometryIsLeft_waiting_line :
    let s := waitingLine (some offFrame)
    s.lrx.input = .locked ∧ s.lrx.locked = some ⟨128, 72⟩ ∧ s.lrx.record = some offFrame ∧ s.quiet ∧
      offFrame.offGeometry = true ∧ s.ftu.state = .following ∧ s.stu.lineBuffer ≠ [] :=
  ⟨rfl, rfl, rfl, ⟨rfl, rfl⟩, rfl, rfl, nofun⟩
/-- A marker that ends a line of the frame's own width, damaged or not, and the first line of a frame. -/
theorem witness_GeometryIsLeft_ends_a_line :
    let s := leaving offFrame (.active 1) []
    s.ftu.delay = [] ∧ s.ftu.phase = .active 1 ∧ offFrame.width = some (List.replicate 100 blackPixel).length ∧
      s.lrx.lineDamaged = false ∧ offFrame.offGeometry = true ∧ s.mdc.mode ≠ .dimming ∧
      ({ s.lrx with lineDamaged := true } : Lrx).lineDamaged = true ∧
      (leaving .opened .blanking []).ftu.phase = .blanking ∧ FrameRec.opened.width = none :=
  ⟨rfl, rfl, by decide, rfl, rfl, nofun, rfl, rfl, rfl⟩
theorem witness_GeometryIsLeft_short :
    ({ goodFrame with lines := 71 } : FrameRec).offGeometry = false ∧
      ({ goodFrame with lines := 71 } : FrameRec).lines < (⟨128, 72⟩ : Geometry).height := ⟨rfl, by decide⟩
theorem witness_GeometryIsLeft_free_run :
    let s := { locked (some offFrame) with ftu := State.reset.ftu }
    s.lrx.input = .locked ∧ s.lrx.record = some offFrame ∧ s.ftu.state = .freeRun := ⟨rfl, rfl, rfl⟩

theorem witness_PacketRoundTrip : (packet 0x10 (List.replicate 120 1)).payload.length ≤ 120 := by decide

theorem witness_PacketJoinsQueue :
    let s := acquiring none
    let p := packet 0x01 []
    s.lrx.input ≠ .noSignal ∧ (∀ r, s.lrx.record = some r → r.lines = 0) ∧
      s.lrx.packetErrored ≠ some 3 ∧ s.lrx.packetLost ≠ some 3 ∧ s.cleanSetting Config.deviceTag ∧
      p.payload.length ≤ 120 ∧ (p.tag = s.tag ∨ p.tag = 0xFF) ∧ s.cmd.queue.length < 16 ∧ s.cmd.inFlight = none ∧
      s.cmd.queue ++ [p] = p :: [] ∧ p.reserves ≤ s.cmd.free :=
  ⟨nofun, nofun, nofun, nofun, ⟨rfl, rfl⟩, by decide, .inl (by decide +kernel), by decide, rfl, rfl, by decide⟩
/-- Nothing in flight: a DRIVER_PASS waits for its second entry, and then fits; with every entry filled nothing does. -/
theorem witness_PacketJoinsQueue_held_up :
    let first := packet 0x42 []
    let holding (n : Nat) : Cmd :=
      { Cmd.reset with queue := [first], filled := List.replicate n ⟨0x20, 7, 1, .ok, .none, true, []⟩ }
    (holding 7).inFlight = none ∧ (holding 7).queue ++ [packet 0x01 []] = first :: [packet 0x01 []] ∧
      (holding 7).free < first.reserves ∧ first.reserves ≤ (holding 6).free ∧
      (holding 8).free < (packet 0x01 []).reserves := by decide
/-- A broadcast while following, with another byte behind it and an error to go before the limit. -/
theorem witness_PacketJoinsQueue_broadcast :
    let s := locked (some { FrameRec.opened with errors := 62 })
    let p : Packet := ⟨0xFF, 7, 0x13, []⟩
    s.lrx.input ≠ .noSignal ∧ (∀ r, s.lrx.record = some r → r.lines = 0) ∧ s.ftu.state = .following ∧
      p.tag = 0xFF ∧ p.tag ≠ s.tag ∧ s.cmd.queue.length < 16 ∧ ([0] : List Byte) ≠ [] ∧
      s.cleanSetting Config.losErrorLimit ∧
      (∀ r, s.lrx.record = some r → min 65535 (r.errors + 1) < s.mem.active Config.losErrorLimit) :=
  ⟨nofun, by rintro r ⟨⟩; rfl, rfl, rfl, by decide +kernel, by decide, by decide, ⟨rfl, rfl⟩,
    by rintro r ⟨⟩; decide +kernel⟩
theorem witness_PacketJoinsQueue_behind_another :
    (flight 0x01 []).cmd.inFlight = some ⟨packet 0x01 [], 1⟩ ∧ (flight 0x01 []).cmd.inFlight ≠ none :=
  ⟨by decide, nofun⟩

/-- ACQUIRING with a full command queue. -/
def fullQueue : State :=
  { acquiring none with cmd := { Cmd.reset with queue := List.replicate 16 (packet 0x01 []) } }

theorem witness_PacketIsDroppedOrForwarded_errors :
    let s := acquiring none
    let bytes : List Byte := [0x20, 7, 1, 0, 0, 0]
    s.lrx.input ≠ .noSignal ∧ (∀ r, s.lrx.record = some r → r.lines = 0) ∧
      s.lrx.packetLost ≠ some 3 ∧ s.cleanSetting Config.deviceTag ∧ declaredLength bytes = some bytes.length ∧
      (bytes.getD 0 0 = s.tag ∨ bytes.getD 0 0 = 0xFF) ∧
      packetPasses (decide (s.lrx.packetErrored = some 3)) bytes = false :=
  ⟨nofun, nofun, nofun, ⟨rfl, rfl⟩, by decide, .inl (by decide +kernel), by decide +kernel⟩
theorem witness_PacketIsDroppedOrForwarded_full :
    let bytes := packetBytes (packet 0x01 [])
    fullQueue.lrx.input ≠ .noSignal ∧ (∀ r, fullQueue.lrx.record = some r → r.lines = 0) ∧
      fullQueue.lrx.packetLost ≠ some 3 ∧
      fullQueue.cleanSetting Config.deviceTag ∧ declaredLength bytes = some bytes.length ∧
      (bytes.getD 0 0 = fullQueue.tag ∨ bytes.getD 0 0 = 0xFF) ∧
      packetPasses (decide (fullQueue.lrx.packetErrored = some 3)) bytes = true ∧
      fullQueue.cmd.queue.length = 16 :=
  ⟨nofun, nofun, nofun, ⟨rfl, rfl⟩, by decide +kernel, .inl (by decide +kernel), by decide +kernel, rfl⟩
theorem witness_PacketIsDroppedOrForwarded_foreign :
    let s := locked (some .opened)
    let bytes : List Byte := [0x21, 7, 1, 0, 0, 0]
    s.lrx.input ≠ .noSignal ∧ (∀ r, s.lrx.record = some r → r.lines = 0) ∧ s.lrx.packetLost ≠ some 3 ∧
      s.cleanSetting Config.deviceTag ∧ declaredLength bytes = some bytes.length ∧ bytes.getD 0 0 ≠ s.tag ∧
      bytes.getD 0 0 ≠ 0xFF ∧ s.ftu.state = .following ∧ s.lrx.packetErrored ≠ some 3 :=
  ⟨nofun, by rintro r ⟨⟩; rfl, nofun, ⟨rfl, rfl⟩, by decide, by decide +kernel, by decide, rfl, nofun⟩
/-- A packet one byte short, and a line of three bytes, which declares no length. -/
theorem witness_PacketIsDroppedOrForwarded_past_the_line :
    let s := acquiring (some .opened)
    let bytes : List Byte := [0x20, 7, 1, 0, 0]
    s.lrx.input ≠ .noSignal ∧ (∀ r, s.lrx.record = some r → r.lines = 0) ∧ bytes ≠ [] ∧
      s.cleanSetting Config.deviceTag ∧ s.cleanSetting Config.losErrorLimit ∧
      (∀ r, s.lrx.record = some r → min 65535 (r.errors + 1) < s.mem.active Config.losErrorLimit) ∧
      (∀ n, declaredLength bytes = some n → bytes.length < n) ∧
      (∀ n, declaredLength [0x20, 7, 1] = some n → [(0x20 : Byte), 7, 1].length < n) ∧
      s.lrx.packetLost ≠ some 3 ∧ ({ s.lrx with packetLost := some 3 } : Lrx).packetLost = some 3 :=
  ⟨nofun, by rintro r ⟨⟩; rfl, by decide, ⟨rfl, rfl⟩, ⟨rfl, rfl⟩, by rintro r ⟨⟩; decide +kernel,
    by rintro n ⟨⟩; decide, nofun, nofun, rfl⟩
/-- A blanking line behind the first active line of a frame of 128 pixels. -/
theorem witness_PacketIsDroppedOrForwarded_active_line :
    let s := acquiring (some goodFrame)
    s.lrx.input = .acquiring ∧ s.lrx.record = some goodFrame ∧ 0 < goodFrame.lines ∧ [(0x20 : Byte)] ≠ [] ∧
      s.ftu.state = .freeRun ∧ goodFrame.width = some 128 ∧ 128 ≠ 0 ∧ s.cleanSetting Config.losErrorLimit ∧
      min 65535 (goodFrame.errors + 1) < s.mem.active Config.losErrorLimit :=
  ⟨rfl, rfl, by decide, by decide, rfl, rfl, by decide, ⟨rfl, rfl⟩, by decide +kernel⟩
theorem witness_PacketIsDroppedOrForwarded_silent : State.reset.lrx.input = .noSignal := rfl

/-! ## Hypotheses that are met: output frames -/

theorem frameStartDue_following : (output .none [.start]).frameStartDue := ⟨rfl, .inl ⟨rfl, [], rfl⟩⟩
theorem frameStartDue_freeRun : State.reset.frameStartDue := ⟨rfl, .inr ⟨rfl, 0, rfl⟩⟩

theorem witness_FrameStartNumbersAndStamps_following :
    let s := output .none [.start]
    s.frameStartDue ∧ s.quiet ∧ s.ftu.state = .following ∧ s.lvs.solve = none ∧ s.stu.lineBuffer = [] :=
  ⟨frameStartDue_following, ⟨rfl, rfl⟩, rfl, rfl, rfl⟩
theorem witness_FrameStartNumbersAndStamps_free_run :
    State.reset.frameStartDue ∧ State.reset.quiet ∧ State.reset.ftu.state = .freeRun ∧
      State.reset.ftu.freeDue = some 0 := ⟨frameStartDue_freeRun, reset_quiet, rfl, rfl⟩
theorem witness_FrameStartNumbersAndStamps_waits :
    let s := solving (output .none [.start])
    s.frameStartDue ∧ s.quiet ∧ s.lvs.solve.isSome = true := ⟨frameStartDue_following, ⟨rfl, rfl⟩, rfl⟩

theorem witness_ScanFollowsFrameStart_standby :
    State.reset.frameStartDue ∧ State.reset.quiet ∧ State.reset.mdc.request = none ∧
      State.reset.mdc.mode = .standby := ⟨frameStartDue_freeRun, reset_quiet, rfl, rfl⟩
theorem witness_ScanFollowsFrameStart_scans :
    let s := inMode .safe State.reset
    s.frameStartDue ∧ s.quiet ∧ s.mdc.request = none ∧ s.mdc.mode ≠ .standby ∧ s.sns.converter = .idle :=
  ⟨frameStartDue_freeRun, reset_quiet, rfl, nofun, rfl⟩
theorem witness_ScanFollowsFrameStart_overrun :
    let s := inMode .safe { State.reset with sns := { Sns.reset with converter := .manual 8 0 } }
    s.frameStartDue ∧ s.quiet ∧ s.mdc.request = none ∧ s.mdc.mode ≠ .standby ∧ s.sns.converter ≠ .idle :=
  ⟨frameStartDue_freeRun, reset_quiet, rfl, nofun, nofun⟩

/-- After reset, with these commit marks. -/
def marked (m : BitVec 4) : State := { State.reset with tbs := { State.reset.tbs with marks := m } }

/-- Zones 0 and 1 of a ZONE_MAP bank on one channel. -/
def twoOnOne (bank : Nat) : Memory :=
  (Memory.store [] (wordKey (2 + bank) 0) 0x8000).store (wordKey (2 + bank) 2) 0x8000

theorem witness_CommitIsAllOrNothing_none :
    State.reset.frameStartDue ∧ State.reset.quiet ∧ State.reset.lvs.solve = none ∧ State.reset.tbs.marks = 0 :=
  ⟨frameStartDue_freeRun, reset_quiet, rfl, rfl⟩
theorem twoOnOne_duplicates (s : State) (h0 : s.mem.mapEntry 0 0 = ⟨some ⟨0, 0, 0⟩, 1, 128⟩)
    (h1 : s.mem.mapEntry 0 1 = ⟨some ⟨0, 0, 0⟩, 1, 128⟩) : s.mem.duplicateChannel 0 = true := by
  unfold Memory.duplicateChannel Memory.mappedChannels
  rw [show Config.zones = 2302 + 1 + 1 from rfl, List.range_succ_eq_map, List.range_succ_eq_map]
  simp [h0, h1]
theorem witness_CommitIsAllOrNothing_fails :
    let s := { marked 2 with mem := twoOnOne 0 }
    s.frameStartDue ∧ s.quiet ∧ s.lvs.solve = none ∧ s.tbs.marks ≠ 0 ∧ s.tbs.marks.getLsbD 1 = true ∧
      s.mem.duplicateChannel 0 = true :=
  ⟨frameStartDue_freeRun, reset_quiet, rfl, by decide, rfl,
    twoOnOne_duplicates _ (by decide +kernel) (by decide +kernel)⟩
theorem witness_CommitIsAllOrNothing_copies :
    (marked 5).frameStartDue ∧ (marked 5).quiet ∧ (marked 5).lvs.solve = none ∧ (marked 5).tbs.marks ≠ 0 ∧
      ((marked 5).tbs.marks.getLsbD 1 = false ∨ (marked 5).mem.duplicateChannel 0 = false) :=
  ⟨frameStartDue_freeRun, reset_quiet, rfl, by decide, .inl rfl⟩

/-- The last word of the active SPREAD_KERNEL, and of the active SETTINGS, has two wrong bits; its table is marked. -/
theorem witness_CommitIsAllOrNothing_wrong_word :
    let broken (m : BitVec 4) (a : Nat) : State :=
      { marked m with imn := { State.reset.imn with upsets := [(a, some .uncorrectable)] } }
    (broken 8 (wordKey 7 48)).frameStartDue ∧ (broken 8 (wordKey 7 48)).lvs.solve = none ∧ 3 < 4 ∧
      48 < Config.memoryWords (2 * 3 + 1) ∧ 85 < Config.memoryWords (2 * 0 + 1) ∧
      (broken 8 (wordKey 7 48)).tbs.marks.getLsbD 3 = true ∧ (broken 8 (wordKey 7 48)).tbs.marks.getLsbD 1 = false ∧
      (broken 8 (wordKey 7 48)).imn.marks = [] ∧
      (broken 8 (wordKey 7 48)).imn.upsets = [(wordKey (2 * 3 + 1) 48, some .uncorrectable)] ∧
      (broken 9 (wordKey 1 85)).tbs.marks.getLsbD 0 = true ∧ (broken 9 (wordKey 1 85)).imn.log.length < 4 :=
  ⟨frameStartDue_freeRun, rfl, by decide, by decide, by decide, rfl, rfl, rfl, rfl, rfl, Nat.zero_lt_succ _⟩

theorem witness_ModeRequestIsJudged_safe :
    let s := asking .safe State.reset
    s.frameStartDue ∧ s.quiet ∧ s.lvs.solve = none ∧ s.mdc.request = some .safe :=
  ⟨frameStartDue_freeRun, reset_quiet, rfl, rfl⟩
/-- Whether some zone of the grid is mapped, and whether some mapped zone's device is not enumerated. -/
def mapVerdict (s t : State) : Bool × Bool :=
  let mapped := (List.range (t.mem.active Config.gridColumns * t.mem.active Config.gridRows)).filterMap
    (fun z => (t.mem.mapEntry 1 z).channel)
  (!mapped.isEmpty, mapped.any (fun c => decide ((s.chc.chains.toList.getD c.chain .reset).count ≤ c.device)))

/-- DIMMING requested, with zone 0 mapped to the first device of chain 0, which has `n` devices. -/
def dimming (n : Nat) : State :=
  let s := asking .dimming State.reset
  { s with mem := Memory.store [] (wordKey 3 0) 0x8000 }.setChain 0 { ChainRec.reset with count := n }

theorem witness_ModeRequestIsJudged_no_zones :
    let s := asking .dimming State.reset
    s.frameStartDue ∧ s.quiet ∧ s.lvs.solve = none ∧ s.mdc.request = some .dimming ∧
      after (exec (.outputFrameStart 0 true) s) (mapVerdict s) = some (false, false) :=
  ⟨frameStartDue_freeRun, reset_quiet, rfl, rfl, by decide +kernel⟩
theorem witness_ModeRequestIsJudged_unknown :
    (dimming 0).frameStartDue ∧ (dimming 0).quiet ∧ (dimming 0).lvs.solve = none ∧
      (dimming 0).mdc.request = some .dimming ∧
      after (exec (.outputFrameStart 0 true) (dimming 0)) (mapVerdict (dimming 0)) = some (true, true) :=
  ⟨frameStartDue_freeRun, reset_quiet, rfl, rfl, by decide +kernel⟩
theorem witness_ModeRequestIsJudged_passes :
    (dimming 1).frameStartDue ∧ (dimming 1).quiet ∧ (dimming 1).lvs.solve = none ∧
      (dimming 1).mdc.request = some .dimming ∧
      after (exec (.outputFrameStart 0 true) (dimming 1)) (mapVerdict (dimming 1)) = some (true, false) :=
  ⟨frameStartDue_freeRun, reset_quiet, rfl, rfl, by decide +kernel⟩

/-- SAFE, STANDBY requested, chain 2 with three devices and a burst running. -/
def toStandby : State :=
  asking .standby (inMode .safe (withChain (fun c =>
    { c with count := 3, activity := .burst ⟨⟨5, .freeRun⟩, []⟩ 3 1 })))

theorem witness_StandbyEntryGoesDark :
    toStandby.frameStartDue ∧ toStandby.quiet ∧ toStandby.lvs.solve = none ∧
      toStandby.mdc.request = some .standby ∧ toStandby.mdc.mode ≠ .standby ∧
      (∃ job devices slot, toStandby.chc.chains[(2 : ChainNo)].activity = .burst job devices slot) ∧
      toStandby.chc.chains[(2 : ChainNo)].awaiting = none ∧ 0 < toStandby.chc.chains[(2 : ChainNo)].count :=
  ⟨frameStartDue_freeRun, reset_quiet, rfl, rfl, nofun, ⟨_, _, _, rfl⟩, rfl, by decide⟩

theorem witness_BlankingLineCarriesPacket :
    let s := output .blanking []
    let t := { s with ftu := { s.ftu with forward := [(3, [0x21, 7, 1, 0, 0, 0])] } }
    t.ftu.phase = .blanking ∧ t.ftu.forward = [(3, [0x21, 7, 1, 0, 0, 0])] ∧
      s.ftu.phase = .blanking ∧ ∀ e ∈ s.ftu.forward, e.1 ≠ 3 := ⟨rfl, rfl, rfl, nofun⟩

theorem firstLineDue_following (l : List Delayed) : (output .blanking (blackLine 128 false false :: l)).firstLineDue :=
  ⟨rfl, .inr ⟨rfl, _, _, _, _, l, rfl⟩⟩
theorem firstLineDue_freeRun : (freeRun .blanking).firstLineDue := ⟨rfl, .inl rfl⟩

/-- The latest set: zone 0 on chain 2, device 0, channel 0. -/
def latestSet : LevelSet := ⟨some ⟨5, .statistics⟩, [(0, ⟨1727, 29359, some ⟨2, 0, 0⟩⟩)]⟩

/-- DIMMING at a first active line, with chain 2 as `c`. -/
def atFirstLine (c : ChainRec) : State :=
  let s := inMode .dimming (output .blanking [blackLine 128 false false])
  ({ s with lvs := { s.lvs with lastSet := latestSet } }).setChain 2 c

theorem noLatch (c : ChainRec) (h : c.latchPending = false) (h2 : c.latchDue = none) (k : ChainNo) :
    (atFirstLine c).chc.chains[k].latchPending = false ∧ (atFirstLine c).chc.chains[k].latchDue = none := by
  have : (atFirstLine c).chc.chains[k] = if k = 2 then c else ChainRec.reset := by
    simp only [atFirstLine, State.setChain, Fin.getElem_fin, Vector.getElem_set]
    split
    · next h => rw [if_pos (Fin.ext h.symm)]
    · next h =>
      rw [if_neg (fun e : k = 2 => h (e ▸ rfl))]
      simp [inMode, output, locked, State.reset, State.powerOn, Chc.reset]
  rw [this]
  split
  · exact ⟨h, h2⟩
  · exact ⟨rfl, rfl⟩

/-- Chain 2 with the burst of the latest set done, and with it running. -/
def doneChain : ChainRec := { ChainRec.reset with doneTag := some ⟨5, .statistics⟩ }
def lateChain : ChainRec := { ChainRec.reset with activity := .burst ⟨⟨5, .statistics⟩, []⟩ 1 0 }

theorem atFirstLine_offers (c : ChainRec) : (atFirstLine c).offers 2 ⟨5, .statistics⟩ :=
  ⟨nofun, rfl, rfl, nofun⟩

theorem witness_FirstLineSettlesChains :
    (atFirstLine doneChain).firstLineDue ∧ (atFirstLine doneChain).ftu.turnWaiting = false ∧
      (atFirstLine doneChain).quiet ∧ (atFirstLine doneChain).stu.grid = some oneCell ∧
      (∀ k : ChainNo, (atFirstLine doneChain).chc.chains[k].latchPending = false ∧
        (atFirstLine doneChain).chc.chains[k].latchDue = none) ∧ (atFirstLine doneChain).takesLatest 2 :=
  ⟨firstLineDue_following [], rfl, ⟨rfl, rfl⟩, rfl, noLatch _ rfl rfl, _, atFirstLine_offers _, rfl⟩

theorem witness_DisplayLevelsFollowChains :
    (atFirstLine doneChain).firstLineDue ∧ (atFirstLine doneChain).ftu.turnWaiting = false ∧
      (atFirstLine doneChain).quiet ∧ (atFirstLine doneChain).mdc.mode ≠ .standby ∧
      ((atFirstLine doneChain).lvs.lastSet.zone 0).channel = some ⟨2, 0, 0⟩ ∧
      (atFirstLine doneChain).takesLatest 2 ∧ (atFirstLine doneChain).chc.latch 0 = .clear ∧
      ((atFirstLine doneChain).lvs.lastSet.zone 1).channel = none ∧
      sparseGet (fun _ => none) (atFirstLine doneChain).pxc.displayChain 1 = none :=
  ⟨firstLineDue_following [], rfl, ⟨rfl, rfl⟩, nofun, rfl, ⟨_, atFirstLine_offers _, rfl⟩, rfl, rfl, rfl⟩
/-- The latch of zone 0 was set and cleared again since the previous line: chain 2 takes the set, the zone stays dark. -/
theorem witness_DisplayLevelsFollowChains_cleared_latch :
    let s := { atFirstLine doneChain with
      chc := { (atFirstLine doneChain).chc with struck := [(0, true)] }
      lvs := { (atFirstLine doneChain).lvs with unlit := [(0, true)] } }
    s.firstLineDue ∧ s.mdc.mode ≠ .standby ∧ s.chc.latch 0 = .clear ∧
      sparseGet (fun _ => false) s.chc.struck 0 = true ∧ sparseGet (fun _ => false) s.lvs.unlit 0 = true ∧
      sparseGet (fun _ => false) s.chc.struck 1 = false :=
  ⟨firstLineDue_following [], nofun, rfl, rfl, rfl, rfl⟩
theorem witness_DisplayLevelsFollowChains_standby :
    (freeRun .blanking).firstLineDue ∧ (freeRun .blanking).ftu.turnWaiting = false ∧ (freeRun .blanking).quiet ∧
      (freeRun .blanking).mdc.mode = .standby := ⟨firstLineDue_freeRun, rfl, ⟨rfl, rfl⟩, rfl⟩
theorem witness_DisplayLevelsFollowChains_held :
    (atFirstLine lateChain).chc.latch 0 = .clear ∧ ¬ (atFirstLine lateChain).takesLatest 2 :=
  ⟨rfl, fun ⟨_, _, h⟩ => nomatch h⟩

theorem witness_LateChainsAreReported :
    (atFirstLine lateChain).firstLineDue ∧ (atFirstLine lateChain).ftu.turnWaiting = false ∧
      (atFirstLine lateChain).quiet ∧ (atFirstLine lateChain).lateAtFirstLine 2 :=
  ⟨firstLineDue_following [], rfl, ⟨rfl, rfl⟩, _, atFirstLine_offers _, nofun, .inl ⟨_, _, _, rfl, rfl⟩⟩

theorem witness_LateSolveIsAbandoned :
    let s := solving (output .blanking [blackLine 128 false false])
    let t := { s with ftu := { s.ftu with turnWaiting := true } }
    t.firstLineDue ∧ t.ftu.turnWaiting = true ∧ t.lvs.solve = some solve ∧ t.quiet ∧ t.mdc.request = none :=
  ⟨firstLineDue_following [], rfl, rfl, ⟨rfl, rfl⟩, rfl⟩

/-- DIMMING and compensating at output active line 5, this line in the delay. -/
def atLine (l : Delayed) : State :=
  let s := inMode .dimming (output (.active 5) [l])
  { s with pxc := { s.pxc with
      capture := some ⟨4095, 4096, 0, 16, [], oneCell, .dimming⟩, compensating := true } }

theorem no_latch_at_line (l : Delayed) (k : ChainNo) (_ : (atLine l).chc.latchLines[k] = 5) :
    (atLine l).chc.chains[k].latchPending = false := by
  simp [atLine, inMode, output, locked, State.reset, State.powerOn, Chc.reset, ChainRec.reset]

theorem witness_OutputLineIsSentFourWays_damaged :
    (atLine (blackLine 128 true false)).ftu.phase = .active 5 ∧
      (∀ k : ChainNo, (atLine (blackLine 128 true false)).chc.latchLines[k] = 5 →
        (atLine (blackLine 128 true false)).chc.chains[k].latchPending = false) ∧
      (atLine (blackLine 128 true false)).ftu.state = .following ∧
      (atLine (blackLine 128 true false)).ftu.delay = [blackLine 128 true false] :=
  ⟨rfl, no_latch_at_line _, rfl, rfl⟩
theorem witness_OutputLineIsSentFourWays_off_geometry :
    (atLine (blackLine 128 false true)).ftu.phase = .active 5 ∧
      (∀ k : ChainNo, (atLine (blackLine 128 false true)).chc.latchLines[k] = 5 →
        (atLine (blackLine 128 false true)).chc.chains[k].latchPending = false) ∧
      (atLine (blackLine 128 false true)).ftu.delay = [blackLine 128 false true] :=
  ⟨rfl, no_latch_at_line _, rfl⟩
theorem witness_OutputLineIsSentFourWays_compensated :
    let s := atLine (blackLine 128 false false)
    s.ftu.phase = .active 5 ∧
      (∀ k : ChainNo, s.chc.latchLines[k] = 5 → s.chc.chains[k].latchPending = false) ∧ s.ftu.state = .following ∧
      s.ftu.delay = [blackLine 128 false false] ∧ s.pxc.compensating = true ∧ s.mdc.mode = .dimming ∧
      s.pxc.capture = some ⟨4095, 4096, 0, 16, [], oneCell, .dimming⟩ :=
  ⟨rfl, no_latch_at_line _, rfl, rfl, rfl, rfl, rfl⟩
theorem witness_OutputLineIsSentFourWays_free_run :
    (freeRun (.active 5)).ftu.phase = .active 5 ∧ (freeRun (.active 5)).ftu.state = .freeRun ∧
      5 < (freeRun (.active 5)).ftu.geometry.height := ⟨rfl, rfl, by decide⟩

theorem activeEndDue_following : (output (.active 72) [.activeEnd]).activeEndDue :=
  ⟨⟨72, rfl⟩, .inr ⟨rfl, [], rfl⟩⟩
theorem witness_ActiveEndQueuesReport_lane_idle :
    let s := output (.active 72) [.activeEnd]
    s.activeEndDue ∧ s.quiet ∧ s.rpu.slot = none ∧ s.cmd.lane = none ∧ s.ftu.state = .following :=
  ⟨activeEndDue_following, ⟨rfl, rfl⟩, rfl, rfl, rfl⟩
theorem witness_ActiveEndQueuesReport_lane_busy :
    let s := output (.active 72) [.activeEnd]
    let t := { s with cmd := { s.cmd with lane := some (.report s.report) } }
    let u := { t with rpu := { t.rpu with slot := some s.report } }
    t.activeEndDue ∧ t.quiet ∧ t.rpu.slot = none ∧ t.cmd.lane ≠ none ∧
      u.activeEndDue ∧ u.quiet ∧ u.rpu.slot = some s.report ∧ u.cmd.lane ≠ none :=
  ⟨activeEndDue_following, ⟨rfl, rfl⟩, rfl, nofun, activeEndDue_following, ⟨rfl, rfl⟩, rfl, nofun⟩
theorem witness_ActiveEndQueuesReport_free_run :
    let s := inMode .bypass (freeRun (.active 7))
    s.activeEndDue ∧ s.quiet ∧ s.ftu.state = .freeRun ∧ s.mdc.mode ≠ .standby ∧ s.stu.grid = some oneCell :=
  ⟨⟨⟨7, rfl⟩, .inl rfl⟩, ⟨rfl, rfl⟩, rfl, nofun, rfl⟩


/-! ## Hypotheses that are met: the level solver and the pixel compensator -/

/-- A solve that processes zone 0, on chain 2. -/
def mappedSolve : Solve := { solve with tables := Memory.store [] (wordKey 3 0) 0x9000 }

theorem witness_TargetAndFilterOfAZone_sources :
    solve.source = .statistics ∧ ({ solve with source := .safe } : Solve).source = .safe ∧
      ({ solve with source := .bypass } : Solve).source = .bypass ∧ solve.setting Config.riseRate ≤ 256 ∧
      solve.setting Config.fallRate ≤ 256 := ⟨rfl, rfl, rfl, by decide +kernel, by decide +kernel⟩
theorem witness_TargetAndFilterOfAZone_filter :
    let up : Solve := { solve with source := .safe }
    let down : Solve := { up with prevF := [(0, 65520)] }
    let still : Solve := { up with prevF := [(0, 8192)] }
    up.sceneCut = false ∧ up.lockJump = false ∧ sparseGet (fun _ => false) up.reseed 0 = false ∧
      sparseGet (fun _ => 0) up.prevF 0 < 16 * up.target 0 ∧
      16 * down.target 0 < sparseGet (fun _ => 0) down.prevF 0 ∧
      16 * still.target 0 = sparseGet (fun _ => 0) still.prevF 0 ∧
      ({ up with lockJump := true } : Solve).lockJump = true := by decide +kernel

theorem witness_LevelStagesOfAZone :
    mappedSolve.processes 0 = true ∧ mappedSolve.entry 0 = ⟨some ⟨2, 0, 0⟩, 1, 128⟩ ∧
      (⟨2, 0, 0⟩ : Channel).chain = (2 : ChainNo).val ∧
      sparseGet (fun _ => FaultLatch.clear) mappedSolve.latches 0 = .clear ∧ Chc.reset.latch 0 = .clear := by
  decide +kernel
theorem witness_LevelStagesOfAZone_faults :
    let v : Solve := { mappedSolve with latches := [(0, .opened)] }
    v.processes 0 = true ∧ sparseGet (fun _ => FaultLatch.clear) v.latches 0 ≠ .clear ∧
      ({ Chc.reset with latches := [(0, .shorted)] } : Chc).latch 0 ≠ .clear := by decide +kernel
/-- A latch set and cleared again during the solve, and a zone with neither. -/
theorem witness_LevelStagesOfAZone_cleared :
    let v : Solve := { mappedSolve with unlit := [(0, true)] }
    v.processes 0 = true ∧ sparseGet (fun _ => false) v.unlit 0 = true ∧
      ¬ (Chc.reset.latch 0 ≠ .clear ∨ sparseGet (fun _ => false) mappedSolve.unlit 0 = true) := by decide +kernel

/-- Zone 0 mapped to chain 2 with SAFE_LEVEL as its target, and a POWER_BUDGET of `n`. -/
def budgeted (n : Nat) : Solve :=
  { mappedSolve with
    source := .safe, lockJump := true
    tables := (mappedSolve.tables.store (wordKey 1 24) (wordOfNat (n / 65536))).store (wordKey 1 25)
      (wordOfNat n) }
theorem witness_LevelsStayInBudget_full :
    (budgeted 100000).demand ≤ (budgeted 100000).budget ∧ 0 < (budgeted 100000).demand ∧
      (budgeted 100000).processes 0 = true ∧ (budgeted 100000).lateFault Chc.reset 0 = false ∧
      (budgeted 100000).setting Config.foldFactor ≤ 256 := by decide +kernel
theorem witness_LevelsStayInBudget_cut :
    (budgeted 1).budget < (budgeted 1).demand ∧
      (budgeted 1).lateFault { Chc.reset with latches := [(0, .opened)] } 0 = true := by decide +kernel

/-- A solve in flight that maps zone 0 to chain 2, the frame turn waiting or not. -/
def completing (turn : Bool) : State :=
  { State.reset with
    ftu := { State.reset.ftu with turnWaiting := turn }
    lvs := { State.reset.lvs with solve := some mappedSolve } }

theorem witness_SolveCompleteWritesRecords :
    (completing false).lvs.solve = some mappedSolve ∧ (completing false).ftu.turnWaiting = false ∧
      mappedSolve.processes 0 = true ∧ mappedSolve.processes 1 = false :=
  ⟨rfl, rfl, by decide +kernel, by decide +kernel⟩
theorem witness_SolveCompleteWritesRecords_turn :
    (completing true).lvs.solve = some mappedSolve ∧ (completing true).ftu.turnWaiting = true ∧
      (completing true).quiet ∧ (completing true).mdc.request = none := ⟨rfl, rfl, ⟨rfl, rfl⟩, rfl⟩

theorem witness_SolveCompleteStartsBursts :
    let c := (completing false).chc.chains[(2 : ChainNo)]
    (completing false).lvs.solve = some mappedSolve ∧ (completing false).ftu.turnWaiting = false ∧
      mappedSolve.processes 0 = true ∧ (mappedSolve.entry 0).channel = some ⟨(2 : ChainNo).val, 0, 0⟩ ∧
      c.activity = .idle ∧ c.awaiting = none ∧ c.darkWaiting = false ∧ c.latchPending = false ∧ c.latchDue = none ∧
      c.enumWaiting = false :=
  ⟨rfl, rfl, by decide +kernel, by decide +kernel, rfl, rfl, rfl, rfl, rfl, rfl⟩

/-- A capture of a laid grid of 2 × 2 cells in this clip mode. -/
def capture (clip : Nat) : Capture := ⟨4095, 4096, clip, 16, [], Grid.lay 128 72 2 2 3072, .dimming⟩

theorem witness_LightFieldAndPixelLight :
    1 < (capture 0).grid.columns ∧ 1 < (capture 0).grid.rows ∧ (capture 0).grid = Grid.lay 128 72 2 2 3072 ∧
      1 ≤ 2 ∧ 2 ≤ 128 ∧ 2 ≤ 72 ∧ 127 < 128 ∧ 71 < 72 ∧
      ∀ z < 2 * 2, 7 ≤ sparseGet (fun _ => 0) ([(0, 7), (1, 8), (2, 8), (3, 9)] : Sparse Nat) z ∧
        sparseGet (fun _ => 0) ([(0, 7), (1, 8), (2, 8), (3, 9)] : Sparse Nat) z ≤ 9 := by decide
theorem witness_GainAndOutputOfAPixel : (capture 0).clipMode = 0 ∧ (capture 1).clipMode = 1 := ⟨rfl, rfl⟩

/-! ## Hypotheses that are met: the chains -/

/-- A burst that carries zone 0 to device 0, channel 0. -/
def job : BurstJob := ⟨⟨5, .statistics⟩, [⟨0, 0, 0, 29359⟩]⟩

theorem witness_BurstEndsAndArbiterChooses :
    (withChain (fun c => { c with activity := .burst job 3 3, waiting := some job })).chc.chains[(2 : ChainNo)].activity
      = .burst job 3 3 := rfl

theorem witness_LatchesFollowTheirRules_line :
    let s := (freeRun (.active 540)).setChain 2 { ChainRec.reset with latchPending := true }
    s.ftu.phase = .active 540 ∧ s.ftu.state = .freeRun ∧ 540 < s.ftu.geometry.height ∧
      s.chc.latchLines[(2 : ChainNo)] = 540 ∧ s.chc.chains[(2 : ChainNo)].latchPending = true ∧
      s.chc.chains[(2 : ChainNo)].latchDue = none ∧ s.chc.chains[(2 : ChainNo)].activity = .idle :=
  ⟨rfl, rfl, by decide, by decide, rfl, rfl, rfl⟩
/-- Chain 2 with its latch pending, and its line sending what `a` says. -/
def latching (a : Activity) : ChainRec := { ChainRec.reset with latchPending := true, activity := a }
theorem witness_LatchesFollowTheirRules_active_end (a : Activity) :
    let s := (output (.active 72) [.activeEnd]).setChain 2 (latching a)
    s.activeEndDue ∧ s.chc.chains[(2 : ChainNo)].latchPending = true ∧
      s.chc.chains[(2 : ChainNo)].latchDue = none ∧ s.chc.chains[(2 : ChainNo)].activity = a :=
  ⟨activeEndDue_following, rfl, rfl, rfl⟩
theorem witness_LatchesFollowTheirRules_cut (a : Activity) :
    let s := { locked none with ftu := { State.reset.ftu with phase := .active 5 } }.setChain 2 (latching a)
    s.lrx.input = .locked ∧ s.lrx.record = none ∧ s.ftu.state = .freeRun ∧ s.ftu.phase.isOver = false ∧
      s.ftu.turnWaiting = false ∧ s.chc.chains[(2 : ChainNo)].latchPending = true ∧
      s.chc.chains[(2 : ChainNo)].activity = a := ⟨rfl, rfl, rfl, rfl, rfl, rfl, rfl⟩
theorem witness_LatchesFollowTheirRules_first_line (a : Activity) :
    let s := atFirstLine (latching a)
    s.firstLineDue ∧ s.ftu.turnWaiting = false ∧ s.chc.chains[(2 : ChainNo)].latchPending = true ∧
      s.chc.chains[(2 : ChainNo)].activity = a := ⟨firstLineDue_following [], rfl, rfl, rfl⟩
theorem witness_LatchesFollowTheirRules_busy :
    (latching (.burst job 3 1)).activity ≠ .idle ∧ (latching .idle).activity = .idle ∧
      ∀ f, (latching (.burst job 3 1)).activity ≠ .latch (some f) := ⟨nofun, rfl, nofun⟩
theorem witness_LatchesFollowTheirRules_ends :
    (withChain (fun c => { c with activity := .darkBurst 3 3 })).chc.chains[(2 : ChainNo)].activity = .darkBurst 3 3 ∧
      (withChain (fun c => { c with activity := .latch none })).chc.chains[(2 : ChainNo)].activity = .latch none ∧
      (withChain (fun c => { c with activity := .latch (some 9), latchPending := true })).chc.chains[(2 : ChainNo)]
        = { ChainRec.reset with activity := .latch (some 9), latchPending := true } := ⟨rfl, rfl, rfl⟩

/-- Chain 2 in slot 0 of the burst, one device. -/
def reading : State := withChain (fun c => { c with activity := .burst job 1 0 })

theorem witness_GoodStatusUpdatesRecords :
    reading.chc.chains[(2 : ChainNo)].activity = .burst ⟨⟨5, .statistics⟩, [⟨0, 0, 0, 29359⟩]⟩ 1 0 ∧ 0 < 1 ∧ 0 < 24 ∧
      reading.cleanSetting Config.faultConfirm ∧ reading.cleanSetting Config.missLimit ∧
      (⟨0, 0, 0, 29359⟩ : BurstZone) ∈ job.zones ∧ reading.chc.latch 0 = .clear ∧
      (∀ a ∈ job.zones, a.device = 0 → a.channel = 0 → a = ⟨0, 0, 0, 29359⟩) ∧
      (∀ a ∈ job.zones, a.zone = 0 → a = ⟨0, 0, 0, 29359⟩) :=
  ⟨rfl, by decide, by decide, ⟨rfl, rfl⟩, ⟨rfl, rfl⟩, by decide, rfl, by decide, by decide⟩
theorem witness_GoodStatusUpdatesRecords_dark :
    (withChain (fun c => { c with activity := .darkBurst 24 23 })).chc.chains[(2 : ChainNo)].activity
      = .darkBurst 24 23 ∧ 23 < 24 := ⟨rfl, by decide⟩

/-- Device 0 of chain 2 holds the chain at HOT; its next status can clear the hold. -/
theorem witness_GoodStatusUpdatesRecords_held :
    let s := reading.setChain 2 { reading.chc.chains[(2 : ChainNo)] with overTemp := true }
    let t := { s with chc := { s.chc with devices := [(48, ⟨.ok, 0, 0, 0, true⟩)] } }
    t.chc.chains[(2 : ChainNo)].activity = .burst job 1 0 ∧ t.chc.chains[(2 : ChainNo)].overTemp = true ∧
      (t.chc.device (24 * (2 : ChainNo).val + 0)).overTemp = true ∧ (0 : Byte).getLsbD 0 = false ∧
      t.cleanSetting Config.faultConfirm ∧ t.cleanSetting Config.missLimit :=
  ⟨rfl, rfl, rfl, rfl, ⟨rfl, rfl⟩, ⟨rfl, rfl⟩⟩

theorem witness_MissedSlotIsCounted :
    reading.chc.chains[(2 : ChainNo)].activity = .burst job 1 0 ∧ 0 < 1 ∧
      reading.cleanSetting Config.faultConfirm ∧ reading.cleanSetting Config.missLimit ∧
      ([] : List Byte).length ≠ 8 := ⟨rfl, by decide, ⟨rfl, rfl⟩, ⟨rfl, rfl⟩, by decide⟩

/-- Chain 2 in this phase of a sweep. -/
def sweeping (p : EnumPhase) : State := withChain (fun c => { c with activity := .enumerate p })

theorem witness_SweepCountsDevices :
    (sweeping .release).chc.chains[(2 : ChainNo)].activity = .enumerate .release ∧
      (sweeping (.assigning 3)).chc.chains[(2 : ChainNo)].activity = .enumerate (.assigning 3) ∧
      (sweeping (.waiting 3 0)).chc.chains[(2 : ChainNo)].activity = .enumerate (.waiting 3 0) ∧
      (sweeping (.waiting 3 0)).chc.chains[(2 : ChainNo)].enumWaiting = false ∧
      (sweeping (.waiting 3 0)).clock.now + 20 ≤ 0 + 20 ∧ 3 ≠ 24 ∧
      ([] : List Byte) ≠ withCrc8 [0x3C, byteOf 3] := ⟨rfl, rfl, rfl, rfl, by decide, by decide, by decide⟩
theorem witness_SweepCountsDevices_overlength :
    (sweeping (.waiting 24 0)).chc.chains[(2 : ChainNo)].activity = .enumerate (.waiting 24 0) := rfl

/-- Chain 2 waits for the answer of device 5. -/
def exchanging : State :=
  let s := withChain (fun c => { c with awaiting := some 0 })
  { s with
    chc := { s.chc with passQueue := [⟨2, 5, [1], 7, true⟩] }
    cmd := { s.cmd with owed := [⟨7, 0x42, .chains⟩] } }

theorem witness_PassThroughExchange_request :
    let s := withChain (fun c => { c with activity := .passRequest })
    s.chc.chains[(2 : ChainNo)].activity = .passRequest ∧ s.chc.chains[(2 : ChainNo)].latchDue = none := ⟨rfl, rfl⟩
theorem witness_PassThroughExchange_answer :
    exchanging.chc.chains[(2 : ChainNo)].awaiting = some 0 ∧
      exchanging.chc.passQueue[exchanging.chc.exchange 2]? = some ⟨2, 5, [1], 7, true⟩ ∧
      (exchanging.cmd.owed.filter (fun o => o.owner == .chains))[exchanging.chc.exchange 2]? =
        some ⟨7, 0x42, .chains⟩ ∧
      (List.replicate 8 (0 : Byte)).length ≤ 8 ∧ exchanging.clock.now + 2000 ≤ 0 + 2000 ∧
      exchanging.cleanSetting Config.deviceTag ∧
      ∀ answer : List Byte, [] ≠ withCrc8 (0x3C :: byteOf 5 :: byteOf answer.length :: answer) :=
  ⟨rfl, by decide, by decide, by decide, by decide, ⟨rfl, rfl⟩, fun _ => nofun⟩

/-! ## Hypotheses that are met: the sense unit, the return lane, the commands -/

/-- After reset, the converter in this state. -/
def converting (c : Converter) : State := { State.reset with sns := { Sns.reset with converter := c } }

theorem witness_ConversionStoresResult_scan :
    8 ≤ 8 ∧ (converting (.scanning 8 0)).quiet ∧ (converting (.scanning 8 0)).sns.converter = .scanning 8 0 :=
  ⟨by decide, ⟨rfl, rfl⟩, rfl⟩
theorem witness_ConversionStoresResult_manual :
    let s := { converting (.manual 0 0) with cmd := { Cmd.reset with owed := [⟨7, 0x50, .sense⟩] } }
    0 ≤ 8 ∧ s.quiet ∧ s.sns.converter = .manual 0 0 ∧
      s.cmd.owed.filter (fun o => o.owner == .sense) = [⟨7, 0x50, .sense⟩] := ⟨by decide, ⟨rfl, rfl⟩, rfl, by decide⟩

theorem witness_ResultsDriveThermalAndFoldback :
    (converting (.scanning 7 0)).quiet ∧ (converting (.scanning 7 0)).sns.converter = .scanning 7 0 ∧
      (converting (.scanning 8 0)).sns.converter = .scanning 8 0 ∧
      (converting (.scanning 7 0)).sns.thermal[(7 : ChainNo)] = .normal ∧
      (converting (.scanning 7 0)).sns.overTemp[(7 : ChainNo)] = false ∧
      (converting (.scanning 8 0)).sns.foldback = false ∧ (converting (.scanning 8 0)).sns.foldCount = 0 :=
  ⟨⟨rfl, rfl⟩, rfl, rfl, rfl, rfl, rfl, rfl⟩
theorem witness_ResultsDriveThermalAndFoldback_manual :
    (converting (.manual 8 0)).quiet ∧ (converting (.manual 8 0)).sns.converter = .manual 8 0 := ⟨⟨rfl, rfl⟩, rfl⟩

/-- The lane sending, one filled reply, one queued packet. -/
def sending : State :=
  { State.reset with cmd :=
      ⟨[packet 0x01 []], none, [⟨0x20, 7, 1, .ok, .none, true, []⟩], [], some (.report State.reset.report)⟩ }

theorem witness_LaneChoosesNextPacket :
    sending.cmd.lane ≠ none ∧ sending.rpu.slot = none ∧
      sending.cmd.filled = [⟨0x20, 7, 1, .ok, .none, true, []⟩] ∧ sending.cmd.inFlight = none ∧
      sending.cmd.queue = [packet 0x01 []] := ⟨nofun, rfl, rfl, rfl, rfl⟩
theorem witness_LaneChoosesNextPacket_report :
    ({ sending with rpu := { sending.rpu with slot := some State.reset.report } } : State).rpu.slot =
      some State.reset.report := rfl

/-- A packet that finds no room, one that needs none, and an empty queue. -/
theorem witness_LaneChoosesNextPacket_waits :
    let owed := List.replicate 8 (⟨7, 0x42, .chains⟩ : Owed)
    let s : State := { sending with cmd := { sending.cmd with filled := [], owed := owed } }
    let e : State := { sending with cmd := { sending.cmd with queue := [] } }
    s.cmd.lane ≠ none ∧ s.cmd.inFlight = none ∧ s.cmd.queue = [packet 0x01 []] ∧ (packet 0x01 []).reserves ≠ 0 ∧
      8 < (packet 0x01 []).reserves + 0 + owed.length ∧ (⟨0xFF, 7, 0x31, []⟩ : Packet).reserves = 0 ∧
      e.cmd.lane ≠ none ∧ e.cmd.inFlight = none ∧ e.cmd.queue = [] :=
  ⟨nofun, rfl, rfl, by decide, by decide, by decide, nofun, rfl, rfl⟩

/-- The greatest counts that exponents 1 and 7 code, and the least beyond them. -/
theorem witness_LaneChoosesNextPacket_codes :
    31 < 32 ∧ 32 ≤ 127 ∧ 127 / 4 ^ 1 < 32 ∧ 524287 / 4 ^ 7 < 32 ∧ (∀ d, 1 ≤ d → d < 7 → 32 ≤ 524287 / 4 ^ d) ∧
      524288 ≤ 524288 := by
  refine ⟨by decide, by decide, by decide, by decide, fun d h h7 => ?_, by decide⟩
  interval_cases d <;> decide

/-- The packet in flight runs. -/
theorem runs_flight (code : Byte) (payload : List Word) : (flight code payload).runs (packet code payload) code :=
  ⟨rfl, rfl, ⟨rfl, rfl⟩⟩
theorem packet_no_broadcast (code : Byte) (payload : List Word) : (packet code payload).broadcast = false := rfl

theorem witness_CommandsAreRefused_unknown :
    (flight 0x77 []).runs (packet 0x77 []) (packet 0x77 []).code ∧
      ∀ row ∈ commandRows, row.code ≠ (packet 0x77 []).code := ⟨runs_flight _ _, by decide⟩
/-- A broadcast in flight. -/
def broadcastFlight (code : Byte) : State :=
  { State.reset with cmd := { Cmd.reset with inFlight := some ⟨⟨0xFF, 7, code, []⟩, 0⟩ } }
theorem witness_CommandsAreRefused_silent :
    (∃ row ∈ commandRows, row.code = 0x01 ∧ row.silent = true) ∧
      (broadcastFlight 0x01).runs ⟨0xFF, 7, 0x01, []⟩ 0x01 ∧ (⟨0xFF, 7, 0x01, []⟩ : Packet).broadcast = true :=
  ⟨⟨_, List.mem_cons_self, rfl, rfl⟩, ⟨rfl, rfl, ⟨rfl, rfl⟩⟩, rfl⟩
theorem witness_CommandsAreRefused_length :
    ∀ row ∈ commandRows, (flight row.code (List.replicate 9 0)).runs (packet row.code (List.replicate 9 0)) row.code ∧
      (row.silent && (packet row.code (List.replicate 9 0)).broadcast) = false ∧
      (row.code = 0x10 ∨ row.accepts 9 = false) := by
  intro row hr
  refine ⟨runs_flight _ _, by simp [packet_no_broadcast], ?_⟩
  simp only [commandRows, List.cons_append, List.nil_append, List.mem_cons, List.not_mem_nil, or_false] at hr
  rcases hr with rfl | rfl | rfl | rfl | rfl | rfl | rfl | rfl | rfl | rfl | rfl | rfl | rfl | rfl | rfl | rfl | rfl | rfl
  all_goals first
    | exact .inr (by decide)
    | exact .inl rfl

theorem witness_IdentityAndStatusAreReturned :
    (packet 0x01 []).payload = [] ∧ (packet 0x01 []).broadcast = false ∧ (flight 0x01 []).runs (packet 0x01 []) 0x01 ∧
      (flight 0x30 []).runs (packet 0x30 []) 0x30 := ⟨rfl, rfl, runs_flight _ _, runs_flight _ _⟩

/-- WRITE_TABLE of the last SETTINGS entry, of device 24, of a whole TONE_CURVE, of one word to SETTINGS, past the end, to
table 4 and to table 8. -/
theorem witness_WriteTableStoresStaging :
    (∀ payload, (flight 0x10 payload).runs (packet 0x10 payload) 0x10) ∧
      (packet 0x10 [0, 42, 0, 511]).payload = 0 :: 42 :: [0, 511] ∧ 1 ≤ [0, 511].length ∧
      42 < 43 ∧ 42 + [0, 511].length / 2 ≤ 43 ∧ ¬ (511 < (Config.setting 42).lo ∨ (Config.setting 42).hi < 511) ∧
      (0x8600 : Word).getLsbD 15 = true ∧ 23 < ((0x8600 : Word).toNat / 64) % 32 ∧
      0 + (List.replicate 33 (0 : Word)).length / 1 ≤ 33 ∧ [(0 : Word)].length % 2 ≠ 0 ∧
      43 < 42 + [(0 : Word), 0, 0, 0].length / 2 ∧ 3 < (4 : Word).toNat ∧ 7 < (8 : Word).toNat :=
  ⟨fun _ => runs_flight _ _, rfl, by decide, by decide, by decide, by decide, by decide, by decide, by decide,
    by decide, by decide, by decide, by decide⟩

/-- READ_TABLE of the last entries of every table, in the bank it has, is a full reply or a part of one. -/
theorem witness_ReadTableReturnsEntries :
    (∀ payload, (flight 0x11 payload).runs (packet 0x11 payload) 0x11 ∧ (flight 0x11 payload).quiet) ∧
      (packet 0x11 [2, 1, 31, 2]).payload = [2, 1, 31, 2] ∧ (packet 0x11 [2, 1, 31, 2]).broadcast = false ∧
      ∀ table < 8, 0 < 1 ∧ 1 * [2, 2, 1, 1, 8, 4, 3, 4].getD table 0 ≤ 112 ∧
        [43, 2304, 33, 49, 2304, 8, 192, 4].getD table 0 - 1 + 1 ≤
          [43, 2304, 33, 49, 2304, 8, 192, 4].getD table 0 :=
  ⟨fun _ => ⟨runs_flight _ _, ⟨rfl, rfl⟩⟩, rfl, rfl, by decide⟩

/-- Every field of the live tables in its range, with an entry in the error log and without one. -/
theorem witness_ReadTableReturnsEntries_places :
    let s := flight 0x11 [7, 0, 0, 1]
    let t := { s with imn := { s.imn with log := [⟨8, 18431, .uncorrectable, 5⟩] } }
    (statAt s.stu.stats 0).peak ≤ 4095 ∧ (statAt s.stu.stats 0).mean ≤ 4095 ∧
      sparseGet (fun _ => 0) s.pxc.display 0 ≤ 4095 ∧ s.chc.chains[(2 : ChainNo)].count ≤ 24 ∧
      s.sns.results[2]? = some 0 ∧ 0 ≤ 1023 ∧ (s.chc.device 191).misses ≤ 15 ∧ s.imn.log[0]? = none ∧
      t.imn.log[0]? = some ⟨8, 18431, .uncorrectable, 5⟩ ∧ 8 ≤ 8 ∧ 18431 < 18432 := by decide +kernel

theorem witness_CommitAndModeAreHeld_commit :
    (packet 0x12 [2]).payload = [2] ∧ (flight 0x12 [2]).runs (packet 0x12 [2]) 0x12 ∧ (flight 0x12 [2]).quiet ∧
      (2 : Word).toNat ≤ 15 ∧ (2 : Word).getLsbD 1 = true ∧ 15 < (16 : Word).toNat ∧ (5 : Word).getLsbD 1 = false ∧
      ({ flight 0x12 [2] with mem := twoOnOne 0 } : State).mem.duplicateChannel 0 = true :=
  ⟨rfl, runs_flight _ _, ⟨rfl, rfl⟩, by decide, by decide, by decide, by decide,
    twoOnOne_duplicates _ (by decide +kernel) (by decide +kernel)⟩
theorem witness_CommitAndModeAreHeld_mode :
    (packet 0x20 [3]).payload = [3] ∧ (flight 0x20 [3]).runs (packet 0x20 [3]) 0x20 ∧
      (3 : Word).toNat = Mode.safe.code ∧ (flight 0x20 [3]).mdc.request = none ∧
      (∀ k : ChainNo, (flight 0x20 [3]).chc.chains[k].enumerating = false) ∧ 3 < (4 : Word).toNat ∧
      (asking .safe (flight 0x20 [3])).mdc.request ≠ none ∧
      (sweeping .release).chc.chains[(2 : ChainNo)].enumerating = true :=
  ⟨rfl, runs_flight _ _, by decide, rfl, by decide, by decide, nofun, by decide⟩

theorem witness_RegistersAreClearedAndLoaded :
    (∀ code, (flight code []).runs (packet code []) code ∧ (packet code []).payload = []) ∧
      ∀ code hi lo, (flight code [hi, lo]).runs (packet code [hi, lo]) code ∧
        (packet code [hi, lo]).payload = [hi, lo] :=
  ⟨fun _ => ⟨runs_flight _ _, rfl⟩, fun _ _ _ => ⟨runs_flight _ _, rfl⟩⟩

theorem witness_FaultsAreCleared :
    (flight 0x40 []).runs (packet 0x40 []) 0x40 ∧ (packet 0x40 []).payload = [] ∧
      (flight 0x40 [0, 2303]).runs (packet 0x40 [0, 2303]) 0x40 ∧ (packet 0x40 [0, 2303]).payload = [0, 2303] ∧
      (0 : Word).toNat ≤ (2303 : Word).toNat ∧ (2303 : Word).toNat ≤ 2303 ∧ (flight 0x40 [0, 2303]).quiet ∧
      2303 < (2304 : Word).toNat ∧ (flight 0x40 [0]).runs (packet 0x40 [0]) 0x40 ∧
      (packet 0x40 [0]).payload.length ≠ 0 ∧ (packet 0x40 [0]).payload.length ≠ 2 :=
  ⟨runs_flight _ _, rfl, runs_flight _ _, rfl, by decide, by decide, ⟨rfl, rfl⟩, by decide, runs_flight _ _,
    by decide, by decide⟩

/-- The latch of zone 7 set while a solve runs. -/
theorem witness_FaultsAreCleared_while_solving :
    let s := solving (flight 0x40 [])
    let t := { s with chc := { s.chc with latches := [(7, FaultLatch.opened)] } }
    t.runs (packet 0x40 []) 0x40 ∧ t.lvs.solve = some solve ∧ t.chc.latch 7 ≠ .clear :=
  ⟨⟨rfl, rfl, ⟨rfl, rfl⟩⟩, rfl, nofun⟩

theorem witness_EnumerationIsAccepted :
    (flight 0x41 [7]).runs (packet 0x41 [7]) 0x41 ∧ (packet 0x41 [7]).payload = [7] ∧
      (7 : Word).toNat = (7 : ChainNo).val ∧ (flight 0x41 [7]).mdc.mode = .standby ∧
      (∀ k : ChainNo, (flight 0x41 [7]).chc.chains[k].enumerating = false) ∧
      (flight 0x41 [7]).chc.chains[(7 : ChainNo)] = ChainRec.reset ∧ 7 < (8 : Word).toNat ∧
      (inMode .safe (flight 0x41 [7])).mdc.mode ≠ .standby :=
  ⟨runs_flight _ _, rfl, by decide, rfl, by decide, by decide, by decide, nofun⟩

theorem witness_PassThroughIsAccepted :
    let p := packet 0x42 [7, 23, 8, 0x0102, 0x0304, 0x0506, 0x0708]
    (flight 0x42 p.payload).runs p 0x42 ∧ p.broadcast = false ∧
      p.payload = 7 :: 23 :: 8 :: [0x0102, 0x0304, 0x0506, 0x0708] ∧
      ([0x0102, 0x0304, 0x0506, 0x0708] : List Word).length = 4 ∧ (7 : Word).toNat = (7 : ChainNo).val ∧
      (23 : Word).toNat ≤ 23 ∧ 0 < (8 : Word).toNat ∧ (8 : Word).toNat ≤ 8 ∧
      (flight 0x42 p.payload).chc.passQueue.length < 4 ∧
      (flight 0x42 p.payload).chc.chains[(7 : ChainNo)] = ChainRec.reset ∧
      ∀ e ∈ (flight 0x42 p.payload).chc.passQueue, e.chain ≠ 7 :=
  ⟨runs_flight _ _, rfl, rfl, rfl, by decide, by decide, by decide, by decide, by decide, by decide, nofun⟩
/-- What can stand ahead of the entry on an idle chain: a due latch, an awaited answer, a waiting dark burst, a pending
latch, a waiting sweep, a waiting burst, an older entry. -/
theorem witness_PassThroughIsAccepted_ahead (job : BurstJob) :
    let c := ChainRec.reset
    let older : PassEntry := ⟨7, 5, [1], 7, false⟩
    ({ c with latchDue := some 3 } : ChainRec).activity = .idle ∧
      ({ c with awaiting := some 9 } : ChainRec).latchDue = none ∧
      ({ c with darkWaiting := true } : ChainRec).awaiting = none ∧
      ({ c with latchPending := true } : ChainRec).darkWaiting = false ∧
      ({ c with enumWaiting := true } : ChainRec).latchPending = false ∧
      ({ c with waiting := some job } : ChainRec).enumWaiting = false ∧ c.waiting = none ∧
      [older] = [] ++ older :: [] ∧ older.chain = 7 ∧ ∀ o ∈ ([] : List PassEntry), o.chain ≠ 7 :=
  ⟨rfl, rfl, rfl, rfl, rfl, rfl, rfl, rfl, rfl, nofun⟩
theorem witness_PassThroughIsAccepted_full :
    4 ≤ ({ Chc.reset with passQueue := List.replicate 4 ⟨2, 5, [1], 7, false⟩ } : Chc).passQueue.length := by decide

theorem witness_SenseCommandsControlConverter_start :
    (flight 0x50 [8]).runs (packet 0x50 [8]) 0x50 ∧ (packet 0x50 [8]).broadcast = false ∧
      (packet 0x50 [8]).payload = [8] ∧ (8 : Word).toNat ≤ 8 ∧ (flight 0x50 [8]).sns.converter = .idle ∧
      8 < (9 : Word).toNat ∧ (converting (.scanning 0 0)).sns.converter ≠ .idle :=
  ⟨runs_flight _ _, rfl, rfl, by decide, rfl, by decide, nofun⟩
/-- SENSE_ABORT in flight while a manual conversion runs. -/
def aborting : State :=
  let s := flight 0x51 []
  { s with sns := { s.sns with converter := .manual 8 0 }, cmd := { s.cmd with owed := [⟨3, 0x50, .sense⟩] } }
theorem witness_SenseCommandsControlConverter_abort :
    (flight 0x51 []).runs (packet 0x51 []) 0x51 ∧ (packet 0x51 []).payload = [] ∧
      (∀ i since, (flight 0x51 []).sns.converter ≠ .manual i since) ∧
      aborting.runs (packet 0x51 []) 0x51 ∧ aborting.sns.converter = .manual 8 0 ∧
      aborting.cmd.owed.filter (fun o => o.owner == .sense) = [⟨3, 0x50, .sense⟩] :=
  ⟨runs_flight _ _, rfl, fun _ _ => nofun, ⟨rfl, rfl, ⟨rfl, rfl⟩⟩, rfl, by decide⟩

/-! ## Hypotheses that are met: memory integrity, the invariants -/

theorem witness_InjectedErrorActsAtNextRead_mark :
    (flight 0x61 [8, 18431, 1]).runs (packet 0x61 [8, 18431, 1]) 0x61 ∧
      (packet 0x61 [8, 18431, 1]).payload = [8, 18431, 1] ∧ (8 : Word).toNat ≤ 8 ∧
      (18431 : Word).toNat < [86, 86, 4608, 4608, 33, 33, 49, 49, 18432].getD (8 : Word).toNat 0 ∧
      4 ≤ (18431 : Word).toNat % 8 ∧ (1 : Word).toNat ≤ 1 ∧
      wordKey (8 : Word).toNat (18431 : Word).toNat ≠ wordKey 1 60 ∧
      wordKey (8 : Word).toNat (18431 : Word).toNat ≠ wordKey 1 61 ∧ 8 < (9 : Word).toNat ∧ 1 < (2 : Word).toNat :=
  ⟨runs_flight _ _, rfl, by decide, by decide, by decide, by decide, by decide, by decide, by decide, by decide⟩
/-- READ_TABLE of a marked TONE_CURVE point of the active bank. -/
def readingMarked (kind : ErrorKind) : State :=
  let s := flight 0x11 [2, 1, 31, 1]
  { s with imn := { s.imn with marks := [(wordKey 5 31, some kind)] } }
theorem witness_InjectedErrorActsAtNextRead_read (kind : ErrorKind) :
    (readingMarked kind).runs (packet 0x11 [2, 1, 31, 1]) 0x11 ∧ (packet 0x11 [2, 1, 31, 1]).broadcast = false ∧
      (packet 0x11 [2, 1, 31, 1]).payload = [2, 1, 31, 1] ∧ (1 : Word).toNat ≤ 1 ∧ (31 : Word).toNat < 33 ∧
      sparseGet (fun _ => none) (readingMarked kind).imn.marks (wordKey (4 + (1 : Word).toNat) (31 : Word).toNat) =
        some kind ∧
      (readingMarked kind).imn.log.length < 4 :=
  ⟨⟨rfl, rfl, ⟨rfl, rfl⟩⟩, rfl, rfl, by decide, by decide, rfl, Nat.zero_lt_succ _⟩

theorem witness_StepKeepsReplyReservations :
    State.reset.commandInv ∧ ∃ t, step State.reset = .next t :=
  ⟨⟨by decide, by decide, nofun, rfl, by decide, rfl⟩, _, rfl⟩

theorem reset_settings (bank : Nat) (h : bank ≤ 1) : State.reset.mem.settingsLegal bank := by
  have all : ∀ b ≤ 1, ∀ i < 43, (Config.setting i).lo ≤ State.reset.mem.setting b i ∧
      State.reset.mem.setting b i ≤ (Config.setting i).hi := by decide +kernel
  exact all bank h
/-- No zone of the power-on ZONE_MAP is mapped. -/
def unmapped : Bool := (List.range Config.zones).all fun z => (State.reset.mem.mapEntry 1 z).channel.isNone
theorem reset_unmapped : unmapped = true := by decide +kernel
theorem reset_map : State.reset.mapInv := by
  intro y _ hy _ _ c h
  have := List.all_eq_true.mp reset_unmapped y (List.mem_range.mpr hy)
  simp [h] at this
theorem witness_StepKeepsTablesLegal :
    State.reset.memoryInv ∧ State.reset.mapInv ∧ ∃ t, step State.reset = .next t :=
  ⟨⟨by decide, nofun, reset_settings 0 (by decide), reset_settings 1 (by decide), nofun⟩, reset_map, _, rfl⟩
theorem witness_StepKeepsUnitsConsistent :
    State.reset.standbyInv ∧ State.reset.logInv ∧ State.reset.heldInv ∧ ∃ t, step State.reset = .next t :=
  ⟨fun _ => ⟨rfl, rfl, rfl, rfl, by decide, by decide⟩, ⟨by decide, by decide, by decide, nofun⟩, by unfold State.heldInv; decide, _, rfl⟩

end Sys2Proof.Tests
end

