-- ==== Sys2Proof/Proofs/PowerOn.lean ====
section
/-! PROOF. The contents that power-on lays down, and the statements about power-on, RESETN and the invariants there. -/

namespace Sys2Proof.Laws

open Sys2Proof.Machine

/-! ## The words that power-on lays down (R57) -/

/-- The two words of a 32-bit value join to it again. -/
theorem wordOf_join (v : Nat) (h : v < 4294967296) :
    (wordOf v 0).toNat * 65536 + (wordOf v 1).toNat = v := by
  simp [wordOf, BitVec.toNat_ofNat]
  omega

/-- Power-on lists DEVICE_TAG's low word in both banks, and nothing else. -/
theorem word_powerOn (straps : BitVec 3) (a : Nat) :
    (Memory.powerOn straps).word a =
      if a = wordKey 0 61 ∨ a = wordKey 1 61 then wordOf (Config.defaultSetting straps 30) 1 else unlistedWord a := by
  unfold Memory.powerOn
  by_cases h1 : a = wordKey 1 61
  · subst h1; rw [word_store_same]; simp [Config.deviceTag]
  · rw [word_store_other _ _ _ _ h1]
    by_cases h0 : a = wordKey 0 61
    · subst h0; rw [word_store_same]; simp [Config.deviceTag]
    · rw [word_store_other _ _ _ _ h0]; simp [h0, h1, Memory.word]

/-- A word that is not DEVICE_TAG's low word stands at its power-on content. -/
theorem word_powerOn_other (straps : BitVec 3) (m i : Nat) (hi : i < 32768) (h : 2 ≤ m ∨ i ≠ 61) :
    (Memory.powerOn straps).word (wordKey m i) = powerOnWord m i := by
  rw [word_powerOn, if_neg, unlistedWord, keyMemory_wordKey _ _ hi, keyIndex_wordKey _ _ hi]
  rw [wordKey_inj _ _ _ _ hi (by decide), wordKey_inj _ _ _ _ hi (by decide)]
  omega

/-- Every default of SETTINGS lies in its range, whatever the straps (R57). -/
theorem defaultSetting_legal (straps : BitVec 3) (i : Nat) (hi : i < 43) :
    (Config.setting i).lo ≤ Config.defaultSetting straps i ∧
      Config.defaultSetting straps i ≤ (Config.setting i).hi := by
  have row : ∀ i < 43, (Config.setting i).lo ≤ (Config.setting i).dflt ∧
      (Config.setting i).dflt + (if i = 30 then 7 else 0) ≤ (Config.setting i).hi := by decide
  obtain ⟨hlo, hhi⟩ := row i hi
  have hs : straps.toNat < 8 := straps.isLt
  unfold Config.defaultSetting
  split at hhi <;> rename_i h30 <;> simp only [h30, if_true, if_false] at * <;> omega

theorem defaultSetting_lt (straps : BitVec 3) (i : Nat) (hi : i < 43) :
    Config.defaultSetting straps i < 4294967296 := by
  have row : ∀ i < 43, (Config.setting i).hi < 4294967296 := by decide
  have := row i hi
  have := (defaultSetting_legal straps i hi).2
  omega

/-- Both SETTINGS banks hold the defaults after power-on (R57). -/
theorem setting_powerOn (straps : BitVec 3) (b i : Nat) (hb : b < 2) (hi : i < 43) :
    (Memory.powerOn straps).setting b i = Config.defaultSetting straps i := by
  have hm : b / 2 = 0 := by omega
  have high : (Memory.powerOn straps).word (wordKey b (2 * i)) = wordOf (Config.defaultSetting straps i) 0 := by
    rw [word_powerOn_other _ _ _ (by omega) (by omega)]
    simp only [powerOnWord, hm, Nat.mul_mod_right, Nat.mul_div_cancel_left i (Nat.succ_pos 1)]
    by_cases h30 : i = 30
    · subst h30
      have hs : straps.toNat < 8 := straps.isLt
      have h0 : (32 + straps.toNat) / 65536 = 0 := by omega
      simp [wordOf, Config.defaultSetting, Config.setting, Config.settings, h0]
    · simp [Config.defaultSetting, h30]
  have low : (Memory.powerOn straps).word (wordKey b (2 * i + 1)) = wordOf (Config.defaultSetting straps i) 1 := by
    by_cases h30 : i = 30
    · subst h30
      rw [word_powerOn, if_pos]
      rcases (by omega : b = 0 ∨ b = 1) with rfl | rfl <;> simp
    · rw [word_powerOn_other _ _ _ (by omega) (by omega)]
      have h1 : (2 * i + 1) / 2 = i := by omega
      have h2 : (2 * i + 1) % 2 = 1 := by omega
      simp [powerOnWord, hm, h1, h2, Config.defaultSetting, h30]
  rw [Memory.setting, high, low, wordOf_join _ (defaultSetting_lt straps i hi)]

/-- Both ZONE_MAP banks are unmapped after power-on, with weight 1 and calibration 128 (R57). -/
theorem mapEntry_powerOn (straps : BitVec 3) (b z : Nat) (hb : b < 2) (hz : z < Config.zones) :
    (Memory.powerOn straps).mapEntry b z = ⟨none, 1, 128⟩ := by
  unfold Config.zones at hz
  have hm : bankMemory 1 b / 2 = 1 := by unfold bankMemory; omega
  have h2 : 2 ≤ bankMemory 1 b := by unfold bankMemory; omega
  have h1 : (2 * z + 1) % 2 = 1 := by omega
  unfold Memory.mapEntry
  rw [word_powerOn_other _ _ _ (by omega) (.inl h2), word_powerOn_other _ _ _ (by omega) (.inl h2)]
  simp [powerOnWord, hm, h1, MapEntry.ofWords]

/-- Every solver word of ZONE_STATE is 0 after power-on (R98). -/
theorem zoneWord_powerOn (straps : BitVec 3) (i : Nat) (hi : i < 32768) :
    (Memory.powerOn straps).word (wordKey 8 i) = 0 := by
  rw [word_powerOn_other _ _ _ hi (.inl (by decide))]
  rfl

/-! ## Invariants at power-on -/

theorem mapInv_powerOn (straps : BitVec 3) : (State.powerOn straps).mapInv := by
  intro y z hy _ _ c hc
  have : ((State.powerOn straps).mem.mapEntry 1 y).channel = none := by
    show ((Memory.powerOn straps).mapEntry 1 y).channel = none
    rw [mapEntry_powerOn straps 1 y (by decide) hy]
  rw [this] at hc
  cases hc

theorem memoryInv_powerOn (straps : BitVec 3) : (State.powerOn straps).memoryInv := by
  have legal (b : Nat) (hb : b < 2) : (Memory.powerOn straps).settingsLegal b := by
    intro i hi
    rw [setting_powerOn straps b i hb hi]
    exact defaultSetting_legal straps i hi
  refine ⟨wf_powerOn straps, fun a h => absurd ?_ h, legal 0 (by decide), legal 1 (by decide), nofun⟩
  exact verdict_of_quiet _ ⟨rfl, rfl⟩ a

theorem commandInv_powerOn (straps : BitVec 3) : (State.powerOn straps).commandInv :=
  ⟨Nat.zero_le _, Nat.zero_le _, nofun, rfl, Nat.zero_le _, rfl⟩

/-- Every chain record, and every record of the sense unit, stands at its reset value after power-on. -/
theorem chain_powerOn (straps : BitVec 3) (k : ChainNo) : (State.powerOn straps).chc.chains[k] = .reset := by
  simp [State.powerOn, Chc.reset]

theorem standbyInv_powerOn (straps : BitVec 3) : (State.powerOn straps).standbyInv := by
  refine fun _ => ⟨rfl, rfl, rfl, rfl, fun k => ?_, fun k => ?_⟩
  · simp [State.powerOn, Pxc.reset]
  · rw [chain_powerOn]; exact ⟨rfl, rfl, rfl, by decide⟩

theorem logInv_powerOn (straps : BitVec 3) : (State.powerOn straps).logInv :=
  ⟨Nat.zero_le _, Nat.zero_le _, by simp [State.powerOn, Imn.reset], nofun⟩

theorem heldInv_powerOn (straps : BitVec 3) : (State.powerOn straps).heldInv := by
  intro k
  rw [chain_powerOn]
  simp [State.powerOn, Sns.reset, ChainRec.reset]

/-- Settles O60: each invariant is checked against the power-on values. -/
theorem invariantsHoldAtPowerOn : Obligations.InvariantsHoldAtPowerOn :=
  ⟨fun straps => ⟨commandInv_powerOn straps, memoryInv_powerOn straps, mapInv_powerOn straps,
    standbyInv_powerOn straps, logInv_powerOn straps, heldInv_powerOn straps⟩, rfl⟩

/-! ## POWER_ON and RESETN -/

/-- Settles O2: both resets answer the power-on state with the queue of commands kept. -/
theorem powerOnAndResetnValues : Obligations.PowerOnAndResetnValues := by
  intro straps s
  refine ⟨{ State.powerOn straps with pending := s.pending, draws := s.draws }, rfl, rfl, rfl, ?_⟩
  have tone (b : Nat) (hb : b < 2) (i : Nat) (hi : i < 33) :
      ((Memory.powerOn straps).word (wordKey (bankMemory 2 b) i)).toNat = min 4095 (i * 128) := by
    have hm : bankMemory 2 b / 2 = 2 := by unfold bankMemory; omega
    rw [word_powerOn_other _ _ _ (by omega) (.inl (by unfold bankMemory; omega))]
    simp only [powerOnWord, hm, BitVec.toNat_ofNat]
    omega
  have kernel (b : Nat) (hb : b < 2) (i : Nat) (hi : i < 49) :
      ((Memory.powerOn straps).word (wordKey (bankMemory 3 b) i)).toNat = if i = 24 then 65535 else 0 := by
    have hm : bankMemory 3 b / 2 = 3 := by unfold bankMemory; omega
    rw [word_powerOn_other _ _ _ (by omega) (.inl (by unfold bankMemory; omega))]
    simp only [powerOnWord, hm]
    split <;> rfl
  have zoneWords (z : Nat) (hz : z < Config.zones) (j : Nat) (hj : j < 8) :
      (Memory.powerOn straps).word (wordKey 8 (8 * z + j)) = 0 :=
    zoneWord_powerOn straps _ (by unfold Config.zones at hz; omega)
  have lanes (k : ChainNo) : (Vector.replicate 8 Thermal.normal)[k] = .normal ∧
      (Vector.replicate 8 false)[k] = false ∧ (Vector.replicate 8 false)[k] = false := by simp
  refine ⟨⟨rfl, rfl, rfl, rfl, rfl, rfl, rfl⟩, ⟨rfl, rfl, rfl, rfl, rfl, rfl⟩, ⟨rfl, rfl, rfl, rfl, rfl⟩,
    ⟨rfl, rfl⟩, ⟨rfl, rfl, fun _ => rfl, fun _ => rfl, rfl⟩,
    ⟨rfl, rfl, rfl, rfl, rfl, rfl, rfl, rfl, fun _ => rfl, fun z hz => ⟨zoneWords z hz 4 (by decide),
      zoneWords z hz 5 (by decide), zoneWords z hz 6 (by decide), zoneWords z hz 7 (by decide)⟩⟩,
    ⟨rfl, rfl, rfl, fun k => by simp [State.powerOn, Pxc.reset], fun _ => ⟨rfl, rfl, rfl⟩⟩,
    chain_powerOn straps, fun _ => rfl, fun _ => ⟨rfl, rfl⟩, ⟨rfl, fun _ => rfl⟩,
    ⟨rfl, rfl, rfl, fun i => by simp [State.powerOn, Sns.reset], lanes⟩, ⟨rfl, rfl, rfl⟩,
    ⟨rfl, rfl, rfl, rfl, rfl, rfl, rfl, rfl, rfl⟩, ⟨rfl, rfl, rfl, ⟨rfl, rfl⟩⟩, fun b hb => ?_⟩
  exact ⟨fun i hi => setting_powerOn straps b i hb hi, fun z hz => mapEntry_powerOn straps b z hb hz,
    tone b hb, kernel b hb⟩

end Sys2Proof.Laws
end

