-- ==== Sys2Proof/Proofs/Link.lean ====
section
/-! PROOF. The link receiver: what each of its operations does, one equation a case, and the statements about the input
link while the frame timing unit free-runs. -/

namespace Sys2Proof.Laws

open Sys2Proof.Machine

/-! ## Reads that meet no error, and flags that stay raised -/

theorem readSettings_of_clean (s : State) (is : List Nat) (h : ∀ i ∈ is, s.cleanSetting i) : s.readSettings is = s := by
  induction is with
  | nil => rfl
  | cons i is ih =>
    show is.foldl State.readSetting (s.readSetting i) = s
    rw [readSetting_of_clean s i (h i (by simp))]
    exact ih fun j hj => h j (by simp [hj])

/-- The state with all that a read through the integrity monitor can change blanked out. -/
def blankRead (s : State) : State :=
  { s with
    mem := [], imn := .reset, mdc := .reset
    lvs := { s.lvs with reseed := [] }
    rpu := { s.rpu with flags := 0, counters := .zero } }

theorem blankRead_logError (s : State) (a : Nat) (k : ErrorKind) : blankRead (s.logError a k) = blankRead s := by
  unfold State.logError
  split <;> rfl

theorem blankRead_writeWord (s : State) (a : Nat) (v : Word) : blankRead (s.writeWord a v) = blankRead s := rfl

theorem blankRead_autoSafe (s : State) : blankRead s.autoSafe = blankRead s := by
  unfold State.autoSafe
  dsimp only
  split <;> rfl

/-- What a read changes: the memory, the monitor, the mode, reseed marks, flags and counters. -/
theorem blankRead_readWord (s : State) (a : Nat) : blankRead (s.readWord a) = blankRead s := by
  unfold State.readWord
  dsimp only
  split
  · rfl
  · rw [blankRead_logError]; rfl
  · have written : blankRead ((substitutes s.tbs.straps a).foldl (fun s e => s.writeWord e.1 e.2)
        { s with imn := { s.imn with marks := sparsePut (fun _ => none) s.imn.marks a none } }) = blankRead s := by
      rw [foldl_writeWord_keeps blankRead blankRead_writeWord]; rfl
    generalize List.foldl _ _ _ = u at written ⊢
    have logged : blankRead (((u.count .uncorrectable 1).raise .memoryError).logError a .uncorrectable) = blankRead s := by
      rw [blankRead_logError]; exact written
    generalize State.logError _ _ _ = v at logged ⊢
    split
    · rw [blankRead_autoSafe]; exact logged
    · split
      · exact logged
      · exact logged

theorem blankRead_readRange (s : State) (lo n : Nat) : blankRead (s.readRange lo n) = blankRead s :=
  foldl_keeps blankRead _ (fun s _ => blankRead_readWord s _) _ s

theorem blankRead_readSetting (s : State) (i : Nat) : blankRead (s.readSetting i) = blankRead s :=
  blankRead_readRange s _ _

theorem blankRead_readSettings (s : State) (is : List Nat) : blankRead (s.readSettings is) = blankRead s :=
  foldl_keeps blankRead _ blankRead_readSetting _ s

/-- Every flag that is set in `s` is set in `t`. -/
def keepsFlags (s t : State) : Prop := ∃ f, t.rpu.flags = s.rpu.flags ||| f

theorem keepsFlags_refl (s : State) : keepsFlags s s := ⟨0, by simp⟩

theorem keepsFlags_of_eq {s t : State} (h : t.rpu.flags = s.rpu.flags) : keepsFlags s t := ⟨0, by simp [h]⟩

theorem keepsFlags_trans {s t u : State} (h : keepsFlags s t) (h' : keepsFlags t u) : keepsFlags s u := by
  obtain ⟨f, hf⟩ := h
  obtain ⟨g, hg⟩ := h'
  exact ⟨f ||| g, by rw [hg, hf, BitVec.or_assoc]⟩

theorem keepsFlags_raise (s : State) (e : Event) : keepsFlags s (s.raise e) := ⟨e.bit, rfl⟩

theorem keepsFlags_foldl {α : Type} (g : State → α → State) (h : ∀ s a, keepsFlags s (g s a)) (l : List α) (s : State) :
    keepsFlags s (l.foldl g s) := by
  induction l generalizing s with
  | nil => exact keepsFlags_refl s
  | cons a l ih => exact keepsFlags_trans (h s a) (ih (g s a))

/-- The flag of an event is not 0. -/
theorem bit_ne_zero (e : Event) : e.bit ≠ 0 := by cases e <;> decide

/-- A flag once raised is met with its bit. -/
theorem raised_of_keepsFlags {s t : State} {e : Event} (h : keepsFlags (s.raise e) t) : t.rpu.flags &&& e.bit ≠ 0 := by
  obtain ⟨f, hf⟩ := h
  rw [hf, State.raise_flags]
  intro h0
  refine bit_ne_zero e ?_
  have : e.bit &&& ((s.rpu.flags ||| e.bit ||| f) &&& e.bit) = e.bit := by
    ext i hi
    simp only [BitVec.getElem_and, BitVec.getElem_or]
    cases s.rpu.flags[i] <;> cases e.bit[i] <;> cases f[i] <;> rfl
  rw [← this, h0]
  simp

theorem keepsFlags_autoSafe (s : State) : keepsFlags s s.autoSafe := by
  unfold State.autoSafe
  dsimp only
  split
  · exact keepsFlags_refl s
  · exact keepsFlags_raise _ _

theorem keepsFlags_readWord (s : State) (a : Nat) : keepsFlags s (s.readWord a) := by
  unfold State.readWord
  dsimp only
  split
  · exact keepsFlags_refl s
  · exact keepsFlags_of_eq (by rw [State.logError_rpu]; rfl)
  · have written : ((substitutes s.tbs.straps a).foldl (fun (s : State) e => s.writeWord e.1 e.2)
        { s with imn := { s.imn with marks := sparsePut (fun _ => none) s.imn.marks a none } }).rpu = s.rpu :=
      foldl_writeWord_keeps State.rpu State.writeWord_rpu _ _
    generalize List.foldl _ _ _ = u at written ⊢
    have logged : keepsFlags s (((u.count .uncorrectable 1).raise .memoryError).logError a .uncorrectable) :=
      ⟨Event.memoryError.bit, by rw [State.logError_rpu, State.raise_flags, State.count_flags, written]⟩
    generalize State.logError _ _ _ = v at logged ⊢
    split
    · exact keepsFlags_trans logged (keepsFlags_autoSafe v)
    · split
      · exact logged
      · exact logged

theorem keepsFlags_readRange (s : State) (lo n : Nat) : keepsFlags s (s.readRange lo n) :=
  keepsFlags_foldl _ (fun s _ => keepsFlags_readWord s _) _ s

theorem keepsFlags_readSetting (s : State) (i : Nat) : keepsFlags s (s.readSetting i) := keepsFlags_readRange s _ _

/-! ## Changes of the input state (R10, R11) -/

/-- A change that neither enters nor leaves LOCKED tells the solver nothing. -/
theorem changeInput_outside_lock (s : State) (new : InputState) (hne : new ≠ s.lrx.input) (ho : s.lrx.input ≠ .locked)
    (hn : new ≠ .locked) :
    s.changeInput new = ({ s with lrx := { s.lrx with input := new } }).raise .inputStateChanged := by
  simp [State.changeInput, hne, ho, hn]

/-- The input enters LOCKED. -/
theorem changeInput_enters_lock (s : State) (ho : s.lrx.input ≠ .locked) :
    s.changeInput .locked =
      ({ s with lrx := { s.lrx with input := .locked }, lvs := s.lvs.enterLocked }).raise .inputStateChanged := by
  simp [State.changeInput, ho, Ne.symm ho]

/-- The input leaves LOCKED. -/
theorem changeInput_leaves_lock (s : State) (new : InputState) (ho : s.lrx.input = .locked) (hn : new ≠ .locked) :
    s.changeInput new =
      ({ s with lrx := { s.lrx with input := new }, lvs := s.lvs.leaveLocked }).raise .inputStateChanged := by
  simp [State.changeInput, ho, hn]

/-- What the solver holds once the input is out of LOCKED. -/
def Lvs.afterInput (l : Lvs) (old : InputState) : Lvs := if old = .locked then l.leaveLocked else l

/-- The link receiver in NO_SIGNAL (R10). -/
def Lrx.signalLost (l : Lrx) : Lrx := { l.closeRecord.emptyRun with input := .noSignal, period := 0 }

/-- The loss of the signal, up to the close of a followed frame. -/
theorem loseSignal_eq (s : State) (h : s.lrx.input ≠ .noSignal) :
    s.loseSignal =
      (({ s with lrx := Lrx.signalLost s.lrx, lvs := Lvs.afterInput s.lvs s.lrx.input }).raise
        .inputStateChanged).stopFollowing := by
  unfold State.loseSignal
  dsimp only
  congr 1
  by_cases hl : s.lrx.input = .locked
  · rw [changeInput_leaves_lock]
    · simp only [Lvs.afterInput, hl, if_true]
      rfl
    · exact hl
    · simp
  · rw [changeInput_outside_lock]
    · simp only [Lvs.afterInput, hl, if_false]
      rfl
    · exact h.symm
    · exact hl
    · simp

/-- While the FTU free-runs, the loss of the signal changes the link receiver, Gprev and the event alone. -/
theorem loseSignal_freeRun (s : State) (h : s.lrx.input ≠ .noSignal) (hf : s.ftu.state = .freeRun) :
    s.loseSignal =
      ({ s with lrx := Lrx.signalLost s.lrx, lvs := Lvs.afterInput s.lvs s.lrx.input }).raise .inputStateChanged := by
  rw [loseSignal_eq s h]
  exact stopFollowing_of_freeRun _ hf

theorem afterInput_gprev (l : Lvs) (old : InputState) (h : old = .locked) : (Lvs.afterInput l old).gprev = none := by
  simp [Lvs.afterInput, h, Lvs.leaveLocked]

/-! ## Errors on the link (R4, R5) -/

/-- The record with one error more. -/
def FrameRec.withError (r : FrameRec) : FrameRec := { r with errors := min 65535 (r.errors + 1) }

theorem linkError_no_record (s : State) (h : s.lrx.record = none) : s.linkError = s.countCharError := by
  simp [State.linkError, h]

/-- An error with an open record is counted, and LOS_ERROR_LIMIT decides whether the signal is lost. -/
theorem linkError_record (s : State) (r : FrameRec) (h : s.lrx.record = some r) :
    s.linkError =
      let v := ({ s.countCharError with lrx := { s.lrx with record := some (FrameRec.withError r) } } : State).readSetting
        Config.losErrorLimit
      if v.mem.active Config.losErrorLimit ≤ (FrameRec.withError r).errors then v.loseSignal else v := by
  simp only [State.linkError, State.countCharError_lrx, h]
  rfl

/-- An error below LOS_ERROR_LIMIT is counted, also in the open record. -/
theorem linkError_below (s : State) (r : FrameRec) (h : s.lrx.record = some r) (hc : s.cleanSetting Config.losErrorLimit)
    (hlt : min 65535 (r.errors + 1) < s.mem.active Config.losErrorLimit) :
    s.linkError =
      { s.countCharError with lrx := { s.lrx with record := some (FrameRec.withError r) } } := by
  rw [linkError_record s r h, readSetting_of_clean]
  · exact if_neg (Nat.not_le.2 hlt)
  · exact hc

/-- An error that reaches LOS_ERROR_LIMIT is counted, and the signal is lost. -/
theorem linkError_reaches (s : State) (r : FrameRec) (h : s.lrx.record = some r)
    (hc : s.cleanSetting Config.losErrorLimit) (hle : s.mem.active Config.losErrorLimit ≤ min 65535 (r.errors + 1)) :
    s.linkError =
      ({ s.countCharError with lrx := { s.lrx with record := some (FrameRec.withError r) } } : State).loseSignal := by
  rw [linkError_record s r h, readSetting_of_clean]
  · exact if_pos hle
  · exact hc

/-! ## Active lines (R4, R6, R9) -/

theorem endLine_no_record (s : State) (pixels : List Pixel) (h : s.lrx.record = none) : s.endLine pixels = s := by
  simp [State.endLine, h]

theorem endLast_no_record (s : State) (last : Option (List Pixel)) (h : s.lrx.record = none) : s.endLast last = s := by
  cases last with
  | none => rfl
  | some pixels => exact endLine_no_record s pixels h

@[simp] theorem endLast_none (s : State) : s.endLast none = s := rfl
@[simp] theorem endLast_some (s : State) (pixels : List Pixel) : s.endLast (some pixels) = s.endLine pixels := rfl

/-- The link receiver behind an active line of frame width `width`, damaged or not. -/
def Lrx.withLine (l : Lrx) (r : FrameRec) (width count : Nat) (damaged : Bool) : Lrx :=
  { l with
    lineDamaged := false
    record := some { r with
      width := some width, lines := r.lines + 1, damaged := r.damaged || damaged
      offGeometry := r.offGeometry || l.offBy r count } }

/-- A line of the frame's width, or the frame's first line. -/
theorem endLine_right (s : State) (pixels : List Pixel) (r : FrameRec) (h : s.lrx.record = some r)
    (hw : r.width = none ∨ r.width = some pixels.length) :
    s.endLine pixels =
      ({ s with lrx := Lrx.withLine s.lrx r pixels.length pixels.length s.lrx.lineDamaged } : State).handLine r.lines pixels
        s.lrx.lineDamaged (r.offGeometry || s.lrx.offBy r pixels.length) pixels.length := by
  have hd : r.width.getD pixels.length = pixels.length := by rcases hw with hw | hw <;> simp [hw]
  simp [State.endLine, h, hd, Lrx.withLine]

/-- A line of another length than the frame's width. -/
theorem endLine_wrong (s : State) (pixels : List Pixel) (r : FrameRec) (w : Nat) (h : s.lrx.record = some r)
    (hw : r.width = some w) (hne : w ≠ pixels.length) :
    s.endLine pixels =
      (({ s with lrx := Lrx.withLine s.lrx r w pixels.length true } : State).handLine r.lines pixels true
        (r.offGeometry || s.lrx.offBy r pixels.length) w).linkError := by
  have hd : r.width.getD pixels.length = w := by simp [hw]
  simp [State.endLine, h, hd, hne.symm, Lrx.withLine]

theorem handLine_freeRun (s : State) (y : Nat) (pixels : List Pixel) (damaged off : Bool) (width : Nat)
    (h : s.ftu.state = .freeRun) : s.handLine y pixels damaged off width = s := by
  simp [State.handLine, h]

/-- A followed line with a mark joins the delay and no accumulator. -/
theorem handLine_marked (s : State) (y : Nat) (pixels : List Pixel) (damaged off : Bool) (width : Nat)
    (h : s.ftu.state = .following) (hm : (damaged || off) = true) :
    s.handLine y pixels damaged off width =
      { s with ftu := { s.ftu with delay := s.ftu.delay ++ [.line pixels damaged off width] } } := by
  simp [State.handLine, h, hm]

/-- A followed line with no mark joins the delay and the statistics. -/
theorem handLine_taken (s : State) (y : Nat) (pixels : List Pixel) (width : Nat) (h : s.ftu.state = .following) :
    s.handLine y pixels false false width =
      ({ s with ftu := { s.ftu with delay := s.ftu.delay ++ [.line pixels false false width] } } : State).addLine y
        pixels := by
  simp [State.handLine, h]

/-- Outside LOCKED no line leaves the geometry. -/
theorem offBy_outside_lock (l : Lrx) (r : FrameRec) (count : Nat) (h : l.input ≠ .locked) : l.offBy r count = false := by
  unfold Lrx.offBy
  split
  · next hl _ => exact absurd hl h
  · rfl

/-- When a line leaves the locked geometry (R9). -/
theorem offBy_locked (l : Lrx) (r : FrameRec) (count : Nat) (g : Geometry) (h : l.input = .locked)
    (hg : l.locked = some g) :
    l.offBy r count = true ↔ (r.width = none ∧ count ≠ g.width) ∨ g.height ≤ r.lines := by
  simp [Lrx.offBy, h, hg]

/-! ## Markers (R1, R8, R10, R11) -/

theorem truncate_no_record (s : State) (h : s.lrx.record = none) : s.truncate = s := by
  simp [State.truncate, h]

/-- A marker in ACQUIRING that truncates a frame empties the run. -/
theorem truncate_acquiring (s : State) (r : FrameRec) (h : s.lrx.record = some r) (hi : s.lrx.input = .acquiring) :
    s.truncate = { s with lrx := s.lrx.closeRecord.emptyRun } := by
  have : s.lrx.closeRecord.input = .acquiring := hi
  simp [State.truncate, h, this]

theorem measure_noSignal (s : State) (h : s.lrx.input = .noSignal) :
    s.measure = ({ s with lrx := { s.lrx.emptyRun with input := .acquiring } }).raise .inputStateChanged := by
  have he : s.lrx.emptyRun.input = .noSignal := h
  simp only [State.measure, h]
  exact changeInput_outside_lock { s with lrx := s.lrx.emptyRun } _ (by simp [he]) (by simp [he]) nofun

theorem measure_other (s : State) (h : s.lrx.input ≠ .noSignal) :
    s.measure = { s with lrx := { s.lrx with period := s.clock.now - s.lrx.lastMarker } } := by
  unfold State.measure
  split
  · next hi => exact absurd hi h
  · rfl
  · rfl

/-- The link receiver as a marker at time `now` opens a frame. -/
def Lrx.opens (l : Lrx) (now timeout : Nat) : Lrx :=
  { l.clearMarks with record := some .opened, lastMarker := now, timeout := timeout }

theorem openFrame_eq (s : State) :
    s.openFrame =
      { s.readSetting Config.frameTimeout with
        lrx := Lrx.opens s.lrx s.clock.now ((s.readSetting Config.frameTimeout).mem.active Config.frameTimeout) } := by
  unfold State.openFrame Lrx.opens
  dsimp only
  rw [State.readSetting_lrx, State.readSetting_clock]

theorem openFrame_of_clean (s : State) (h : s.cleanSetting Config.frameTimeout) :
    s.openFrame = { s with lrx := Lrx.opens s.lrx s.clock.now (s.mem.active Config.frameTimeout) } := by
  rw [openFrame_eq, readSetting_of_clean s _ h]

theorem keepsFlags_openFrame (s : State) : keepsFlags s s.openFrame := by
  rw [openFrame_eq]
  exact keepsFlags_readSetting s _

theorem markerToFtu_outside_lock (s : State) (h : s.lrx.input ≠ .locked) : s.markerToFtu = s := by
  unfold State.markerToFtu
  split
  · next hi _ => exact absurd hi h
  · next hi _ => exact absurd hi h
  · rfl
  · rfl

theorem execFrameStartMarker_no_record (dt : Nat) (last : Option (List Pixel)) (s : State) (h : s.lrx.record = none) :
    exec (.frameStartMarker dt last) s = .next (s.advance dt).measure.openFrame.markerToFtu := by
  have h' : (s.advance dt).lrx.record = none := h
  show Host.Outcome.next _ = _
  rw [endLast_no_record _ _ h', truncate_no_record _ h']

/-- Settles O4, by the case of the input state and of an open record. -/
theorem markerOpensFrame : Obligations.MarkerOpensFrame := by
  intro dt last s
  constructor
  · intro hi hr
    refine ⟨_, execFrameStartMarker_no_record dt last s hr, ?_⟩
    rw [measure_noSignal (s.advance dt) hi]
    generalize hv : ({ s.advance dt with lrx := _ } : State) = v
    have hl : v.lrx = { s.lrx.emptyRun with input := .acquiring } := by rw [← hv]; rfl
    have hclock : v.clock = (s.advance dt).clock := by rw [← hv]
    have out : (v.raise .inputStateChanged).openFrame.lrx.input ≠ .locked := by
      rw [openFrame_eq]; simp [Lrx.opens, Lrx.clearMarks, hl]
    rw [markerToFtu_outside_lock _ out]
    refine ⟨?_, raised_of_keepsFlags (keepsFlags_openFrame _), ?_, fun hc => ?_⟩
    · rw [openFrame_eq, State.raise_lrx, State.raise_clock, hl, hclock]; rfl
    · rw [openFrame_eq]; exact (State.readSetting_clock _ _).trans hclock
    · rw [openFrame_of_clean (v.raise _) (by rw [← hv]; exact hc), ← hv]; rfl
  · intro hi hlast
    have ha : s.lrx.input ≠ .noSignal := by simp [hi]
    have run : ∃ l : Lrx, exec (.frameStartMarker dt last) s =
          .next ({ s.advance dt with lrx := l } : State).measure.openFrame.markerToFtu ∧
        l = { s.lrx with
          record := none
          runCount := if s.lrx.record = none then s.lrx.runCount else 0
          candidate := if s.lrx.record = none then s.lrx.candidate else none
          lineDamaged := l.lineDamaged, packetErrored := l.packetErrored, packetLost := l.packetLost } := by
      cases hr : s.lrx.record with
      | none => exact ⟨s.lrx, execFrameStartMarker_no_record dt last s hr, by simp only [if_true]; rw [← hr]⟩
      | some r =>
        obtain hl | rfl := hlast
        · simp [hr] at hl
        · refine ⟨s.lrx.closeRecord.emptyRun, ?_, by simp [Lrx.emptyRun, Lrx.closeRecord, Lrx.clearMarks]⟩
          show Host.Outcome.next _ = _
          rw [endLast_none, truncate_acquiring (s.advance dt) r hr hi]
          rfl
    obtain ⟨l, hrun, hl⟩ := run
    refine ⟨_, hrun, ?_⟩
    have hli : l.input = .acquiring := by rw [hl]; exact hi
    rw [measure_other _ (by simp [hli])]
    generalize hu : ({ s.advance dt with lrx := _ } : State) = u
    have out : u.openFrame.lrx.input ≠ .locked := by
      rw [openFrame_eq, ← hu]; simp [Lrx.opens, Lrx.clearMarks, hli]
    rw [markerToFtu_outside_lock _ out]
    have hclock : u.clock = (s.advance dt).clock := by rw [← hu]
    refine ⟨?_, ?_, fun hc => ?_⟩
    · rw [openFrame_eq, hclock, ← hu]
      simp only [Lrx.opens, Lrx.clearMarks]
      rw [hl]
      rfl
    · rw [openFrame_eq]; exact (State.readSetting_clock u _).trans hclock
    · rw [openFrame_of_clean u (by rw [← hu]; exact hc), ← hu]; rfl

/-- What an ACTIVE_LINE does. -/
theorem exec_activeLine (dt : Nat) (pixels : List Pixel) (s : State) :
    exec (.activeLine dt pixels) s = .next ((s.advance dt).endLine pixels) := rfl

/-- Settles O6: the line is judged by its length, and a marker that ends a line is the line, then the marker. -/
theorem activeLineIsJudged : Obligations.ActiveLineIsJudged := by
  constructor
  · intro dt pixels s
    refine ⟨_, rfl, ?_, ?_⟩
    · show Host.Outcome.next _ = Host.Outcome.next _
      rw [State.advance_zero, endLast_none, endLast_some]
    · show Host.Outcome.next _ = Host.Outcome.next _
      rw [State.advance_zero, endLast_none, endLast_some]
  · intro dt pixels s r hi hf hr
    have hoff : s.lrx.offBy r pixels.length = false := offBy_outside_lock _ _ _ (by simp [hi])
    constructor
    · intro hw
      refine ⟨_, exec_activeLine dt pixels s, ?_⟩
      rw [endLine_right (s.advance dt) pixels r hr hw, handLine_freeRun]
      · refine ⟨?_, rfl, rfl, rfl⟩
        simp [Lrx.withLine, hoff]
      · exact hf
    · intro w hw hne hc hlt
      refine ⟨_, exec_activeLine dt pixels s, ?_⟩
      rw [endLine_wrong (s.advance dt) pixels r w hr hw hne, handLine_freeRun, linkError_below _ _ rfl]
      · refine ⟨?_, rfl, rfl, rfl, rfl, rfl⟩
        simp [FrameRec.withError, ← hw, hoff]
      · exact hc
      · exact hlt
      · exact hf

/-! ## The active end of a frame in ACQUIRING (R1, R8) -/

/-- When a frame is good (R1). -/
theorem good_iff (r : FrameRec) (limit : Nat) :
    r.good limit = true ↔ ∃ w, r.width = some w ∧ 128 ≤ w ∧ w ≤ 4096 ∧ 72 ≤ r.lines ∧ r.lines ≤ 2304 ∧
      r.errors < limit ∧ r.damaged = false := by
  unfold FrameRec.good
  cases r.width with
  | none => simp
  | some w => simp [and_assoc]

theorem endFrame_acquiring (s : State) (r : FrameRec) (hi : s.lrx.input = .acquiring) (hr : s.lrx.record = some r)
    (hl : s.cleanSetting Config.losErrorLimit) (hk : s.cleanSetting Config.lockFrames) :
    s.endFrame =
      ({ s with lrx := s.lrx.closeRecord } : State).acquire r (r.good (s.mem.active Config.losErrorLimit)) := by
  have hreads : s.readSettings s.lrx.judgedBy = s := by
    refine readSettings_of_clean s _ fun i hm => ?_
    simp only [Lrx.judgedBy, hi, List.mem_cons, List.not_mem_nil, or_false] at hm
    rcases hm with rfl | rfl
    · exact hk
    · exact hl
  have hc : s.lrx.closeRecord.input = .acquiring := hi
  simp [State.endFrame, hr, hreads, hc]

/-- The run reaches LOCK_FRAMES: the frame's geometry is locked. -/
theorem acquire_locks (s : State) (r : FrameRec) (good : Bool) (hi : s.lrx.input = .acquiring)
    (h : s.mem.active Config.lockFrames ≤ (s.lrx.updateRun r good).runCount) :
    s.acquire r good =
      ({ s with
        lrx := { s.lrx.emptyRun with input := .locked, locked := (s.lrx.updateRun r good).candidate }
        lvs := s.lvs.enterLocked }).raise .inputStateChanged := by
  have hu : (s.lrx.updateRun r good).input = .acquiring := by
    unfold Lrx.updateRun; split <;> exact hi
  have he : (s.lrx.updateRun r good).emptyRun = s.lrx.emptyRun := by unfold Lrx.updateRun; split <;> rfl
  simp only [State.acquire]
  rw [if_pos h, changeInput_enters_lock]
  · simp only [he]
  · simp [Lrx.emptyRun, hu]

theorem acquire_goes_on (s : State) (r : FrameRec) (good : Bool)
    (h : (s.lrx.updateRun r good).runCount < s.mem.active Config.lockFrames) :
    s.acquire r good = { s with lrx := s.lrx.updateRun r good } := by
  simp only [State.acquire]
  rw [if_neg (by simpa using h)]

theorem exec_inputActiveEnd (dt : Nat) (s : State) :
    exec (.inputActiveEnd dt none) s = .next (s.advance dt).endFrame := rfl

/-- Settles O8: the run is updated by whether the frame is good, and locks when it reaches LOCK_FRAMES. -/
theorem goodFramesLock : Obligations.GoodFramesLock := by
  intro dt s r hi hr hl hk
  dsimp only
  have ends := endFrame_acquiring (s.advance dt) r hi hr hl hk
  have isGood (w : Nat) (hg : r.width = some w ∧ 128 ≤ w ∧ w ≤ 4096 ∧ 72 ≤ r.lines ∧ r.lines ≤ 2304 ∧
      r.errors < s.mem.active Config.losErrorLimit ∧ r.damaged = false) :
      r.good ((s.advance dt).mem.active Config.losErrorLimit) = true ∧ r.geometry = ⟨w, r.lines⟩ :=
    ⟨(good_iff _ _).2 ⟨w, hg⟩, by simp [FrameRec.geometry, hg.1]⟩
  have updated (w : Nat) (hg : r.geometry = ⟨w, r.lines⟩) :
      s.lrx.closeRecord.updateRun r true = { s.lrx.closeRecord with
        candidate := some ⟨w, r.lines⟩
        runCount := if s.lrx.candidate = some ⟨w, r.lines⟩ then s.lrx.runCount + 1 else 1 } := by
    rw [Lrx.updateRun, if_pos rfl, hg]; rfl
  refine ⟨fun w hg hle => ⟨_, exec_inputActiveEnd dt s, ?_⟩, fun w hg hlt => ⟨_, exec_inputActiveEnd dt s, ?_⟩,
    fun hg h0 => ⟨_, exec_inputActiveEnd dt s, ?_⟩⟩
  · obtain ⟨hgood, hgeo⟩ := isGood w hg
    have hrun := updated w hgeo
    rw [ends, hgood, acquire_locks]
    · refine ⟨rfl, ?_, rfl, rfl, rfl, rfl, rfl, rfl⟩
      simp [hrun]
    · exact hi
    · simpa [hrun] using hle
  · obtain ⟨hgood, hgeo⟩ := isGood w hg
    have hrun := updated w hgeo
    rw [ends, hgood, acquire_goes_on]
    · rw [State.advance_lrx, hrun]
      exact ⟨hi, rfl, rfl, rfl, rfl, rfl⟩
    · simpa [hrun] using hlt
  · have hbad : r.good ((s.advance dt).mem.active Config.losErrorLimit) = false := by
      rw [Bool.eq_false_iff]
      intro h
      obtain ⟨w, hw⟩ := (good_iff _ _).1 h
      exact hg w hw
    have hrun : s.lrx.closeRecord.updateRun r false = s.lrx.closeRecord.emptyRun := rfl
    rw [ends, hbad, acquire_goes_on]
    · rw [State.advance_lrx, hrun]
      exact ⟨hi, rfl, rfl, rfl, rfl, rfl⟩
    · simpa [hrun, Lrx.emptyRun] using h0

/-! ## Character errors, slips, and the loss of the signal (R2, R3, R5, R10) -/

theorem exec_characterError (dt : Nat) (place : LinkPlace) (s : State) :
    exec (.characterError dt place) s =
      .next ({ s.advance dt with lrx := s.lrx.markError place } : State).linkError := rfl

/-- The marks of an error with an open record. -/
theorem markError_record (l : Lrx) (place : LinkPlace) (r : FrameRec) (h : l.record = some r) :
    l.markError place = { l with
      lineDamaged := l.lineDamaged || decide (place = .activeLine) || (decide (place ≠ .elsewhere) && decide (0 < r.lines))
      packetErrored := (l.markError place).packetErrored } := by
  cases l
  cases h
  cases place with
  | activeLine => simp [Lrx.markError]
  | elsewhere => simp [Lrx.markError]
  | blankingLine k =>
    by_cases h0 : r.lines = 0
    · simp [Lrx.markError, h0]
    · simp [Lrx.markError, h0, Nat.pos_of_ne_zero h0]

/-- The marks of an error between two frames. -/
theorem markError_no_record (l : Lrx) (place : LinkPlace) (h : l.record = none) :
    l.markError place = { l with packetErrored := (l.markError place).packetErrored } ∧
      (∀ k, place = .blankingLine k → l.input ≠ .noSignal → (l.markError place).packetErrored = some k) ∧
      ((∀ k, place ≠ .blankingLine k) ∨ l.input = .noSignal → (l.markError place).packetErrored = l.packetErrored) := by
  obtain ⟨input, _⟩ := l
  cases h
  cases place with
  | activeLine => simp [Lrx.markError]
  | elsewhere => simp [Lrx.markError]
  | blankingLine k =>
    by_cases hi : input = .noSignal <;> simp [Lrx.markError, Lrx.takesBetween, hi]

/-- The marks of a slip, which keep every field but the four they may set. -/
theorem markSlip_cases (l : Lrx) (place : LinkPlace) :
    (l.record = none → (∀ k, place ≠ .blankingLine k) ∨ l.input = .noSignal → l.markSlip place = l) ∧
    (∀ k, l.record = none → place = .blankingLine k → l.input ≠ .noSignal →
      l.markSlip place = { l with packetLost := some k }) ∧
    (∀ r, l.record = some r → place = .activeLine →
      l.markSlip place = { l with lineDamaged := true, record := some { r with damaged := true } }) ∧
    (∀ r k, l.record = some r → r.lines = 0 → place = .blankingLine k →
      l.markSlip place = { l with packetLost := some k }) := by
  refine ⟨fun h hp => ?_, ?_, ?_, ?_⟩
  · cases place with
    | activeLine => simp [Lrx.markSlip, h]
    | elsewhere => simp [Lrx.markSlip, h]
    | blankingLine k =>
      obtain hp | hp := hp
      · exact absurd rfl (hp k)
      · simp [Lrx.markSlip, Lrx.takesBetween, h, hp]
  · rintro k h rfl hi
    simp [Lrx.markSlip, Lrx.takesBetween, h, hi]
  · rintro r h rfl
    simp [Lrx.markSlip, h]
  · rintro r k h h0 rfl
    simp [Lrx.markSlip, h, h0]

/-- Settles O10, by whether a record is open and by the place of the error. -/
theorem linkErrorsAreCounted : Obligations.LinkErrorsAreCounted := by
  intro dt place s
  refine ⟨fun hr => ⟨_, exec_characterError dt place s, ?_⟩, fun r hr hc hlt => ⟨_, exec_characterError dt place s, ?_⟩,
    _, rfl, rfl, rfl, ?_⟩
  · obtain ⟨hm, hset, hkept⟩ := markError_no_record s.lrx place hr
    rw [linkError_no_record]
    · refine ⟨rfl, rfl, hset, hkept, rfl, ?_⟩
      simp only [State.countCharError_lrx]
      rw [hm]
      rfl
    · simp only
      rw [hm]
      exact hr
  · have hm := markError_record s.lrx place r hr
    rw [linkError_below _ r]
    · refine ⟨rfl, rfl, rfl, ?_, ?_, rfl, ?_⟩
      · simp only; rw [hm]
      · rintro k rfl h0
        simp [Lrx.markError, hr, h0]
      · simp only
        rw [hm]
        rfl
    · simp only
      rw [hm]
      exact hr
    · exact hc
    · exact hlt
  · obtain ⟨hkept, hlost, hdamaged, hblank⟩ := markSlip_cases s.lrx place
    refine ⟨fun hr hp => ?_, fun k hr hp hi => ?_, fun r hr hp => ?_, fun r k hr h0 hp => ?_, rfl, rfl⟩
    · simp [hkept hr hp]
    · simp [hlost k hr hp hi]
    · simp [hdamaged r hr hp]
    · simp [hblank r k hr h0 hp, hr]

theorem exec_frameTimeout (dt : Nat) (s : State) (h : s.lrx.input ≠ .noSignal) :
    exec (.frameTimeout dt) s = .next ((s.advance dt).advanceTo (s.lrx.lastMarker + s.lrx.timeout)).loseSignal := by
  show execFrameTimeout dt s = _
  unfold execFrameTimeout
  dsimp only
  split
  · next hi => exact absurd hi h
  · rfl
  · rfl

/-- Settles O11: every way in ends in the same loss of the signal. -/
theorem signalIsLost : Obligations.SignalIsLost := by
  intro dt place s hf
  dsimp only
  refine ⟨fun r hr hi hc hle => ⟨⟨_, exec_characterError dt place s, ?_⟩, fun pixels w hw hne =>
    ⟨_, exec_activeLine dt pixels s, ?_⟩⟩, fun hi => ⟨_, exec_frameTimeout dt s hi, ?_⟩, fun hi => ?_⟩
  · have hm := markError_record s.lrx place r hr
    rw [linkError_reaches _ r, hm, loseSignal_freeRun]
    · exact ⟨⟨rfl, rfl, rfl, rfl, rfl, rfl, afterInput_gprev _ _⟩, rfl, rfl, rfl⟩
    · exact hi
    · exact hf
    · simp only
      rw [hm]
      exact hr
    · exact hc
    · exact hle
  · rw [endLine_wrong (s.advance dt) pixels r w hr hw hne, handLine_freeRun, linkError_reaches _ _ rfl,
      loseSignal_freeRun]
    · exact ⟨⟨rfl, rfl, rfl, rfl, rfl, rfl, afterInput_gprev _ _⟩, rfl, rfl, rfl⟩
    · exact hi
    · exact hf
    · exact hc
    · exact hle
    · exact hf
  · rw [loseSignal_freeRun ((s.advance dt).advanceTo (s.lrx.lastMarker + s.lrx.timeout)) hi hf]
    refine ⟨⟨rfl, rfl, rfl, rfl, rfl, rfl, afterInput_gprev _ _⟩, ?_, rfl, rfl⟩
    rw [State.raise_clock]
    exact State.advanceTo_now _ _
  · show execFrameTimeout dt s = _
    simp [execFrameTimeout, hi]

end Sys2Proof.Laws
end

