-- ==== Sys2Proof/Proofs/Packets.lean ====
section
/-! PROOF. Side packets: the bytes of a packet, its route, and the statements about its arrival. -/

namespace Sys2Proof.Laws

open Sys2Proof.Machine

/-! ## The bytes of a packet (R22, R24, R183) -/

theorem join_wordBytes (w : Word) : joinBytes (w.extractLsb' 8 8) (w.extractLsb' 0 8) = w := by
  unfold joinBytes
  ext i hi
  simp only [BitVec.getElem_append, BitVec.getElem_extractLsb']
  split
  · rw [Nat.zero_add, BitVec.getLsbD_eq_getElem hi]
  · rw [show 8 + (i - 8) = i by omega, BitVec.getLsbD_eq_getElem hi]

theorem packWords_unpackWords (ws : List Word) : packWords (unpackWords ws) = ws := by
  induction ws with
  | nil => rfl
  | cons w ws ih =>
    show packWords (w.extractLsb' 8 8 :: w.extractLsb' 0 8 :: unpackWords ws) = w :: ws
    rw [packWords, join_wordBytes, ih]

theorem length_unpackWords (ws : List Word) : (unpackWords ws).length = 2 * ws.length := by
  induction ws with
  | nil => rfl
  | cons w ws ih =>
    show (w.extractLsb' 8 8 :: w.extractLsb' 0 8 :: unpackWords ws).length = _
    simp only [List.length_cons, ih]
    omega

/-- The bytes of a packet ahead of its CRC. -/
def packetBody (p : Packet) : List Byte :=
  p.tag :: p.seq :: p.code :: byteOf p.payload.length :: unpackWords p.payload

theorem packetBytes_eq (p : Packet) : packetBytes p = packetBody p ++ wordBytes (crc16 (packetBody p)) := rfl

theorem length_packetBody (p : Packet) : (packetBody p).length = 4 + 2 * p.payload.length := by
  simp only [packetBody, List.length_cons, length_unpackWords]
  omega

theorem length_packetBytes (p : Packet) : (packetBytes p).length = 4 + 2 * p.payload.length + 2 := by
  rw [packetBytes_eq, List.length_append, length_packetBody]
  rfl

/-- A length that a packet can declare survives its byte. -/
theorem toNat_byteOf (n : Nat) (h : n ≤ 120) : (byteOf n).toNat = n := by
  simp only [byteOf, BitVec.toNat_ofNat]
  omega

/-- Bytes behind a packet do not change the length it declares. -/
theorem declaredLength_packetBytes (p : Packet) (h : p.payload.length ≤ 120) (surplus : List Byte) :
    declaredLength (packetBytes p ++ surplus) = some (packetBytes p).length := by
  rw [length_packetBytes]
  show some (4 + 2 * (byteOf p.payload.length).toNat + 2) = _
  rw [toNat_byteOf _ h]

/-- The bytes of a packet pass R22 and R24. -/
theorem packetPasses_packetBytes (p : Packet) (h : p.payload.length ≤ 120) :
    packetPasses false (packetBytes p) = true := by
  have len : (packetBytes p).length - 2 = (packetBody p).length := by
    rw [length_packetBytes, length_packetBody]; omega
  have last : (packetBytes p).length - 1 = (packetBody p).length + 1 := by
    rw [length_packetBytes, length_packetBody]; omega
  have declared : ((packetBytes p).getD 3 0).toNat ≤ 120 := by
    show (byteOf p.payload.length).toNat ≤ 120
    rw [toNat_byteOf _ h]
    exact h
  have body : (packetBytes p).take (packetBody p).length = packetBody p := by
    rw [packetBytes_eq, List.take_left]
  have hi : (packetBytes p).getD (packetBody p).length 0 = (crc16 (packetBody p)).extractLsb' 8 8 := by
    rw [packetBytes_eq, List.getD_append_right _ _ _ _ le_rfl]
    simp [wordBytes]
  have lo : (packetBytes p).getD ((packetBody p).length + 1) 0 = (crc16 (packetBody p)).extractLsb' 0 8 := by
    rw [packetBytes_eq, List.getD_append_right _ _ _ _ (Nat.le_succ _)]
    simp [wordBytes]
  unfold packetPasses
  rw [len, last, body, hi, lo, join_wordBytes]
  simp only [declared, decide_true, Bool.not_false, Bool.and_self]

/-- The bytes of a packet read back as the packet. -/
theorem parsePacket_packetBytes (p : Packet) (h : p.payload.length ≤ 120) : parsePacket (packetBytes p) = p := by
  have payload : ((packetBytes p).drop 4).take (2 * ((packetBytes p).getD 3 0).toNat) = unpackWords p.payload := by
    show (unpackWords p.payload ++ wordBytes _).take (2 * (byteOf p.payload.length).toNat) = _
    rw [toNat_byteOf _ h, ← length_unpackWords, List.take_left]
  unfold parsePacket
  rw [payload, packWords_unpackWords]
  rfl

theorem tag_packetBytes (p : Packet) : (packetBytes p).getD 0 0 = p.tag := rfl

/-! ## The command unit's look at its queue (R26) -/

/-- The look at the queue touches the command unit alone. -/
theorem takeNext_eq (s : State) : s.takeNext = { s with cmd := s.takeNext.cmd } := by
  unfold State.takeNext
  split
  · split <;> rfl
  · rfl

theorem takeNext_busy (s : State) (h : s.cmd.inFlight ≠ none) : s.takeNext = s := by
  unfold State.takeNext
  split
  · next hn _ => exact absurd hn h
  · rfl

/-- The oldest packet is taken where the reply queue has room for its replies. -/
theorem takeNext_takes (s : State) (p : Packet) (rest : List Packet) (h : s.cmd.inFlight = none)
    (hq : s.cmd.queue = p :: rest) (hr : p.reserves ≤ s.cmd.free) :
    s.takeNext.cmd = { s.cmd with queue := rest, inFlight := some ⟨p, p.reserves⟩ } := by
  simp [State.takeNext, h, hq, hr]

/-- Without that room the queue waits. -/
theorem takeNext_waits (s : State) (p : Packet) (rest : List Packet) (hq : s.cmd.queue = p :: rest)
    (hr : s.cmd.free < p.reserves) : s.takeNext = s := by
  unfold State.takeNext
  split
  · next q _ _ hq' =>
    obtain ⟨rfl, -⟩ := List.cons.inj (hq.symm.trans hq')
    rw [if_neg (Nat.not_le.2 hr)]
  · rfl

/-! ## The route of a packet (R2, R12, R23, R25) -/

/-- The packet errors of a dropped packet (R24, R25). -/
def Rpu.withPacketError (r : Rpu) (e : Event) (c : Counter) : Rpu :=
  { r with flags := r.flags ||| e.bit, packetErrors := satAdd r.packetErrors 1, counters := r.counters.add 1 c }

/-- The forwarding list behind an offered packet. -/
def Ftu.offered (f : Ftu) (line : Nat) (errored : Bool) (bytes : List Byte) : List (Nat × List Byte) :=
  if f.state = .following ∧ errored = false then f.forward ++ [(line, bytes)] else f.forward

theorem offer_eq (s : State) (line : Nat) (errored : Bool) (bytes : List Byte) :
    s.offer line errored bytes = { s with ftu := { s.ftu with forward := Ftu.offered s.ftu line errored bytes } } := by
  unfold State.offer Ftu.offered
  split
  · next h => rw [if_neg (by simp [h])]
  · next h =>
    cases errored with
    | false => simp [h]
    | true => rw [if_pos rfl, if_neg (by simp)]

/-- The forwarding list behind a packet of any tag: all but those with the part's own tag are offered. -/
def Ftu.forwarded (f : Ftu) (mine : Byte) (line : Nat) (errored : Bool) (bytes : List Byte) : List (Nat × List Byte) :=
  if bytes.getD 0 0 = mine then f.forward else Ftu.offered f line errored bytes

theorem forwarded_eq (f : Ftu) (mine : Byte) (line : Nat) (errored : Bool) (bytes : List Byte) :
    Ftu.forwarded f mine line errored bytes =
      if f.state = .following ∧ bytes.getD 0 0 ≠ mine ∧ errored = false then f.forward ++ [(line, bytes)]
      else f.forward := by
  unfold Ftu.forwarded Ftu.offered
  by_cases h : bytes.getD 0 0 = mine
  · simp only [h, if_true, ne_eq, not_true_eq_false, false_and, and_false, if_false]
  · simp only [h, if_false, ne_eq, not_false_eq_true, true_and]

/-- A packet for the part arrives at the command unit, and is offered to the FTU unless the tag is the part's own. -/
theorem route_mine (s : State) (line : Nat) (errored : Bool) (bytes : List Byte)
    (h : bytes.getD 0 0 = s.tag ∨ bytes.getD 0 0 = 0xFF) (ha : (s.arrive errored bytes).ftu = s.ftu) :
    s.route line errored bytes =
      { s.arrive errored bytes with
        ftu := { s.ftu with forward := Ftu.forwarded s.ftu s.tag line errored bytes } } := by
  unfold State.route Ftu.forwarded
  dsimp only
  rw [if_pos (show _ ∨ bytes.getD 0 0 = Config.broadcastTag from h)]
  split
  · rw [← ha]
  · rw [offer_eq, ha]

/-- A foreign packet is offered to the FTU alone. -/
theorem route_foreign (s : State) (line : Nat) (errored : Bool) (bytes : List Byte) (hm : bytes.getD 0 0 ≠ s.tag)
    (hb : bytes.getD 0 0 ≠ 0xFF) :
    s.route line errored bytes =
      { s with ftu := { s.ftu with forward := Ftu.forwarded s.ftu s.tag line errored bytes } } := by
  unfold State.route Ftu.forwarded
  dsimp only
  rw [if_neg (show ¬(_ ∨ bytes.getD 0 0 = Config.broadcastTag) from not_or.2 ⟨hm, hb⟩), if_neg hm, if_neg hm, offer_eq]

theorem arrive_joins (s : State) (errored : Bool) (bytes : List Byte) (h : packetPasses errored bytes = true)
    (hq : s.cmd.queue.length < 16) :
    s.arrive errored bytes =
      ({ s with cmd := { s.cmd with queue := s.cmd.queue ++ [parsePacket bytes] } } : State).takeNext := by
  unfold State.arrive
  rw [if_pos h, if_pos (show _ < Config.commandQueue from hq)]

theorem arrive_full (s : State) (errored : Bool) (bytes : List Byte) (h : packetPasses errored bytes = true)
    (hq : s.cmd.queue.length = 16) : s.arrive errored bytes = s.countPacketError .packetDropped .packetsDropped := by
  unfold State.arrive
  rw [if_pos h, if_neg (show ¬ _ < Config.commandQueue from by rw [hq]; decide)]

theorem arrive_bad (s : State) (errored : Bool) (bytes : List Byte) (h : packetPasses errored bytes = false) :
    s.arrive errored bytes = s.countPacketError .packetCrcError .packetCrcErrors := by
  unfold State.arrive
  rw [if_neg (by simp [h])]

/-- A blanking line that its packet fills. -/
theorem takePacket_whole (s : State) (line : Nat) (errored : Bool) (bytes : List Byte)
    (hc : s.cleanSetting Config.deviceTag) (hd : declaredLength bytes = some bytes.length) :
    s.takePacket line errored bytes = s.route line errored bytes := by
  simp [State.takePacket, readSetting_of_clean s _ hc, hd]

/-- A blanking line with bytes behind its packet. -/
theorem takePacket_surplus (s : State) (line : Nat) (errored : Bool) (bytes surplus : List Byte)
    (hc : s.cleanSetting Config.deviceTag) (hd : declaredLength (bytes ++ surplus) = some bytes.length)
    (hs : surplus ≠ []) : s.takePacket line errored (bytes ++ surplus) = (s.route line errored bytes).linkError := by
  have : 0 < surplus.length := List.length_pos_iff.2 hs
  simp [State.takePacket, readSetting_of_clean s _ hc, hd, this]

/-- A blanking line that ends before its packet, or before the packet's length field. -/
theorem takePacket_short (s : State) (line : Nat) (errored : Bool) (bytes : List Byte)
    (hc : s.cleanSetting Config.deviceTag) (hd : ∀ n, declaredLength bytes = some n → bytes.length < n) :
    s.takePacket line errored bytes = s.linkError := by
  unfold State.takePacket
  dsimp only
  rw [readSetting_of_clean s _ hc]
  split
  · next n hn => rw [if_neg (Nat.not_le.2 (hd n hn))]
  · rfl

/-- A character error that does not reach LOS_ERROR_LIMIT, with an open record or without one. -/
theorem linkError_counted (s : State) (hc : s.cleanSetting Config.losErrorLimit)
    (hlt : ∀ r, s.lrx.record = some r → min 65535 (r.errors + 1) < s.mem.active Config.losErrorLimit) :
    s.linkError =
      { s.countCharError with lrx := { s.lrx with record := s.lrx.record.map FrameRec.withError } } := by
  cases hr : s.lrx.record with
  | none =>
    rw [linkError_no_record s hr, Option.map_none, ← hr]
    rfl
  | some r => rw [linkError_below s r hr hc (hlt r hr)]; rfl

/-! ## SIDE_PACKET (R2) -/

/-- The part at a blanking line, time gone on and the marks of packets forgotten. -/
def State.atBlanking (s : State) (dt : Nat) : State :=
  { s.advance dt with lrx := { s.lrx with packetErrored := none, packetLost := none } }

/-- On a blanking line before the first active line, outside NO_SIGNAL. -/
theorem exec_sidePacket (dt line : Nat) (s : State) (bytes : List Byte) (hi : s.lrx.input ≠ .noSignal)
    (hr : ∀ r, s.lrx.record = some r → r.lines = 0) (hb : bytes ≠ []) :
    exec (.sidePacket dt line bytes) s =
      .next (if s.lrx.packetLost = some line then State.atBlanking s dt
        else (State.atBlanking s dt).takePacket line (decide (s.lrx.packetErrored = some line)) bytes) := by
  show execSidePacket dt line bytes s = _
  unfold execSidePacket
  dsimp only
  split
  · next h => exact absurd h hi
  · exact absurd rfl hb
  all_goals
    rw [if_neg]
    · by_cases hl : (s.advance dt).lrx.packetLost = some line
      · rw [if_pos (decide_eq_true hl)]
        exact congrArg _ (if_pos hl).symm
      · rw [if_neg (ne_true_of_eq_false (decide_eq_false hl))]
        exact congrArg _ (if_neg hl).symm
    · split
      · next r h => simp [hr r h]
      · exact Bool.false_ne_true

theorem ne_nil_of_declaredLength {bytes : List Byte} {n : Nat} (h : declaredLength bytes = some n) : bytes ≠ [] := by
  rintro rfl
  cases h

/-- Settles O15: the packet's own bytes pass the checks, it joins the queue, and the command unit looks at the queue. -/
theorem packetJoinsQueue : Obligations.PacketJoinsQueue := by
  intro dt line s p hi hr he hl hc hlen htag hq
  dsimp only
  generalize hu : State.atBlanking s dt = u
  have hur : u = { s.advance dt with lrx := { s.lrx with packetErrored := none, packetLost := none } } := hu.symm
  have hcu : u.cleanSetting Config.deviceTag := by rw [hur]; exact hc
  have routed : u.route line false (packetBytes p) =
      { ({ u with cmd := { u.cmd with queue := u.cmd.queue ++ [p] } } : State).takeNext with
        ftu := { u.ftu with forward := Ftu.forwarded u.ftu u.tag line false (packetBytes p) } } := by
    have ha := arrive_joins u false (packetBytes p) (packetPasses_packetBytes p hlen) (by rw [hur]; exact hq)
    rw [parsePacket_packetBytes p hlen] at ha
    rw [route_mine u line false (packetBytes p) (by rw [hur]; exact htag) (by rw [ha, State.takeNext_ftu]), ha]
  rw [takeNext_eq] at routed
  generalize hw : ({ u with cmd := { u.cmd with queue := u.cmd.queue ++ [p] } } : State) = w at routed
  have hcmd : w.cmd = { s.cmd with queue := s.cmd.queue ++ [p] } := by rw [← hw, hur]; rfl
  have hbusy : s.cmd.inFlight ≠ none → w.takeNext.cmd = { s.cmd with queue := s.cmd.queue ++ [p] } := fun h => by
    rw [takeNext_busy w (by rw [hcmd]; exact h), hcmd]
  have hfree (first rest) (h : s.cmd.inFlight = none) (hqs : s.cmd.queue ++ [p] = first :: rest) :
      (first.reserves ≤ s.cmd.free →
        w.takeNext.cmd = { s.cmd with queue := rest, inFlight := some ⟨first, first.reserves⟩ }) ∧
      (s.cmd.free < first.reserves → w.takeNext.cmd = { s.cmd with queue := s.cmd.queue ++ [p] }) := by
    have hwq : w.cmd.queue = first :: rest := by rw [hcmd]; exact hqs
    have hwf : w.cmd.free = s.cmd.free := by rw [hcmd]; rfl
    refine ⟨fun hle => ?_, fun hlt => ?_⟩
    · rw [takeNext_takes w first rest (by rw [hcmd]; exact h) hwq (by rw [hwf]; exact hle), hcmd]
    · rw [takeNext_waits w first rest hwq (by rw [hwf]; exact hlt), hcmd]
  have hforward : Ftu.forwarded u.ftu u.tag line false (packetBytes p) =
      if s.ftu.state = .following ∧ p.tag ≠ s.tag then s.ftu.forward ++ [(line, packetBytes p)]
      else s.ftu.forward := by
    rw [forwarded_eq, tag_packetBytes, hur]
    exact if_congr (by rw [eq_self, and_true]; exact Iff.rfl) rfl rfl
  rw [hforward] at routed
  constructor
  · refine ⟨_, exec_sidePacket dt line s _ hi hr (by simp [packetBytes_eq, packetBody]), ?_⟩
    have hd := declaredLength_packetBytes p hlen []
    rw [List.append_nil] at hd
    rw [if_neg hl, decide_eq_false he, hu, takePacket_whole u line false _ hcu hd, routed]
    exact ⟨⟨hbusy, hfree, rfl, by rw [← hw, hur]⟩, by rw [← hw, hur]; rfl⟩
  · intro surplus hs hcl hlt
    refine ⟨_, exec_sidePacket dt line s _ hi hr (by simp [packetBytes_eq, packetBody]), ?_⟩
    rw [if_neg hl, decide_eq_false he, hu,
      takePacket_surplus u line false _ surplus hcu (declaredLength_packetBytes p hlen surplus) hs, routed,
      linkError_counted]
    · exact ⟨⟨hbusy, hfree, rfl, by rw [← hw, hur]; rfl⟩, by rw [← hw, hur]; rfl, by rw [← hw, hur]; rfl,
        by rw [← hw, hur]; rfl⟩
    · rw [← hw, hur]; exact hcl
    · rw [← hw, hur]; exact hlt

/-- Settles O16, one clause for each way a packet is dropped, forwarded or discarded. -/
theorem packetIsDroppedOrForwarded : Obligations.PacketIsDroppedOrForwarded := by
  intro dt line s bytes
  generalize herr : decide (s.lrx.packetErrored = some line) = errored
  have notErrored : errored = false ↔ s.lrx.packetErrored ≠ some line := by rw [← herr, decide_eq_false_iff_not]
  have forward (mine : Byte) : Ftu.forwarded s.ftu mine line errored bytes =
      if s.ftu.state = .following ∧ bytes.getD 0 0 ≠ mine ∧ s.lrx.packetErrored ≠ some line
      then s.ftu.forward ++ [(line, bytes)] else s.ftu.forward := by
    rw [forwarded_eq]; simp only [notErrored]
  refine ⟨fun hi hr hl hc hd ht => ?_, fun hi hr hl hc hd hm hb => ?_, fun hi hr hb hc hcl hlt hd hl => ?_,
    fun hi hr hb hl => ?_, fun r hi hr h0 hb => ?_, fun hi => ?_⟩
  · have run (e : Event) (c : Counter) (ha : ∀ u : State, u.cmd = s.cmd →
        u.arrive errored bytes = u.countPacketError e c) :
        exec (.sidePacket dt line bytes) s = .next { State.atBlanking s dt with
          rpu := Rpu.withPacketError s.rpu e c
          ftu := { s.ftu with forward := Ftu.forwarded s.ftu s.tag line errored bytes } } := by
      rw [exec_sidePacket dt line s bytes hi hr (ne_nil_of_declaredLength hd), if_neg hl, herr,
        takePacket_whole (State.atBlanking s dt) line errored bytes hc hd,
        route_mine (State.atBlanking s dt) line errored bytes ht
          (by rw [ha (State.atBlanking s dt) rfl]; rfl), ha (State.atBlanking s dt) rfl]
      rfl
    refine ⟨fun hp => ⟨_, run _ _ fun u _ => arrive_bad u errored bytes hp, rfl, forward _, rfl, rfl⟩,
      fun hp hq => ⟨_, run _ _ fun u hu => arrive_full u errored bytes hp (by rw [hu]; exact hq), rfl, forward _,
        rfl, rfl⟩⟩
  · refine ⟨_, exec_sidePacket dt line s bytes hi hr (ne_nil_of_declaredLength hd), ?_⟩
    rw [if_neg hl, herr, takePacket_whole (State.atBlanking s dt) line errored bytes hc hd,
      route_foreign (State.atBlanking s dt) line errored bytes hm hb]
    refine ⟨(forward _).trans ?_, rfl, rfl⟩
    simp only [ne_eq, show bytes.getD 0 0 ≠ (State.atBlanking s dt).tag from hm, not_false_eq_true, true_and]
  · refine ⟨_, exec_sidePacket dt line s bytes hi hr hb, ?_⟩
    rw [if_neg hl, takePacket_short (State.atBlanking s dt) line _ bytes hc hd,
      linkError_counted (State.atBlanking s dt) hcl hlt]
    exact ⟨rfl, rfl, rfl, rfl⟩
  · refine ⟨_, exec_sidePacket dt line s bytes hi hr hb, ?_⟩
    rw [if_pos hl]
    exact ⟨rfl, rfl⟩
  · have same : exec (.sidePacket dt line bytes) s = exec (.activeLine dt []) s := by
      show execSidePacket dt line bytes s = _
      unfold execSidePacket
      dsimp only
      rw [show (s.advance dt).lrx.record = some r from hr]
      split
      · next h => exact absurd h hi
      · exact absurd rfl hb
      all_goals rw [if_pos (by simpa using h0)]; rfl
    refine ⟨same, fun w hia hf hw hne hcl hlt => ?_⟩
    obtain ⟨t, ht, hrec, -, -, hcount, -, hkept⟩ :=
      (activeLineIsJudged.2 dt [] s r hia hf hr).2 w hw (by simpa using hne) hcl hlt
    exact ⟨t, same.trans ht, (congrArg State.cmd hkept :), (congrArg State.ftu hkept :), hrec, hcount⟩
  · show execSidePacket dt line bytes s = _
    simp [execSidePacket, hi]

end Sys2Proof.Laws
end

