-- ==== Sys2Proof/Proofs/Registers.lean ====
section
/-! PROOF. The commands that clear or load registers. -/

namespace Sys2Proof.Laws

open Sys2Proof.Machine

/-- A command in flight with a payload length that its row accepts runs its body. -/
theorem execute_body (s : State) (p : Packet) (code : Byte) (accepts : Nat → Bool)
    (body : Packet → State → State × Option Answer) (h : s.runs p code) (ha : accepts p.payload.length = true) :
    s.execute code false accepts body = (body p s).1.finish p (body p s).2 := by
  obtain ⟨he, hcode, -⟩ := h
  rw [execute_runs s p code false accepts body he hcode, Bool.false_and, if_neg Bool.false_ne_true, if_pos ha]

/-- A command that answers OK and leaves the command unit alone is answered. -/
theorem finish_ok_answered (s u : State) (p : Packet) (data : List Word) (h : u.cmd = s.cmd) :
    s.answered (u.finish p (some (.ok data))) p .ok data :=
  finish_answered s u p .ok data (by rw [h]) (by rw [h]) (by rw [h])

/-- The end of a command with a clean DEVICE_TAG, told by the command unit and the slot alone. -/
theorem finish_eq (u : State) (p : Packet) (a : Option Answer) (h : u.cleanSetting Config.deviceTag) :
    u.finish p a =
      { u with cmd := (u.finish p a).cmd, rpu := { u.rpu with slot := (u.finish p a).rpu.slot } } :=
  finish_kept u p a h (u.finish p a).cmd (u.finish p a).rpu.slot

/-- The end of an accepted command, its state told by the command unit and the slot alone. -/
theorem execute_ok (s u : State) (p : Packet) (code : Byte) (accepts : Nat → Bool)
    (body : Packet → State → State × Option Answer) (data : List Word) (h : s.runs p code)
    (ha : accepts p.payload.length = true) (hb : body p s = (u, some (.ok data))) (hcmd : u.cmd = s.cmd)
    (himn : u.cleanSetting Config.deviceTag) :
    ∃ c x, s.execute code false accepts body = { u with cmd := c, rpu := { u.rpu with slot := x } } ∧
      s.answered { u with cmd := c, rpu := { u.rpu with slot := x } } p .ok data := by
  refine ⟨(u.finish p (some (.ok data))).cmd, (u.finish p (some (.ok data))).rpu.slot, ?_, ?_⟩
  · rw [execute_body s p code accepts body h ha, hb]
    exact finish_eq u p _ himn
  · rw [← finish_eq u p _ himn]
    exact finish_ok_answered s u p data hcmd

/-- A 32-bit value of two words, as a number. -/
theorem toNat_joinWords (hi lo : Word) : (joinWords hi lo).toNat = hi.toNat * 65536 + lo.toNat := by
  have := lo.isLt
  simp only [joinWords, BitVec.toNat_append]
  rw [← Nat.shiftLeft_add_eq_or_of_lt this, Nat.shiftLeft_eq]

/-- Settles O51, one command at a time; each ends by an answer that touches the command unit and the slot. -/
theorem registersAreClearedAndLoaded : Obligations.RegistersAreClearedAndLoaded := by
  intro dt s p
  refine ⟨fun hr hp => ?_, fun hr hp => ?_, fun hr hp => ?_, fun hi lo hp => ⟨fun hr => ?_, fun hr => ?_⟩⟩
  · obtain ⟨c, x, ht, hans⟩ := execute_ok (s.advance dt) { s.advance dt with tbs := { s.tbs with marks := 0 } } p
      Config.codeCancelCommit (exactly 0) cancelCommit [] hr (by rw [hp]; rfl) rfl rfl hr.2.2
    exact ⟨_, congrArg Host.Outcome.next ht, hans, rfl, rfl, rfl⟩
  · obtain ⟨c, x, ht, hans⟩ := execute_ok (s.advance dt) { s.advance dt with rpu := { s.rpu with counters := .zero } } p
      Config.codeClearCounters (exactly 0) clearCounters [] hr (by rw [hp]; rfl) rfl rfl hr.2.2
    exact ⟨_, congrArg Host.Outcome.next ht, hans, by simp [Counters.list, Counters.zero], rfl, rfl⟩
  · obtain ⟨c, x, ht, hans⟩ := execute_ok (s.advance dt)
      { s.advance dt with imn := { s.imn with log := [], overflow := false, lost := 0 } } p
      Config.codeErrorLogClear (exactly 0) errorLogClear _ hr (by rw [hp]; rfl) rfl rfl hr.2.2
    refine ⟨_, congrArg Host.Outcome.next ht, ?_, rfl, rfl, rfl, rfl, rfl⟩
    have overflow : wordOfNat (flag s.imn.overflow) = if s.imn.overflow then 1 else 0 := by
      cases s.imn.overflow <;> rfl
    rw [← overflow]
    exact hans
  · obtain ⟨c, x, ht, hans⟩ := execute_ok (s.advance dt)
      { s.advance dt with clock := ⟨s.clock.now + dt, joinWords hi lo⟩ } p
      Config.codeTimeSet (exactly 2) timeSet [] hr (by rw [hp]; rfl) (by simp [timeSet, accepted, hp]) rfl hr.2.2
    exact ⟨_, congrArg Host.Outcome.next ht, hans, rfl, toNat_joinWords hi lo, rfl, rfl⟩
  · obtain ⟨c, x, ht, hans⟩ := execute_ok (s.advance dt)
      { s.advance dt with ftu := { s.ftu with adjust := some (joinWords hi lo) } } p
      Config.codeTimeAdjust (exactly 2) timeAdjust [] hr (by rw [hp]; rfl) (by simp [timeAdjust, accepted, hp]) rfl
      hr.2.2
    exact ⟨_, _, congrArg Host.Outcome.next ht, hans, rfl, rfl, toNat_joinWords hi lo, rfl⟩

end Sys2Proof.Laws
end

