-- ==== Sys2Proof/Proofs/OutputLines.lean ====
section
/-! PROOF. The lines of an output frame. -/

namespace Sys2Proof.Laws

open Sys2Proof.Machine

/-! ## Blanking lines (R2, R12) -/

/-- Settles O22: the packet is looked up by its line and leaves the list. -/
theorem blankingLineCarriesPacket : Obligations.BlankingLineCarriesPacket := by
  intro dt line s hb
  have run : exec (.outputBlankingLine dt line) s = .next { s.advance dt with ftu := { s.ftu with
      forward := s.ftu.forward.filter (fun e => e.1 != line)
      panel := .blanking line ((s.ftu.forward.find? (fun e => e.1 == line)).map Prod.snd) } } := by
    show execOutputBlankingLine dt line s = _
    simp [execOutputBlankingLine, hb]
  refine ⟨_, run, fun bytes rest hf => ?_, fun hf => ⟨?_, ?_⟩, fun e => ?_, rfl, rfl⟩
  · simp [hf]
  · have : s.ftu.forward.find? (fun e => e.1 == line) = none := by
      rw [List.find?_eq_none]
      intro e he
      simpa using hf e he
    simp [this]
  · exact List.filter_eq_self.2 fun e he => by simpa using hf e he
  · simp [List.mem_filter]

/-! ## Latches that are not due (R121) -/

theorem latchFallsDue_not_pending (s : State) (k : ChainNo) (h : s.chc.chains[k].latchPending = false) :
    s.latchFallsDue k = s := by
  simp only [State.latchFallsDue, h, Bool.false_and, Bool.false_eq_true, if_false]

/-- A line at which no latch is due changes nothing of the chains. -/
theorem latchesOfLine_none (s : State) (n : Nat)
    (h : ∀ k : ChainNo, s.chc.latchLines[k] = n → s.chc.chains[k].latchPending = false) : s.latchesOfLine n = s := by
  have fold (l : List ChainNo) (hl : ∀ k ∈ l, s.chc.chains[k].latchPending = false) :
      l.foldl State.latchFallsDue s = s := by
    induction l with
    | nil => rfl
    | cons k l ih =>
      rw [List.foldl_cons, latchFallsDue_not_pending s k (hl k (by simp))]
      exact ih fun j hj => hl j (by simp [hj])
  refine fold _ fun k hk => h k ?_
  simpa using (List.mem_filter.1 hk).2

/-! ## Active lines (R6, R105, R113) -/

/-- A copy has the asked width, and black where the copied line has ended. -/
theorem copyLine_spec (last : Option (List Pixel)) (width : Nat) :
    (copyLine last width).length = width ∧
      ∀ x < width, (copyLine last width)[x]? = some (((last.getD [])[x]?).getD ⟨0, 0, 0⟩) := by
  have len : ((last.getD []).take width).length = min width (last.getD []).length := List.length_take
  constructor
  · simp only [copyLine, List.length_append, List.length_replicate, len]
    omega
  · intro x hx
    simp only [copyLine]
    by_cases hl : x < (last.getD []).length
    · rw [List.getElem?_append_left (by rw [len]; omega), List.getElem?_take_of_lt hx, List.getElem?_eq_getElem hl]
      rfl
    · rw [List.getElem?_append_right (by rw [len]; omega), List.getElem?_replicate, if_pos (by rw [len]; omega),
        List.getElem?_eq_none (Nat.le_of_not_lt hl)]
      rfl

/-- Counting over a list with its places is counting over the places. -/
theorem countP_zipIdx {α : Type} (l : List α) (f : α × Nat → Bool) :
    l.zipIdx.countP f =
      ((List.range l.length).filter (fun x => (l[x]?.map (fun a => f (a, x))).getD false)).length := by
  induction l using List.reverseRecOn with
  | nil => rfl
  | append_singleton l a ih =>
    have same : (List.range l.length).filter (fun x => ((l ++ [a])[x]?.map (fun a => f (a, x))).getD false) =
        (List.range l.length).filter (fun x => (l[x]?.map (fun a => f (a, x))).getD false) :=
      List.filter_congr fun x hx => by rw [List.getElem?_append_left (List.mem_range.1 hx)]
    rw [List.zipIdx_append, List.countP_append, ih, List.length_append, List.length_singleton, List.range_succ,
      List.filter_append, same, List.length_append]
    cases hf : f (a, l.length) <;> simp [hf]

/-- A compensated line, pixel by pixel, and its clipped pixels. -/
theorem compensateLine_spec (cap : Capture) (field : Sparse Nat) (n : Nat) (pixels : List Pixel) :
    (cap.compensateLine field n pixels).1.length = pixels.length ∧
    (∀ x p, pixels[x]? = some p →
      (cap.compensateLine field n pixels).1[x]? = some (cap.compensate field n x p).1) ∧
    (cap.compensateLine field n pixels).2 = ((List.range pixels.length).filter (fun x =>
      ((pixels[x]?).map (fun p => (cap.compensate field n x p).2)).getD false)).length := by
  refine ⟨by simp [Capture.compensateLine], fun x p hp => ?_, ?_⟩
  · simp [Capture.compensateLine, List.getElem?_zipIdx, hp]
  · simp only [Capture.compensateLine, List.countP_map]
    exact countP_zipIdx pixels _

/-- What a followed line is sent as, with its clipped pixels (R105). -/
def State.lineOut (s : State) (n : Nat) (pixels : List Pixel) (damaged off : Bool) (width : Nat) : List Pixel × Nat :=
  if damaged then (copyLine s.ftu.lastLine width, 0) else s.sentLine n pixels off

theorem sendLine_eq (s : State) (n : Nat) (pixels : List Pixel) (damaged off : Bool) (width : Nat) :
    s.sendLine n pixels damaged off width =
      ({ s with
        pxc := { s.pxc with clips := s.pxc.clips + (State.lineOut s n pixels damaged off width).2 }
        ftu := { s.ftu with
          phase := .active (n + 1), delay := s.ftu.delay.drop 1
          lastLine := some (State.lineOut s n pixels damaged off width).1
          panel := .line (State.lineOut s n pixels damaged off width).1 } } : State).latchesOfLine n := rfl

/-- An off-geometry line, and a line without the flag or outside DIMMING, passes unchanged (R9, R105). -/
theorem lineOut_unchanged (s : State) (n : Nat) (pixels : List Pixel) (off : Bool) (width : Nat)
    (h : off = true ∨ s.pxc.compensating = false ∨ s.mdc.mode ≠ .dimming) :
    State.lineOut s n pixels false off width = (pixels, 0) := by
  unfold State.lineOut State.sentLine
  rw [if_neg Bool.false_ne_true]
  split
  · rw [if_neg]
    rcases h with h | h | h <;> simp [h]
  · rfl

/-- Any other line is compensated over the captured grid. -/
theorem lineOut_compensated (s : State) (n : Nat) (pixels : List Pixel) (width : Nat) (cap : Capture)
    (hf : s.pxc.compensating = true) (hm : s.mdc.mode = .dimming) (hc : s.pxc.capture = some cap) :
    State.lineOut s n pixels false false width = cap.compensateLine s.pxc.field n pixels := by
  simp [State.lineOut, State.sentLine, hf, hm, hc]

theorem exec_outputLineBegin_followed (dt n : Nat) (s : State) (pixels : List Pixel) (damaged off : Bool) (width : Nat)
    (rest : List Delayed) (hp : s.ftu.phase = .active n) (hf : s.ftu.state = .following)
    (hd : s.ftu.delay = .line pixels damaged off width :: rest) :
    exec (.outputLineBegin dt) s = .next ((s.advance dt).sendLine n pixels damaged off width) := by
  show execOutputLineBegin dt s = _
  simp [execOutputLineBegin, hp, hf, hd]

theorem exec_outputLineBegin_black (dt n : Nat) (s : State) (hp : s.ftu.phase = .active n)
    (hf : s.ftu.state = .freeRun) (hn : n < s.ftu.geometry.height) :
    exec (.outputLineBegin dt) s = .next (((s.advance dt).advanceTo (s.ftu.freeLineDue n)).sendBlackLine n) := by
  show execOutputLineBegin dt s = _
  simp [execOutputLineBegin, hp, hf, hn]

/-- Settles O27, by the four ways of a line. -/
theorem outputLineIsSentFourWays : Obligations.OutputLineIsSentFourWays := by
  intro dt n s hp hl
  refine ⟨fun pixels damaged off width rest hf hd => ?_, fun hf hn => ?_⟩
  · refine ⟨_, (State.lineOut (s.advance dt) n pixels damaged off width).1,
      (State.lineOut (s.advance dt) n pixels damaged off width).2,
      exec_outputLineBegin_followed dt n s pixels damaged off width rest hp hf hd, ?_⟩
    rw [sendLine_eq, latchesOfLine_none]
    · refine ⟨?_, rfl, rfl, ?_, ?_, ?_, rfl⟩
      · simp [hd]
      · rintro rfl
        exact ⟨rfl, copyLine_spec _ _⟩
      · rintro rfl h
        rw [lineOut_unchanged (s.advance dt) n pixels off width h]
        exact ⟨rfl, rfl⟩
      · rintro cap rfl rfl hc hm hcap
        rw [lineOut_compensated (s.advance dt) n pixels width cap hc hm hcap]
        exact compensateLine_spec cap s.pxc.field n pixels
    · exact hl
  · refine ⟨_, exec_outputLineBegin_black dt n s hp hf hn, ?_⟩
    rw [State.sendBlackLine, latchesOfLine_none]
    · refine ⟨rfl, ?_, rfl⟩
      exact State.advanceTo_now _ _
    · exact hl

end Sys2Proof.Laws
end

