-- ==== Sys2Proof/Proofs/FollowedLines.lean ====
section
/-! PROOF. A followed active line: its marks, and what it adds to the statistics. -/

namespace Sys2Proof.Laws

open Sys2Proof.Machine

/-- A line in the delay does not change whether the frame turn has been taken. -/
theorem turnTaken_append_line (f : Ftu) (pixels : List Pixel) (damaged off : Bool) (width : Nat) :
    ({ f with delay := f.delay ++ [.line pixels damaged off width] } : Ftu).turnTaken = f.turnTaken := by
  simp [Ftu.turnTaken]

/-- After the frame turn a line is added at once (R63). -/
theorem addLine_taken (s : State) (y : Nat) (pixels : List Pixel) (g : Grid) (ht : s.ftu.turnTaken = true)
    (hg : s.stu.grid = some g) (hb : s.stu.lineBuffer = []) :
    s.addLine y pixels =
      { s with stu := { s.stu with accumulators := g.addPixels y 0 pixels s.stu.accumulators } } := by
  simp only [State.addLine, State.addWaitingLines, ht, hg, hb, List.nil_append, List.foldl_cons, List.foldl_nil]

/-- Before the frame turn it waits (R63). -/
theorem addLine_waits (s : State) (y : Nat) (pixels : List Pixel) (ht : s.ftu.turnTaken = false)
    (hb : s.stu.lineBuffer = []) :
    s.addLine y pixels = { s with stu := { s.stu with lineBuffer := [(y, pixels)] } } := by
  simp [State.addLine, State.addWaitingLines, ht, hb]

/-- Settles O7: the marks decide whether the line is measured, the frame turn when. -/
theorem followedLineIsHandedOn : Obligations.FollowedLineIsHandedOn := by
  intro dt pixels s r g grid hi hg hf hr hgrid hbuf
  dsimp only
  have off_iff : (r.offGeometry || s.lrx.offBy r pixels.length) = true ↔
      r.offGeometry = true ∨ (r.width = none ∧ pixels.length ≠ g.width) ∨ g.height ≤ r.lines := by
    rw [Bool.or_eq_true, offBy_locked _ _ _ g hi hg]
  generalize hoff : (r.offGeometry || s.lrx.offBy r pixels.length) = off at off_iff
  constructor
  · intro w hw hne hc hlt
    refine ⟨_, off, exec_activeLine dt pixels s, by simpa [hw] using off_iff, ?_⟩
    rw [endLine_wrong (s.advance dt) pixels r w hr hw hne, handLine_marked, linkError_below _ _ rfl]
    · refine ⟨?_, ?_, rfl, rfl, rfl, rfl⟩
      · rw [← hoff]; rfl
      · simp [FrameRec.withError, ← hw, ← hoff]
    · exact hc
    · exact hlt
    · exact hf
    · rfl
  · intro hw
    refine ⟨_, off, exec_activeLine dt pixels s, off_iff, ?_⟩
    have ended := endLine_right (s.advance dt) pixels r hr hw
    simp only [State.advance_lrx, hoff] at ended
    have record (d : Bool) (hd : s.lrx.lineDamaged = d) :
        (Lrx.withLine s.lrx r pixels.length pixels.length d).record = some { r with
          width := some pixels.length, lines := r.lines + 1, damaged := r.damaged || s.lrx.lineDamaged,
          offGeometry := off } := by rw [hd, ← hoff]; rfl
    by_cases hm : (s.lrx.lineDamaged || off) = true
    · rw [ended, handLine_marked]
      · rw [Bool.or_eq_true] at hm
        refine ⟨rfl, record _ rfl, fun _ => rfl, fun hd ho _ => ?_, fun hd ho _ => ?_, rfl, rfl⟩
        · simp [hd, ho] at hm
        · simp [hd, ho] at hm
      · exact hf
      · exact hm
    · have unmarked : s.lrx.lineDamaged = false ∧ off = false := by simpa using hm
      obtain ⟨hd, rfl⟩ := unmarked
      rw [hd, handLine_taken] at ended
      · rw [ended]
        cases ht : s.ftu.turnTaken with
        | true =>
          rw [addLine_taken _ _ _ grid]
          · refine ⟨by rw [hd]; rfl, record _ hd, by simp [hd], fun _ _ _ => ⟨rfl, fun z => ?_⟩, nofun, rfl, rfl⟩
            exact accAt_addPixels grid r.lines 0 z pixels s.stu.accumulators
          · exact (turnTaken_append_line _ _ _ _ _).trans ht
          · exact hgrid
          · exact hbuf
        | false =>
          rw [addLine_waits]
          · exact ⟨by rw [hd]; rfl, record _ hd, by simp [hd], nofun, fun _ _ _ => rfl, rfl, rfl⟩
          · exact (turnTaken_append_line _ _ _ _ _).trans ht
          · exact hbuf
      · exact hf

end Sys2Proof.Laws
end

