-- ==== Sys2Proof/Proofs/FrameTurn.lean ====
section
/-! PROOF. What a frame turn leaves alone, in every state, and what it gives where no error waits. -/

namespace Sys2Proof.Laws

open Sys2Proof.Machine

/-! ## The chains under their arbiters -/

/-- The state with the chain records and the pass-through queue blanked out. -/
def blankChains (s : State) : State :=
  { s with chc := { s.chc with chains := Vector.replicate 8 .reset, passQueue := [] } }

theorem blankChains_setChain (s : State) (k : ChainNo) (c : ChainRec) : blankChains (s.setChain k c) = blankChains s := rfl

theorem blankChains_arbitrate (s : State) (k : ChainNo) : blankChains (s.arbitrate k) = blankChains s :=
  (congrArg blankChains (arbitrate_kept s k) :)

theorem blankChains_latchFallsDue (s : State) (k : ChainNo) : blankChains (s.latchFallsDue k) = blankChains s := by
  unfold State.latchFallsDue
  dsimp only
  split
  · exact (blankChains_arbitrate _ k).trans (blankChains_setChain s k _)
  · rfl

theorem blankChains_latchesFallDue (s : State) : blankChains s.latchesFallDue = blankChains s :=
  foldl_keeps blankChains _ blankChains_latchFallsDue _ s

theorem blankChains_latchesOfLine (s : State) (n : Nat) : blankChains (s.latchesOfLine n) = blankChains s :=
  foldl_keeps blankChains _ blankChains_latchFallsDue _ s

theorem blankChains_standbyChains (s : State) : blankChains s.standbyChains = blankChains s :=
  foldl_keeps blankChains _ (fun s k => (blankChains_arbitrate _ k).trans (blankChains_setChain s k _)) _ s

/-- What a state that differs in the chains alone is. -/
theorem eq_of_blankChains {s t : State} (h : blankChains t = blankChains s) :
    t = { s with chc := { s.chc with chains := t.chc.chains, passQueue := t.chc.passQueue } } :=
  (congrArg (fun u : State => { u with chc := { u.chc with chains := t.chc.chains, passQueue := t.chc.passQueue } }) h :)

/-! ## What a frame turn leaves alone -/

/-- The state with all that a frame turn can change blanked out, but the mark of a turn that waits. -/
def blankTurn (s : State) : State :=
  { s with
    mem := [], imn := .reset, mdc := .reset, tbs := .reset 0
    stu := { s.stu with grid := none, lineBuffer := [], accumulators := [] }
    lvs := { s.lvs with reseed := [], lastSet := .zero, unlit := [] }
    pxc := { s.pxc with display := [], displayChain := [], taken := Vector.replicate 8 none }
    chc := { s.chc with chains := Vector.replicate 8 .reset, passQueue := [] }
    rpu := { s.rpu with flags := 0, counters := .zero, notifyMask := 0 } }

/-- From `s` to `t` only what a frame turn can change has changed, and no flag has fallen. -/
def turnKeeps (s t : State) : Prop := blankTurn t = blankTurn s ∧ keepsFlags s t

theorem blankTurn_of_blankRead {s t : State} (h : blankRead t = blankRead s) : blankTurn t = blankTurn s :=
  (congrArg blankTurn h :)

theorem blankTurn_of_blankChains {s t : State} (h : blankChains t = blankChains s) : blankTurn t = blankTurn s :=
  (congrArg blankTurn h :)

theorem turnKeeps_refl (s : State) : turnKeeps s s := ⟨rfl, keepsFlags_refl s⟩

theorem turnKeeps_trans {s t u : State} (h : turnKeeps s t) (h' : turnKeeps t u) : turnKeeps s u :=
  ⟨h'.1.trans h.1, keepsFlags_trans h.2 h'.2⟩

theorem turnKeeps_foldl {α : Type} (g : State → α → State) (h : ∀ s a, turnKeeps s (g s a)) (l : List α) (s : State) :
    turnKeeps s (l.foldl g s) :=
  ⟨foldl_keeps blankTurn g (fun s a => (h s a).1) l s, keepsFlags_foldl g (fun s a => (h s a).2) l s⟩

/-- A step that raises no flag and changes nothing outside a frame turn's reach. -/
theorem turnKeeps_of_eq {s t : State} (h : blankTurn t = blankTurn s) (hf : t.rpu.flags = s.rpu.flags) :
    turnKeeps s t := ⟨h, keepsFlags_of_eq hf⟩

theorem turnKeeps_raise (s : State) (e : Event) : turnKeeps s (s.raise e) := ⟨rfl, keepsFlags_raise s e⟩

theorem turnKeeps_readWord (s : State) (a : Nat) : turnKeeps s (s.readWord a) :=
  ⟨blankTurn_of_blankRead (blankRead_readWord s a), keepsFlags_readWord s a⟩

theorem turnKeeps_readRange (s : State) (lo n : Nat) : turnKeeps s (s.readRange lo n) :=
  turnKeeps_foldl _ (fun s _ => turnKeeps_readWord s _) _ s

theorem turnKeeps_readSetting (s : State) (i : Nat) : turnKeeps s (s.readSetting i) := turnKeeps_readRange s _ _

theorem turnKeeps_readSettings (s : State) (is : List Nat) : turnKeeps s (s.readSettings is) :=
  turnKeeps_foldl _ turnKeeps_readSetting _ s

theorem turnKeeps_readOverwritten (s : State) (t : Nat) : turnKeeps s (s.readOverwritten t) :=
  turnKeeps_foldl _ (fun s _ => turnKeeps_readWord s _) _ s

theorem turnKeeps_validateStaging (s : State) (mask : BitVec 4) : turnKeeps s (s.validateStaging mask).1 := by
  unfold State.validateStaging
  split
  · dsimp only
    exact turnKeeps_readRange s _ _
  · exact turnKeeps_refl s

theorem turnKeeps_copyTable (s : State) (t : Nat) : turnKeeps s (s.copyTable t) := by
  unfold State.copyTable
  dsimp only
  refine turnKeeps_trans ?_ (turnKeeps_of_eq rfl rfl)
  exact turnKeeps_trans (turnKeeps_readRange s _ _) (turnKeeps_readOverwritten _ t)

theorem turnKeeps_applyMarks (s : State) : turnKeeps s s.applyMarks := by
  unfold State.applyMarks
  dsimp only
  split
  · exact turnKeeps_of_eq rfl rfl
  · have valid := turnKeeps_validateStaging s s.tbs.marks
    generalize (s.validateStaging s.tbs.marks).1 = u at valid ⊢
    have settled (v : State) (h : turnKeeps s v) (b : Tbs) (e : Event) :
        turnKeeps s (({ v with tbs := b } : State).raise e) :=
      turnKeeps_trans (turnKeeps_trans h (turnKeeps_of_eq rfl rfl)) (turnKeeps_raise _ e)
    split
    · exact settled _ (turnKeeps_trans valid (turnKeeps_foldl _ turnKeeps_copyTable _ u)) _ _
    · exact settled _ valid _ _

theorem turnKeeps_readWhilePending (s : State) (lo n : Nat) : turnKeeps s (s.readWhilePending lo n) := by
  refine turnKeeps_foldl _ (fun s i => ?_) _ s
  split
  · exact turnKeeps_readWord s _
  · exact turnKeeps_refl s

theorem turnKeeps_readForMode (s : State) : turnKeeps s s.readForMode := by
  unfold State.readForMode
  dsimp only
  refine turnKeeps_trans ?_ (turnKeeps_readWhilePending _ _ _)
  exact turnKeeps_readWhilePending s _ _

theorem turnKeeps_standbyChains (s : State) : turnKeeps s s.standbyChains :=
  turnKeeps_of_eq (blankTurn_of_blankChains (blankChains_standbyChains s)) (by rw [State.standbyChains_rpu])

theorem turnKeeps_standbyEntry (s : State) : turnKeeps s s.standbyEntry := by
  unfold State.standbyEntry
  dsimp only
  refine turnKeeps_trans ?_ (turnKeeps_standbyChains _)
  exact turnKeeps_of_eq rfl rfl

theorem turnKeeps_changeMode (s : State) (target : Mode) : turnKeeps s (s.changeMode target) := by
  unfold State.changeMode
  dsimp only
  split
  · exact turnKeeps_refl s
  · have changed : turnKeeps s (({ s with mdc := { s.mdc with mode := target } } : State).raise .modeChanged) :=
      turnKeeps_trans (turnKeeps_of_eq rfl rfl) (turnKeeps_raise _ _)
    split
    · exact turnKeeps_trans changed (turnKeeps_standbyEntry _)
    · exact changed

theorem turnKeeps_handleRequest (s : State) : turnKeeps s s.handleRequest := by
  unfold State.handleRequest
  split
  · exact turnKeeps_of_eq rfl rfl
  · next target _ =>
    have reads : turnKeeps s (if target.validated then s.readForMode else s) := by
      split
      · exact turnKeeps_readForMode s
      · exact turnKeeps_refl s
    dsimp only
    generalize (if target.validated then s.readForMode else s) = u at reads ⊢
    have noted (m : Mdc) : turnKeeps s { u with mdc := m } := turnKeeps_trans reads (turnKeeps_of_eq rfl rfl)
    split
    · exact noted _
    · split
      · exact turnKeeps_trans (noted _) (turnKeeps_changeMode _ _)
      · exact turnKeeps_trans (noted _) (turnKeeps_raise _ _)

theorem turnKeeps_addWaitingLines (s : State) : turnKeeps s s.addWaitingLines := by
  unfold State.addWaitingLines
  split
  · exact turnKeeps_of_eq rfl rfl
  · exact turnKeeps_refl s

theorem turnKeeps_layGrid (s : State) : turnKeeps s s.layGrid := by
  unfold State.layGrid
  dsimp only
  refine turnKeeps_trans ?_ (turnKeeps_addWaitingLines _)
  exact turnKeeps_trans (turnKeeps_readSettings s _) (turnKeeps_of_eq rfl rfl)

/-- The state whose frame turn waits no longer. -/
def State.turnBegun (s : State) : State := { s with ftu := { s.ftu with turnWaiting := false } }

/-- The NOTIFY_MASK in use as the active SETTINGS give it (R174). -/
def State.maskRead (s : State) : State :=
  let s := s.readSetting Config.notifyMask
  { s with rpu := { s.rpu with notifyMask := BitVec.ofNat 17 (s.mem.active Config.notifyMask) } }

/-- The steps of a frame turn (R17). -/
theorem frameTurn_eq (s : State) :
    s.frameTurn = State.maskRead (State.turnBegun s).applyMarks.handleRequest.layGrid := by
  unfold State.frameTurn State.maskRead State.turnBegun
  with_reducible rfl

theorem turnKeeps_maskRead (s : State) : turnKeeps s (State.maskRead s) := by
  unfold State.maskRead
  dsimp only
  exact turnKeeps_trans (turnKeeps_readSetting s Config.notifyMask) (turnKeeps_of_eq rfl rfl)

/-- A frame turn keeps all that `blankTurn` shows, and every flag. -/
theorem turnKeeps_frameTurn (s : State) : turnKeeps (State.turnBegun s) s.frameTurn := by
  have turned : turnKeeps (State.turnBegun s) (State.turnBegun s).applyMarks.handleRequest.layGrid :=
    turnKeeps_trans (turnKeeps_trans (turnKeeps_applyMarks _) (turnKeeps_handleRequest _)) (turnKeeps_layGrid _)
  rw [frameTurn_eq]
  exact turnKeeps_trans turned (turnKeeps_maskRead _)

/-! The units of two states between which a frame turn's changes alone have happened. -/

section
variable {s t : State} (h : turnKeeps s t)
include h

theorem clock_of_turnKeeps : t.clock = s.clock := (congrArg State.clock h.1 :)
theorem lrx_of_turnKeeps : t.lrx = s.lrx := (congrArg State.lrx h.1 :)
theorem ftu_of_turnKeeps : t.ftu = s.ftu := (congrArg State.ftu h.1 :)
theorem cmd_of_turnKeeps : t.cmd = s.cmd := (congrArg State.cmd h.1 :)
theorem pending_of_turnKeeps : t.pending = s.pending := (congrArg State.pending h.1 :)
theorem solve_of_turnKeeps : t.lvs.solve = s.lvs.solve := (congrArg (fun u : State => u.lvs.solve) h.1 :)
theorem outcome_of_turnKeeps : t.lvs.outcome = s.lvs.outcome := (congrArg (fun u : State => u.lvs.outcome) h.1 :)
theorem gprev_of_turnKeeps : t.lvs.gprev = s.lvs.gprev := (congrArg (fun u : State => u.lvs.gprev) h.1 :)
theorem slot_of_turnKeeps : t.rpu.slot = s.rpu.slot := (congrArg (fun u : State => u.rpu.slot) h.1 :)
theorem burstLate_of_turnKeeps : t.rpu.burstLate = s.rpu.burstLate :=
  (congrArg (fun u : State => u.rpu.burstLate) h.1 :)
theorem stats_of_turnKeeps : t.stu.stats = s.stu.stats := (congrArg (fun u : State => u.stu.stats) h.1 :)
theorem globalMean_of_turnKeeps : t.stu.globalMean = s.stu.globalMean :=
  (congrArg (fun u : State => u.stu.globalMean) h.1 :)
end

end Sys2Proof.Laws
end

