-- ==== Sys2Proof/Proofs/ActiveEnd.lean ====
section
/-! PROOF. The output active end: the report it queues, and the solve that a free-run frame's end starts. -/

namespace Sys2Proof.Laws

open Sys2Proof.Machine

/-! ## The lane and the slot (R32) -/

/-- The lane and the command unit touch the command unit and the slot alone. -/
theorem pump_eq (s : State) :
    s.pump = { s with cmd := s.pump.cmd, rpu := { s.rpu with slot := s.pump.rpu.slot } } :=
  pump_kept s s.pump.cmd s.pump.rpu.slot

/-- With the lane IDLE the report in the slot is sent. -/
theorem sendNext_report (s : State) (r : FrameReport) (hl : s.cmd.lane = none) (hs : s.rpu.slot = some r) :
    s.sendNext = { s with cmd := { s.cmd with lane := some (.report r) }, rpu := { s.rpu with slot := none } } := by
  simp [State.sendNext, hl, hs]

theorem sendNext_busy (s : State) (hl : s.cmd.lane ≠ none) : s.sendNext = s := by
  unfold State.sendNext
  split
  · rfl
  · next h => exact absurd h hl

/-- What becomes of a report in the slot: it goes out on an IDLE lane, and else it waits. -/
theorem pump_report (s : State) (r : FrameReport) (hs : s.rpu.slot = some r) :
    (s.cmd.lane = none → s.pump.cmd.lane = some (.report r) ∧ s.pump.rpu.slot = none) ∧
    (s.cmd.lane ≠ none → s.pump.cmd.lane = s.cmd.lane ∧ s.pump.rpu.slot = some r) ∧
    s.pump.cmd.filled = s.cmd.filled ∧ s.pump.cmd.owed = s.cmd.owed := by
  unfold State.pump
  rw [takeNext_lane, takeNext_filled, takeNext_owed, State.takeNext_rpu, sendNext_owed]
  by_cases hl : s.cmd.lane = none
  · rw [sendNext_report s r hl hs]
    exact ⟨fun _ => ⟨rfl, rfl⟩, fun h => absurd hl h, rfl, rfl⟩
  · rw [sendNext_busy s hl]
    exact ⟨fun h => absurd h hl, fun _ => ⟨rfl, hs⟩, rfl, rfl⟩

/-! ## The report of an active end (R113, R162 to R166) -/

/-- The report that the active end of this moment builds. -/
def State.endReport (s : State) : FrameReport := { s.report with clips := satAdd s.rpu.clips s.pxc.clips }

/-- What stands in the slot once a report has come to it. -/
def slotWith (slot : Option FrameReport) (r : FrameReport) : FrameReport :=
  match slot with
  | none => r
  | some old => old.merge r

/-- A report that comes to the slot, where an unsent one counts as lost. -/
theorem fillSlot_eq (s : State) (r : FrameReport) :
    s.fillSlot r = { s with rpu := { s.rpu with
      slot := some (slotWith s.rpu.slot r)
      counters := if s.rpu.slot.isSome then s.rpu.counters.add 1 .reportsLost else s.rpu.counters } } := by
  unfold State.fillSlot
  split
  · next h => simp [h, slotWith]
  · next h => simp [h, slotWith, State.count]

/-- The part with its output active end on the panel link. -/
def State.activeEndSent (s : State) : State := { s with ftu := { s.ftu with phase := .ended, panel := .activeEnd } }

/-- The part behind an active end, before the lane looks at the slot, with what its latches leave of the chains. -/
def State.endQueued (s : State) (chains : Vector ChainRec 8) (passQueue : List PassEntry) : State :=
  { State.activeEndSent s with
    chc := { s.chc with chains := chains, passQueue := passQueue }
    pxc := { s.pxc with clips := 0 }
    lvs := { s.lvs with outcome := .none }
    rpu := { s.rpu with
      flags := 0, charErrors := 0, packetErrors := 0, clips := 0, burstLate := 0
      slot := some (slotWith s.rpu.slot (State.endReport s))
      counters := if s.rpu.slot.isSome then (s.rpu.counters.add s.pxc.clips .clippedPixels).add 1 .reportsLost
        else s.rpu.counters.add s.pxc.clips .clippedPixels } }

/-- The part behind an active end, the lane served: `cmd` and `slot` are what the lane leaves. -/
def State.endServed (s : State) (chains : Vector ChainRec 8) (passQueue : List PassEntry) (cmd : Cmd)
    (slot : Option FrameReport) : State :=
  let queued := State.endQueued s chains passQueue
  { queued with cmd := cmd, rpu := { queued.rpu with slot := slot } }

/-- The active end with a clean DEVICE_TAG: the report comes to the slot, and the lane looks at it. -/
theorem sendActiveEnd_eq (s : State) (hc : s.cleanSetting Config.deviceTag) :
    ∃ chains passQueue, s.sendActiveEnd = (State.endQueued s chains passQueue).pump := by
  have due := eq_of_blankChains (blankChains_latchesFallDue (State.activeEndSent s))
  generalize (State.activeEndSent s).latchesFallDue.chc.chains = chains at due
  generalize (State.activeEndSent s).latchesFallDue.chc.passQueue = passQueue at due
  refine ⟨chains, passQueue, ?_⟩
  show (State.activeEndSent s).latchesFallDue.handClips.queueReport = _
  rw [due, State.queueReport]
  dsimp only
  rw [readSetting_of_clean, fillSlot_eq]
  · rfl
  · exact hc

/-- What an active end with a clean DEVICE_TAG leaves, and the way of its report. -/
theorem sendActiveEnd_served (s : State) (hc : s.cleanSetting Config.deviceTag) :
    ∃ chains passQueue cmd slot, s.sendActiveEnd = State.endServed s chains passQueue cmd slot ∧
      (s.cmd.lane = none → cmd.lane = some (.report (slotWith s.rpu.slot (State.endReport s))) ∧ slot = none) ∧
      (s.cmd.lane ≠ none → cmd.lane = s.cmd.lane ∧ slot = some (slotWith s.rpu.slot (State.endReport s))) ∧
      cmd.filled = s.cmd.filled ∧ cmd.owed = s.cmd.owed := by
  obtain ⟨chains, passQueue, sent⟩ := sendActiveEnd_eq s hc
  refine ⟨chains, passQueue, _, _, ?_, pump_report (State.endQueued s chains passQueue) _ rfl⟩
  rw [sent]
  exact pump_eq _

/-! ## The start of a solve where no error waits (R73 to R75, R80) -/

/-- The solve that starts in `s` over the grid record `g`, with its captured copy. -/
def State.solveStarted (s : State) (g : Grid) (source : TargetSource) (trigger : Trigger) : Solve :=
  let n := s.mem.active Config.gridColumns * s.mem.active Config.gridRows
  { tag := ⟨s.ftu.frameNumber, trigger⟩
    startedAt := s.clock.now
    dueAt := s.clock.now + Config.solveTime n
    tables := s.mem.activeWords
    grid := g
    stats := s.stu.stats
    mean := s.stu.globalMean
    thermal := s.sns.thermal
    foldback := s.sns.foldback
    latches := s.chc.latches
    source := source
    lockJump := decide (source = .statistics) && s.lvs.lockJump
    sceneCut := sceneCutHolds source (s.mem.activeWords.active Config.sceneCutDelta) s.lvs.gprev s.stu.globalMean
    prevF := sparseTabulate (fun _ => 0) 0 n (fun z => (s.mem.word (zoneF z)).toNat)
    reseed := s.lvs.reseed
    unlit := []
    setsGprev := true }

theorem startSolve_standby (s : State) (trigger : Trigger) (h : s.mdc.mode = .standby) : s.startSolve trigger = s := by
  simp [State.startSolve, h]

theorem startSolve_no_grid (s : State) (trigger : Trigger) (hq : s.quiet) (hg : s.stu.grid = none) :
    s.startSolve trigger = s := by
  unfold State.startSolve
  simp [readTables_of_quiet s hq, hg]

theorem startSolve_quiet (s : State) (trigger : Trigger) (g : Grid) (source : TargetSource) (hq : s.quiet)
    (hm : s.mdc.mode ≠ .standby) (hg : s.stu.grid = some g)
    (hs : targetSource s.mdc.mode trigger g.misfit = some source) :
    s.startSolve trigger =
      { s with lvs := { s.lvs with solve := some (State.solveStarted s g source trigger) } } := by
  simp only [State.startSolve, if_neg hm, readTables_of_quiet s hq, readFilters_of_quiet s hq, hg, Option.map_some,
    Option.getD_some, hs]
  rfl

/-- A free-run trigger outside STANDBY has the source SAFE (R80). -/
theorem targetSource_freeRun (mode : Mode) (misfit : Bool) (h : mode ≠ .standby) :
    targetSource mode .freeRun misfit = some .safe := by
  cases mode with
  | standby => exact absurd rfl h
  | bypass | dimming | safe => rfl

/-- What a scene cut is (R86). -/
theorem sceneCutHolds_iff (source : TargetSource) (delta : Nat) (gprev : Option Nat) (g : Nat) :
    sceneCutHolds source delta gprev g = true ↔ source = .statistics ∧ 0 < delta ∧
      ∃ before, gprev = some before ∧ (delta ≤ g - before ∨ delta ≤ before - g) := by
  cases source with
  | bypass => simp [sceneCutHolds]
  | safe => simp [sceneCutHolds]
  | statistics =>
    cases gprev with
    | none => simp [sceneCutHolds]
    | some p =>
      have far : delta ≤ max g p - min g p ↔ delta ≤ g - p ∨ delta ≤ p - g := by omega
      simp [sceneCutHolds, far]

/-- A solve that starts captures what R74 lists. -/
theorem captured_solveStarted (s : State) (g : Grid) (source : TargetSource) (trigger : Trigger) :
    s.captured g (State.solveStarted s g source trigger) := by
  refine ⟨fun table ht i hi => ?_, rfl, rfl, rfl, rfl, fun z hz => ?_, rfl, rfl, rfl, ?_, ?_⟩
  · have hw : Config.memoryWords (2 * table + 1) ≤ 4608 := by
      rcases (by omega : table = 0 ∨ table = 1 ∨ table = 2 ∨ table = 3) with rfl | rfl | rfl | rfl <;> decide
    have hk := keyMemory_wordKey (2 * table + 1) i (by omega)
    exact word_activeWords s.mem _ (by rw [hk]; omega) (by rw [hk]; omega)
  · have := sparseGet_tabulate (fun _ => 0) 0 (s.mem.active Config.gridColumns * s.mem.active Config.gridRows)
      (fun z => (s.mem.word (zoneF z)).toNat) z
    rw [if_pos ⟨Nat.zero_le z, by rw [Nat.zero_add]; exact hz⟩] at this
    exact this
  · simp [State.solveStarted]
  · simpa only [State.solveStarted, active_activeWords s.mem Config.sceneCutDelta (by decide)] using
      sceneCutHolds_iff source (s.mem.active Config.sceneCutDelta) s.lvs.gprev s.stu.globalMean

/-- What a captured copy shows of the part at its start. -/
theorem captured_congr {s t : State} (g : Grid) (v : Solve) (hm : t.mem = s.mem) (hs : t.sns = s.sns)
    (hl : t.chc.latches = s.chc.latches) (hj : t.lvs.lockJump = s.lvs.lockJump) (hg : t.lvs.gprev = s.lvs.gprev) :
    t.captured g v ↔ s.captured g v := by
  simp only [State.captured, hm, hs, hl, hj, hg]

/-! ## OUTPUT_ACTIVE_END -/

/-- The ATTN line where no flag is pending: attention, or an enabled REPORT_LOST in the slot (R174). -/
theorem attnLine_of_no_flags (s : State) (h : s.rpu.flags = 0) :
    s.attnLine = true ↔ s.attention = true ∨
      ∃ r, s.rpu.slot = some r ∧ r.flags.getLsbD 16 = true ∧ s.rpu.notifyMask.getLsbD 16 = true := by
  unfold State.attnLine Rpu.lostInSlot
  rw [h]
  cases s.rpu.slot <;> simp [Event.number]

/-- The part at an output active end: the time and the delay as the command leaves them. -/
def State.atEnd (s : State) (clock : Clock) (delay : List Delayed) : State :=
  { s with clock := clock, ftu := { s.ftu with delay := delay } }

/-- The part behind an active end, with the solve that it may have started. -/
def State.endSolving (s : State) (solve : Option Solve) : State :=
  { s.sendActiveEnd with lvs := { s.sendActiveEnd.lvs with solve := solve } }

theorem exec_outputActiveEnd_followed (dt : Nat) (s : State) (n : Nat) (rest : List Delayed)
    (hp : s.ftu.phase = .active n) (hf : s.ftu.state = .following) (hd : s.ftu.delay = .activeEnd :: rest) :
    exec (.outputActiveEnd dt) s = .next (State.atEnd s (s.advance dt).clock rest).sendActiveEnd := by
  have entered : State.atEnd s (s.advance dt).clock rest =
      { s.advance dt with ftu := { s.ftu with delay := rest } } := rfl
  show execOutputActiveEnd dt s = _
  rw [entered]
  unfold execOutputActiveEnd
  dsimp only
  rw [State.advance_ftu, hp, hf, hd]

theorem exec_outputActiveEnd_freeRun (dt : Nat) (s : State) (n : Nat) (hp : s.ftu.phase = .active n)
    (hf : s.ftu.state = .freeRun) :
    exec (.outputActiveEnd dt) s = .next
      (((s.advance dt).advanceTo (s.ftu.startedAt + s.ftu.period - Config.freeRunBlanking)).sendActiveEnd.startSolve
        .freeRun) := by
  show execOutputActiveEnd dt s = _
  unfold execOutputActiveEnd
  dsimp only
  rw [State.advance_ftu, hp, hf]

theorem endSolving_self (s : State) (h : s.cleanSetting Config.deviceTag) :
    State.endSolving s s.lvs.solve = s.sendActiveEnd := by
  obtain ⟨chains, passQueue, cmd, slot, sent, -⟩ := sendActiveEnd_served s h
  rw [State.endSolving, sent]
  rfl

/-- The solve that a free-run frame's active end starts, from a quiet state. -/
theorem sendActiveEnd_startSolve (s : State) (hq : s.quiet) :
    ∃ x, s.sendActiveEnd.startSolve .freeRun = State.endSolving s x ∧ (s.mdc.mode = .standby → x = s.lvs.solve) ∧
      ∀ g, s.mdc.mode ≠ .standby → s.stu.grid = some g → ∃ v, x = some v ∧ v.tag = ⟨s.ftu.frameNumber, .freeRun⟩ ∧
        v.source = .safe ∧ v.startedAt = s.clock.now ∧ s.captured g v := by
  have hc := cleanSetting_of_quiet s hq Config.deviceTag
  have same := endSolving_self s hc
  obtain ⟨chains, passQueue, cmd, slot, kept, -⟩ := sendActiveEnd_served s hc
  generalize hu : s.sendActiveEnd = u at kept
  have mode : u.mdc = s.mdc := by rw [kept]; rfl
  have grid : u.stu = s.stu := by rw [kept]; rfl
  have quiet : u.quiet := by rw [kept]; exact hq
  by_cases hm : s.mdc.mode = .standby
  · refine ⟨s.lvs.solve, ?_, fun _ => rfl, fun _ h => absurd hm h⟩
    rw [startSolve_standby u _ (by rw [mode]; exact hm), same, hu]
  · cases hg : s.stu.grid with
    | none =>
      refine ⟨s.lvs.solve, ?_, fun h => absurd h hm, nofun⟩
      rw [startSolve_no_grid u _ quiet (by rw [grid]; exact hg), same, hu]
    | some g =>
      have source : targetSource u.mdc.mode .freeRun g.misfit = some .safe :=
        targetSource_freeRun _ _ (by rw [mode]; exact hm)
      refine ⟨some (State.solveStarted u g .safe .freeRun), ?_, fun h => absurd h hm, ?_⟩
      · rw [startSolve_quiet u .freeRun g .safe quiet (by rw [mode]; exact hm) (by rw [grid]; exact hg) source,
          State.endSolving, hu]
      · rintro g' _ ⟨⟩
        refine ⟨_, rfl, ?_, rfl, ?_, ?_⟩
        · show (⟨u.ftu.frameNumber, .freeRun⟩ : SolveTag) = _
          rw [kept]; rfl
        · show u.clock.now = s.clock.now
          rw [kept]; rfl
        · refine (captured_congr g _ ?_ ?_ ?_ ?_ ?_).1 (captured_solveStarted u g .safe .freeRun) <;> rw [kept] <;> rfl

/-- Every way of OUTPUT_ACTIVE_END is one active end, with or without a solve behind it. -/
theorem outputActiveEnd_cases (dt : Nat) (s : State) (hdue : s.activeEndDue) (hq : s.quiet) :
    ∃ clock delay x, exec (.outputActiveEnd dt) s = .next (State.endSolving (State.atEnd s clock delay) x) ∧
      (s.ftu.state = .following → x = s.lvs.solve ∧ delay = s.ftu.delay.drop 1 ∧ clock = (s.advance dt).clock) ∧
      (s.ftu.state = .freeRun →
        clock.now = max (s.clock.now + dt) (s.ftu.startedAt + s.ftu.period - 800) ∧
        (s.mdc.mode = .standby → x = s.lvs.solve) ∧
        ∀ g, s.mdc.mode ≠ .standby → s.stu.grid = some g → ∃ v, x = some v ∧ v.tag = ⟨s.ftu.frameNumber, .freeRun⟩ ∧
          v.source = .safe ∧ v.startedAt = clock.now ∧ s.captured g v) := by
  obtain ⟨⟨n, hp⟩, hf | ⟨hf, rest, hd⟩⟩ := hdue
  · generalize hc : ((s.advance dt).advanceTo (s.ftu.startedAt + s.ftu.period - Config.freeRunBlanking)).clock = clock
    have due : (s.advance dt).advanceTo (s.ftu.startedAt + s.ftu.period - Config.freeRunBlanking) =
        State.atEnd s clock s.ftu.delay := by
      rw [← hc]; rfl
    obtain ⟨x, hx, standby, solves⟩ := sendActiveEnd_startSolve (State.atEnd s clock s.ftu.delay) hq
    refine ⟨clock, s.ftu.delay, x, ?_, by simp [hf], fun _ => ⟨?_, standby, solves⟩⟩
    · rw [exec_outputActiveEnd_freeRun dt s n hp hf, due, hx]
    · rw [← hc, State.advanceTo_now, State.advance_now]
      rfl
  · refine ⟨(s.advance dt).clock, rest, s.lvs.solve, ?_, fun _ => ⟨rfl, by rw [hd]; rfl, rfl⟩, by simp [hf]⟩
    rw [exec_outputActiveEnd_followed dt s n rest hp hf hd]
    exact congrArg _ (endSolving_self (State.atEnd s _ rest) (cleanSetting_of_quiet s hq _)).symm

/-- Settles O28: the active end is sent, its report queued, and a free-run frame's end starts its solve. -/
theorem activeEndQueuesReport : Obligations.ActiveEndQueuesReport := by
  intro dt s hdue hq
  obtain ⟨clock, delay, x, run, followed, freeRun⟩ := outputActiveEnd_cases dt s hdue hq
  generalize he : State.atEnd s clock delay = e at run
  have hc : e.cleanSetting Config.deviceTag := by rw [← he]; exact cleanSetting_of_quiet s hq _
  obtain ⟨chains, passQueue, cmd, lineSlot, kept, sent, waits, filled, owed⟩ := sendActiveEnd_served e hc
  have report : State.endReport e = State.endReport s := by rw [← he]; rfl
  have slot : e.rpu.slot = s.rpu.slot := by rw [← he]; rfl
  have lane : e.cmd.lane = s.cmd.lane := by rw [← he]; rfl
  rw [report, slot, lane] at sent waits
  generalize hu : e.sendActiveEnd = u at kept sent waits filled owed
  have cmdOf : u.cmd = cmd := by rw [kept]; rfl
  have slotOf : u.rpu.slot = lineSlot := by rw [kept]; rfl
  rw [← cmdOf, ← slotOf] at sent waits
  rw [← cmdOf] at filled owed
  refine ⟨_, State.endReport s, run, ?_⟩
  rw [State.endSolving, hu]
  have attention : ({ u with lvs := { u.lvs with solve := x } } : State).attention = s.attention := by
    rw [kept, ← he]; rfl
  have flags : u.rpu.flags = 0 := by rw [kept]; rfl
  have attn := attnLine_of_no_flags { u with lvs := { u.lvs with solve := x } } flags
  have mask : u.rpu.notifyMask = s.rpu.notifyMask := by rw [kept, ← he]; rfl
  rw [attention] at attn
  simp only [mask] at attn
  have counters : u.rpu.counters = if s.rpu.slot.isSome then
      (s.rpu.counters.add s.pxc.clips .clippedPixels).add 1 .reportsLost
      else s.rpu.counters.add s.pxc.clips .clippedPixels := by rw [kept, ← he]; rfl
  refine ⟨by rw [kept]; rfl, by rw [kept]; rfl, by rw [kept, ← he]; rfl, rfl, fun hs hl => ?_, fun hs hl => ?_,
    fun old hs hl => ?_, fun hs => ?_, flags, by rw [kept]; rfl, by rw [kept]; rfl, by rw [kept]; rfl, by rw [kept]; rfl,
    attn, by rw [kept]; rfl, by rw [kept, ← he]; rfl, filled.trans (by rw [← he]; rfl), owed.trans (by rw [← he]; rfl),
    by rw [kept, ← he]; rfl, by rw [kept, ← he]; rfl, by rw [kept, ← he]; rfl, by rw [kept, ← he]; rfl,
    by rw [kept, ← he]; rfl, by rw [kept, ← he]; rfl, by rw [kept, ← he]; rfl, fun hf => ?_, fun hf => ?_⟩
  · rw [hs] at sent; exact sent hl
  · rw [hs] at waits; exact waits hl
  · rw [hs] at waits counters
    refine ⟨(waits hl).1, (waits hl).2, ?_⟩
    rw [counters]; rfl
  · rw [hs] at counters; exact counters
  · obtain ⟨rfl, hd, hclock⟩ := followed hf
    refine ⟨rfl, ?_, ?_⟩
    · rw [kept, ← he, ← hd]; rfl
    · rw [kept, ← he]; exact hclock
  · obtain ⟨hnow, standby, solves⟩ := freeRun hf
    have now : u.clock.now = clock.now := by rw [kept, ← he]; rfl
    refine ⟨now.trans hnow, standby, ?_⟩
    simp only [now]
    exact solves

end Sys2Proof.Laws
end

