-- ==== Sys2Proof/Proofs/FrameStart.lean ====
section
/-! PROOF. The output frame start: the frame's number and stamp, and the frame turn where no error waits. -/

namespace Sys2Proof.Laws

open Sys2Proof.Machine

/-! ## The steps of a frame turn where no error waits -/

/-- No error waits where none waited before and the monitor stands as it stood. -/
theorem quiet_of_imn {s t : State} (h : t.imn = s.imn) (hq : s.quiet) : t.quiet := by
  unfold State.quiet
  rw [h]
  exact hq

theorem quiet_validateStaging (s : State) (mask : BitVec 4) (hq : s.quiet) : (s.validateStaging mask).1.quiet := by
  unfold State.validateStaging
  split
  · dsimp only
    rwa [readRange_of_quiet s hq]
  · exact hq

theorem quiet_copyTable (s : State) (t : Nat) (hq : s.quiet) : (s.copyTable t).quiet := by
  unfold State.copyTable
  rw [readRange_of_quiet s hq, readOverwritten_of_quiet s hq]
  obtain ⟨marks, upsets⟩ := hq
  exact ⟨marks, by simp [upsets, sparseClear]⟩

theorem quiet_copyTables (l : List Nat) (s : State) (hq : s.quiet) : (l.foldl State.copyTable s).quiet := by
  induction l generalizing s with
  | nil => exact hq
  | cons t l ih => exact ih _ (quiet_copyTable s t hq)

/-- The staged tables are copied or refused: either way no mark stays (R45 to R49). -/
theorem applyMarks_of_quiet (s : State) (hq : s.quiet) : s.applyMarks.quiet ∧ s.applyMarks.tbs.marks = 0 := by
  unfold State.applyMarks
  dsimp only
  split
  · next h => exact ⟨hq, h⟩
  · have valid := quiet_validateStaging s s.tbs.marks hq
    split
    · exact ⟨quiet_copyTables _ _ valid, rfl⟩
    · exact ⟨valid, rfl⟩

theorem readForMode_of_quiet (s : State) (hq : s.quiet) : s.readForMode = s := by
  unfold State.readForMode
  dsimp only
  rw [readWhilePending_of_quiet s hq, readWhilePending_of_quiet s hq]

theorem changeMode_request (s : State) (target : Mode) : (s.changeMode target).mdc.request = s.mdc.request := by
  unfold State.changeMode
  split
  · rfl
  · dsimp only
    split
    · unfold State.standbyEntry
      dsimp only
      rw [State.standbyChains_mdc]
      rfl
    · rfl

theorem changeMode_tbs (s : State) (target : Mode) : (s.changeMode target).tbs = s.tbs := by
  unfold State.changeMode
  split
  · rfl
  · dsimp only
    split
    · unfold State.standbyEntry
      dsimp only
      rw [State.standbyChains_tbs]
      rfl
    · rfl

theorem quiet_changeMode (s : State) (target : Mode) (hq : s.quiet) : (s.changeMode target).quiet := by
  unfold State.changeMode
  split
  · exact hq
  · dsimp only
    split
    · unfold State.standbyEntry
      exact quiet_of_imn (State.standbyChains_imn _) (quiet_zeroZoneWords _ [5, 6, 7] hq)
    · exact hq

/-- The mode request is answered: none is pending behind the frame turn (R152 to R154). -/
theorem handleRequest_of_quiet (s : State) (hq : s.quiet) :
    s.handleRequest.quiet ∧ s.handleRequest.mdc.request = none ∧ s.handleRequest.tbs = s.tbs := by
  unfold State.handleRequest
  split
  · next none_pending => exact ⟨hq, none_pending, rfl⟩
  · rw [readForMode_of_quiet s hq, ite_self]
    dsimp only
    split
    · next none_pending => exact ⟨hq, by simpa using none_pending, rfl⟩
    · split
      · exact ⟨quiet_changeMode _ _ hq, changeMode_request _ _, changeMode_tbs _ _⟩
      · exact ⟨hq, rfl, rfl⟩

/-- The waiting lines touch the accumulators and the line buffer alone. -/
theorem addWaitingLines_kept (s : State) :
    ∃ accumulators lineBuffer, s.addWaitingLines =
      { s with stu := { s.stu with accumulators := accumulators, lineBuffer := lineBuffer } } := by
  unfold State.addWaitingLines
  split
  · exact ⟨_, _, rfl⟩
  · exact ⟨_, _, rfl⟩

/-- The grid record that the settings of `s` give (R59 to R61). -/
def State.gridOf (s : State) : Grid :=
  let geometry := s.lrx.locked.getD ⟨Config.defaultWidth, Config.defaultHeight⟩
  .lay geometry.width geometry.height (s.mem.active Config.gridColumns) (s.mem.active Config.gridRows)
    (s.mem.active Config.brightThreshold)

theorem layGrid_of_quiet (s : State) (hq : s.quiet) :
    ∃ accumulators lineBuffer, s.layGrid =
      { s with stu := { s.stu with
        grid := some (State.gridOf s), accumulators := accumulators, lineBuffer := lineBuffer } } := by
  unfold State.layGrid
  rw [readSettings_of_quiet s hq]
  exact addWaitingLines_kept _

theorem maskRead_of_quiet (s : State) (hq : s.quiet) :
    State.maskRead s =
      { s with rpu := { s.rpu with notifyMask := BitVec.ofNat 17 (s.mem.active Config.notifyMask) } } := by
  unfold State.maskRead
  rw [readSetting_of_quiet s hq]

/-- What a frame turn gives where no error waits. -/
theorem frameTurn_of_quiet (s : State) (hq : s.quiet) :
    s.frameTurn.tbs.marks = 0 ∧ s.frameTurn.mdc.request = none ∧
      s.frameTurn.rpu.notifyMask = BitVec.ofNat 17 (s.frameTurn.mem.active Config.notifyMask) ∧
      s.frameTurn.stu.grid = some (State.gridOf s.frameTurn) := by
  obtain ⟨applied, marks⟩ := applyMarks_of_quiet (State.turnBegun s) hq
  obtain ⟨handled, request, tbs⟩ := handleRequest_of_quiet _ applied
  rw [← tbs] at marks
  rw [frameTurn_eq]
  generalize (State.turnBegun s).applyMarks.handleRequest = u at handled request marks
  obtain ⟨accumulators, lineBuffer, laid⟩ := layGrid_of_quiet u handled
  rw [laid, maskRead_of_quiet]
  · exact ⟨marks, request, rfl, rfl⟩
  · exact handled

/-! ## The scan decision and the frame turn at a frame start (R17, R65) -/

/-- The state with the sense unit, the flags and the counters given. -/
def State.scanned (s : State) (sns : Sns) (flags : BitVec 17) (counters : Counters) : State :=
  { s with sns := sns, rpu := { s.rpu with flags := flags, counters := counters } }

theorem scanned_self (s : State) : State.scanned s s.sns s.rpu.flags s.rpu.counters = s := rfl

/-- The scan decision touches the sense unit, one flag and one counter. -/
theorem scanDecision_kept (s : State) : ∃ sns flags counters, s.scanDecision = State.scanned s sns flags counters := by
  unfold State.scanDecision
  split
  · exact ⟨_, _, _, (scanned_self s).symm⟩
  · split <;> exact ⟨_, _, _, rfl⟩

theorem turnOrWait_waits (s : State) (h : s.lvs.solve.isSome) :
    s.turnOrWait = { s with ftu := { s.ftu with turnWaiting := true } } := by
  obtain ⟨v, hv⟩ := Option.isSome_iff_exists.1 h
  simp [State.turnOrWait, hv]

theorem turnOrWait_turns (s : State) (h : s.lvs.solve = none) : s.turnOrWait = s.frameTurn := by
  simp [State.turnOrWait, h]

/-- With a solve in flight the turn waits, and the scan decision is all that happens besides. -/
theorem scanAndTurn_waits (s : State) (scanFirst : Bool) (h : s.lvs.solve.isSome) :
    ∃ sns flags counters, s.scanAndTurn scanFirst =
      State.scanned { s with ftu := { s.ftu with turnWaiting := true } } sns flags counters := by
  unfold State.scanAndTurn
  split
  · obtain ⟨sns, flags, counters, scanned⟩ := scanDecision_kept s
    rw [scanned]
    exact ⟨_, _, _, turnOrWait_waits _ h⟩
  · rw [turnOrWait_waits s h]
    exact scanDecision_kept _

/-- With no solve in flight the turn is taken, ahead of the scan decision or behind it. -/
theorem scanAndTurn_turns (s : State) (scanFirst : Bool) (h : s.lvs.solve = none) :
    ∃ sns flags counters sns' flags' counters', s.scanAndTurn scanFirst =
      State.scanned (State.scanned s sns flags counters).frameTurn sns' flags' counters' := by
  unfold State.scanAndTurn
  split
  · obtain ⟨sns, flags, counters, scanned⟩ := scanDecision_kept s
    rw [scanned, turnOrWait_turns (State.scanned s sns flags counters) h]
    exact ⟨sns, flags, counters, _, _, _, (scanned_self _).symm⟩
  · obtain ⟨sns, flags, counters, scanned⟩ := scanDecision_kept s.frameTurn
    refine ⟨s.sns, s.rpu.flags, s.rpu.counters, sns, flags, counters, ?_⟩
    rw [turnOrWait_turns s h, scanned, scanned_self s]

/-- What the frame start's scan decision and frame turn leave, in every state. -/
theorem scanAndTurn_kept (s : State) (scanFirst : Bool) :
    let t := s.scanAndTurn scanFirst
    t.ftu = { s.ftu with turnWaiting := s.lvs.solve.isSome } ∧ t.clock = s.clock ∧ t.lvs.solve = s.lvs.solve ∧
      t.lrx = s.lrx ∧ t.cmd = s.cmd ∧ t.pending = s.pending ∧
      (s.stu.lineBuffer = [] → t.stu.accumulators = s.stu.accumulators) := by
  cases h : s.lvs.solve with
  | some v =>
    obtain ⟨sns, flags, counters, waits⟩ := scanAndTurn_waits s scanFirst (by rw [h]; rfl)
    rw [waits]
    exact ⟨rfl, rfl, h, rfl, rfl, rfl, fun _ => rfl⟩
  | none =>
    obtain ⟨sns, flags, counters, sns', flags', counters', turns⟩ := scanAndTurn_turns s scanFirst h
    have kept := turnKeeps_frameTurn (State.scanned s sns flags counters)
    have added := frameTurn_accumulators (State.scanned s sns flags counters)
    rw [turns]
    generalize (State.scanned s sns flags counters).frameTurn = t at kept added
    exact ⟨(ftu_of_turnKeeps kept :), (clock_of_turnKeeps kept :), (solve_of_turnKeeps kept).trans h,
      (lrx_of_turnKeeps kept :), (cmd_of_turnKeeps kept :), (pending_of_turnKeeps kept :),
      fun empty => (added empty).2⟩

/-- What the frame turn of a frame start gives where no error waits. -/
theorem scanAndTurn_turned (s : State) (scanFirst : Bool) (h : s.lvs.solve = none) (hq : s.quiet) :
    let t := s.scanAndTurn scanFirst
    t.tbs.marks = 0 ∧ t.mdc.request = none ∧ t.rpu.notifyMask = BitVec.ofNat 17 (t.mem.active Config.notifyMask) ∧
      t.stu.grid = some (State.gridOf t) := by
  obtain ⟨sns, flags, counters, sns', flags', counters', turns⟩ := scanAndTurn_turns s scanFirst h
  have turned := frameTurn_of_quiet (State.scanned s sns flags counters) hq
  rw [turns]
  generalize (State.scanned s sns flags counters).frameTurn = t at turned
  exact turned

/-! ## OUTPUT_FRAME_START -/

/-- The part with a frame begun on the panel link: its time, its frame timing, and cleared accumulators. -/
def State.frameBegun (s : State) (clock : Clock) (ftu : Ftu) : State :=
  { s with clock := clock, ftu := ftu, stu := { s.stu with accumulators := [] } }

/-- The FTU with a frame numbered, stamped and begun (R16, R18). -/
def Ftu.numbered (f : Ftu) (clock : Clock) (free : Bool) (geometry : Geometry) : Ftu :=
  { f with
    frameNumber := if f.fresh then f.frameNumber else f.frameNumber + 1
    fresh := false, adjust := none, stamp := clock.frame, startedAt := clock.now, freeFrame := free
    geometry := geometry, phase := .blanking, panel := .frameStart }

/-- The FTU with the head of its delay line taken. -/
def Ftu.popped (f : Ftu) : Ftu := { f with delay := f.delay.drop 1 }

/-- The clock with the pending adjust added (R18, R20). -/
def Clock.adjusted (c : Clock) (adjust : Option Dword) : Clock := { c with frame := c.frame + adjust.getD 0 }

/-- The geometry of a frame that starts in `s`. -/
def State.nextGeometry (s : State) : Geometry := s.lrx.locked.getD ⟨3840, 2160⟩

theorem exec_outputFrameStart_followed (dt : Nat) (scanFirst : Bool) (s : State) (rest : List Delayed)
    (hp : s.ftu.phase.isOver = true) (hf : s.ftu.state = .following) (hd : s.ftu.delay = .start :: rest) :
    let clock := Clock.adjusted (s.advance dt).clock s.ftu.adjust
    exec (.outputFrameStart dt scanFirst) s = .next ((State.frameBegun s clock
      (Ftu.numbered (Ftu.popped s.ftu) clock false (State.nextGeometry s))).scanAndTurn scanFirst) := by
  show execOutputFrameStart dt scanFirst s = _
  unfold execOutputFrameStart
  dsimp only
  rw [State.advance_ftu, hp, hf, hd, if_pos rfl]
  dsimp only
  rfl

theorem exec_outputFrameStart_freeRun (dt : Nat) (scanFirst : Bool) (s : State) (due : Nat) (hq : s.quiet)
    (hp : s.ftu.phase.isOver = true) (hf : s.ftu.state = .freeRun) (hd : s.ftu.freeDue = some due) :
    let clock := Clock.adjusted ((s.advance dt).advanceTo due).clock s.ftu.adjust
    let period := s.mem.active Config.freeRunPeriod
    exec (.outputFrameStart dt scanFirst) s = .next ((State.frameBegun s clock
      { Ftu.numbered s.ftu clock true (State.nextGeometry s) with
        period := period, freeDue := some (clock.now + period), lastLine := none }).scanAndTurn scanFirst) := by
  show execOutputFrameStart dt scanFirst s = _
  unfold execOutputFrameStart
  dsimp only
  rw [State.advance_ftu, hp, hf, hd, if_pos rfl]
  dsimp only
  unfold State.startFreeRun
  dsimp only
  rw [readSetting_of_quiet]
  · rfl
  · exact hq

/-- The frame clock runs with the time (R18). -/
theorem advance_frame_elapsed (s : State) (dt : Nat) :
    (s.advance dt).clock.frame = s.clock.frame + BitVec.ofNat 32 ((s.advance dt).clock.now - s.clock.now) := by
  rw [State.advance_now, Nat.add_sub_cancel_left, State.advance_frame]

theorem advanceTo_frame_elapsed (s : State) (dt due : Nat) :
    ((s.advance dt).advanceTo due).clock.frame =
      s.clock.frame + BitVec.ofNat 32 (((s.advance dt).advanceTo due).clock.now - s.clock.now) := by
  have elapsed : (s.advance dt).advanceTo due = s.advance (dt + (due - (s.clock.now + dt))) := by
    simp [State.advanceTo, State.advance, Nat.add_assoc, BitVec.add_assoc, BitVec.ofNat_add]
  rw [elapsed]
  exact advance_frame_elapsed s _

/-- Every way of OUTPUT_FRAME_START begins a frame and comes to the scan decision and the frame turn. -/
theorem outputFrameStart_cases (dt : Nat) (scanFirst : Bool) (s : State) (hdue : s.frameStartDue) (hq : s.quiet) :
    ∃ clock ftu, exec (.outputFrameStart dt scanFirst) s = .next ((State.frameBegun s clock ftu).scanAndTurn scanFirst) ∧
      clock.frame = s.clock.frame + BitVec.ofNat 32 (clock.now - s.clock.now) + s.ftu.adjust.getD 0 ∧
      ftu.frameNumber = (if s.ftu.fresh then s.ftu.frameNumber else s.ftu.frameNumber + 1) ∧ ftu.fresh = false ∧
      ftu.adjust = none ∧ ftu.stamp = clock.frame ∧ ftu.startedAt = clock.now ∧ ftu.phase = .blanking ∧
      ftu.panel = .frameStart ∧ ftu.geometry = s.lrx.locked.getD ⟨3840, 2160⟩ ∧ ftu.state = s.ftu.state ∧
      (s.ftu.state = .following →
        clock.now = s.clock.now + dt ∧ ftu.delay = s.ftu.delay.drop 1 ∧ ftu.freeFrame = false) ∧
      (∀ due, s.ftu.state = .freeRun → s.ftu.freeDue = some due →
        clock.now = max (s.clock.now + dt) due ∧ ftu.freeFrame = true ∧
        ftu.period = s.mem.active Config.freeRunPeriod ∧ ftu.freeDue = some (ftu.startedAt + ftu.period) ∧
        ftu.lastLine = none) := by
  obtain ⟨hp, ⟨hf, rest, hd⟩ | ⟨hf, due, hd⟩⟩ := hdue
  · refine ⟨_, _, exec_outputFrameStart_followed dt scanFirst s rest hp hf hd, ?_, rfl, rfl, rfl, rfl, rfl, rfl, rfl,
      rfl, rfl, fun _ => ⟨?_, rfl, rfl⟩, by simp [hf]⟩
    · exact congrArg (· + s.ftu.adjust.getD 0) (advance_frame_elapsed s dt)
    · exact State.advance_now s dt
  · refine ⟨_, _, exec_outputFrameStart_freeRun dt scanFirst s due hq hp hf hd, ?_, rfl, rfl, rfl, rfl, rfl, rfl, rfl,
      rfl, rfl, by simp [hf], fun due' _ h => ?_⟩
    · exact congrArg (· + s.ftu.adjust.getD 0) (advanceTo_frame_elapsed s dt due)
    · obtain rfl : due = due' := Option.some.inj (hd.symm.trans h)
      exact ⟨State.advanceTo_now (s.advance dt) due, rfl, rfl, rfl, rfl⟩

/-- Settles O17: the frame is numbered and stamped, and its turn is taken or waits. -/
theorem frameStartNumbersAndStamps : Obligations.FrameStartNumbersAndStamps := by
  intro dt b s hdue hq
  obtain ⟨clock, ftu, run, frame, number, fresh, adjust, stamp, started, phase, panel, geometry, state, followed,
    freeRun⟩ := outputFrameStart_cases dt b s hdue hq
  obtain ⟨hftu, hclock, hsolve, hlrx, hcmd, hpend, added⟩ := scanAndTurn_kept (State.frameBegun s clock ftu) b
  have turned := scanAndTurn_turned (State.frameBegun s clock ftu) b
  have waits := scanAndTurn_waits (State.frameBegun s clock ftu) b
  refine ⟨_, run, ?_⟩
  generalize (State.frameBegun s clock ftu).scanAndTurn b = t at hftu hclock hsolve hlrx hcmd hpend added turned waits
  rw [hftu, hclock]
  refine ⟨number, fresh, adjust, frame, stamp, started, phase, panel, geometry, state, rfl, hsolve, added, hlrx, hcmd,
    hpend, followed, freeRun, fun idle => ?_, fun solving => ?_⟩
  · obtain ⟨marks, request, mask, grid⟩ := turned idle hq
    have laid : ftu.geometry = t.lrx.locked.getD ⟨3840, 2160⟩ := by rw [geometry, hlrx]; rfl
    refine ⟨marks, request, mask, _, grid, ?_, ?_, rfl, rfl, rfl, rfl, rfl, ?_⟩
    · exact (congrArg Geometry.width laid).symm
    · exact (congrArg Geometry.height laid).symm
    · simp [State.gridOf, Grid.lay]
  · obtain ⟨sns, flags, counters, scanned⟩ := waits solving
    subst scanned
    rfl

end Sys2Proof.Laws
end

