-- ==== Sys2Proof/Proofs/Following.lean ====
section
/-! PROOF. Following starts: the forced frame turn, and the marker that a LOCKED input hands on. -/

namespace Sys2Proof.Laws

open Sys2Proof.Machine

/-! ## A frame turn that waits no longer (R17, R76) -/

/-- From `s` to `t` a waiting frame turn has been taken, its solve abandoned as late. -/
structure TurnForced (s t : State) : Prop where
  ftu : t.ftu = { s.ftu with turnWaiting := false }
  clock : t.clock = s.clock
  lrx : t.lrx = s.lrx
  cmd : t.cmd = s.cmd
  slot : t.rpu.slot = s.rpu.slot
  burstLate : t.rpu.burstLate = s.rpu.burstLate
  stats : t.stu.stats = s.stu.stats
  mean : t.stu.globalMean = s.stu.globalMean
  gprev : t.lvs.gprev = s.lvs.gprev
  flags : keepsFlags s t

/-- The part with its solve given up as late. -/
def State.solveGivenUp (s : State) : State :=
  { s with
    lvs := { s.lvs with solve := none, outcome := .late }
    rpu := { s.rpu with flags := s.rpu.flags ||| Event.solveLate.bit, counters := s.rpu.counters.add 1 .solvesLate } }

theorem abandonLate_idle (s : State) (h : s.lvs.solve = none) : s.abandonLate = s := by
  simp [State.abandonLate, h]

theorem abandonLate_solving (s : State) (h : s.lvs.solve ≠ none) : s.abandonLate = State.solveGivenUp s := by
  unfold State.abandonLate
  split
  · next idle => exact absurd idle h
  · rfl

theorem forceTurn_not_waiting (s : State) (h : s.ftu.turnWaiting = false) : s.forceTurn = s := by
  simp [State.forceTurn, h]

theorem forceTurn_waiting (s : State) (h : s.ftu.turnWaiting = true) : s.forceTurn = s.abandonLate.frameTurn := by
  simp [State.forceTurn, h]

/-- A frame turn is one way to a forced turn. -/
theorem turnForced_frameTurn (s : State) : TurnForced s s.frameTurn := by
  have kept := turnKeeps_frameTurn s
  generalize s.frameTurn = t at kept
  exact ⟨(ftu_of_turnKeeps kept :), (clock_of_turnKeeps kept :), (lrx_of_turnKeeps kept :), (cmd_of_turnKeeps kept :),
    (slot_of_turnKeeps kept :), (burstLate_of_turnKeeps kept :), (stats_of_turnKeeps kept :),
    (globalMean_of_turnKeeps kept :), (gprev_of_turnKeeps kept :), kept.2⟩

theorem keepsFlags_solveGivenUp (s : State) : keepsFlags s (State.solveGivenUp s) :=
  keepsFlags_raise s .solveLate

theorem turnForced_forceTurn (s : State) : TurnForced s s.forceTurn := by
  cases hw : s.ftu.turnWaiting with
  | false =>
    rw [forceTurn_not_waiting s hw]
    exact ⟨by rw [← hw], rfl, rfl, rfl, rfl, rfl, rfl, rfl, rfl, keepsFlags_refl s⟩
  | true =>
    rw [forceTurn_waiting s hw]
    by_cases hs : s.lvs.solve = none
    · rw [abandonLate_idle s hs]
      exact turnForced_frameTurn s
    · rw [abandonLate_solving s hs]
      have forced := turnForced_frameTurn (State.solveGivenUp s)
      generalize (State.solveGivenUp s).frameTurn = t at forced
      exact ⟨forced.ftu, forced.clock, forced.lrx, forced.cmd, forced.slot, forced.burstLate, forced.stats, forced.mean,
        forced.gprev, keepsFlags_trans (keepsFlags_solveGivenUp s) forced.flags⟩

/-- A waiting turn that is forced while a solve is in flight gives the solve up (R76). -/
theorem forceTurn_gives_up (s : State) (hw : s.ftu.turnWaiting = true) (hs : s.lvs.solve ≠ none) :
    s.forceTurn.lvs.solve = none ∧ s.forceTurn.lvs.outcome = .late ∧
      s.forceTurn.rpu.flags &&& Event.solveLate.bit ≠ 0 := by
  rw [forceTurn_waiting s hw, abandonLate_solving s hs]
  have kept := turnKeeps_frameTurn (State.solveGivenUp s)
  generalize (State.solveGivenUp s).frameTurn = t at kept
  have raised : keepsFlags (s.raise .solveLate) t := kept.2
  exact ⟨solve_of_turnKeeps kept, outcome_of_turnKeeps kept, raised_of_keepsFlags raised⟩

/-! ## Following starts (R12, R15) -/

/-- The FTU as following starts, on the phase given. -/
def Ftu.follows (f : Ftu) (phase : OutPhase) : Ftu :=
  { f with phase := phase, state := .following, delay := [.start], forward := [], freeDue := none }

/-- The state with no line waiting for its frame turn. -/
def State.linesDropped (s : State) : State := { s with stu := { s.stu with lineBuffer := [] } }

theorem startFollowing_over (s : State) (h : s.ftu.phase.isOver = true) :
    s.startFollowing = { State.linesDropped s with ftu := Ftu.follows s.ftu s.ftu.phase } := by
  unfold State.startFollowing
  dsimp only
  rw [if_pos h]
  rfl

theorem startFollowing_cuts (s : State) (h : s.ftu.phase.isOver = false) :
    s.startFollowing =
      let t := (State.linesDropped s).latchesFallDue.forceTurn
      { t with
        ftu := Ftu.follows t.ftu .ended, rpu := { t.rpu with burstLate := 0 }, pxc := { t.pxc with clips := 0 } } := by
  unfold State.startFollowing State.linesDropped Ftu.follows
  dsimp only
  rw [h, if_neg (by decide)]

theorem turnForced_latchesFallDue (s : State) : TurnForced s s.latchesFallDue.forceTurn := by
  have due := eq_of_blankChains (blankChains_latchesFallDue s)
  have forced := turnForced_forceTurn s.latchesFallDue
  generalize s.latchesFallDue = u at due forced
  generalize u.forceTurn = t at forced
  rw [due] at forced
  exact ⟨forced.ftu, forced.clock, forced.lrx, forced.cmd, forced.slot, forced.burstLate, forced.stats, forced.mean,
    forced.gprev, forced.flags⟩

/-- What the start of following leaves, and what it does with a solve that a frame turn waits for. -/
theorem startFollowing_kept (s : State) :
    let t := s.startFollowing
    (∃ phase, t.ftu = { Ftu.follows s.ftu phase with turnWaiting := t.ftu.turnWaiting } ∧ phase.isOver = true) ∧
      t.lrx = s.lrx ∧ t.cmd = s.cmd ∧ t.rpu.slot = s.rpu.slot ∧
      t.rpu.burstLate = (if s.ftu.phase.isOver then s.rpu.burstLate else 0) ∧
      (s.ftu.turnWaiting = false → t.lvs.solve = s.lvs.solve) ∧
      (s.ftu.turnWaiting = true → s.ftu.phase.isOver = false → s.lvs.solve ≠ none →
        t.lvs.solve = none ∧ t.lvs.outcome = .late ∧ t.ftu.turnWaiting = false ∧
        t.rpu.flags &&& Event.solveLate.bit ≠ 0) := by
  cases h : s.ftu.phase.isOver with
  | true =>
    rw [startFollowing_over s h]
    exact ⟨⟨s.ftu.phase, rfl, h⟩, rfl, rfl, rfl, rfl, fun _ => rfl, nofun⟩
  | false =>
    have forced := turnForced_latchesFallDue (State.linesDropped s)
    have due := eq_of_blankChains (blankChains_latchesFallDue (State.linesDropped s))
    have still := forceTurn_not_waiting (State.linesDropped s).latchesFallDue
    have late := forceTurn_gives_up (State.linesDropped s).latchesFallDue
    rw [startFollowing_cuts s h]
    generalize (State.linesDropped s).latchesFallDue = u at forced due still late
    have waiting : u.ftu.turnWaiting = s.ftu.turnWaiting := by rw [due]; rfl
    have solve : u.lvs.solve = s.lvs.solve := by rw [due]; rfl
    rw [waiting] at still late
    rw [solve] at late
    generalize u.forceTurn = t at forced still late
    refine ⟨⟨.ended, ?_, rfl⟩, forced.lrx, forced.cmd, forced.slot, rfl, fun hw => ?_, fun hw _ hs => ?_⟩
    · dsimp only
      rw [forced.ftu]
      rfl
    · dsimp only
      rw [still hw, solve]
    · obtain ⟨idle, outcome, flag⟩ := late hw hs
      refine ⟨idle, outcome, ?_, flag⟩
      dsimp only
      rw [forced.ftu]
      rfl

/-! ## The marker of a LOCKED input -/

theorem markerToFtu_freeRun (s : State) (hi : s.lrx.input = .locked) (hf : s.ftu.state = .freeRun) :
    s.markerToFtu = s.startFollowing := by
  simp only [State.markerToFtu, hi, hf]

theorem markerToFtu_following (s : State) (hi : s.lrx.input = .locked) (hf : s.ftu.state = .following) :
    s.markerToFtu = { s with ftu := { s.ftu with delay := s.ftu.delay ++ [.start], forward := [] } } := by
  simp only [State.markerToFtu, hi, hf]

/-- The part as a marker finds it: the period measured (R10). -/
def State.periodMeasured (s : State) (dt : Nat) : State :=
  { s.advance dt with lrx := { s.lrx with period := s.clock.now + dt - s.lrx.lastMarker } }

/-- A marker with no open record, outside NO_SIGNAL. -/
theorem exec_frameStartMarker_measured (dt : Nat) (last : Option (List Pixel)) (s : State)
    (hr : s.lrx.record = none) (hi : s.lrx.input ≠ .noSignal) :
    exec (.frameStartMarker dt last) s = .next (State.periodMeasured s dt).openFrame.markerToFtu := by
  rw [execFrameStartMarker_no_record dt last s hr, measure_other]
  · rfl
  · exact hi

theorem openFrame_lrx (s : State) : ∃ timeout, s.openFrame.lrx = Lrx.opens s.lrx s.clock.now timeout ∧
    (s.cleanSetting Config.frameTimeout → timeout = s.mem.active Config.frameTimeout) := by
  rw [openFrame_eq]
  exact ⟨_, rfl, fun clean => by rw [readSetting_of_clean s _ clean]⟩

/-- Opening a frame leaves all but the link receiver and what a read may change. -/
theorem openFrame_kept (s : State) :
    s.openFrame.ftu = s.ftu ∧ s.openFrame.cmd = s.cmd ∧ s.openFrame.rpu.slot = s.rpu.slot ∧
      s.openFrame.rpu.burstLate = s.rpu.burstLate ∧ s.openFrame.lvs.solve = s.lvs.solve ∧ s.openFrame.clock = s.clock := by
  have read := blankRead_readSetting s Config.frameTimeout
  rw [openFrame_eq]
  generalize s.readSetting Config.frameTimeout = t at read
  exact ⟨(congrArg State.ftu read :), (congrArg State.cmd read :), (congrArg (fun u : State => u.rpu.slot) read :),
    (congrArg (fun u : State => u.rpu.burstLate) read :), (congrArg (fun u : State => u.lvs.solve) read :),
    (congrArg State.clock read :)⟩

/-- Settles O5, by the state of the frame timing. -/
theorem markerIsFollowed : Obligations.MarkerIsFollowed := by
  intro dt last s locked no_record
  have run := exec_frameStartMarker_measured dt last s no_record (by rw [locked]; nofun)
  obtain ⟨timeout, opens, clean⟩ := openFrame_lrx (State.periodMeasured s dt)
  obtain ⟨ftu, cmd, slot, burstLate, solve, clock⟩ := openFrame_kept (State.periodMeasured s dt)
  have whole := openFrame_of_clean (State.periodMeasured s dt)
  generalize (State.periodMeasured s dt).openFrame = w at run opens ftu cmd slot burstLate solve clock whole
  have input : w.lrx.input = .locked := by rw [opens]; exact locked
  constructor
  · intro freeRun
    rw [markerToFtu_freeRun w input (by rw [ftu]; exact freeRun)] at run
    obtain ⟨⟨phase, hftu, ended⟩, hlrx, hcmd, hslot, hburst, idle, late⟩ := startFollowing_kept w
    generalize w.startFollowing = t at run hftu hlrx hcmd hslot hburst idle late
    rw [ftu] at hftu hburst idle late
    rw [solve] at idle late
    rw [opens] at hlrx
    refine ⟨t, run, ⟨by rw [hlrx]; rfl, fun h => ?_⟩, by rw [hftu]; rfl, by rw [hftu]; rfl, by rw [hftu]; rfl,
      by rw [hftu]; rfl, by rw [hftu]; exact ended, by rw [hftu]; rfl, by rw [hftu]; rfl, hslot.trans slot,
      hburst.trans (by rw [burstLate]; rfl), hcmd.trans cmd, idle, late⟩
    rw [hlrx]
    exact clean h
  · intro following
    rw [markerToFtu_following w input (by rw [ftu]; exact following)] at run
    refine ⟨_, run, ⟨by dsimp only; rw [opens]; rfl, fun h => ?_⟩, by rw [ftu]; rfl, clock, fun h => ?_⟩
    · dsimp only
      rw [opens]
      exact clean h
    · rw [whole h]
      rfl

end Sys2Proof.Laws
end
-- ==== Sys2Proof/Proofs/FrameClose.lean ====
section
/-! PROOF. The close of a followed output frame: the lines still in the delay, the first active line among them, and the
active end (R12, R14). -/

namespace Sys2Proof.Laws

open Sys2Proof.Machine

/-! ## What the output side never touches -/

/-- The link receiver, the time, the frame statistics and Gprev: what the output side leaves in every state. -/
def linkSide (s : State) : Lrx × Clock × Sparse ZoneStat × Nat × Option Nat :=
  (s.lrx, s.clock, s.stu.stats, s.stu.globalMean, s.lvs.gprev)

theorem linkSide_of_blankRead {s t : State} (h : blankRead t = blankRead s) : linkSide t = linkSide s :=
  (congrArg linkSide h :)

theorem linkSide_of_blankChains {s t : State} (h : blankChains t = blankChains s) : linkSide t = linkSide s :=
  (congrArg linkSide h :)

theorem linkSide_forceTurn (s : State) : linkSide s.forceTurn = linkSide s := by
  have forced := turnForced_forceTurn s
  unfold linkSide
  rw [forced.lrx, forced.clock, forced.stats, forced.mean, forced.gprev]

/-! ## The first active line -/

/-- What the first active line does behind the frame turn, the capture and the LATCH_LINE entries (R105, R120, R121). -/
def State.lineBegun (s : State) : State :=
  let took := s.settlements
  let s := ((s.reportLate took).setDisplay took).lightFrame
  let s := (s.permitLatches took).latchesOfLine 0
  { s with
    pxc := { s.pxc with clips := 0 }
    chc := { s.chc with struck := [] }
    ftu := { s.ftu with phase := .active 0 } }

theorem firstLine_eq (s : State) :
    s.firstLine = State.lineBegun s.forceTurn.latchesFallDue.captureFrame.readLatchLines := by
  unfold State.firstLine State.lineBegun
  with_reducible rfl

/-- The report of late chains touches the mask, one counter and one flag. -/
theorem reportLate_kept (s : State) (took : Vector Settlement 8) :
    ∃ flags counters burstLate, s.reportLate took =
      { s with rpu := { s.rpu with flags := flags, counters := counters, burstLate := burstLate } } ∧
      keepsFlags s (s.reportLate took) := by
  unfold State.reportLate
  dsimp only
  split
  · exact ⟨_, _, _, rfl, keepsFlags_of_eq rfl⟩
  · exact ⟨_, _, _, rfl, keepsFlags_raise _ _⟩

theorem setDisplay_kept (s : State) (took : Vector Settlement 8) :
    ∃ pxc, s.setDisplay took = { s with pxc := pxc } ∧ pxc.capture = s.pxc.capture := by
  unfold State.setDisplay
  split
  · exact ⟨_, rfl, rfl⟩
  · exact ⟨_, rfl, rfl⟩

theorem lightFrame_kept (s : State) : ∃ pxc, s.lightFrame = { s with pxc := pxc } ∧ pxc.capture = s.pxc.capture := by
  unfold State.lightFrame
  split
  · split
    · exact ⟨_, rfl, rfl⟩
    · exact ⟨_, rfl, rfl⟩
  · exact ⟨_, rfl, rfl⟩

/-- The units that the first active line touches, with the capture and the LATCH_LINE entries as it finds them. -/
theorem lineBegun_kept (s : State) :
    ∃ pxc chc flags counters burstLate, State.lineBegun s =
      { s with
        pxc := pxc, chc := chc, ftu := { s.ftu with phase := .active 0 }
        rpu := { s.rpu with flags := flags, counters := counters, burstLate := burstLate } } ∧
      pxc.capture = s.pxc.capture ∧ chc.latchLines = s.chc.latchLines ∧ keepsFlags s (State.lineBegun s) := by
  unfold State.lineBegun
  dsimp only
  obtain ⟨flags, counters, burstLate, late, kept⟩ := reportLate_kept s s.settlements
  generalize s.reportLate s.settlements = a at late kept
  obtain ⟨shown, display, capture⟩ := setDisplay_kept a s.settlements
  rw [display]
  obtain ⟨lit, light, capture'⟩ := lightFrame_kept { a with pxc := shown }
  rw [light]
  generalize hb : State.permitLatches { a with pxc := lit } s.settlements = b
  have due := eq_of_blankChains (blankChains_latchesOfLine b 0)
  generalize b.latchesOfLine 0 = c at due ⊢
  generalize c.chc.chains = chains, c.chc.passQueue = passQueue at due
  subst due hb late
  exact ⟨_, _, _, _, _, rfl, capture'.trans capture, rfl, kept⟩

/-- The capture reads its settings and writes nothing else. -/
theorem captureFrame_kept (s : State) :
    ∃ t capture, s.captureFrame = { t with pxc := { s.pxc with capture := capture } } ∧ blankRead t = blankRead s ∧
      (s.quiet → t = s) ∧ (s.quiet → ∀ grid, s.stu.grid = some grid → capture.isSome) := by
  unfold State.captureFrame
  have read : blankRead ((s.readSettings [Config.bref, Config.gainLimit, Config.clipMode, Config.blackFloor]).readRange
      (wordKey 7 0) (Config.memoryWords 7)) = blankRead s :=
    (blankRead_readRange _ _ _).trans (blankRead_readSettings s _)
  have still (hq : s.quiet) : (s.readSettings [Config.bref, Config.gainLimit, Config.clipMode,
      Config.blackFloor]).readRange (wordKey 7 0) (Config.memoryWords 7) = s := by
    rw [readSettings_of_quiet s hq, readRange_of_quiet s hq]
  dsimp only
  generalize State.readRange _ _ _ = t at read still ⊢
  have pxc : t.pxc = s.pxc := (congrArg State.pxc read :)
  have stu : t.stu = s.stu := (congrArg State.stu read :)
  split
  · next no_grid =>
    refine ⟨t, s.pxc.capture, ?_, read, still, fun _ grid h => ?_⟩
    · rw [← pxc]
    · rw [stu, h] at no_grid
      exact absurd no_grid nofun
  · exact ⟨t, _, by rw [pxc], read, still, fun _ _ _ => rfl⟩

/-- The LATCH_LINE entries are read into the chain controller alone. -/
theorem readLatchLines_kept (s : State) :
    ∃ t latchLines, s.readLatchLines = { t with chc := { s.chc with latchLines := latchLines } } ∧
      blankRead t = blankRead s ∧ (s.quiet → t = s) ∧
      (s.quiet → ∀ k : ChainNo, latchLines[k] = s.mem.active (32 + k.val)) := by
  have read := blankRead_readSettings s (allChains.map (fun k => Config.latchLine k.val))
  have still (hq : s.quiet) := readSettings_of_quiet s hq (allChains.map (fun k => Config.latchLine k.val))
  unfold State.readLatchLines
  dsimp only
  generalize s.readSettings _ = t at read still ⊢
  have chc : t.chc = s.chc := (congrArg State.chc read :)
  refine ⟨t, _, by rw [chc], read, still, fun hq k => ?_⟩
  rw [still hq]
  simp [Config.latchLine]

theorem linkSide_firstLine (s : State) : linkSide s.firstLine = linkSide s := by
  have forced := linkSide_forceTurn s
  have due := linkSide_of_blankChains (blankChains_latchesFallDue s.forceTurn)
  rw [firstLine_eq]
  generalize s.forceTurn.latchesFallDue = u at due ⊢
  obtain ⟨v, capture, captured, read, -⟩ := captureFrame_kept u
  rw [captured]
  obtain ⟨w, latchLines, lines, read', -⟩ := readLatchLines_kept { v with pxc := { u.pxc with capture := capture } }
  rw [lines]
  obtain ⟨pxc, chc, flags, counters, burstLate, begun, -⟩ := lineBegun_kept
    { w with chc := { v.chc with latchLines := latchLines } }
  rw [begun]
  exact (linkSide_of_blankRead read' :).trans ((linkSide_of_blankRead read).trans (due.trans forced))

/-- The first active line where no error waits and no frame turn waits. -/
theorem firstLine_of_quiet (s : State) (hq : s.quiet) (hw : s.ftu.turnWaiting = false) :
    ∃ pxc chc flags counters burstLate, s.firstLine =
      { s with
        pxc := pxc, chc := chc, ftu := { s.ftu with phase := .active 0 }
        rpu := { s.rpu with flags := flags, counters := counters, burstLate := burstLate } } ∧
      (∀ grid, s.stu.grid = some grid → pxc.capture.isSome) ∧
      (∀ k : ChainNo, chc.latchLines[k] = s.mem.active (32 + k.val)) ∧ keepsFlags s s.firstLine := by
  have due := eq_of_blankChains (blankChains_latchesFallDue s)
  rw [firstLine_eq, forceTurn_not_waiting s hw]
  generalize s.latchesFallDue = u at due ⊢
  generalize u.chc.chains = chains, u.chc.passQueue = passQueue at due
  have quiet : u.quiet := by rw [due]; exact hq
  obtain ⟨v, capture, captured, -, same, taken⟩ := captureFrame_kept u
  obtain rfl := same quiet
  rw [captured]
  obtain ⟨w, latchLines, lines, -, same', entries⟩ :=
    readLatchLines_kept { v with pxc := { v.pxc with capture := capture } }
  obtain rfl := same' quiet
  rw [lines]
  obtain ⟨pxc, chc, flags, counters, burstLate, begun, capture', lines', kept⟩ := lineBegun_kept
    { { v with pxc := { v.pxc with capture := capture } } with chc := { v.chc with latchLines := latchLines } }
  rw [begun] at kept ⊢
  have hcapture := taken quiet
  have hlines := entries quiet
  subst due
  refine ⟨pxc, chc, flags, counters, burstLate, rfl, ?_, ?_, kept⟩
  · rw [capture']; exact hcapture
  · rw [lines']; exact hlines

/-! ## A line of the delay on the panel link -/

/-- A line that is sent touches the clip count, the chains and the FTU's place in the frame alone. -/
theorem sendLine_kept (s : State) (n : Nat) (pixels : List Pixel) (damaged off : Bool) (width : Nat) :
    ∃ chains passQueue, s.sendLine n pixels damaged off width =
      { s with
        pxc := { s.pxc with clips := s.pxc.clips + (State.lineOut s n pixels damaged off width).2 }
        chc := { s.chc with chains := chains, passQueue := passQueue }
        ftu := { s.ftu with
          phase := .active (n + 1), delay := s.ftu.delay.drop 1
          lastLine := some (State.lineOut s n pixels damaged off width).1
          panel := .line (State.lineOut s n pixels damaged off width).1 } } := by
  rw [sendLine_eq]
  generalize State.lineOut s n pixels damaged off width = out
  exact ⟨_, _, eq_of_blankChains (blankChains_latchesOfLine _ n)⟩

theorem linkSide_sendLine (s : State) (n : Nat) (pixels : List Pixel) (damaged off : Bool) (width : Nat) :
    linkSide (s.sendLine n pixels damaged off width) = linkSide s := by
  obtain ⟨chains, passQueue, sent⟩ := sendLine_kept s n pixels damaged off width
  rw [sent]
  rfl

theorem sendLine_phase (s : State) (n : Nat) (pixels : List Pixel) (damaged off : Bool) (width : Nat) :
    (s.sendLine n pixels damaged off width).ftu.phase = .active (n + 1) := by
  obtain ⟨chains, passQueue, sent⟩ := sendLine_kept s n pixels damaged off width
  rw [sent]

/-! ## The lines of the delay, one behind the other -/

theorem linkSide_flushLines (l : List Delayed) (s : State) : linkSide (s.flushLines l) = linkSide s := by
  induction l generalizing s with
  | nil => rfl
  | cons d l ih =>
    cases d with
    | start => rfl
    | activeEnd => rfl
    | line pixels damaged off width =>
      unfold State.flushLines
      split
      · exact (ih _).trans (linkSide_sendLine s _ _ _ _ _)
      · exact (ih _).trans ((linkSide_sendLine s.firstLine _ _ _ _ _).trans (linkSide_firstLine s))
      · rfl
      · rfl

/-- The state with what the lines of a frame in its active lines touch blanked out. -/
def blankActive (s : State) : State :=
  { s with
    pxc := { s.pxc with clips := 0 }
    chc := { s.chc with chains := Vector.replicate 8 .reset, passQueue := [] }
    stu := { s.stu with lineBuffer := [] }
    ftu := { s.ftu with phase := .none, delay := [], lastLine := none, panel := .nothing } }

/-- The state with what any line of a frame touches blanked out, where no frame turn waits. -/
def blankLines (s : State) : State :=
  { s with
    pxc := .reset, chc := .reset
    stu := { s.stu with lineBuffer := [] }
    ftu := { s.ftu with phase := .none, delay := [], lastLine := none, panel := .nothing }
    rpu := { s.rpu with flags := 0, counters := .zero, burstLate := 0 } }

/-- From `s` to `t` only what the lines of a frame touch has changed, and no flag has fallen. -/
def linesKeep (s t : State) : Prop := blankLines t = blankLines s ∧ keepsFlags s t

theorem linesKeep_trans {s t u : State} (h : linesKeep s t) (h' : linesKeep t u) : linesKeep s u :=
  ⟨h'.1.trans h.1, keepsFlags_trans h.2 h'.2⟩

theorem linesKeep_of_blankActive {s t : State} (h : blankActive t = blankActive s) : linesKeep s t :=
  ⟨(congrArg blankLines h :), keepsFlags_of_eq (congrArg (fun u : State => u.rpu.flags) h :)⟩

section
variable {s t : State} (h : linesKeep s t)
include h

theorem mem_of_linesKeep : t.mem = s.mem := (congrArg State.mem h.1 :)
theorem imn_of_linesKeep : t.imn = s.imn := (congrArg State.imn h.1 :)
theorem mdc_of_linesKeep : t.mdc = s.mdc := (congrArg State.mdc h.1 :)
theorem cmd_of_linesKeep : t.cmd = s.cmd := (congrArg State.cmd h.1 :)
theorem lrx_of_linesKeep : t.lrx = s.lrx := (congrArg State.lrx h.1 :)
theorem clock_of_linesKeep : t.clock = s.clock := (congrArg State.clock h.1 :)
theorem lvs_of_linesKeep : t.lvs = s.lvs := (congrArg State.lvs h.1 :)
theorem slot_of_linesKeep : t.rpu.slot = s.rpu.slot := (congrArg (fun u : State => u.rpu.slot) h.1 :)
theorem turnWaiting_of_linesKeep : t.ftu.turnWaiting = s.ftu.turnWaiting :=
  (congrArg (fun u : State => u.ftu.turnWaiting) h.1 :)
theorem frameNumber_of_linesKeep : t.ftu.frameNumber = s.ftu.frameNumber :=
  (congrArg (fun u : State => u.ftu.frameNumber) h.1 :)
theorem stamp_of_linesKeep : t.ftu.stamp = s.ftu.stamp := (congrArg (fun u : State => u.ftu.stamp) h.1 :)
theorem startedAt_of_linesKeep : t.ftu.startedAt = s.ftu.startedAt :=
  (congrArg (fun u : State => u.ftu.startedAt) h.1 :)
theorem quiet_of_linesKeep (hq : s.quiet) : t.quiet := quiet_of_imn (imn_of_linesKeep h) hq
end

theorem blankActive_sendLine (s : State) (n : Nat) (pixels : List Pixel) (damaged off : Bool) (width : Nat) :
    blankActive (s.sendLine n pixels damaged off width) = blankActive s := by
  obtain ⟨chains, passQueue, sent⟩ := sendLine_kept s n pixels damaged off width
  rw [sent]
  rfl

theorem linesKeep_sendLine (s : State) (n : Nat) (pixels : List Pixel) (damaged off : Bool) (width : Nat) :
    linesKeep s (s.sendLine n pixels damaged off width) :=
  linesKeep_of_blankActive (blankActive_sendLine s n pixels damaged off width)

theorem linesKeep_firstLine (s : State) (hq : s.quiet) (hw : s.ftu.turnWaiting = false) : linesKeep s s.firstLine := by
  obtain ⟨pxc, chc, flags, counters, burstLate, begun, -, -, kept⟩ := firstLine_of_quiet s hq hw
  refine ⟨?_, kept⟩
  rw [begun]
  rfl

/-- The lines left in the delay, where no error and no frame turn waits. -/
theorem linesKeep_flushLines (l : List Delayed) (s : State) (hq : s.quiet) (hw : s.ftu.turnWaiting = false) :
    linesKeep s (s.flushLines l) := by
  have same (s : State) : linesKeep s s := ⟨rfl, keepsFlags_refl s⟩
  induction l generalizing s with
  | nil => exact same s
  | cons d l ih =>
    cases d with
    | start => exact same s
    | activeEnd => exact same s
    | line pixels damaged off width =>
      have step {t : State} (h : linesKeep s t) : linesKeep s (t.flushLines l) :=
        linesKeep_trans h (ih t (quiet_of_linesKeep h hq) ((turnWaiting_of_linesKeep h).trans hw))
      unfold State.flushLines
      split
      · exact step (linesKeep_sendLine s _ _ _ _ _)
      · exact step (linesKeep_trans (linesKeep_firstLine s hq hw) (linesKeep_sendLine _ _ _ _ _ _))
      · exact same s
      · exact same s

/-- The lines left in the delay of a frame in its active lines. -/
theorem flushLines_in_active (l : List Delayed) (s : State) (n : Nat) (hp : s.ftu.phase = .active n) :
    blankActive (s.flushLines l) = blankActive s ∧ ∃ m, (s.flushLines l).ftu.phase = .active m := by
  induction l generalizing s n with
  | nil => exact ⟨rfl, n, hp⟩
  | cons d l ih =>
    cases d with
    | start => exact ⟨rfl, n, hp⟩
    | activeEnd => exact ⟨rfl, n, hp⟩
    | line pixels damaged off width =>
      rw [flushLines_active s n pixels damaged off width l hp]
      obtain ⟨kept, phase⟩ := ih _ (n + 1) (sendLine_phase s n pixels damaged off width)
      exact ⟨kept.trans (blankActive_sendLine s _ _ _ _ _), phase⟩

/-! ## The close (R14) -/

/-- The close of a followed frame, behind the lines of its delay. -/
def State.outputClosed (s : State) : State :=
  let s := { s with ftu := { s.ftu with delay := [], forward := [] } }
  let s := s.closeFrame.readSetting Config.freeRunPeriod
  { s with ftu := { s.ftu with
      state := .freeRun
      freeDue := some (max s.clock.now (s.ftu.startedAt + s.mem.active Config.freeRunPeriod)) } }

theorem stopFollowing_eq (s : State) (h : s.ftu.state = .following) :
    s.stopFollowing = State.outputClosed ((State.linesDropped s).flushLines s.ftu.delay) := by
  unfold State.stopFollowing State.outputClosed State.linesDropped
  rw [h]

theorem linkSide_queueReport (s : State) : linkSide s.queueReport = linkSide s := by
  have read := linkSide_of_blankRead (blankRead_readSetting s Config.deviceTag)
  unfold State.queueReport
  dsimp only
  generalize s.readSetting Config.deviceTag = t at read
  rw [fillSlot_eq, pump_eq]
  exact read

theorem linkSide_sendActiveEnd (s : State) : linkSide s.sendActiveEnd = linkSide s := by
  have due := linkSide_of_blankChains (blankChains_latchesFallDue (State.activeEndSent s))
  show linkSide (State.activeEndSent s).latchesFallDue.handClips.queueReport = _
  rw [linkSide_queueReport]
  generalize (State.activeEndSent s).latchesFallDue = u at due ⊢
  exact due

theorem linkSide_closeFrame (s : State) : linkSide s.closeFrame = linkSide s := by
  unfold State.closeFrame
  split
  · rfl
  · exact (linkSide_sendActiveEnd _).trans (linkSide_forceTurn s)

theorem linkSide_outputClosed (s : State) : linkSide (State.outputClosed s) = linkSide s := by
  have closed := linkSide_closeFrame { s with ftu := { s.ftu with delay := [], forward := [] } }
  unfold State.outputClosed
  dsimp only
  generalize State.closeFrame _ = u at closed
  have read := linkSide_of_blankRead (blankRead_readSetting u Config.freeRunPeriod)
  generalize u.readSetting Config.freeRunPeriod = t at read
  exact read.trans closed

/-- What the close of a followed frame leaves in every state. -/
theorem linkSide_stopFollowing (s : State) : linkSide s.stopFollowing = linkSide s := by
  cases h : s.ftu.state with
  | freeRun => rw [stopFollowing_of_freeRun s h]
  | following =>
    rw [stopFollowing_eq s h, linkSide_outputClosed, linkSide_flushLines]
    rfl

theorem closeFrame_not_waiting (s : State) (hw : s.ftu.turnWaiting = false) (hp : s.ftu.phase.isOver = false) :
    s.closeFrame = s.sendActiveEnd := by
  unfold State.closeFrame
  rw [hp, if_neg (by decide), forceTurn_not_waiting s hw]

/-- Where no error and no frame turn waits, the close leaves the memory. -/
theorem closeFrame_memory (s : State) (hq : s.quiet) (hw : s.ftu.turnWaiting = false) :
    s.closeFrame.mem = s.mem ∧ s.closeFrame.imn = s.imn := by
  cases hp : s.ftu.phase.isOver with
  | true => simp [State.closeFrame, hp]
  | false =>
    obtain ⟨chains, passQueue, cmd, slot, sent, -⟩ := sendActiveEnd_served s (cleanSetting_of_quiet s hq _)
    rw [closeFrame_not_waiting s hw hp, sent]
    exact ⟨rfl, rfl⟩

theorem outputClosed_memory (s : State) (hq : s.quiet) (hw : s.ftu.turnWaiting = false) :
    (State.outputClosed s).mem = s.mem ∧ (State.outputClosed s).imn = s.imn := by
  obtain ⟨mem, imn⟩ := closeFrame_memory { s with ftu := { s.ftu with delay := [], forward := [] } } hq hw
  unfold State.outputClosed
  dsimp only
  generalize State.closeFrame _ = u at mem imn
  rw [readSetting_of_quiet u (quiet_of_imn imn hq)]
  exact ⟨mem, imn⟩

theorem stopFollowing_memory (s : State) (hq : s.quiet) (hw : s.ftu.turnWaiting = false) :
    s.stopFollowing.mem = s.mem ∧ s.stopFollowing.imn = s.imn := by
  cases h : s.ftu.state with
  | freeRun => rw [stopFollowing_of_freeRun s h]; exact ⟨rfl, rfl⟩
  | following =>
    have kept := linesKeep_flushLines s.ftu.delay (State.linesDropped s) hq hw
    rw [stopFollowing_eq s h]
    generalize (State.linesDropped s).flushLines s.ftu.delay = u at kept
    obtain ⟨mem, imn⟩ := outputClosed_memory u (quiet_of_linesKeep kept hq) ((turnWaiting_of_linesKeep kept).trans hw)
    exact ⟨mem.trans (mem_of_linesKeep kept :), imn.trans (imn_of_linesKeep kept :)⟩

/-- The FTU behind the close of a followed frame. -/
def Ftu.closedAt (f : Ftu) (due : Nat) : Ftu :=
  { f with
    phase := .ended, panel := .activeEnd, delay := [], forward := [], state := .freeRun, freeDue := some due }

/-- The close of a frame in progress, with the slot empty, the lane IDLE, and no error and no frame turn waiting. -/
theorem outputClosed_ready (s : State) (hq : s.quiet) (hw : s.ftu.turnWaiting = false)
    (hp : s.ftu.phase.isOver = false) (hs : s.rpu.slot = none) (hl : s.cmd.lane = none) :
    ∃ chains passQueue cmd, State.outputClosed s =
      { State.endServed s chains passQueue cmd none with
        ftu := Ftu.closedAt s.ftu (max s.clock.now (s.ftu.startedAt + s.mem.active Config.freeRunPeriod)) } ∧
      cmd.lane = some (.report (State.endReport s)) := by
  generalize hu : ({ s with ftu := { s.ftu with delay := [], forward := [] } } : State) = u
  have quiet : u.quiet := by rw [← hu]; exact hq
  obtain ⟨chains, passQueue, cmd, slot, served, sent, -⟩ := sendActiveEnd_served u (cleanSetting_of_quiet u quiet _)
  have close : u.closeFrame = u.sendActiveEnd :=
    closeFrame_not_waiting u (by rw [← hu]; exact hw) (by rw [← hu]; exact hp)
  have report : State.endReport u = State.endReport s := by rw [← hu]; rfl
  obtain ⟨lane, empty⟩ := sent (by rw [← hu]; exact hl)
  refine ⟨chains, passQueue, cmd, ?_, ?_⟩
  · unfold State.outputClosed
    dsimp only
    rw [hu, close, served, readSetting_of_quiet, ← hu, empty]
    · rfl
    · exact quiet
  · rw [lane, report, ← hu, hs]
    rfl

/-- From `s`, with the delay sent up to `u`, the frame in progress has closed in `t` with the report `rep`. -/
structure FrameClosed (s u t : State) (rep : FrameReport) : Prop where
  phase : t.ftu.phase = .ended
  panel : t.ftu.panel = .activeEnd
  delay : t.ftu.delay = []
  state : t.ftu.state = .freeRun
  number : t.ftu.frameNumber = s.ftu.frameNumber
  due : t.ftu.freeDue = some (max s.clock.now (s.ftu.startedAt + s.mem.active Config.freeRunPeriod))
  lane : t.cmd.lane = some (.report rep)
  repFrame : rep.frame = s.ftu.frameNumber
  repStamp : rep.stamp = s.ftu.stamp
  repInput : rep.input = s.lrx.input
  repFlags : rep.flags = u.rpu.flags
  flags : t.rpu.flags = 0
  solve : t.lvs.solve = s.lvs.solve
  gprev : t.lvs.gprev = s.lvs.gprev
  mem : t.mem = s.mem
  mdc : t.mdc = s.mdc
  imn : t.imn = s.imn
  lrx : t.lrx = s.lrx
  clock : t.clock = s.clock
  lastLine : t.ftu.lastLine = u.ftu.lastLine
  field : t.pxc.field = u.pxc.field
  capture : t.pxc.capture = u.pxc.capture
  latchLines : t.chc.latchLines = u.chc.latchLines

theorem frameClosed_outputClosed {s u : State} (h : linesKeep s u) (hq : s.quiet) (hw : s.ftu.turnWaiting = false)
    (hp : u.ftu.phase.isOver = false) (hs : s.rpu.slot = none) (hl : s.cmd.lane = none) :
    ∃ rep, FrameClosed s u (State.outputClosed u) rep := by
  obtain ⟨chains, passQueue, cmd, closed, lane⟩ := outputClosed_ready u (quiet_of_linesKeep h hq)
    ((turnWaiting_of_linesKeep h).trans hw) hp ((slot_of_linesKeep h).trans hs) (by rw [cmd_of_linesKeep h, hl])
  generalize State.outputClosed u = t at closed
  rw [startedAt_of_linesKeep h, clock_of_linesKeep h, mem_of_linesKeep h] at closed
  subst closed
  exact ⟨State.endReport u, rfl, rfl, rfl, rfl, (frameNumber_of_linesKeep h :), rfl, lane,
    (frameNumber_of_linesKeep h :), (stamp_of_linesKeep h :), (congrArg Lrx.input (lrx_of_linesKeep h) :), rfl, rfl,
    (congrArg Lvs.solve (lvs_of_linesKeep h) :), (congrArg Lvs.gprev (lvs_of_linesKeep h) :), (mem_of_linesKeep h :),
    (mdc_of_linesKeep h :), (imn_of_linesKeep h :), (lrx_of_linesKeep h :), (clock_of_linesKeep h :), rfl, rfl, rfl, rfl⟩

end Sys2Proof.Laws
end

