-- ==== Sys2Proof/Proofs/LockLost.lean ====
section
/-! PROOF. A LOCKED input is lost or left: the followed output frame closes, and its waiting lines are discarded. -/

namespace Sys2Proof.Laws

open Sys2Proof.Machine

/-! ## The close, by the place of the frame -/

/-- A frame in its active lines closes with whatever its delay holds. -/
theorem stopFollowing_in_active (s : State) (n : Nat) (hf : s.ftu.state = .following) (hp : s.ftu.phase = .active n)
    (hq : s.quiet) (hw : s.ftu.turnWaiting = false) (hs : s.rpu.slot = none) (hl : s.cmd.lane = none) :
    ∃ u rep, FrameClosed s u s.stopFollowing rep ∧ u.rpu.flags = s.rpu.flags ∧ u.pxc.field = s.pxc.field ∧
      (s.ftu.delay = [] → u.ftu.lastLine = s.ftu.lastLine) ∧
      ∀ pixels damaged off width, s.ftu.delay = [.line pixels damaged off width] →
        u.ftu.lastLine = some (State.lineOut s n pixels damaged off width).1 := by
  obtain ⟨active, m, phase⟩ := flushLines_in_active s.ftu.delay (State.linesDropped s) n hp
  rw [stopFollowing_eq s hf]
  generalize hu : (State.linesDropped s).flushLines s.ftu.delay = u at active phase
  have kept : linesKeep s u := linesKeep_of_blankActive active
  obtain ⟨rep, closed⟩ := frameClosed_outputClosed kept hq hw (by rw [phase]; rfl) hs hl
  refine ⟨u, rep, closed, (congrArg (fun u : State => u.rpu.flags) active :),
    (congrArg (fun u : State => u.pxc.field) active :), fun hd => ?_, fun pixels damaged off width hd => ?_⟩
  · rw [← hu, hd, flushLines_nil]
    rfl
  · rw [← hu, hd, flushLines_active (State.linesDropped s) n pixels damaged off width [] hp, flushLines_nil]
    obtain ⟨chains, passQueue, sent⟩ := sendLine_kept (State.linesDropped s) n pixels damaged off width
    rw [sent]
    rfl

/-- A frame in its blanking, with nothing in the delay, closes without a line. -/
theorem stopFollowing_in_blanking (s : State) (hf : s.ftu.state = .following) (hp : s.ftu.phase = .blanking)
    (hd : s.ftu.delay = []) (hq : s.quiet) (hw : s.ftu.turnWaiting = false) (hs : s.rpu.slot = none)
    (hl : s.cmd.lane = none) : ∃ rep, FrameClosed s s s.stopFollowing rep := by
  rw [stopFollowing_eq s hf, hd, flushLines_nil]
  have kept : linesKeep s (State.linesDropped s) := ⟨rfl, keepsFlags_refl s⟩
  obtain ⟨rep, closed⟩ := frameClosed_outputClosed kept hq hw (show s.ftu.phase.isOver = false by rw [hp]; rfl) hs hl
  generalize State.outputClosed (State.linesDropped s) = t at closed
  exact ⟨rep, { closed with }⟩

/-- A frame in its blanking with one line in the delay takes its first active line, and closes behind it. -/
theorem stopFollowing_in_blanking_line (s : State) (pixels : List Pixel) (damaged off : Bool) (width : Nat)
    (hf : s.ftu.state = .following) (hp : s.ftu.phase = .blanking)
    (hd : s.ftu.delay = [.line pixels damaged off width]) (hq : s.quiet) (hw : s.ftu.turnWaiting = false)
    (hs : s.rpu.slot = none) (hl : s.cmd.lane = none) :
    ∃ u v rep, FrameClosed s u s.stopFollowing rep ∧ keepsFlags s u ∧
      u.ftu.lastLine = some (State.lineOut v 0 pixels damaged off width).1 ∧ v.ftu.lastLine = s.ftu.lastLine ∧
      v.mdc = s.mdc ∧ (∀ grid, s.stu.grid = some grid → u.pxc.capture.isSome) ∧
      ∀ k : ChainNo, u.chc.latchLines[k] = s.mem.active (32 + k.val) := by
  have kept := linesKeep_flushLines s.ftu.delay (State.linesDropped s) hq hw
  rw [stopFollowing_eq s hf]
  generalize hu : (State.linesDropped s).flushLines s.ftu.delay = u at kept
  obtain ⟨pxc, chc, flags, counters, burstLate, first, captured, lines, -⟩ :=
    firstLine_of_quiet (State.linesDropped s) hq hw
  rw [hd, flushLines_blanking (State.linesDropped s) pixels damaged off width [] hp, flushLines_nil] at hu
  generalize (State.linesDropped s).firstLine = v at first hu
  obtain ⟨chains, passQueue, sent⟩ := sendLine_kept v 0 pixels damaged off width
  rw [hu] at sent
  have keeps : linesKeep s u := ⟨kept.1, kept.2⟩
  obtain ⟨rep, closed⟩ := frameClosed_outputClosed keeps hq hw (by rw [sent]; rfl) hs hl
  refine ⟨u, v, rep, closed, keeps.2, by rw [sent], by rw [first]; rfl, by rw [first]; rfl, ?_, ?_⟩
  · rw [sent, first]; exact captured
  · rw [sent, first]; exact lines

/-- A frame with one line in the delay closes behind that line. -/
theorem stopFollowing_one_line (s : State) (pixels : List Pixel) (damaged off : Bool) (width : Nat)
    (hf : s.ftu.state = .following) (hp : s.ftu.phase = .blanking ∨ ∃ n, s.ftu.phase = .active n)
    (hd : s.ftu.delay = [.line pixels damaged off width]) (hq : s.quiet) (hw : s.ftu.turnWaiting = false)
    (hs : s.rpu.slot = none) (hl : s.cmd.lane = none) :
    ∃ u v n rep, FrameClosed s u s.stopFollowing rep ∧ keepsFlags s u ∧
      u.ftu.lastLine = some (State.lineOut v n pixels damaged off width).1 ∧ v.ftu.lastLine = s.ftu.lastLine ∧
      v.mdc = s.mdc ∧ (s.ftu.phase = .blanking → (∀ grid, s.stu.grid = some grid → u.pxc.capture.isSome) ∧
        ∀ k : ChainNo, u.chc.latchLines[k] = s.mem.active (32 + k.val)) := by
  rcases hp with hp | ⟨n, hp⟩
  · obtain ⟨u, v, rep, closed, flags, line, last, mdc, capture, lines⟩ :=
      stopFollowing_in_blanking_line s pixels damaged off width hf hp hd hq hw hs hl
    exact ⟨u, v, 0, rep, closed, flags, line, last, mdc, fun _ => ⟨capture, lines⟩⟩
  · obtain ⟨u, rep, closed, flags, -, -, line⟩ := stopFollowing_in_active s n hf hp hq hw hs hl
    exact ⟨u, s, n, rep, closed, keepsFlags_of_eq flags, line pixels damaged off width hd, rfl, rfl,
      fun h => absurd (hp.symm.trans h) nofun⟩

/-! ## The loss of the signal (O12) -/

/-- The part as the signal is lost, before a followed frame closes. -/
def State.signalGone (s : State) : State :=
  ({ s with lrx := Lrx.signalLost s.lrx, lvs := Lvs.afterInput s.lvs s.lrx.input } : State).raise .inputStateChanged

theorem afterInput_solve (l : Lvs) (old : InputState) : (Lvs.afterInput l old).solve.isSome = l.solve.isSome := by
  unfold Lvs.afterInput
  split
  · simp [Lvs.leaveLocked]
  · rfl

/-- The loss of the signal empties the line buffer of a followed frame and adds nothing to an accumulator. -/
theorem loseSignal_discards (s : State) (hi : s.lrx.input ≠ .noSignal) (hf : s.ftu.state = .following) :
    s.loseSignal.stu.lineBuffer = [] ∧ s.loseSignal.stu.accumulators = s.stu.accumulators := by
  rw [loseSignal_eq s hi]
  exact stopFollowing_accumulators (State.signalGone s) hf

/-- The frame that closes with the signal, with the line that it ends with. -/
theorem loseSignal_closes (s : State) (hi : s.lrx.input = .locked) (hf : s.ftu.state = .following)
    (hp : (∃ n, s.ftu.phase = .active n) ∨ s.ftu.phase = .blanking ∧ s.ftu.delay = []) (hq : s.quiet)
    (hw : s.ftu.turnWaiting = false) (hs : s.rpu.slot = none) (hl : s.cmd.lane = none) :
    ∃ u rep, FrameClosed (State.signalGone s) u s.loseSignal rep ∧
      rep.flags = s.rpu.flags ||| Event.inputStateChanged.bit ∧
      (s.ftu.delay = [] → s.loseSignal.ftu.lastLine = s.ftu.lastLine) ∧
      ∀ pixels damaged off width, s.ftu.delay = [.line pixels damaged off width] →
        ∃ n, s.loseSignal.ftu.lastLine = some (State.lineOut s n pixels damaged off width).1 := by
  rw [loseSignal_eq s (by rw [hi]; nofun)]
  rcases hp with ⟨n, hp⟩ | ⟨hp, hd⟩
  · obtain ⟨u, rep, closed, flags, -, empty, line⟩ := stopFollowing_in_active (State.signalGone s) n hf hp hq hw hs hl
    exact ⟨u, rep, closed, closed.repFlags.trans flags, fun hd => closed.lastLine.trans (empty hd),
      fun pixels damaged off width hd => ⟨n, closed.lastLine.trans (line pixels damaged off width hd)⟩⟩
  · obtain ⟨rep, closed⟩ := stopFollowing_in_blanking (State.signalGone s) hf hp hd hq hw hs hl
    exact ⟨_, rep, closed, closed.repFlags, fun _ => closed.lastLine, fun _ _ _ _ h => absurd (hd.symm.trans h) nofun⟩

/-- The part as an event on the link leaves it, before the signal is lost: the link receiver, the time, the delay and
the counts of errors. -/
def State.atLink (s : State) (lrx : Lrx) (clock : Clock) (delay : List Delayed) (charErrors : Nat)
    (counters : Counters) : State :=
  { s with
    lrx := lrx, clock := clock, ftu := { s.ftu with delay := delay }
    rpu := { s.rpu with charErrors := charErrors, counters := counters } }

/-- What the loss of the signal gives, for any event on the link that brings it. -/
theorem atLink_closes (s : State) (lrx : Lrx) (clock : Clock) (delay : List Delayed) (charErrors : Nat)
    (counters : Counters) (hi : lrx.input = .locked) (hf : s.ftu.state = .following)
    (hp : (∃ n, s.ftu.phase = .active n) ∨ s.ftu.phase = .blanking ∧ delay = []) (hq : s.quiet)
    (hw : s.ftu.turnWaiting = false) (hs : s.rpu.slot = none) (hl : s.cmd.lane = none) :
    ∃ t rep, (State.atLink s lrx clock delay charErrors counters).loseSignal = t ∧
      t.lrx.input = .noSignal ∧ t.lrx.record = none ∧ t.ftu.state = .freeRun ∧ t.ftu.phase = .ended ∧
      t.ftu.panel = .activeEnd ∧ t.ftu.delay = [] ∧ t.ftu.frameNumber = s.ftu.frameNumber ∧
      t.ftu.freeDue = some (max t.clock.now (s.ftu.startedAt + s.mem.active Config.freeRunPeriod)) ∧
      (t.cmd.lane = some (.report rep) ∧ rep.frame = s.ftu.frameNumber ∧ rep.stamp = s.ftu.stamp ∧
        rep.input = .noSignal ∧ rep.flags = s.rpu.flags ||| Event.inputStateChanged.bit ∧
        t.rpu.flags = 0 ∧ t.lvs.gprev = none ∧ t.lvs.solve.isSome = s.lvs.solve.isSome ∧ t.mem = s.mem ∧
        t.mdc = s.mdc) ∧
      (delay = [] → t.ftu.lastLine = s.ftu.lastLine) ∧
      ∀ pixels damaged off width, delay = [.line pixels damaged off width] →
        ∃ n, t.ftu.lastLine = some (State.lineOut s n pixels damaged off width).1 := by
  obtain ⟨u, rep, closed, flags, empty, line⟩ :=
    loseSignal_closes (State.atLink s lrx clock delay charErrors counters) hi hf hp hq hw hs hl
  generalize (State.atLink s lrx clock delay charErrors counters).loseSignal = t at closed empty line
  have hlrx : t.lrx = Lrx.signalLost lrx := closed.lrx
  refine ⟨t, rep, rfl, by rw [hlrx]; rfl, by rw [hlrx]; rfl, closed.state, closed.phase, closed.panel, closed.delay,
    closed.number, ?_, ⟨closed.lane, closed.repFrame, closed.repStamp, closed.repInput, flags, closed.flags, ?_, ?_,
    closed.mem, closed.mdc⟩, empty, line⟩
  · rw [closed.clock]
    exact closed.due
  · rw [closed.gprev]
    exact afterInput_gprev _ _ hi
  · rw [closed.solve]
    exact afterInput_solve _ _

/-- The line `out` copies `last`, black beyond its end (R6). -/
def isCopy (last : Option (List Pixel)) (width : Nat) (out : List Pixel) : Prop :=
  out.length = width ∧ ∀ x < width, out[x]? = some (((last.getD [])[x]?).getD ⟨0, 0, 0⟩)

/-- A damaged line is sent as a copy of the last one. -/
theorem isCopy_lineOut (s : State) (n : Nat) (pixels : List Pixel) (off : Bool) (width : Nat) :
    isCopy s.ftu.lastLine width (State.lineOut s n pixels true off width).1 :=
  copyLine_spec s.ftu.lastLine width

/-- A line sent unchanged, or as a copy (R6, R9). -/
theorem completed_line (s : State) (pixels : List Pixel) (damaged off : Bool) (width : Nat) (last : Option (List Pixel))
    (h : ∃ n, last = some (State.lineOut s n pixels damaged off width).1) :
    ∃ out, last = some out ∧
      (damaged = true → isCopy s.ftu.lastLine width out) ∧
      (damaged = false → off = true ∨ s.pxc.compensating = false ∨ s.mdc.mode ≠ .dimming → out = pixels) := by
  obtain ⟨n, rfl⟩ := h
  refine ⟨_, rfl, ?_, ?_⟩
  · rintro rfl
    exact isCopy_lineOut s n pixels off width
  · rintro rfl same
    rw [lineOut_unchanged s n pixels off width same]

/-- A character error that reaches LOS_ERROR_LIMIT. -/
theorem exec_characterError_reaches (dt : Nat) (place : LinkPlace) (s : State) (r : FrameRec)
    (hr : s.lrx.record = some r) (hc : s.cleanSetting Config.losErrorLimit)
    (hle : s.mem.active Config.losErrorLimit ≤ min 65535 (r.errors + 1)) :
    exec (.characterError dt place) s =
      .next (({ ({ s.advance dt with lrx := s.lrx.markError place } : State).countCharError with
        lrx := { s.lrx.markError place with record := some (FrameRec.withError r) } } : State).loseSignal) := by
  rw [exec_characterError, linkError_reaches { s.advance dt with lrx := s.lrx.markError place } r _ hc hle]
  rw [markError_record s.lrx place r hr]
  exact hr

/-- An active line of another length that reaches LOS_ERROR_LIMIT, while following. -/
theorem exec_activeLine_reaches (dt : Nat) (pixels : List Pixel) (s : State) (r : FrameRec) (w : Nat)
    (hf : s.ftu.state = .following) (hr : s.lrx.record = some r) (hw : r.width = some w) (hne : w ≠ pixels.length)
    (hc : s.cleanSetting Config.losErrorLimit) (hle : s.mem.active Config.losErrorLimit ≤ min 65535 (r.errors + 1)) :
    ∃ lrx off, exec (.activeLine dt pixels) s =
      .next ((State.atLink s lrx (s.advance dt).clock (s.ftu.delay ++ [.line pixels true off w])
        s.countCharError.rpu.charErrors s.countCharError.rpu.counters).loseSignal) ∧ lrx.input = s.lrx.input := by
  rw [exec_activeLine, endLine_wrong (s.advance dt) pixels r w hr hw hne, handLine_marked]
  · obtain ⟨after, recorded, errors⟩ : ∃ after, (Lrx.withLine s.lrx r w pixels.length true).record = some after ∧
      after.errors = r.errors := ⟨_, rfl, rfl⟩
    rw [linkError_reaches _ after]
    · exact ⟨_, _, rfl, rfl⟩
    · exact recorded
    · exact hc
    · rw [errors]; exact hle
  · exact hf
  · rfl

/-- Settles O12: whatever loses the signal closes the followed frame, its line in progress completed. -/
theorem followedFrameIsClosed : Obligations.FollowedFrameIsClosed := by
  intro dt s hi hf
  have out : s.lrx.input ≠ .noSignal := by rw [hi]; nofun
  have timeout := exec_frameTimeout dt s out
  refine ⟨⟨?_, fun r place hr hc hle => ?_⟩, fun hp hw hq hs hl => ?_⟩
  · exact ⟨_, timeout, loseSignal_discards _ out hf⟩
  · refine ⟨_, exec_characterError_reaches dt place s r hr hc hle, loseSignal_discards _ ?_ hf⟩
    rw [markError_record s.lrx place r hr]
    exact out
  · have line (delay : List Delayed) (t : State)
        (h : ∀ pixels damaged off width, delay = [.line pixels damaged off width] →
          ∃ n, t.ftu.lastLine = some (State.lineOut s n pixels damaged off width).1) :
        ∀ pixels damaged off width, delay = [.line pixels damaged off width] → ∃ out, t.ftu.lastLine = some out ∧
          (damaged = true → isCopy s.ftu.lastLine width out) ∧
          (damaged = false → off = true ∨ s.pxc.compensating = false ∨ s.mdc.mode ≠ .dimming → out = pixels) :=
      fun pixels damaged off width hd => completed_line s pixels damaged off width _ (h pixels damaged off width hd)
    refine ⟨?_, fun r hr hle => ⟨fun place => ?_, fun n pixels w hn hwidth hne => ?_⟩⟩
    · obtain ⟨t, rep, rfl, input, record, state, phase, panel, delay, number, due, report, empty, lines⟩ :=
        atLink_closes s s.lrx ((s.advance dt).advanceTo (s.lrx.lastMarker + s.lrx.timeout)).clock s.ftu.delay
          s.rpu.charErrors s.rpu.counters hi hf hp hq hw hs hl
      exact ⟨_, rep, timeout, input, record, state, phase, panel, ⟨empty, line _ _ lines⟩, delay, number, due, report⟩
    · obtain ⟨t, rep, rfl, input, record, state, phase, panel, delay, number, due, report, empty, lines⟩ :=
        atLink_closes s { s.lrx.markError place with record := some (FrameRec.withError r) } (s.advance dt).clock
          s.ftu.delay s.countCharError.rpu.charErrors s.countCharError.rpu.counters
          (by rw [markError_record s.lrx place r hr]; exact hi) hf hp hq hw hs hl
      exact ⟨_, rep, exec_characterError_reaches dt place s r hr (cleanSetting_of_quiet s hq _) hle, input, record, state,
        phase, panel, ⟨empty, line _ _ lines⟩, delay, number, due, report⟩
    · obtain ⟨lrx, off, run, locked⟩ :=
        exec_activeLine_reaches dt pixels s r w hf hr hwidth hne (cleanSetting_of_quiet s hq _) hle
      obtain ⟨t, rep, rfl, input, record, state, phase, panel, delay, number, due, report, -, lines⟩ :=
        atLink_closes s lrx (s.advance dt).clock (s.ftu.delay ++ [.line pixels true off w])
          s.countCharError.rpu.charErrors s.countCharError.rpu.counters (locked.trans hi) hf (.inl ⟨n, hn⟩) hq hw hs hl
      refine ⟨_, rep, run, input, record, state, phase, panel, fun hd => ?_, delay, number, due, report⟩
      obtain ⟨out, last, copied, -⟩ := line _ _ lines pixels true off w (by rw [hd]; rfl)
      exact ⟨out, last, copied rfl⟩

/-! ## The input leaves LOCKED for ACQUIRING (O13) -/

/-- The part as the input leaves LOCKED for ACQUIRING, before a followed frame closes. -/
def State.lockLeft (s : State) : State :=
  ({ s with
    lrx := { s.lrx.closeRecord.emptyRun with input := .acquiring }
    lvs := s.lvs.leaveLocked } : State).raise .inputStateChanged

theorem leaveLock_eq (s : State) (hi : s.lrx.input = .locked) :
    ({ s with lrx := s.lrx.closeRecord } : State).leaveLock = (State.lockLeft s).stopFollowing := by
  unfold State.leaveLock
  dsimp only
  rw [changeInput_leaves_lock]
  · rfl
  · exact hi
  · nofun

theorem truncate_locked (s : State) (r : FrameRec) (hi : s.lrx.input = .locked) (hr : s.lrx.record = some r) :
    s.truncate = (State.lockLeft s).stopFollowing := by
  have input : s.lrx.closeRecord.input = .locked := hi
  simp only [State.truncate, hr, input]
  exact leaveLock_eq s hi

/-- The active end of an off-geometry frame or of one with too few lines. -/
theorem endFrame_leaves (s : State) (r : FrameRec) (g : Geometry) (hq : s.quiet) (hi : s.lrx.input = .locked)
    (hg : s.lrx.locked = some g) (hr : s.lrx.record = some r) (h : r.offGeometry = true ∨ r.lines < g.height) :
    s.endFrame = (State.lockLeft s).stopFollowing := by
  have input : s.lrx.closeRecord.input = .locked := hi
  have short : s.lrx.closeRecord.shortOf r = decide (r.lines < g.height) := by
    have : s.lrx.closeRecord.locked = some g := hg
    simp [Lrx.shortOf, this]
  simp only [State.endFrame, hr, readSettings_of_quiet s hq, input, short]
  rw [if_pos (by simpa using h)]
  exact leaveLock_eq s hi

/-- The part with the period measured by a marker of this moment. -/
def State.periodTaken (s : State) : State :=
  { s with lrx := { s.lrx with period := s.clock.now - s.lrx.lastMarker } }

/-- A frame opened behind the close, the period measured. -/
def State.reopened (s : State) : State := (State.periodTaken s).openFrame

/-- A marker that truncates a frame in LOCKED. -/
theorem marker_leaves (s : State) (r : FrameRec) (hi : s.lrx.input = .locked) (hr : s.lrx.record = some r) :
    s.truncate.measure.openFrame.markerToFtu = State.reopened (State.lockLeft s).stopFollowing := by
  have lrx : (State.lockLeft s).stopFollowing.lrx = (State.lockLeft s).lrx :=
    congrArg Prod.fst (linkSide_stopFollowing (State.lockLeft s))
  rw [truncate_locked s r hi hr]
  generalize (State.lockLeft s).stopFollowing = x at lrx
  have input : x.lrx.input = .acquiring := by rw [lrx]; rfl
  rw [measure_other x (by rw [input]; nofun)]
  refine markerToFtu_outside_lock _ ?_
  rw [openFrame_eq]
  show x.lrx.input ≠ .locked
  rw [input]
  nofun

/-- From `x` to `t` only the link receiver and what a read can change differ; where no error waits, only the former. -/
structure LinkOnly (x t : State) : Prop where
  read : blankRead { t with lrx := x.lrx } = blankRead x
  still : x.quiet → t = { x with lrx := t.lrx }

theorem linkOnly_refl (x : State) : LinkOnly x x := ⟨rfl, fun _ => rfl⟩

theorem linkOnly_reopened (x : State) : LinkOnly x (State.reopened x) := by
  have read := blankRead_readSetting (State.periodTaken x) Config.frameTimeout
  have still (hq : x.quiet) := readSetting_of_quiet (State.periodTaken x) hq Config.frameTimeout
  unfold State.reopened
  rw [openFrame_eq]
  generalize (State.periodTaken x).readSetting Config.frameTimeout = z at read still
  exact ⟨(congrArg (fun u : State => { u with lrx := x.lrx }) read :), fun hq => by rw [still hq]; rfl⟩

/-- The link receiver behind a marker that truncates a frame. -/
theorem reopened_lrx (x : State) : ∃ timeout, (State.reopened x).lrx =
    Lrx.opens { x.lrx with period := x.clock.now - x.lrx.lastMarker } x.clock.now timeout ∧
      (x.quiet → timeout = x.mem.active Config.frameTimeout) := by
  unfold State.reopened
  obtain ⟨timeout, opens, clean⟩ := openFrame_lrx (State.periodTaken x)
  exact ⟨timeout, opens, fun hq => clean (cleanSetting_of_quiet x hq _)⟩

/-- The part as the event that leaves LOCKED finds it: the time, and what a line on the marker has changed. -/
def State.atMarker (s : State) (dt : Nat) (lrx : Lrx) (delay : List Delayed) (stu : Stu) : State :=
  { s.advance dt with lrx := lrx, ftu := { s.ftu with delay := delay }, stu := stu }

/-- The input out of LOCKED, whatever closes: the link receiver's run, the statistics, and Gprev. -/
theorem lockLeft_left {s x t : State} (hx : (State.lockLeft s).stopFollowing = x) (h : LinkOnly x t) :
    x.lrx = { s.lrx.closeRecord.emptyRun with input := .acquiring } ∧ x.clock = s.clock ∧ t.stu = x.stu ∧
      t.stu.stats = s.stu.stats ∧ t.stu.globalMean = s.stu.globalMean ∧ t.lvs.gprev = none ∧
      t.lvs.solve = x.lvs.solve ∧ t.ftu = x.ftu ∧ t.ftu.state = .freeRun := by
  have side := linkSide_stopFollowing (State.lockLeft s)
  have state := stopFollowing_state (State.lockLeft s)
  rw [hx] at side state
  simp only [linkSide, Prod.mk.injEq] at side
  obtain ⟨lrx, clock, stats, mean, gprev⟩ := side
  have stu : t.stu = x.stu := (congrArg State.stu h.read :)
  have ftu : t.ftu = x.ftu := (congrArg State.ftu h.read :)
  exact ⟨lrx, clock, stu, by rw [stu]; exact stats, by rw [stu]; exact mean,
    (congrArg (fun u : State => u.lvs.gprev) h.read :).trans gprev, (congrArg (fun u : State => u.lvs.solve) h.read :),
    ftu, by rw [ftu]; exact state⟩

/-- The frame of `s` has closed in `t` with the report `rep`, after the time `dt`, its input in ACQUIRING. -/
def State.closedInto (s t : State) (dt : Nat) (rep : FrameReport) : Prop :=
  t.ftu.phase = .ended ∧ t.ftu.panel = .activeEnd ∧ t.ftu.delay = [] ∧ t.ftu.frameNumber = s.ftu.frameNumber ∧
    t.ftu.freeDue = some (max (s.clock.now + dt) (s.ftu.startedAt + s.mem.active Config.freeRunPeriod)) ∧
    t.cmd.lane = some (.report rep) ∧ rep.frame = s.ftu.frameNumber ∧ rep.stamp = s.ftu.stamp ∧
    rep.input = .acquiring ∧ rep.flags &&& Event.inputStateChanged.bit ≠ 0 ∧
    t.lvs.solve.isSome = s.lvs.solve.isSome ∧ t.mem = s.mem ∧ t.mdc = s.mdc

/-- What a frame that closes as the input leaves LOCKED shows. -/
theorem closedInto_lockLeft (s : State) (dt : Nat) (lrx : Lrx) (delay : List Delayed) (stu : Stu) {u x t : State}
    {rep : FrameReport} (h : FrameClosed (State.lockLeft (State.atMarker s dt lrx delay stu)) u x rep)
    (ht : t = { x with lrx := t.lrx }) (hu : keepsFlags (State.lockLeft (State.atMarker s dt lrx delay stu)) u) :
    State.closedInto s t dt rep := by
  rw [ht]
  refine ⟨h.phase, h.panel, h.delay, h.number, h.due, h.lane, h.repFrame, h.repStamp, h.repInput, ?_, ?_, h.mem, h.mdc⟩
  · rw [h.repFlags]
    exact raised_of_keepsFlags hu
  · show x.lvs.solve.isSome = _
    rw [h.solve]
    exact Option.isSome_map

/-- A frame that closes behind the one line in its delay, as the input leaves LOCKED. -/
theorem lockLeft_one_line (s : State) (dt : Nat) (lrx : Lrx) (stu : Stu) (pixels : List Pixel) (damaged off : Bool)
    (width : Nat) {x t : State}
    (hx : (State.lockLeft (State.atMarker s dt lrx [.line pixels damaged off width] stu)).stopFollowing = x)
    (h : LinkOnly x t) (hf : s.ftu.state = .following) (hp : s.ftu.phase = .blanking ∨ ∃ n, s.ftu.phase = .active n)
    (hq : s.quiet) (hw : s.ftu.turnWaiting = false) (hs : s.rpu.slot = none) (hl : s.cmd.lane = none) :
    ∃ rep out, State.closedInto s t dt rep ∧ t.ftu.lastLine = some out ∧
      (damaged = true → isCopy s.ftu.lastLine width out) ∧
      (damaged = false → off = true ∨ s.mdc.mode ≠ .dimming → out = pixels) ∧
      (s.ftu.phase = .blanking → (∀ grid, stu.grid = some grid → t.pxc.capture.isSome) ∧
        ∀ k : ChainNo, t.chc.latchLines[k] = s.mem.active (32 + k.val)) := by
  generalize hv : State.lockLeft (State.atMarker s dt lrx [.line pixels damaged off width] stu) = v at hx
  obtain ⟨u, w, n, rep, closed, flags, line, last, mdc, begun⟩ :=
    stopFollowing_one_line v pixels damaged off width (by rw [← hv]; exact hf) (by rw [← hv]; exact hp)
      (by rw [← hv]; rfl) (by rw [← hv]; exact hq) (by rw [← hv]; exact hw) (by rw [← hv]; exact hs)
      (by rw [← hv]; exact hl)
  rw [hx] at closed
  subst hv
  have same := h.still (quiet_of_imn closed.imn hq)
  obtain ⟨out, sent, copy, pass⟩ := completed_line w pixels damaged off width _ ⟨n, closed.lastLine.trans line⟩
  rw [last] at copy
  rw [mdc] at pass
  refine ⟨rep, out, closedInto_lockLeft s dt lrx _ stu closed same flags, ?_, copy,
    fun hd ho => pass hd (ho.imp_right .inr), fun hb => ?_⟩
  · rw [same]; exact sent
  · obtain ⟨capture, lines⟩ := begun hb
    rw [same]
    exact ⟨fun grid hg => (congrArg Option.isSome closed.capture).trans (capture grid hg), fun k => by
      dsimp only; rw [closed.latchLines]; exact lines k⟩

/-- A line that comes to the statistics touches the accumulators and the line buffer alone. -/
theorem addLine_kept (s : State) (y : Nat) (pixels : List Pixel) :
    ∃ accumulators lineBuffer, s.addLine y pixels =
      { s with stu := { s.stu with accumulators := accumulators, lineBuffer := lineBuffer } } := by
  obtain ⟨accumulators, lineBuffer, added⟩ :=
    addWaitingLines_kept { s with stu := { s.stu with lineBuffer := s.stu.lineBuffer ++ [(y, pixels)] } }
  exact ⟨accumulators, lineBuffer, added⟩

/-- A line on the marker that truncates a followed frame joins the delay, and the statistics where it has no mark. -/
theorem endLine_following (s : State) (dt : Nat) (pixels : List Pixel) (r : FrameRec) (hf : s.ftu.state = .following)
    (hr : s.lrx.record = some r) (hw : r.width = none ∨ r.width = some pixels.length) :
    ∃ stu, (s.advance dt).endLine pixels =
      State.atMarker s dt (Lrx.withLine s.lrx r pixels.length pixels.length s.lrx.lineDamaged)
        (s.ftu.delay ++ [.line pixels s.lrx.lineDamaged (r.offGeometry || s.lrx.offBy r pixels.length) pixels.length])
        stu ∧ stu.stats = s.stu.stats ∧ stu.globalMean = s.stu.globalMean ∧ stu.grid = s.stu.grid := by
  rw [endLine_right (s.advance dt) pixels r hr hw]
  simp only [State.advance_lrx]
  generalize hoff : (r.offGeometry || s.lrx.offBy r pixels.length) = off
  generalize s.lrx.lineDamaged = damaged
  by_cases hm : (damaged || off) = true
  · rw [handLine_marked]
    · exact ⟨s.stu, rfl, rfl, rfl, rfl⟩
    · exact hf
    · exact hm
  · obtain ⟨rfl, rfl⟩ : damaged = false ∧ off = false := by simpa using hm
    rw [handLine_taken]
    · obtain ⟨accumulators, lineBuffer, added⟩ := addLine_kept _ r.lines pixels
      rw [added]
      exact ⟨_, rfl, rfl, rfl, rfl⟩
    · exact hf

/-- From `s` to `t` the input has gone from LOCKED, at the geometry `g`, to ACQUIRING. -/
def State.leftLock (s t : State) (g : Geometry) : Prop :=
  t.lrx.input = .acquiring ∧ t.lrx.locked = some g ∧ t.lrx.runCount = 0 ∧ t.lrx.candidate = none ∧
    t.stu.stats = s.stu.stats ∧ t.stu.globalMean = s.stu.globalMean ∧ t.lvs.gprev = none ∧ t.ftu.state = .freeRun

/-- A truncating marker that carries a line: the line is the last one of the frame that closes. -/
theorem markerLine_leaves (s : State) (dt : Nat) (r : FrameRec) (g : Geometry) (pixels : List Pixel)
    (hi : s.lrx.input = .locked) (hg : s.lrx.locked = some g) (hr : s.lrx.record = some r) (hq : s.quiet)
    (hf : s.ftu.state = .following) (hturn : s.ftu.turnWaiting = false) (hs : s.rpu.slot = none)
    (hl : s.cmd.lane = none) (hd : s.ftu.delay = []) (hp : s.ftu.phase = .blanking ∨ ∃ n, s.ftu.phase = .active n)
    (hw : r.width = none ∨ r.width = some pixels.length) :
    ∃ t rep out, exec (.frameStartMarker dt (some pixels)) s = .next t ∧ State.leftLock s t g ∧
      State.closedInto s t dt rep ∧ t.lrx.record = some .opened ∧ t.ftu.lastLine = some out ∧
      (s.lrx.lineDamaged = true → isCopy s.ftu.lastLine pixels.length out) ∧
      (s.lrx.lineDamaged = false → r.offGeometry = true ∨ g.height ≤ r.lines ∨ s.mdc.mode ≠ .dimming → out = pixels) ∧
      (s.ftu.phase = .blanking → (∀ grid, s.stu.grid = some grid → t.pxc.capture.isSome) ∧
        ∀ k : ChainNo, t.chc.latchLines[k] = s.mem.active (32 + k.val)) := by
  obtain ⟨stu', ended, stats', mean', grid'⟩ := endLine_following s dt pixels r hf hr hw
  have offs : g.height ≤ r.lines → s.lrx.offBy r pixels.length = true := fun h =>
    (offBy_locked s.lrx r pixels.length g hi hg).2 (.inr h)
  rw [hd, List.nil_append] at ended
  obtain ⟨after, recorded⟩ : ∃ after, (Lrx.withLine s.lrx r pixels.length pixels.length s.lrx.lineDamaged).record =
    some after := ⟨_, rfl⟩
  generalize hm : Lrx.withLine s.lrx r pixels.length pixels.length s.lrx.lineDamaged = m at ended recorded
  generalize hv : State.atMarker s dt m _ stu' = v at ended
  generalize hy : (State.lockLeft v).stopFollowing = y
  have only := linkOnly_reopened y
  obtain ⟨timeout, opens, -⟩ := reopened_lrx y
  have run : exec (.frameStartMarker dt (some pixels)) s = .next (State.reopened y) := by
    show Host.Outcome.next _ = _
    rw [endLast_some, ended, ← hy, marker_leaves v after]
    · rw [← hv, ← hm]; exact hi
    · rw [← hv]; exact recorded
  generalize State.reopened y = t at only opens run
  obtain ⟨lrx, clock, stu, stats, mean, gprev, solve, ftu, state⟩ := lockLeft_left hy only
  rw [lrx, ← hv, ← hm] at opens
  rw [← hv] at stats mean hy
  obtain ⟨rep, out, h', last, copy, pass, begins⟩ :=
    lockLeft_one_line s dt m stu' pixels _ _ _ hy only hf hp hq hturn hs hl
  refine ⟨t, rep, out, run, ⟨by rw [opens]; rfl, by rw [opens]; exact hg, by rw [opens]; rfl, by rw [opens]; rfl,
    stats.trans stats', mean.trans mean', gprev, state⟩, h', by rw [opens]; rfl, last, copy, fun hd ho => ?_, fun hb => ?_⟩
  · rcases ho with off | beyond | mode
    · exact pass hd (.inl (by rw [off]; rfl))
    · exact pass hd (.inl (by rw [offs beyond, Bool.or_true]))
    · exact pass hd (.inr mode)
  · obtain ⟨capture, lines⟩ := begins hb
    exact ⟨fun grid hg => capture grid (grid'.trans hg), lines⟩


/-- Settles O13: the three ways out of LOCKED, each with the close of a followed frame. -/
theorem geometryIsLeft : Obligations.GeometryIsLeft := by
  intro dt s r g hi hg hr hq left discarded closed ready copied begun completed
  generalize hx : (State.lockLeft (s.advance dt)).stopFollowing = x
  have discards (t : State) (h : t.stu = x.stu) : discarded t := fun hf => by
    rw [h, ← hx]
    exact stopFollowing_accumulators (State.lockLeft (s.advance dt)) hf
  have idle (hf : s.ftu.state = .freeRun) : x = State.lockLeft (s.advance dt) := by
    rw [← hx]
    exact stopFollowing_of_freeRun (State.lockLeft (s.advance dt)) hf
  have completes (t : State) (h : LinkOnly x t) : completed t := by
    refine ⟨fun n rd hp => ?_, fun rd hp hd => ?_, fun pixels damaged off width rd hp hd => ?_⟩
    · obtain ⟨hf, hw, hs, hl⟩ := rd
      obtain ⟨u, rep, h', flags, field, empty, -⟩ :=
        stopFollowing_in_active (State.lockLeft (s.advance dt)) n hf hp hq hw hs hl
      rw [hx] at h'
      have same := h.still (quiet_of_imn h'.imn hq)
      refine ⟨⟨rep, closedInto_lockLeft s dt s.lrx s.ftu.delay s.stu h' same (keepsFlags_of_eq flags)⟩, ?_, fun hd => ?_⟩
      · rw [same]; exact h'.field.trans field
      · rw [same]; exact h'.lastLine.trans (empty hd)
    · obtain ⟨hf, hw, hs, hl⟩ := rd
      obtain ⟨rep, h'⟩ := stopFollowing_in_blanking (State.lockLeft (s.advance dt)) hf hp hd hq hw hs hl
      rw [hx] at h'
      have same := h.still (quiet_of_imn h'.imn hq)
      refine ⟨⟨rep, closedInto_lockLeft s dt s.lrx s.ftu.delay s.stu h' same (keepsFlags_refl _)⟩, ?_, ?_⟩
      · rw [same]; exact h'.lastLine
      · rw [same]; exact h'.capture
    · obtain ⟨hf, hw, hs, hl⟩ := rd
      have hx' : (State.lockLeft (State.atMarker s dt s.lrx [.line pixels damaged off width] s.stu)).stopFollowing = x := by
        rw [← hd]
        exact hx
      obtain ⟨rep, out, h', last, copy, pass, begins⟩ :=
        lockLeft_one_line s dt s.lrx s.stu pixels damaged off width hx' h hf hp hq hw hs hl
      exact ⟨⟨rep, h'⟩, ⟨out, last, copy, fun hd ho => pass hd (.inl ho)⟩, begins⟩
  refine ⟨fun out => ?_, ?_, fun pixels rd hd hp hw => ?_⟩
  · obtain ⟨lrx, clock, stu, stats, mean, gprev, solve, ftu, state⟩ := lockLeft_left hx (linkOnly_refl x)
    refine ⟨x, ?_, ⟨by rw [lrx], by rw [lrx]; exact hg, by rw [lrx]; rfl, by rw [lrx]; rfl, stats, mean, gprev, state⟩,
      discards x rfl, by rw [lrx]; rfl, by rw [lrx]; rfl, fun hf => ?_, completes x (linkOnly_refl x)⟩
    · rw [exec_inputActiveEnd, endFrame_leaves (s.advance dt) r g hq hi hg hr out, hx]
    · rw [idle hf]
      exact ⟨rfl, rfl, Option.isSome_map⟩
  · have only := linkOnly_reopened x
    obtain ⟨timeout, opens, clean⟩ := reopened_lrx x
    have run : exec (.frameStartMarker dt none) s = .next (State.reopened x) := by
      rw [← hx]
      exact congrArg _ (marker_leaves (s.advance dt) r hi hr)
    generalize State.reopened x = t at only opens run
    obtain ⟨lrx, clock, stu, stats, mean, gprev, solve, ftu, state⟩ := lockLeft_left hx only
    rw [lrx, clock] at opens
    refine ⟨t, run, ⟨by rw [opens]; rfl, by rw [opens]; exact hg, by rw [opens]; rfl, by rw [opens]; rfl, stats, mean, gprev,
      state⟩, discards t stu, by rw [opens]; rfl, by rw [opens]; rfl, by rw [opens]; rfl, fun hf => ?_, completes t only,
      fun hw => ?_⟩
    · rw [ftu, solve, idle hf]
      exact ⟨rfl, Option.isSome_map⟩
    · obtain ⟨mem, imn⟩ := stopFollowing_memory (State.lockLeft (s.advance dt)) hq hw
      rw [hx] at mem imn
      rw [opens]
      exact (clean (quiet_of_imn imn hq)).trans (by rw [mem]; rfl)
  · obtain ⟨hf, hturn, hs, hl⟩ := rd
    exact markerLine_leaves s dt r g pixels hi hg hr hq hf hturn hs hl hd hp hw

end Sys2Proof.Laws
end

