-- ==== Sys2Proof/Proofs/SoftReset.lean ====
section
/-! PROOF. SOFT_RESET: the units at their values, the dark bursts that start, and the replies. -/

namespace Sys2Proof.Laws

open Sys2Proof.Machine

/-! ## The dark bursts (R37, R135) -/

/-- A chain record behind SOFT_RESET, its arbiter served: a dark burst runs where devices are counted. -/
def ChainRec.darkStarted (c : ChainRec) : ChainRec :=
  { ChainRec.reset with
    count := c.count, overlength := c.overlength
    activity := if 0 < c.count then .darkBurst c.count 0 else .idle
    message := if 0 < c.count then burstMessage c.count (fun _ _ => 0) else [] }

theorem next_softReset (c : ChainRec) :
    c.softReset.next none = if 0 < c.count then some (ChainRec.darkStarted c) else none := by
  unfold ChainRec.darkStarted
  by_cases h : 0 < c.count
  · simp [ChainRec.next, ChainRec.softReset, ChainRec.reset, ChainRec.sending, h]
  · simp [ChainRec.next, ChainRec.softReset, ChainRec.reset, h]

theorem softReset_uncounted (c : ChainRec) (h : ¬ 0 < c.count) : c.softReset = ChainRec.darkStarted c := by
  simp [ChainRec.softReset, ChainRec.darkStarted, ChainRec.reset, h]

/-- The arbiter of a chain behind SOFT_RESET starts the dark burst. -/
theorem arbitrate_softReset (s : State) (k : ChainNo) (c : ChainRec) (hc : s.chc.chains[k] = c.softReset)
    (hp : s.chc.passQueue = []) :
    (s.arbitrate k).chc.chains[k] = ChainRec.darkStarted c ∧ (s.arbitrate k).chc.passQueue = [] := by
  rw [arbitrate_next s k (by rw [hc]; rfl) (by rw [hc]; rfl), hc, hp, List.find?_nil, next_softReset]
  by_cases h : 0 < c.count
  · have burst : (ChainRec.darkStarted c).activity ≠ .passRequest := by simp [ChainRec.darkStarted, h]
    rw [if_pos h]
    dsimp only
    rw [if_neg burst]
    exact ⟨by simp [State.setChain], hp⟩
  · rw [if_neg h]
    exact ⟨hc.trans (softReset_uncounted c h), hp⟩

/-- The arbiters of the chains listed start their dark bursts; the other chains stand as they stood. -/
theorem arbitrate_all_softReset (c : ChainNo → ChainRec) (l : List ChainNo) (s : State) (hn : l.Nodup)
    (hc : ∀ k ∈ l, s.chc.chains[k] = (c k).softReset) (hp : s.chc.passQueue = []) :
    (l.foldl State.arbitrate s).chc.passQueue = [] ∧
      ∀ k, (l.foldl State.arbitrate s).chc.chains[k] =
        if k ∈ l then ChainRec.darkStarted (c k) else s.chc.chains[k] := by
  induction l generalizing s with
  | nil => exact ⟨hp, fun k => rfl⟩
  | cons j l ih =>
    obtain ⟨fresh, hn⟩ := List.nodup_cons.1 hn
    obtain ⟨started, empty⟩ := arbitrate_softReset s j (c j) (hc j List.mem_cons_self) hp
    have apart (k : ChainNo) (hk : k ∈ l) : k ≠ j := fun h => fresh (h ▸ hk)
    obtain ⟨queue, chains⟩ := ih (s.arbitrate j) hn
      (fun k hk => (arbitrate_other s j k (apart k hk)).trans (hc k (List.mem_cons_of_mem j hk))) empty
    refine ⟨queue, fun k => (chains k).trans ?_⟩
    by_cases hj : k = j
    · subst hj
      rw [if_neg fresh, if_pos List.mem_cons_self, started]
    · simp only [List.mem_cons, hj, false_or, arbitrate_other s j k hj]

theorem mem_allChains (k : ChainNo) : k ∈ allChains := by
  revert k
  decide

theorem blankChains_arbitrate_all (l : List ChainNo) (s : State) :
    blankChains (l.foldl State.arbitrate s) = blankChains s :=
  foldl_keeps blankChains _ blankChains_arbitrate l s

/-! ## The replies (R36) -/

/-- The ABORTED reply to an owed one. -/
def abortedReply (tag : Byte) (o : Owed) : Reply := ⟨tag, o.seq, o.code, .aborted, .none, true, []⟩

/-- Replies of one kind filled one behind the other, with a clean DEVICE_TAG. -/
theorem abort_owed (owed : List Owed) (s : State) (h : s.cleanSetting Config.deviceTag) :
    owed.foldl (fun s o => s.fill o.seq o.code .aborted .none true []) s =
      { s with cmd := { s.cmd with filled := s.cmd.filled ++ owed.map (abortedReply s.tag) } } := by
  induction owed generalizing s with
  | nil => simp
  | cons o owed ih =>
    rw [List.foldl_cons, fill_of_clean s h, ih]
    · simp [abortedReply, State.tag]
    · exact h

/-- The replies of SOFT_RESET, behind what was filled. -/
theorem resetReplies_eq (s : State) (p : Packet) (owed : List Owed) (h : s.cleanSetting Config.deviceTag) :
    s.resetReplies p owed =
      { s with cmd := { s.cmd with
        filled := s.cmd.filled ++ ((if p.broadcast then [] else [replyTo s p .ok []]) ++
          owed.map (abortedReply s.tag)) } } := by
  unfold State.resetReplies State.answer
  cases hb : p.broadcast with
  | true =>
    rw [if_pos rfl, abort_owed owed s h]
    rfl
  | false =>
    rw [if_neg Bool.false_ne_true, fill_of_clean s h, abort_owed]
    · simp [replyTo, State.tag, Answer.ok]
    · exact h

/-- The lane and the command unit, with no packet in the queue and no report in the slot. -/
theorem pump_resting (s : State) (hf : s.cmd.inFlight = none) (hq : s.cmd.queue = []) (hs : s.rpu.slot = none) :
    s.pump = { s with cmd := s.pump.cmd } ∧ s.pump.cmd.queue = [] ∧ s.pump.cmd.inFlight = none := by
  have slot : s.pump.rpu.slot = none := by
    unfold State.pump
    rw [State.takeNext_rpu]
    unfold State.sendNext
    split
    · exact hs
    · rw [hs]
      dsimp only
      split
      · exact hs
      · exact hs
  refine ⟨?_, ?_⟩
  · have kept := pump_eq s
    rw [slot, ← hs] at kept
    exact kept
  · rcases pump_cases s hf with ⟨flight, queue⟩ | ⟨q, -, taken⟩
    · exact ⟨queue.trans hq, flight⟩
    · exact absurd (hq.symm.trans taken) nofun

/-- The replies on their way, one of them on the lane and the others filled. -/
theorem outgoing_filled (lane : Option LanePacket) (filled : List Reply) (c : Cmd) (h : c.lane = lane) :
    ({ Cmd.reset with lane := lane, filled := filled } : Cmd).outgoing =
      ({ c with filled := [] } : Cmd).outgoing ++ filled := by
  rw [← h]
  simp [Cmd.outgoing]

/-! ## The units -/

/-- The part with its command unit emptied for SOFT_RESET, and every other unit at its value (R36, R37). -/
def State.resetFor (s : State) : State := State.resetUnits { s with cmd := { Cmd.reset with lane := s.cmd.lane } }

/-- Two words that hold no upset before SOFT_RESET make DEVICE_TAG clean behind it. -/
theorem resetFor_clean (s : State) (h60 : sparseGet (fun _ => none) s.imn.upsets (wordKey 1 60) = none)
    (h61 : sparseGet (fun _ => none) s.imn.upsets (wordKey 1 61) = none) :
    (State.resetFor s).cleanSetting Config.deviceTag := by
  have clean (a : Nat) (h : sparseGet (fun _ => none) s.imn.upsets a = none) : (State.resetFor s).verdict a = none := by
    show sparseGet (fun _ => none) (sparseClear (isZoneWord [4, 5, 6, 7]) s.imn.upsets) a = none
    rw [sparseGet_clear, h, ite_self]
  exact ⟨clean _ h60, clean _ h61⟩

/-- SOFT_RESET, with DEVICE_TAG clean behind it. -/
theorem softReset_eq (s : State) (p : Packet) (h : (State.resetFor s).cleanSetting Config.deviceTag) :
    ∃ chains cmd, s.softReset p =
      { State.resetFor s with chc := { s.chc.softReset with chains := chains, passQueue := [] }, cmd := cmd } ∧
      (∀ k : ChainNo, chains[k] = ChainRec.darkStarted s.chc.chains[k]) ∧ cmd.queue = [] ∧ cmd.inFlight = none ∧
      cmd.owed = [] ∧ cmd.outgoing = ({ s.cmd with filled := [] } : Cmd).outgoing ++
        ((if p.broadcast then [] else [replyTo (State.resetFor s) p .ok []]) ++
          s.cmd.owed.map (abortedReply (State.resetFor s).tag)) := by
  have kept := eq_of_blankChains (blankChains_arbitrate_all allChains (State.resetFor s))
  obtain ⟨empty, chains⟩ := arbitrate_all_softReset (fun k => s.chc.chains[k]) allChains (State.resetFor s)
    (by decide) (fun k _ => by simp [State.resetFor, State.resetUnits, Chc.softReset]) rfl
  show ∃ chains cmd, ((allChains.foldl State.arbitrate (State.resetFor s)).resetReplies p s.cmd.owed).pump = _ ∧ _
  generalize allChains.foldl State.arbitrate (State.resetFor s) = b at kept empty chains
  rw [empty] at kept
  have clean : b.cleanSetting Config.deviceTag := by rw [kept]; exact h
  have replies := resetReplies_eq b p s.cmd.owed clean
  generalize b.resetReplies p s.cmd.owed = v at replies ⊢
  generalize b.chc.chains = cs at kept chains
  subst kept
  obtain ⟨pumped, queue, flight⟩ := pump_resting v (by rw [replies]; rfl) (by rw [replies]; rfl) (by rw [replies]; rfl)
  refine ⟨cs, v.pump.cmd, ?_, fun k => ?_, queue, flight, ?_, ?_⟩
  · rw [pumped, replies]
    rfl
  · rw [chains k, if_pos (mem_allChains k)]
  · rw [pump_owed, replies]
    rfl
  · rw [pump_outgoing, replies]
    exact outgoing_filled s.cmd.lane _ s.cmd rfl

/-- SOFT_RESET leaves every word outside ZONE_STATE. -/
theorem resetFor_word_kept (s : State) (a : Nat) (h : keyMemory a ≠ 8) :
    (State.resetFor s).mem.word a = s.mem.word a := by
  show sparseGet unlistedWord (sparseClear (isZoneWord [4, 5, 6, 7]) s.mem) a = _
  rw [sparseGet_clear, if_neg (by simp [isZoneWord, h])]
  rfl

/-- SOFT_RESET sets the solver's words of every zone to 0. -/
theorem resetFor_zone_word (s : State) (z j : Nat) (hz : z < Config.zones) (hj : j ∈ [4, 5, 6, 7]) :
    (State.resetFor s).mem.word (wordKey 8 (8 * z + j)) = 0 := by
  have index : 8 * z + j < 32768 := by
    unfold Config.zones at hz
    simp only [List.mem_cons, List.not_mem_nil, or_false] at hj
    omega
  have place : (8 * z + j) % 8 = j := by
    simp only [List.mem_cons, List.not_mem_nil, or_false] at hj
    omega
  have zone : isZoneWord [4, 5, 6, 7] (wordKey 8 (8 * z + j)) = true := by
    rw [isZoneWord, keyMemory_wordKey _ _ index, keyIndex_wordKey _ _ index, place]
    simpa using hj
  show sparseGet unlistedWord (sparseClear (isZoneWord [4, 5, 6, 7]) s.mem) (wordKey 8 (8 * z + j)) = 0
  rw [sparseGet_clear, if_pos zone, unlistedWord, keyMemory_wordKey _ _ index]
  rfl

/-- SOFT_RESET keeps the state of every device, and nothing else of its record. -/
theorem device_softReset (c : Chc) (key : Nat) (h : key < 192) :
    c.softReset.device key = ⟨(c.device key).state, 0, 0, 0, false⟩ := by
  have := sparseGet_tabulate (fun _ => DeviceRec.reset) 0 192 (fun i => (c.device i).softReset) key
  rw [if_pos ⟨Nat.zero_le key, by rw [Nat.zero_add]; exact h⟩] at this
  exact this

/-- Any item on the panel link but an active line stands at SOFT_RESET. -/
theorem cutOff_other (item : PanelItem) (sent : Nat) (h : ∀ pixels, item ≠ .line pixels) : item.cutOff sent = item := by
  cases item with
  | line pixels => exact absurd rfl (h pixels)
  | nothing | frameStart | blanking | lineCut | activeEnd => rfl

/-- Attention against the snapshot of a reset, where only faults, silent devices and the log can differ from it (R171). -/
theorem attention_resetFor (t : State) (hi : t.lrx.input = .noSignal) (hm : t.mdc.mode = .standby)
    (ht : t.sns.thermal = Vector.replicate 8 .normal) (hf : t.sns.foldback = false)
    (hs : t.rpu.snapshot = ⟨.noSignal, .standby, Vector.replicate 8 .normal, false, 0, 0, 0⟩) :
    t.attention = true ↔ t.chc.setLatches ≠ 0 ∨ t.chc.silentDevices ≠ 0 ∨ t.imn.log ≠ [] := by
  simp only [State.attention, State.watched, hs, hi, hm, ht, hf, ne_eq, Watched.mk.injEq, true_and,
    List.length_eq_zero_iff, decide_eq_true_eq]
  tauto

/-- Settles O3: the reset values of every unit, what is kept, and the replies. -/
theorem softResetStopsAndKeeps : Obligations.SoftResetStopsAndKeeps := by
  intro dt s p flying hcode hpay h60 h61
  have run : exec (.softReset dt) s = .next ((s.advance dt).softReset p) := by
    have hfly : (s.advance dt).flying Config.codeSoftReset = some p := by
      have : (s.advance dt).cmd.inFlight = some ⟨p, p.reserves⟩ := flying
      rw [State.flying, this]
      exact if_pos hcode
    show execSoftReset dt s = _
    simp only [execSoftReset, hfly, hpay, List.isEmpty_nil, if_true]
  obtain ⟨chains, cmd, reset, started, queue, flight, owed, replies⟩ :=
    softReset_eq (s.advance dt) p (resetFor_clean (s.advance dt) h60 h61)
  rw [reset] at run
  have word := resetFor_word_kept (s.advance dt)
  have zone := resetFor_zone_word (s.advance dt)
  refine ⟨_, run, rfl, rfl, rfl, ⟨rfl, rfl, rfl, rfl, rfl, rfl, rfl⟩, ⟨rfl, rfl, rfl, rfl, rfl, rfl, rfl, rfl, rfl⟩,
    fun pixels hp => ?_, fun hp => ?_, ⟨rfl, rfl, rfl⟩, ⟨rfl, rfl, fun _ => rfl, fun _ => rfl, rfl⟩,
    ⟨rfl, rfl, rfl, rfl, rfl, rfl, rfl, rfl, fun _ => rfl⟩,
    ⟨rfl, rfl, rfl, fun k => ?_, fun _ => ⟨rfl, rfl, rfl⟩⟩, ⟨rfl, rfl, rfl⟩, word,
    fun z hz => ⟨zone z 4 hz (by decide), zone z 5 hz (by decide), zone z 6 hz (by decide), zone z 7 hz (by decide)⟩,
    ⟨rfl, rfl, rfl, rfl⟩, ⟨rfl, rfl, device_softReset s.chc, fun _ => ⟨rfl, rfl⟩, started⟩,
    ⟨rfl, rfl, rfl, rfl, fun k => ?_⟩, ⟨rfl, rfl, rfl, rfl, rfl, rfl, rfl, rfl, ?_⟩, queue, flight, owed,
    replies.trans (List.append_assoc _ _ _).symm⟩
  · show s.ftu.panel.cutOff _ = _
    rw [hp]
    rfl
  · show s.ftu.panel.cutOff _ = _
    exact cutOff_other _ _ hp
  · simp [State.resetFor, State.resetUnits, Pxc.reset]
  · simp [State.resetFor, State.resetUnits, Sns.reset]
  · exact attention_resetFor _ rfl rfl rfl rfl rfl

end Sys2Proof.Laws
end

