-- ==== Sys2Proof/Proofs/CommandLoad.lean ====
section
/-! PROOF. What the command unit's bounds speak of, and the operations that leave all of it alone. -/

namespace Sys2Proof.Laws

open Sys2Proof.Machine

/-- What the bounds of the command unit speak of: the unit, how many pass-through entries wait, the converter. -/
def loadOf (s : State) : Cmd × Nat × Converter := (s.cmd, s.chc.passQueue.length, s.sns.converter)

/-- The other units of a state written out have no part in it. -/
theorem loadOf_mk (pending : List Instr) (draws : Nat) (clock : Clock) (mem : Memory) (lrx : Lrx) (ftu : Ftu)
    (cmd : Cmd) (tbs : Tbs) (stu : Stu) (lvs : Lvs) (pxc : Pxc) (chc : Chc) (sns : Sns) (mdc : Mdc) (rpu : Rpu) (imn : Imn) :
    loadOf ⟨pending, draws, clock, mem, lrx, ftu, cmd, tbs, stu, lvs, pxc, chc, sns, mdc, rpu, imn⟩ =
      (cmd, chc.passQueue.length, sns.converter) := rfl

theorem loadOf_raise (s : State) (e : Event) : loadOf (s.raise e) = loadOf s := rfl

/-! ## Reads through the integrity monitor -/

theorem loadOf_of_blankRead {s t : State} (h : blankRead t = blankRead s) : loadOf t = loadOf s :=
  (congrArg loadOf h :)

@[simp] theorem loadOf_readWord (s : State) (a : Nat) : loadOf (s.readWord a) = loadOf s :=
  loadOf_of_blankRead (blankRead_readWord s a)

@[simp] theorem loadOf_readRange (s : State) (lo n : Nat) : loadOf (s.readRange lo n) = loadOf s :=
  loadOf_of_blankRead (blankRead_readRange s lo n)

@[simp] theorem loadOf_readSetting (s : State) (i : Nat) : loadOf (s.readSetting i) = loadOf s :=
  loadOf_of_blankRead (blankRead_readSetting s i)

@[simp] theorem loadOf_readSettings (s : State) (is : List Nat) : loadOf (s.readSettings is) = loadOf s :=
  loadOf_of_blankRead (blankRead_readSettings s is)

theorem loadOf_readOverwritten (s : State) (t : Nat) : loadOf (s.readOverwritten t) = loadOf s :=
  foldl_keeps loadOf _ (fun s _ => loadOf_readWord s _) _ s

theorem loadOf_readWhilePending (s : State) (lo n : Nat) : loadOf (s.readWhilePending lo n) = loadOf s := by
  refine foldl_keeps loadOf _ (fun s i => ?_) _ s
  split
  · exact loadOf_readWord s _
  · rfl

theorem loadOf_readTables (s : State) : loadOf s.readTables = loadOf s :=
  foldl_keeps loadOf _ (fun s _ => loadOf_readRange s _ _) _ s

theorem loadOf_readFilters (s : State) : loadOf s.readFilters = loadOf s :=
  foldl_keeps loadOf _ (fun s _ => loadOf_readWord s _) _ s

/-! ## The chains -/

theorem loadOf_setChain (s : State) (k : ChainNo) (c : ChainRec) : loadOf (s.setChain k c) = loadOf s := rfl

theorem length_startPass (k : ChainNo) (q : List PassEntry) : (startPass k q).length = q.length := by
  induction q with
  | nil => rfl
  | cons e q ih =>
    unfold startPass
    split
    · rfl
    · rw [List.length_cons, List.length_cons, ih]

/-- The arbiter marks an entry of the pass-through queue and takes none out. -/
@[simp] theorem loadOf_arbitrate (s : State) (k : ChainNo) : loadOf (s.arbitrate k) = loadOf s := by
  unfold State.arbitrate
  dsimp only
  split
  · split
    · rfl
    · split
      · split
        · simp only [loadOf, length_startPass, State.setChain]
        · rfl
      · rfl
  · rfl

theorem loadOf_freeChain (s : State) (k : ChainNo) : loadOf (s.freeChain k) = loadOf s :=
  (loadOf_arbitrate _ k).trans (loadOf_setChain s k _)

theorem loadOf_latchFallsDue (s : State) (k : ChainNo) : loadOf (s.latchFallsDue k) = loadOf s := by
  unfold State.latchFallsDue
  dsimp only
  split
  · exact (loadOf_arbitrate _ k).trans (loadOf_setChain s k _)
  · rfl

@[simp] theorem loadOf_latchesFallDue (s : State) : loadOf s.latchesFallDue = loadOf s :=
  foldl_keeps loadOf _ loadOf_latchFallsDue _ s

theorem loadOf_latchesOfLine (s : State) (n : Nat) : loadOf (s.latchesOfLine n) = loadOf s :=
  foldl_keeps loadOf _ loadOf_latchFallsDue _ s

theorem loadOf_handOff (s : State) (set : LevelSet) : loadOf (s.handOff set) = loadOf s :=
  foldl_keeps loadOf _ (fun s k => (loadOf_arbitrate _ k).trans (loadOf_setChain s k _)) _ s

theorem loadOf_standbyChains (s : State) : loadOf s.standbyChains = loadOf s :=
  foldl_keeps loadOf _ (fun s k => (loadOf_arbitrate _ k).trans (loadOf_setChain s k _)) _ s

theorem loadOf_updateHeld (s : State) (k : ChainNo) : loadOf (s.updateHeld k) = loadOf s := by
  unfold State.updateHeld
  dsimp only
  split
  · rfl
  · rfl

theorem loadOf_confirmChannel (s : State) (zones : List BurstZone) (key device channel : Nat) :
    loadOf (s.confirmChannel zones key device channel) = loadOf s := by
  unfold State.confirmChannel
  dsimp only
  split
  · split
    · rw [loadOf_raise, loadOf_mk]
      rfl
    · rfl
  · rfl

theorem loadOf_goodStatus (s : State) (k : ChainNo) (zones : List BurstZone) (i : Nat) (st : Status) :
    loadOf (s.goodStatus k zones i st) = loadOf s := by
  unfold State.goodStatus
  dsimp only
  rw [loadOf_updateHeld, foldl_keeps loadOf _ (fun s c => loadOf_confirmChannel s zones _ i c), loadOf_mk]
  rfl

theorem loadOf_missedSlot (s : State) (k : ChainNo) (i : Nat) : loadOf (s.missedSlot k i) = loadOf s := by
  unfold State.missedSlot
  dsimp only
  split
  · rfl
  · rfl

theorem loadOf_readback (s : State) (k : ChainNo) (zones : List BurstZone) (i : Nat) (bytes : List Byte) :
    loadOf (s.readback k zones i bytes) = loadOf s := by
  unfold State.readback
  dsimp only
  split
  · exact (loadOf_goodStatus _ k zones i _).trans (loadOf_readSettings s _)
  · exact (loadOf_missedSlot _ k i).trans (loadOf_readSettings s _)

theorem loadOf_endSweep (s : State) (k : ChainNo) (count : Nat) (overlength : Bool) :
    loadOf (s.endSweep k count overlength) = loadOf s := by
  unfold State.endSweep
  dsimp only
  rw [loadOf_arbitrate]
  exact loadOf_updateHeld _ k

/-! ## The frame turn (R17) -/

theorem loadOf_validateStaging (s : State) (mask : BitVec 4) : loadOf (s.validateStaging mask).1 = loadOf s := by
  unfold State.validateStaging
  split
  · dsimp only
    exact loadOf_readRange s _ _
  · rfl

theorem loadOf_copyTable (s : State) (t : Nat) : loadOf (s.copyTable t) = loadOf s := by
  have read := (loadOf_readOverwritten _ t).trans
    (loadOf_readRange s (wordKey (bankMemory t 0) 0) (Config.memoryWords (bankMemory t 0)))
  unfold State.copyTable
  dsimp only
  generalize State.readOverwritten _ t = u at read ⊢
  exact read

theorem loadOf_applyMarks (s : State) : loadOf s.applyMarks = loadOf s := by
  unfold State.applyMarks
  dsimp only
  split
  · rfl
  · split
    · exact (foldl_keeps loadOf _ loadOf_copyTable _ _).trans (loadOf_validateStaging s _)
    · exact loadOf_validateStaging s _

theorem loadOf_changeMode (s : State) (target : Mode) : loadOf (s.changeMode target) = loadOf s := by
  unfold State.changeMode
  dsimp only
  split
  · rfl
  · split
    · exact loadOf_standbyChains _
    · rfl

theorem loadOf_handleRequest (s : State) : loadOf s.handleRequest = loadOf s := by
  unfold State.handleRequest
  split
  · rfl
  · next target _ =>
    have reads : loadOf (if target.validated then s.readForMode else s) = loadOf s := by
      split
      · exact (loadOf_readWhilePending _ _ _).trans (loadOf_readWhilePending s _ _)
      · rfl
    dsimp only
    generalize (if target.validated then s.readForMode else s) = u at reads ⊢
    split
    · exact reads
    · split
      · exact (loadOf_changeMode _ _).trans reads
      · exact reads

theorem loadOf_addWaitingLines (s : State) : loadOf s.addWaitingLines = loadOf s := by
  obtain ⟨accumulators, lineBuffer, added⟩ := addWaitingLines_kept s
  rw [added]
  rfl

theorem loadOf_layGrid (s : State) : loadOf s.layGrid = loadOf s := by
  unfold State.layGrid
  dsimp only
  rw [loadOf_addWaitingLines, loadOf_mk]
  exact loadOf_readSettings s _

theorem loadOf_maskRead (s : State) : loadOf (State.maskRead s) = loadOf s := by
  have read := loadOf_readSetting s Config.notifyMask
  unfold State.maskRead
  dsimp only
  generalize s.readSetting _ = u at read ⊢
  rw [loadOf_mk]
  exact read

@[simp] theorem loadOf_frameTurn (s : State) : loadOf s.frameTurn = loadOf s := by
  rw [frameTurn_eq, loadOf_maskRead, loadOf_layGrid, loadOf_handleRequest, loadOf_applyMarks]
  rfl

theorem loadOf_abandonLate (s : State) : loadOf s.abandonLate = loadOf s := by
  unfold State.abandonLate
  split
  · rfl
  · rfl

@[simp] theorem loadOf_forceTurn (s : State) : loadOf s.forceTurn = loadOf s := by
  unfold State.forceTurn
  split
  · rw [loadOf_frameTurn, loadOf_abandonLate]
  · rfl

theorem loadOf_turnOrWait (s : State) : loadOf s.turnOrWait = loadOf s := by
  unfold State.turnOrWait
  split
  · rfl
  · exact loadOf_frameTurn s

/-! ## Solves -/

theorem loadOf_startSolve (s : State) (trigger : Trigger) : loadOf (s.startSolve trigger) = loadOf s := by
  unfold State.startSolve
  split
  · rfl
  · have tables := loadOf_readTables s
    dsimp only
    generalize s.readTables = u at tables ⊢
    have filters := (loadOf_readFilters u).trans tables
    generalize u.readFilters = w at filters ⊢
    split
    · rw [loadOf_mk]
      exact filters
    · exact tables

theorem loadOf_finishSolve (s : State) (v : Solve) : loadOf (s.finishSolve v) = loadOf s := by
  have zones (l : List Nat) (f : Nat → ZoneLevel) (u : State) (w : Solve) :
      loadOf (l.foldl (fun s z => s.writeZone w (f z) z) u) = loadOf u :=
    foldl_keeps loadOf (fun s z => s.writeZone w (f z) z) (fun _ _ => rfl) l u
  have written := zones (v.withMarks s.lvs.reseed).processed ((v.withMarks s.lvs.reseed).levelSet s.chc).zone
    (s.zeroZoneWords [4, 6, 7]) (v.withMarks s.lvs.reseed)
  unfold State.finishSolve
  dsimp only
  generalize List.foldl _ _ _ = u at written ⊢
  split
  · rw [loadOf_raise, loadOf_mk]
    exact written
  · rw [loadOf_mk]
    exact written

theorem loadOf_completeStatistics (s : State) : loadOf s.completeStatistics = loadOf s := by
  unfold State.completeStatistics
  split
  · rfl
  · dsimp only
    split
    · rfl
    · rfl

/-! ## The lines of an output frame -/

theorem loadOf_captureFrame (s : State) : loadOf s.captureFrame = loadOf s := by
  obtain ⟨t, capture, captured, read, -⟩ := captureFrame_kept s
  rw [captured]
  exact (loadOf_of_blankRead read :)

theorem loadOf_readLatchLines (s : State) : loadOf s.readLatchLines = loadOf s := by
  have read := loadOf_readSettings s (allChains.map (fun k => Config.latchLine k.val))
  unfold State.readLatchLines
  dsimp only
  generalize s.readSettings _ = u at read ⊢
  exact read

theorem loadOf_lineBegun (s : State) : loadOf (State.lineBegun s) = loadOf s := by
  unfold State.lineBegun
  dsimp only
  obtain ⟨flags, counters, burstLate, late, -⟩ := reportLate_kept s s.settlements
  rw [late]
  obtain ⟨shown, display, -⟩ := setDisplay_kept { s with rpu := { s.rpu with
    flags := flags, counters := counters, burstLate := burstLate } } s.settlements
  rw [display]
  obtain ⟨lit, light, -⟩ := lightFrame_kept { s with
    pxc := shown, rpu := { s.rpu with flags := flags, counters := counters, burstLate := burstLate } }
  rw [light]
  exact loadOf_latchesOfLine _ 0

theorem loadOf_firstLine (s : State) : loadOf s.firstLine = loadOf s := by
  rw [firstLine_eq, loadOf_lineBegun, loadOf_readLatchLines, loadOf_captureFrame, loadOf_latchesFallDue,
    loadOf_forceTurn]

theorem loadOf_sendLine (s : State) (n : Nat) (pixels : List Pixel) (damaged off : Bool) (width : Nat) :
    loadOf (s.sendLine n pixels damaged off width) = loadOf s := by
  rw [sendLine_eq]
  exact loadOf_latchesOfLine _ n

theorem loadOf_flushLines (l : List Delayed) (s : State) : loadOf (s.flushLines l) = loadOf s := by
  induction l generalizing s with
  | nil => rfl
  | cons e rest ih =>
    match e with
    | .start | .activeEnd => rfl
    | .line pixels damaged off width =>
      unfold State.flushLines
      split
      · rw [ih, loadOf_sendLine]
      · rw [ih, loadOf_sendLine, loadOf_firstLine]
      · rfl
      · rfl

theorem loadOf_startFollowing (s : State) : loadOf s.startFollowing = loadOf s := by
  cases hp : s.ftu.phase.isOver with
  | true => rw [startFollowing_over s hp]; rfl
  | false =>
    rw [startFollowing_cuts s hp]
    have turned := (loadOf_forceTurn (State.linesDropped s).latchesFallDue).trans (loadOf_latchesFallDue _)
    generalize State.forceTurn _ = u at turned ⊢
    exact turned

/-! ## The input link -/

theorem loadOf_changeInput (s : State) (new : InputState) : loadOf (s.changeInput new) = loadOf s := by
  unfold State.changeInput
  dsimp only
  split
  · rfl
  · rfl

theorem loadOf_handLine (s : State) (y : Nat) (pixels : List Pixel) (damaged off : Bool) (width : Nat) :
    loadOf (s.handLine y pixels damaged off width) = loadOf s := by
  unfold State.handLine
  split
  · rfl
  · dsimp only
    split
    · rfl
    · exact loadOf_addWaitingLines _

theorem loadOf_acquire (s : State) (r : FrameRec) (good : Bool) : loadOf (s.acquire r good) = loadOf s := by
  unfold State.acquire
  dsimp only
  split
  · exact loadOf_changeInput _ _
  · rfl

theorem loadOf_statisticsEnd (s : State) : loadOf s.statisticsEnd = loadOf s := by
  unfold State.statisticsEnd
  split
  · rfl
  · exact (loadOf_startSolve _ _).trans (loadOf_completeStatistics _)

theorem loadOf_measure (s : State) : loadOf s.measure = loadOf s := by
  unfold State.measure
  split
  · exact loadOf_changeInput _ _
  · rfl
  · rfl

theorem loadOf_openFrame (s : State) : loadOf s.openFrame = loadOf s := loadOf_readSetting s _

theorem loadOf_markerToFtu (s : State) : loadOf s.markerToFtu = loadOf s := by
  unfold State.markerToFtu
  split
  · exact loadOf_startFollowing s
  · rfl
  · rfl
  · rfl

theorem loadOf_offer (s : State) (line : Nat) (errored : Bool) (bytes : List Byte) :
    loadOf (s.offer line errored bytes) = loadOf s := by
  rw [offer_eq]
  rfl

/-! ## Conversions and reports -/

/-- A result is stored and handed on; the converter goes on where its own event says. -/
theorem loadOf_convert (s : State) (i raw : Nat) : loadOf (s.convert i raw) = loadOf s := by
  have thermistor (u : State) (k : ChainNo) (r : Nat) : loadOf (u.handThermistor k r) = loadOf u := by
    unfold State.handThermistor
    split
    · rfl
    · rfl
  unfold State.convert
  dsimp only
  split
  · exact (thermistor _ _ _).trans (loadOf_readSettings s _)
  · exact loadOf_readSettings s _

theorem loadOf_fillSlot (s : State) (r : FrameReport) : loadOf (s.fillSlot r) = loadOf s := by
  rw [fillSlot_eq]
  rfl

end Sys2Proof.Laws
end

