-- ==== Sys2Proof/Proofs/ReplyReservations.lean ====
section
/-! PROOF. The bounds of the command unit: its queue, its reply entries, its owed replies and their owners. -/

namespace Sys2Proof.Laws

open Sys2Proof.Machine

/-! ## The owed replies of a unit (R30) -/

/-- How many replies a unit owes. -/
def owedBy (owner : OwingUnit) (owed : List Owed) : Nat := (owed.filter (fun o => o.owner == owner)).length

theorem owedBy_cons (owner : OwingUnit) (o : Owed) (owed : List Owed) :
    owedBy owner (o :: owed) = owedBy owner owed + if o.owner = owner then 1 else 0 := by
  by_cases h : o.owner = owner <;> simp [owedBy, h]

theorem owedBy_append (owner : OwingUnit) (a b : List Owed) :
    owedBy owner (a ++ b) = owedBy owner a + owedBy owner b := by
  simp [owedBy]

/-- Of the owed replies one is taken out, and it is the owner's. -/
theorem owedBy_removeOwed (owner : OwingUnit) (n : Nat) (owed : List Owed) (h : n < owedBy owner owed) :
    (removeOwed owner n owed).length + 1 = owed.length ∧
      owedBy owner (removeOwed owner n owed) + 1 = owedBy owner owed ∧
      ∀ other ≠ owner, owedBy other (removeOwed owner n owed) = owedBy other owed := by
  induction owed generalizing n with
  | nil => exact absurd h (Nat.not_lt_zero n)
  | cons o rest ih =>
    rw [owedBy_cons] at h
    unfold removeOwed
    by_cases ho : o.owner = owner
    · rw [if_pos ho] at h
      rw [if_pos ho, owedBy_cons, if_pos ho]
      cases n with
      | zero =>
        refine ⟨rfl, rfl, fun other hne => ?_⟩
        rw [owedBy_cons, if_neg (fun e => hne (e.symm.trans ho)), Nat.add_zero]
      | succ n =>
        obtain ⟨length, own, others⟩ := ih n (Nat.lt_of_succ_lt_succ h)
        refine ⟨by rw [List.length_cons, length, List.length_cons], ?_, fun other hne => ?_⟩
        · rw [owedBy_cons, if_pos ho, own]
        · rw [owedBy_cons, owedBy_cons, others other hne]
    · rw [if_neg ho] at h
      obtain ⟨length, own, others⟩ := ih n h
      rw [if_neg ho]
      refine ⟨by rw [List.length_cons, length, List.length_cons], ?_, fun other hne => ?_⟩
      · rw [owedBy_cons, owedBy_cons, if_neg ho]
        exact own
      · rw [owedBy_cons, owedBy_cons, others other hne]

/-! ## The bounds with some entries reserved (R25, R29, R132) -/

/-- How many manual conversions run. -/
def manualRuns : Converter → Nat
  | .manual _ _ => 1
  | .idle | .scanning _ _ => 0

/-- How many entries the command in flight reserves. -/
def reservedFor (flight : Option InFlight) : Nat := (flight.map InFlight.reserved).getD 0

/-- The command unit's bounds with `n` reply entries reserved, `passes` pass-through entries and this converter. -/
structure Bounds (n : Nat) (c : Cmd) (passes : Nat) (converter : Converter) : Prop where
  queue   : c.queue.length ≤ 16
  entries : c.filled.length + c.owed.length + n ≤ 8
  chains  : owedBy .chains c.owed = passes
  passes  : passes ≤ 4
  sense   : owedBy .sense c.owed = manualRuns converter

/-- The bounds of a state. -/
def State.bounded (s : State) (n : Nat) : Prop := Bounds n s.cmd s.chc.passQueue.length s.sns.converter

/-- The invariant is the bounds under the reservations of the command in flight, which are its packet's. -/
theorem commandInv_iff (s : State) :
    s.commandInv ↔ State.bounded s (reservedFor s.cmd.inFlight) ∧
      ∀ f, s.cmd.inFlight = some f → f.reserved = f.packet.reserves :=
  ⟨fun ⟨queue, entries, flight, chains, passes, sense⟩ => ⟨⟨queue, entries, chains, passes, sense⟩, flight⟩,
    fun ⟨⟨queue, entries, chains, passes, sense⟩, flight⟩ => ⟨queue, entries, flight, chains, passes, sense⟩⟩

/-- The bounds stand with fewer reservations. -/
theorem bounded_of_le {s : State} {n m : Nat} (h : State.bounded s n) (hle : m ≤ n) : State.bounded s m :=
  { h with entries := by have := h.entries; omega }

theorem bounded_of_load {s t : State} (h : loadOf t = loadOf s) {n : Nat} (hs : State.bounded s n) :
    State.bounded t n := by
  obtain ⟨hc, hp, hv⟩ : t.cmd = s.cmd ∧ t.chc.passQueue.length = s.chc.passQueue.length ∧
      t.sns.converter = s.sns.converter := by simpa only [loadOf, Prod.mk.injEq] using h
  unfold State.bounded
  rw [hc, hp, hv]
  exact hs

/-- What keeps the bounds, whatever is reserved, and the command in flight, keeps the invariant. -/
theorem commandInv_of_flight {s t : State} (hs : s.commandInv) (hf : t.cmd.inFlight = s.cmd.inFlight)
    (h : ∀ n, State.bounded s n → State.bounded t n) : t.commandInv := by
  rw [commandInv_iff] at hs ⊢
  rw [hf]
  exact ⟨h _ hs.1, hs.2⟩

/-- What leaves the load alone keeps the invariant. -/
theorem commandInv_of_load {s t : State} (h : loadOf t = loadOf s) (hs : s.commandInv) : t.commandInv :=
  commandInv_of_flight hs (congrArg (fun l => l.1.inFlight) h :) fun _ => bounded_of_load h

/-- With nothing in flight the invariant is the bounds alone. -/
theorem commandInv_of_bounded {s : State} (h : State.bounded s 0) (hf : s.cmd.inFlight = none) : s.commandInv := by
  rw [commandInv_iff, hf]
  exact ⟨h, nofun⟩

/-- The bounds of a state that keeps the invariant, whatever is in flight. -/
theorem bounded_of_commandInv {s : State} (h : s.commandInv) : State.bounded s 0 :=
  bounded_of_le ((commandInv_iff s).1 h).1 (Nat.zero_le _)

/-- The reservations of the command in flight. -/
theorem bounded_of_executing {s : State} {p : Packet} (h : s.commandInv) (hp : s.executing p) :
    State.bounded s p.reserves := by
  have bounds := ((commandInv_iff s).1 h).1
  rw [show s.cmd.inFlight = some ⟨p, p.reserves⟩ from hp] at bounds
  exact bounds

/-! ## The lane and the queue (R26, R32) -/

/-- The lane takes a filled reply out, or nothing. -/
theorem bounded_sendNext {s : State} {n : Nat} (h : State.bounded s n) : State.bounded s.sendNext n := by
  have shorter : s.sendNext.cmd.filled.length ≤ s.cmd.filled.length := by
    unfold State.sendNext
    split
    · rfl
    · split
      · rfl
      · split
        · next hf => simp [hf]
        · rfl
  have entries := h.entries
  refine ⟨?_, ?_, ?_, ?_, ?_⟩
  · rw [sendNext_queue]; exact h.queue
  · rw [sendNext_owed]; omega
  · rw [sendNext_owed, State.sendNext_chc]; exact h.chains
  · rw [State.sendNext_chc]; exact h.passes
  · rw [sendNext_owed, State.sendNext_sns]; exact h.sense

theorem commandInv_sendNext {s : State} (h : s.commandInv) : s.sendNext.commandInv :=
  commandInv_of_flight h (sendNext_inFlight s) fun _ => bounded_sendNext

/-- A packet is taken only where its entries are free. -/
theorem commandInv_takeNext {s : State} (h : s.commandInv) : s.takeNext.commandInv := by
  unfold State.takeNext
  split
  · next p rest hf hq =>
    split
    · next room =>
      obtain ⟨queue, entries, chains, passes, sense⟩ := bounded_of_commandInv h
      have room' : p.reserves ≤ 8 - (s.cmd.filled.length + s.cmd.owed.length) := by
        simpa [Cmd.free, hf, Config.replyEntries] using room
      have taken : rest.length ≤ 16 := by rw [hq, List.length_cons] at queue; omega
      have fits : s.cmd.filled.length + s.cmd.owed.length + p.reserves ≤ 8 := by omega
      rw [commandInv_iff]
      exact ⟨⟨taken, fits, chains, passes, sense⟩, by rintro f ⟨⟩; rfl⟩
    · exact h
  · exact h

theorem commandInv_pump {s : State} (h : s.commandInv) : s.pump.commandInv :=
  commandInv_takeNext (commandInv_sendNext h)

/-! ## Replies that are filled and delivered (R29, R30) -/

/-- A reserved entry is filled. -/
theorem bounded_fill {s : State} {n : Nat} (h : State.bounded s (n + 1)) (seq code : Byte) (r : Result) (why : Reason)
    (final : Bool) (data : List Word) : State.bounded (s.fill seq code r why final data) n := by
  obtain ⟨queue, entries, chains, passes, sense⟩ :=
    bounded_of_load (loadOf_readSetting s Config.deviceTag) h
  unfold State.fill
  dsimp only
  generalize s.readSetting _ = u at queue entries chains passes sense ⊢
  refine ⟨queue, ?_, chains, passes, sense⟩
  show (u.cmd.filled ++ [_]).length + u.cmd.owed.length + n ≤ 8
  rw [List.length_append, List.length_singleton]
  omega

@[simp] theorem fill_inFlight (s : State) (seq code : Byte) (r : Result) (why : Reason) (final : Bool)
    (data : List Word) : (s.fill seq code r why final data).cmd.inFlight = s.cmd.inFlight := by
  simp [State.fill]

theorem fill_queue (s : State) (seq code : Byte) (r : Result) (why : Reason) (final : Bool) (data : List Word) :
    (s.fill seq code r why final data).cmd.queue = s.cmd.queue := by
  simp [State.fill]

theorem fill_filled_length (s : State) (seq code : Byte) (r : Result) (why : Reason) (final : Bool)
    (data : List Word) : (s.fill seq code r why final data).cmd.filled.length = s.cmd.filled.length + 1 := by
  simp [State.fill]

/-- A unit that owes nothing at this place delivers nothing. -/
theorem deliver_none (s : State) (owner : OwingUnit) (n : Nat) (r : Result) (data : List Word)
    (h : owedBy owner s.cmd.owed ≤ n) : s.deliver owner n r data = s := by
  unfold State.deliver
  split
  · next o ho =>
    rw [List.getElem?_eq_none h] at ho
    cases ho
  · rfl

/-- A delivery moves one entry from the owed replies of its unit to the filled ones. -/
theorem deliver_moves (s : State) (owner : OwingUnit) (n : Nat) (r : Result) (data : List Word)
    (h : n < owedBy owner s.cmd.owed) :
    (s.deliver owner n r data).cmd.queue = s.cmd.queue ∧ (s.deliver owner n r data).cmd.inFlight = s.cmd.inFlight ∧
      (s.deliver owner n r data).cmd.filled.length = s.cmd.filled.length + 1 ∧
      (s.deliver owner n r data).cmd.owed = removeOwed owner n s.cmd.owed := by
  unfold State.deliver
  split
  · refine ⟨fill_queue _ _ _ _ _ _ _, fill_inFlight _ _ _ _ _ _ _, fill_filled_length _ _ _ _ _ _ _,
      fill_owed _ _ _ _ _ _ _⟩
  · next hn =>
    rw [List.getElem?_eq_none_iff] at hn
    exact absurd h (Nat.not_lt.2 hn)

/-- The converter's reply is delivered as its manual conversion is over. -/
theorem bounds_deliver_sense {s : State} {n passes i since : Nat} {converter : Converter}
    (h : Bounds n s.cmd passes (.manual i since)) (hc : manualRuns converter = 0) (r : Result) (data : List Word) :
    Bounds n (s.deliver .sense 0 r data).cmd passes converter := by
  obtain ⟨queue, entries, chains, passed, sense⟩ := h
  have owes : 0 < owedBy .sense s.cmd.owed := by rw [sense]; exact Nat.one_pos
  obtain ⟨queue', -, filled, owed⟩ := deliver_moves s .sense 0 r data owes
  obtain ⟨length, own, others⟩ := owedBy_removeOwed .sense 0 s.cmd.owed owes
  refine ⟨by rw [queue']; exact queue, ?_, ?_, passed, ?_⟩
  · rw [filled, owed]; omega
  · rw [owed, others .chains nofun]; exact chains
  · have one : owedBy .sense s.cmd.owed = 1 := sense
    rw [owed, hc]; omega

/-- An outcome of the chains is delivered as its entry leaves the pass-through queue. -/
theorem bounds_deliver_chains {s : State} {n passes : Nat} {converter : Converter}
    (h : Bounds n s.cmd passes converter) (place : Nat) (hp : place < passes) (r : Result) (data : List Word) :
    Bounds n (s.deliver .chains place r data).cmd (passes - 1) converter := by
  obtain ⟨queue, entries, chains, passed, sense⟩ := h
  have owes : place < owedBy .chains s.cmd.owed := by rw [chains]; exact hp
  obtain ⟨queue', -, filled, owed⟩ := deliver_moves s .chains place r data owes
  obtain ⟨length, own, others⟩ := owedBy_removeOwed .chains place s.cmd.owed owes
  refine ⟨by rw [queue']; exact queue, ?_, ?_, by omega, ?_⟩
  · rw [filled, owed]; omega
  · rw [owed]; omega
  · rw [owed, others .sense nofun]; exact sense

@[simp] theorem deliver_inFlight (s : State) (owner : OwingUnit) (n : Nat) (r : Result) (data : List Word) :
    (s.deliver owner n r data).cmd.inFlight = s.cmd.inFlight := by
  by_cases h : n < owedBy owner s.cmd.owed
  · exact (deliver_moves s owner n r data h).2.1
  · rw [deliver_none s owner n r data (Nat.le_of_not_lt h)]

/-! ## The end of a command (R26, R29, R31) -/

/-- How many reply entries the end of a command fills. -/
def fillsFor (p : Packet) (a : Option Answer) : Nat := if p.broadcast then 0 else if a.isSome then 1 else 0

/-- A command reserves the entries that its end fills. -/
theorem fillsFor_le_reserves (p : Packet) (a : Option Answer) : fillsFor p a ≤ p.reserves := by
  unfold fillsFor Packet.reserves
  split
  · exact Nat.zero_le _
  · split <;> split <;> omega

theorem bounded_answer {s : State} {n : Nat} (p : Packet) (a : Answer)
    (h : State.bounded s (n + fillsFor p (some a))) : State.bounded (s.answer p a) n := by
  unfold State.answer
  split
  · exact bounded_of_le h (Nat.le_add_right _ _)
  · next hb =>
    rw [fillsFor, if_neg hb] at h
    exact bounded_fill h _ _ _ _ _ _

theorem answer_inFlight (s : State) (p : Packet) (a : Answer) : (s.answer p a).cmd.inFlight = s.cmd.inFlight := by
  unfold State.answer
  split
  · rfl
  · exact fill_inFlight _ _ _ _ _ _ _

/-- A command ends with the entries of its reply reserved. -/
theorem commandInv_finish {s : State} (p : Packet) (a : Option Answer) (h : State.bounded s (fillsFor p a)) :
    (s.finish p a).commandInv := by
  have free : State.bounded s.release (fillsFor p a) := ⟨h.queue, h.entries, h.chains, h.passes, h.sense⟩
  cases a with
  | none => exact commandInv_pump (commandInv_of_bounded (bounded_of_le free (Nat.zero_le _)) rfl)
  | some a =>
    refine commandInv_pump (commandInv_of_bounded (bounded_answer p a (by rwa [Nat.zero_add])) ?_)
    rw [answer_inFlight]
    rfl

/-- A packet that is found in flight executes with its own reservations. -/
theorem executing_of_flying {s : State} {code : Byte} {p : Packet} (h : s.commandInv) (hp : s.flying code = some p) :
    s.executing p ∧ p.code = code := by
  unfold State.flying at hp
  split at hp
  · next f hf =>
    split at hp
    · next hc =>
      cases hp
      refine ⟨?_, hc⟩
      have own := ((commandInv_iff s).1 h).2 f hf
      unfold State.executing
      rw [hf, ← own]
    · cases hp
  · cases hp

/-- A command row keeps the invariant where its body leaves the entries that its end fills. -/
theorem commandInv_execute {s : State} (h : s.commandInv) (code : Byte) (silent : Bool) (accepts : Nat → Bool)
    (body : Packet → State → State × Option Answer)
    (hb : ∀ p, s.executing p → p.code = code → (silent && p.broadcast) = false →
      State.bounded (body p s).1 (fillsFor p (body p s).2)) :
    (s.execute code silent accepts body).commandInv := by
  cases hf : s.flying code with
  | none =>
    unfold State.execute
    rw [hf]
    exact h
  | some p =>
    obtain ⟨flying, hc⟩ := executing_of_flying h hf
    have ends (a : Option Answer) : (s.finish p a).commandInv :=
      commandInv_finish p a (bounded_of_le (bounded_of_executing h flying) (fillsFor_le_reserves p a))
    rw [execute_runs s p code silent accepts body flying hc]
    split
    · exact ends none
    · next hs =>
      split
      · exact commandInv_finish p _ (hb p flying hc (by simpa using hs))
      · exact ends _

/-- A command row whose body leaves the load alone keeps the invariant. -/
theorem commandInv_execute_of_load {s : State} (h : s.commandInv) (code : Byte) (silent : Bool) (accepts : Nat → Bool)
    (body : Packet → State → State × Option Answer) (hb : ∀ p, loadOf (body p s).1 = loadOf s) :
    (s.execute code silent accepts body).commandInv :=
  commandInv_execute h code silent accepts body fun p flying _ _ =>
    bounded_of_load (hb p) (bounded_of_le (bounded_of_executing h flying) (fillsFor_le_reserves p _))

end Sys2Proof.Laws
end

