-- ==== Sys2Proof/Proofs/ReservationSteps.lean ====
section
/-! PROOF. Every command of the block keeps the command unit's bounds. -/

namespace Sys2Proof.Laws

open Sys2Proof.Machine

/-- The state that a command gives, if it gives one, keeps the invariant. -/
def NextBounded (o : Host.Outcome State Fault Refusal) : Prop := ∀ t, o = .next t → t.commandInv

theorem nextBounded {t : State} (h : t.commandInv) : NextBounded (.next t) := by
  rintro _ ⟨⟩
  exact h

/-! ## Output frames -/

/-- A scan that starts on an idle converter is no manual conversion. -/
theorem commandInv_scanDecision {s : State} (h : s.commandInv) : s.scanDecision.commandInv := by
  unfold State.scanDecision
  split
  · exact h
  · split
    · next idle =>
      refine commandInv_of_flight h rfl fun n ⟨queue, entries, chains, passes, sense⟩ => ?_
      rw [idle] at sense
      exact ⟨queue, entries, chains, passes, sense⟩
    · exact h
    · exact h

theorem commandInv_scanAndTurn {s : State} (h : s.commandInv) (scanFirst : Bool) :
    (s.scanAndTurn scanFirst).commandInv := by
  unfold State.scanAndTurn
  split
  · exact commandInv_of_load (loadOf_turnOrWait _) (commandInv_scanDecision h)
  · exact commandInv_scanDecision (commandInv_of_load (loadOf_turnOrWait s) h)

theorem commandInv_readSetting {s : State} (h : s.commandInv) (i : Nat) : (s.readSetting i).commandInv :=
  commandInv_of_load (loadOf_readSetting s i) h

theorem commandInv_startFreeRun {s : State} (h : s.commandInv) (scanFirst : Bool) :
    (s.startFreeRun scanFirst).commandInv := by
  have read := commandInv_readSetting
    (s := s.numberFrame true (s.lrx.locked.getD ⟨Config.defaultWidth, Config.defaultHeight⟩)) h Config.freeRunPeriod
  unfold State.startFreeRun
  dsimp only
  generalize State.readSetting _ _ = u at read ⊢
  refine commandInv_scanAndTurn ?_ scanFirst
  exact read

theorem commandInv_queueReport {s : State} (h : s.commandInv) : s.queueReport.commandInv := by
  have read := commandInv_readSetting h Config.deviceTag
  unfold State.queueReport
  dsimp only
  generalize s.readSetting _ = u at read ⊢
  exact commandInv_pump (commandInv_of_load (s := u.startInterval) (loadOf_fillSlot _ _) read)

theorem commandInv_sendActiveEnd {s : State} (h : s.commandInv) : s.sendActiveEnd.commandInv := by
  have due : (State.activeEndSent s).latchesFallDue.commandInv :=
    commandInv_of_load (loadOf_latchesFallDue (State.activeEndSent s)) h
  have handed : (State.activeEndSent s).latchesFallDue.handClips.commandInv := by
    generalize (State.activeEndSent s).latchesFallDue = u at due ⊢
    exact due
  exact commandInv_queueReport handed

theorem commandInv_closeFrame {s : State} (h : s.commandInv) : s.closeFrame.commandInv := by
  unfold State.closeFrame
  split
  · exact h
  · exact commandInv_sendActiveEnd (commandInv_of_load (loadOf_forceTurn s) h)

theorem commandInv_outputClosed {s : State} (h : s.commandInv) : (State.outputClosed s).commandInv := by
  have closed := commandInv_readSetting
    (commandInv_closeFrame (s := { s with ftu := { s.ftu with delay := [], forward := [] } }) h) Config.freeRunPeriod
  unfold State.outputClosed
  dsimp only
  generalize State.readSetting _ _ = u at closed ⊢
  exact closed

theorem commandInv_stopFollowing {s : State} (h : s.commandInv) : s.stopFollowing.commandInv := by
  cases hf : s.ftu.state with
  | freeRun => rw [stopFollowing_of_freeRun s hf]; exact h
  | following =>
    rw [stopFollowing_eq s hf]
    exact commandInv_outputClosed (commandInv_of_load (loadOf_flushLines s.ftu.delay (State.linesDropped s)) h)

/-! ## The input link -/

theorem commandInv_loseSignal {s : State} (h : s.commandInv) : s.loseSignal.commandInv :=
  commandInv_stopFollowing (commandInv_of_load
    (s := { s with lrx := { s.lrx.closeRecord.emptyRun with period := 0 } }) (loadOf_changeInput _ _) h)

theorem commandInv_linkError {s : State} (h : s.commandInv) : s.linkError.commandInv := by
  cases hr : s.lrx.record with
  | none => rw [linkError_no_record s hr]; exact h
  | some r =>
    have read := commandInv_readSetting
      (s := { s.countCharError with lrx := { s.lrx with record := some (FrameRec.withError r) } }) h
      Config.losErrorLimit
    rw [linkError_record s r hr]
    dsimp only
    split
    · exact commandInv_loseSignal read
    · exact read

theorem commandInv_endLine {s : State} (h : s.commandInv) (pixels : List Pixel) : (s.endLine pixels).commandInv := by
  unfold State.endLine
  split
  · exact h
  · next r _ =>
    have handed (lrx : Lrx) (damaged off : Bool) (width : Nat) :
        (({ s with lrx := lrx } : State).handLine r.lines pixels damaged off width).commandInv :=
      commandInv_of_load (loadOf_handLine { s with lrx := lrx } _ _ _ _ _) h
    dsimp only
    split
    · exact commandInv_linkError (handed _ _ _ _)
    · exact handed _ _ _ _

theorem commandInv_endLast {s : State} (h : s.commandInv) (last : Option (List Pixel)) :
    (s.endLast last).commandInv := by
  cases last with
  | none => exact h
  | some pixels => exact commandInv_endLine h pixels

theorem commandInv_leaveLock {s : State} (h : s.commandInv) : s.leaveLock.commandInv :=
  commandInv_stopFollowing (commandInv_of_load (s := { s with lrx := s.lrx.emptyRun }) (loadOf_changeInput _ _) h)

theorem commandInv_endFrame {s : State} (h : s.commandInv) : s.endFrame.commandInv := by
  unfold State.endFrame
  split
  · exact h
  · next r _ =>
    have read : (s.readSettings s.lrx.judgedBy).commandInv := commandInv_of_load (loadOf_readSettings s _) h
    dsimp only
    generalize s.readSettings _ = u at read ⊢
    have judged : ({ u with lrx := u.lrx.closeRecord } : State).commandInv := read
    split
    · exact judged
    · exact commandInv_of_load (loadOf_acquire _ _ _) judged
    · split
      · exact commandInv_leaveLock judged
      · exact commandInv_of_load (loadOf_statisticsEnd _) judged

theorem commandInv_truncate {s : State} (h : s.commandInv) : s.truncate.commandInv := by
  unfold State.truncate
  split
  · exact h
  · dsimp only
    split
    · exact commandInv_leaveLock (s := { s with lrx := s.lrx.closeRecord }) h
    · exact h
    · exact h

theorem commandInv_marker {s : State} (h : s.commandInv) : s.measure.openFrame.markerToFtu.commandInv :=
  commandInv_of_load ((loadOf_markerToFtu _).trans ((loadOf_openFrame _).trans (loadOf_measure s))) h

/-! ## Side packets (R25) -/

/-- A good packet joins a queue of fewer than 16. -/
theorem commandInv_arrive {s : State} (h : s.commandInv) (errored : Bool) (bytes : List Byte) :
    (s.arrive errored bytes).commandInv := by
  unfold State.arrive
  split
  · split
    · next room =>
      refine commandInv_takeNext (commandInv_of_flight h rfl fun n ⟨_, entries, chains, passes, sense⟩ =>
        ⟨?_, entries, chains, passes, sense⟩)
      rw [List.length_append, List.length_singleton]
      exact room
    · exact h
  · exact h

theorem commandInv_route {s : State} (h : s.commandInv) (line : Nat) (errored : Bool) (bytes : List Byte) :
    (s.route line errored bytes).commandInv := by
  have arrived : (if bytes.getD 0 0 = s.tag ∨ bytes.getD 0 0 = Config.broadcastTag then s.arrive errored bytes
      else s).commandInv := by
    split
    · exact commandInv_arrive h errored bytes
    · exact h
  unfold State.route
  dsimp only
  split
  · exact arrived
  · exact commandInv_of_load (loadOf_offer _ line errored bytes) arrived

theorem commandInv_takePacket {s : State} (h : s.commandInv) (line : Nat) (errored : Bool) (bytes : List Byte) :
    (s.takePacket line errored bytes).commandInv := by
  have read := commandInv_readSetting h Config.deviceTag
  unfold State.takePacket
  dsimp only
  generalize s.readSetting _ = u at read ⊢
  split
  · split
    · split
      · exact commandInv_linkError (commandInv_route read _ _ _)
      · exact commandInv_route read _ _ _
    · exact commandInv_linkError read
  · exact commandInv_linkError read

/-! ## Pass-through and the converter (R134, R138, R141) -/

/-- An exchange that ends delivers the outcome at its place and takes its entry out; with no entry it does neither. -/
theorem commandInv_endExchange {s : State} (h : s.commandInv) (k : ChainNo) (r : Result) (data : List Word) :
    (s.endExchange k r data).commandInv := by
  generalize hu : (({ s.deliver .chains (s.chc.exchange k) r data with
    chc := { s.chc with passQueue := s.chc.passQueue.eraseIdx (s.chc.exchange k) } } : State)) = u
  have ended : s.endExchange k r data =
      ((u.setChain k { u.chc.chains[k] with awaiting := none }).arbitrate k).pump := by
    rw [← hu]
    unfold State.endExchange
    dsimp only
    rw [State.deliver_chc]
  have delivered : u.commandInv := by
    rw [← hu]
    refine commandInv_of_flight h (deliver_inFlight _ _ _ _ _) fun n bounds => ?_
    show Bounds n (s.deliver .chains (s.chc.exchange k) r data).cmd
      (s.chc.passQueue.eraseIdx (s.chc.exchange k)).length
      (s.deliver .chains (s.chc.exchange k) r data).sns.converter
    rw [State.deliver_sns]
    by_cases hp : s.chc.exchange k < s.chc.passQueue.length
    · rw [List.length_eraseIdx_of_lt hp]
      exact bounds_deliver_chains bounds (s.chc.exchange k) hp r data
    · rw [deliver_none _ _ _ _ _ (by rw [bounds.chains]; exact Nat.le_of_not_lt hp),
        List.eraseIdx_of_length_le (Nat.le_of_not_lt hp)]
      exact bounds
  rw [ended]
  exact commandInv_pump (commandInv_of_load (s := u) ((loadOf_arbitrate _ k).trans (loadOf_setChain _ _ _)) delivered)

/-- With the converter idle again, the reply that a manual conversion owes is delivered. -/
theorem commandInv_converted {s : State} (h : s.commandInv) (i since : Nat) (hm : s.sns.converter = .manual i since)
    (r : Result) (data : List Word) :
    (({ s with sns := { s.sns with converter := .idle } } : State).deliver .sense 0 r data).commandInv := by
  refine commandInv_of_flight h (deliver_inFlight _ _ _ _ _) fun n bounds => ?_
  have owing : Bounds n s.cmd s.chc.passQueue.length (.manual i since) := hm ▸ bounds
  unfold State.bounded
  rw [State.deliver_chc, State.deliver_sns]
  exact bounds_deliver_sense (s := { s with sns := { s.sns with converter := .idle } }) owing rfl r data

/-- A converter that runs no manual conversion may go on to another input, or to idle. -/
theorem commandInv_scanned {s : State} (h : s.commandInv) (converter : Converter)
    (hs : manualRuns s.sns.converter = 0) (hc : manualRuns converter = 0) :
    ({ s with sns := { s.sns with converter := converter } } : State).commandInv :=
  commandInv_of_flight h rfl fun _ ⟨queue, entries, chains, passes, sense⟩ =>
    ⟨queue, entries, chains, passes, (sense.trans hs).trans hc.symm⟩

theorem commandInv_stopConverter {s : State} (h : s.commandInv) : s.stopConverter.commandInv := by
  unfold State.stopConverter
  dsimp only
  split
  · next i since hm => exact commandInv_converted h i since hm _ _
  · next hm => exact commandInv_scanned h .idle (by rw [hm]; rfl) rfl
  · next hm => exact commandInv_scanned h .idle (by rw [hm]; rfl) rfl

@[simp] theorem stopConverter_inFlight (s : State) : s.stopConverter.cmd.inFlight = s.cmd.inFlight := by
  unfold State.stopConverter
  dsimp only
  split
  · exact deliver_inFlight _ _ _ _ _
  · rfl
  · rfl

/-- A scan owes no reply, a manual conversion delivers the one it owes. -/
theorem bounded_conversionEnd {s : State} (h : s.commandInv) (dt : Nat) (raw : BitVec 10) :
    NextBounded (execConversionEnd dt raw s) := by
  have stored (i since : Nat) :
      loadOf (((s.advance dt).advanceTo (since + Config.conversionTime)).convert i raw.toNat) = loadOf s :=
    loadOf_convert _ _ _
  have same {u : State} (load : loadOf u = loadOf s) : u.sns.converter = s.sns.converter :=
    congrArg (fun l => l.2.2) load
  unfold execConversionEnd
  refine nextBounded ?_
  dsimp only
  split
  · exact h
  · next i since hm =>
    specialize stored i since
    generalize State.convert _ _ _ = u at stored ⊢
    exact commandInv_scanned (commandInv_of_load stored h) _
      (by rw [same stored, show s.sns.converter = _ from hm]; rfl) (by split <;> rfl)
  · next i since hm =>
    specialize stored i since
    generalize State.convert _ _ _ = u at stored ⊢
    exact commandInv_pump (commandInv_converted (commandInv_of_load stored h) i since ((same stored).trans hm) _ _)

/-! ## Commands that owe a reply, and SOFT_RESET (R29, R36, R132, R141) -/

/-- DRIVER_PASS reserves two entries: the owed outcome takes one, its reply the other. -/
theorem commandInv_driverPass {s : State} (h : s.commandInv) :
    (s.execute Config.codeDriverPass true (exactly 7) driverPass).commandInv := by
  refine commandInv_execute h _ _ _ _ fun p flying hc hb => ?_
  have bounds := bounded_of_executing h flying
  have two : p.reserves = 2 := by
    unfold Packet.reserves
    rw [if_neg (by simpa using hb), if_pos hc]
  have refused (r : Result) : State.bounded (refusal s r).1 (fillsFor p (refusal s r).2) :=
    bounded_of_le bounds (fillsFor_le_reserves p _)
  unfold driverPass
  split
  · dsimp only
    split
    · exact refused _
    · split
      · exact refused _
      · next room =>
        obtain ⟨queue, entries, chains, passes, sense⟩ := bounds
        have fills : fillsFor p (some ⟨.ok, .none, false, []⟩) ≤ 1 := by unfold fillsFor; split <;> decide
        have free : s.chc.passQueue.length < 4 := Nat.not_le.1 room
        refine bounded_of_load (loadOf_arbitrate _ _) ⟨queue, ?_, ?_, ?_, ?_⟩ <;> dsimp only
        · rw [List.length_append, List.length_singleton]; omega
        · rw [owedBy_append, List.length_append, List.length_singleton, chains]; rfl
        · rw [List.length_append, List.length_singleton]; exact free
        · rw [owedBy_append, sense]; rfl
  · exact refused _

/-- SENSE_START reserves one entry, which its owed reply takes. -/
theorem commandInv_senseStart {s : State} (h : s.commandInv) :
    (s.execute Config.codeSenseStart true (exactly 1) senseStart).commandInv := by
  refine commandInv_execute h _ _ _ _ fun p flying hc hb => ?_
  have bounds := bounded_of_executing h flying
  have one : p.reserves = 1 := by
    unfold Packet.reserves
    rw [if_neg (by simpa using hb), if_neg (by rw [hc]; decide)]
  have refused (r : Result) : State.bounded (refusal s r).1 (fillsFor p (refusal s r).2) :=
    bounded_of_le bounds (fillsFor_le_reserves p _)
  unfold senseStart
  split
  · exact refused _
  · split
    · next idle =>
      obtain ⟨queue, entries, chains, passes, sense⟩ := bounds
      refine ⟨queue, ?_, ?_, passes, ?_⟩ <;> dsimp only
      · rw [List.length_append, List.length_singleton, fillsFor, Option.isSome_none, if_neg Bool.false_ne_true,
          ite_self]
        omega
      · rw [owedBy_append, chains]; rfl
      · rw [owedBy_append, sense, idle]; rfl
    · exact refused _
    · exact refused _

/-- SENSE_ABORT delivers the owed reply ahead of its own. -/
theorem commandInv_senseAbort {s : State} (h : s.commandInv) :
    (s.execute Config.codeSenseAbort false (exactly 0) senseAbort).commandInv := by
  refine commandInv_execute h _ _ _ _ fun p flying _ _ => ?_
  refine bounded_of_le (bounded_of_executing (commandInv_stopConverter h) ?_) (fillsFor_le_reserves p _)
  exact (stopConverter_inFlight s).trans flying

theorem bounded_abortOwed (owed : List Owed) {s : State} (h : State.bounded s owed.length) :
    State.bounded (owed.foldl (fun s o => s.fill o.seq o.code .aborted .none true []) s) 0 := by
  induction owed generalizing s with
  | nil => exact h
  | cons o owed ih => exact ih (bounded_fill h _ _ _ _ _ _)

theorem abortOwed_inFlight (owed : List Owed) (s : State) :
    (owed.foldl (fun s o => s.fill o.seq o.code .aborted .none true []) s).cmd.inFlight = s.cmd.inFlight :=
  foldl_keeps (fun s => s.cmd.inFlight) _ (fun s _ => fill_inFlight s _ _ _ _ _ _) owed s

/-- SOFT_RESET clears the unit but the lane, the pass-through queue and the converter. -/
theorem loadOf_resetFor (s : State) :
    loadOf (State.resetFor s) = ({ Cmd.reset with lane := s.cmd.lane }, 0, .idle) := rfl

theorem softReset_shape (s : State) (p : Packet) :
    s.softReset p = ((allChains.foldl State.arbitrate (State.resetFor s)).resetReplies p s.cmd.owed).pump := by
  unfold State.softReset State.resetFor
  with_reducible rfl

/-- The replies of SOFT_RESET are its own and those that were owed: the entries are reserved for them. -/
theorem commandInv_softReset {s : State} (h : s.commandInv) (p : Packet) (hp : s.executing p) :
    (s.softReset p).commandInv := by
  have entries := (bounded_of_executing h hp).entries
  have reserves := fillsFor_le_reserves p (some (.ok []))
  rw [softReset_shape]
  have load : loadOf (allChains.foldl State.arbitrate (State.resetFor s)) = _ :=
    (foldl_keeps loadOf _ loadOf_arbitrate _ _).trans (loadOf_resetFor s)
  generalize allChains.foldl State.arbitrate _ = u at load ⊢
  obtain ⟨hc, hq, hv⟩ : u.cmd = { Cmd.reset with lane := s.cmd.lane } ∧ u.chc.passQueue.length = 0 ∧
      u.sns.converter = .idle := by simpa only [loadOf, Prod.mk.injEq] using load
  have fits : State.bounded u (s.cmd.owed.length + fillsFor p (some (.ok []))) := by
    unfold State.bounded
    rw [hc, hq, hv]
    refine ⟨Nat.zero_le _, ?_, rfl, Nat.zero_le _, rfl⟩
    show 0 + 0 + (s.cmd.owed.length + fillsFor p (some (.ok []))) ≤ 8
    omega
  have landed : (u.resetReplies p s.cmd.owed).cmd.inFlight = none := by
    unfold State.resetReplies
    rw [abortOwed_inFlight, answer_inFlight, hc]
    rfl
  exact commandInv_pump (commandInv_of_bounded (bounded_abortOwed _ (bounded_answer p _ fits)) landed)

/-! ## Bodies that leave the load alone -/

/-- A check of a command's own refuses and changes nothing, or lets the rest of the body run. -/
theorem loadOf_guard {s : State} {r : Result} (c : Prop) [Decidable c] {rest : State × Option Answer}
    (h : loadOf rest.1 = loadOf s) : loadOf (if c then refusal s r else rest).1 = loadOf s := by
  split
  · rfl
  · exact h

theorem loadOf_storeEntries (s : State) (t e : Nat) (entries : List (List Word)) :
    loadOf (s.storeEntries t e entries) = loadOf s := by
  have words (u : State) (m i : Nat) (ws : List Word) : loadOf (u.writeWords m i ws) = loadOf u := by
    induction ws generalizing u i with
    | nil => rfl
    | cons w ws ih => exact ih (u.writeWord (wordKey m i) w) (i + 1)
  induction entries generalizing s e with
  | nil => rfl
  | cons ws rest ih => exact (ih _ _).trans (words s _ _ _)

theorem loadOf_writeTable (s : State) (p : Packet) : loadOf (writeTable p s).1 = loadOf s := by
  unfold writeTable
  dsimp only
  exact loadOf_guard _ (loadOf_guard _ (loadOf_guard _ (loadOf_guard _ (loadOf_guard _
    (loadOf_storeEntries s _ _ _)))))

theorem loadOf_readTable (s : State) (p : Packet) : loadOf (readTable p s).1 = loadOf s := by
  have reads (t b start count : Nat) : loadOf (s.readEntries t b start count) = loadOf s := by
    unfold State.readEntries
    split
    · exact loadOf_readRange s _ _
    · rfl
  unfold readTable
  dsimp only
  exact loadOf_guard _ (loadOf_guard _ (loadOf_guard _ (loadOf_guard _ (reads _ _ _ _))))

theorem loadOf_commitTables (s : State) (p : Packet) : loadOf (commitTables p s).1 = loadOf s := by
  have read := loadOf_validateStaging s (BitVec.ofNat 4 (p.arg 0))
  unfold commitTables
  dsimp only
  split
  · rfl
  · generalize State.validateStaging s _ = u at read ⊢
    split
    · exact read
    · exact read

theorem loadOf_setMode (s : State) (p : Packet) : loadOf (setMode p s).1 = loadOf s := by
  unfold setMode
  split
  · rfl
  · exact loadOf_guard _ (loadOf_guard _ rfl)

theorem loadOf_clearFaults (s : State) (p : Packet) : loadOf (clearFaults p s).1 = loadOf s := by
  have range (first last : Nat) : loadOf (clearFaultRange first last s).1 = loadOf s := by
    have read := loadOf_readRange s (wordKey 3 (2 * first)) (2 * (last + 1 - first))
    unfold clearFaultRange
    dsimp only
    generalize s.readRange _ _ = u at read ⊢
    exact read
  unfold clearFaults
  split
  · rfl
  · split
    · exact range _ _
    · rfl

theorem loadOf_enumerateChain (s : State) (p : Packet) : loadOf (enumerateChain p s).1 = loadOf s := by
  unfold enumerateChain
  split
  · exact loadOf_guard _ (loadOf_guard _ ((loadOf_arbitrate _ _).trans (loadOf_setChain _ _ _)))
  · rfl

theorem loadOf_injectError (s : State) (p : Packet) : loadOf (injectError p s).1 = loadOf s := by
  unfold injectError
  refine loadOf_guard _ (loadOf_guard _ ?_)
  split
  · rfl
  · rfl

/-! ## Every command -/

/-- The commands of the chains that take no outcome out of the pass-through queue leave the load alone. -/
theorem bounded_readbackSlot {s : State} (h : s.commandInv) (dt : Nat) (k : ChainNo) (bytes : List Byte) :
    NextBounded (execReadbackSlot dt k bytes s) := by
  refine nextBounded (commandInv_of_load (s := s) ?_ h)
  dsimp only
  split
  · split
    · exact (loadOf_setChain _ _ _).trans (loadOf_readback _ _ _ _ _)
    · rfl
  · split
    · exact (loadOf_setChain _ _ _).trans (loadOf_readback _ _ _ _ _)
    · rfl
  all_goals rfl

theorem bounded_burstDone {s : State} (h : s.commandInv) (dt : Nat) (k : ChainNo) :
    NextBounded (execBurstDone dt k s) := by
  refine nextBounded (commandInv_of_load (s := s) ?_ h)
  dsimp only
  split
  · split
    · exact loadOf_freeChain _ _
    · rfl
  all_goals rfl

theorem bounded_darkBurstDone {s : State} (h : s.commandInv) (dt : Nat) (k : ChainNo) :
    NextBounded (execDarkBurstDone dt k s) := by
  refine nextBounded (commandInv_of_load (s := s) ?_ h)
  split
  · split
    · rfl
    · rfl
  all_goals rfl

theorem bounded_latchSent {s : State} (h : s.commandInv) (dt : Nat) (k : ChainNo) :
    NextBounded (execLatchSent dt k s) := by
  refine nextBounded (commandInv_of_load (s := s) ?_ h)
  dsimp only
  split
  · exact loadOf_freeChain _ _
  · exact loadOf_freeChain _ _
  all_goals rfl

theorem bounded_releaseSent {s : State} (h : s.commandInv) (dt : Nat) (k : ChainNo) :
    NextBounded (execReleaseSent dt k s) := by
  refine nextBounded (commandInv_of_load (s := s) ?_ h)
  split
  all_goals rfl

theorem bounded_assignmentSent {s : State} (h : s.commandInv) (dt : Nat) (k : ChainNo) :
    NextBounded (execAssignmentSent dt k s) := by
  refine nextBounded (commandInv_of_load (s := s) ?_ h)
  split
  all_goals rfl

theorem bounded_acknowledgement {s : State} (h : s.commandInv) (dt : Nat) (k : ChainNo) (bytes : List Byte) :
    NextBounded (execAcknowledgement dt k bytes s) := by
  refine nextBounded (commandInv_of_load (s := s) ?_ h)
  split
  · split
    · rfl
    · split
      · split
        · exact loadOf_endSweep _ _ _ _
        · rfl
      · exact loadOf_endSweep _ _ _ _
  all_goals rfl

theorem bounded_enumAckTimeout {s : State} (h : s.commandInv) (dt : Nat) (k : ChainNo) :
    NextBounded (execEnumAckTimeout dt k s) := by
  refine nextBounded (commandInv_of_load (s := s) ?_ h)
  split
  · exact loadOf_endSweep _ _ _ _
  all_goals rfl

theorem bounded_passRequestSent {s : State} (h : s.commandInv) (dt : Nat) (k : ChainNo) :
    NextBounded (execPassRequestSent dt k s) := by
  refine nextBounded (commandInv_of_load (s := s) ?_ h)
  dsimp only
  split
  · exact loadOf_freeChain _ _
  all_goals rfl

theorem bounded_passAnswer {s : State} (h : s.commandInv) (dt : Nat) (k : ChainNo) (bytes : List Byte) :
    NextBounded (execPassAnswer dt k bytes s) := by
  refine nextBounded ?_
  split
  · split
    · split
      · exact commandInv_endExchange (s := s.advance dt) h _ _ _
      · exact h
    · exact h
  · exact h

theorem bounded_passTimeout {s : State} (h : s.commandInv) (dt : Nat) (k : ChainNo) :
    NextBounded (execPassTimeout dt k s) := by
  refine nextBounded ?_
  split
  · refine commandInv_endExchange ?_ _ _ _
    exact h
  · exact h

theorem bounded_sidePacket {s : State} (h : s.commandInv) (dt line : Nat) (bytes : List Byte) :
    NextBounded (execSidePacket dt line bytes s) := by
  have active : ((s.advance dt).endLine []).commandInv := commandInv_endLine (s := s.advance dt) h []
  have packet (errored : Bool) : ((State.atBlanking s dt).takePacket line errored bytes).commandInv :=
    commandInv_takePacket (s := State.atBlanking s dt) h line errored bytes
  have taken (isActive lost errored : Bool) :
      (if isActive then (s.advance dt).endLine [] else if lost then State.atBlanking s dt
        else (State.atBlanking s dt).takePacket line errored bytes).commandInv := by
    split
    · exact active
    · split
      · exact h
      · exact packet errored
  refine nextBounded ?_
  dsimp only
  split
  · exact h
  · exact h
  · exact taken _ _ _
  · exact taken _ _ _

theorem bounded_frameTimeout {s : State} (h : s.commandInv) (dt : Nat) : NextBounded (execFrameTimeout dt s) := by
  refine nextBounded ?_
  split
  · exact h
  · exact commandInv_loseSignal (s := (s.advance dt).advanceTo _) h
  · exact commandInv_loseSignal (s := (s.advance dt).advanceTo _) h

theorem bounded_outputFrameStart {s : State} (h : s.commandInv) (dt : Nat) (scanFirst : Bool) :
    NextBounded (execOutputFrameStart dt scanFirst s) := by
  refine nextBounded ?_
  split
  · split
    · refine commandInv_scanAndTurn ?_ scanFirst
      exact h
    · exact commandInv_startFreeRun (s := (s.advance dt).advanceTo _) h scanFirst
    · exact h
  · exact h

theorem bounded_outputBlankingLine {s : State} (h : s.commandInv) (dt line : Nat) :
    NextBounded (execOutputBlankingLine dt line s) := by
  refine nextBounded ?_
  dsimp only
  split
  all_goals exact h

theorem bounded_firstActiveLine {s : State} (h : s.commandInv) (dt : Nat) :
    NextBounded (execFirstActiveLine dt s) := by
  refine nextBounded (commandInv_of_load (s := s) ?_ h)
  split
  · exact loadOf_firstLine _
  · exact loadOf_firstLine _
  · rfl

theorem bounded_outputLineBegin {s : State} (h : s.commandInv) (dt : Nat) :
    NextBounded (execOutputLineBegin dt s) := by
  refine nextBounded (commandInv_of_load (s := s) ?_ h)
  split
  · exact loadOf_sendLine _ _ _ _ _ _
  · split
    · exact loadOf_latchesOfLine _ _
    · rfl
  · rfl

theorem bounded_outputActiveEnd {s : State} (h : s.commandInv) (dt : Nat) :
    NextBounded (execOutputActiveEnd dt s) := by
  refine nextBounded ?_
  dsimp only
  split
  · refine commandInv_sendActiveEnd ?_
    exact h
  · refine commandInv_of_load (loadOf_startSolve _ _) (commandInv_sendActiveEnd ?_)
    exact h
  · exact h

theorem bounded_solveComplete {s : State} (h : s.commandInv) (dt : Nat) : NextBounded (execSolveComplete dt s) := by
  refine nextBounded (commandInv_of_load (s := s) ?_ h)
  dsimp only
  split
  · next v _ =>
    have solved (set : LevelSet) (due : Nat) :
        loadOf ((((s.advance dt).advanceTo due).finishSolve v).handOff set) = loadOf s :=
      (loadOf_handOff _ _).trans (loadOf_finishSolve _ v)
    split
    · exact (loadOf_frameTurn _).trans (solved _ _)
    · exact solved _ _
  · rfl

theorem bounded_badCommand {s : State} (h : s.commandInv) (dt : Nat) : NextBounded (execBadCommand dt s) := by
  refine nextBounded ?_
  split
  · next f hf =>
    split
    · exact h
    · refine commandInv_finish _ _ (bounded_of_le (bounded_of_executing (s := s.advance dt) h ?_)
        (fillsFor_le_reserves _ _))
      have own := ((commandInv_iff s).1 h).2 f hf
      show s.cmd.inFlight = some ⟨f.packet, f.packet.reserves⟩
      rw [← own]
      exact hf
  · exact h

theorem bounded_transmissionEnd {s : State} (h : s.commandInv) (dt : Nat) :
    NextBounded (execTransmissionEnd dt s) := by
  refine nextBounded ?_
  dsimp only
  split
  · exact commandInv_pump (s := { s.advance dt with cmd := { s.cmd with lane := none } }) h
  · exact h

theorem bounded_softReset {s : State} (h : s.commandInv) (dt : Nat) : NextBounded (execSoftReset dt s) := by
  refine nextBounded ?_
  split
  · next p hp =>
    have flying := (executing_of_flying (s := s.advance dt) h hp).1
    split
    · exact commandInv_softReset (s := s.advance dt) h p flying
    · exact commandInv_finish p _ (bounded_of_le (bounded_of_executing (s := s.advance dt) h flying)
        (fillsFor_le_reserves p _))
  · exact h

/-- Every command keeps the bounds of the command unit. -/
theorem bounded_exec {s : State} (h : s.commandInv) (i : Instr) : NextBounded (exec i s) := by
  have row (dt : Nat) (code : Byte) (silent : Bool) (accepts : Nat → Bool)
      (body : Packet → State → State × Option Answer)
      (hb : ∀ p, loadOf (body p (s.advance dt)).1 = loadOf (s.advance dt)) :
      NextBounded (.next ((s.advance dt).execute code silent accepts body)) :=
    nextBounded (commandInv_execute_of_load (s := s.advance dt) h code silent accepts body hb)
  cases i with
  | powerOn straps => exact nextBounded (commandInv_powerOn straps)
  | resetn straps => exact nextBounded (commandInv_powerOn straps)
  | frameStartMarker dt last =>
    exact nextBounded (commandInv_marker (commandInv_truncate (commandInv_endLast (s := s.advance dt) h last)))
  | activeLine dt pixels => exact nextBounded (commandInv_endLine (s := s.advance dt) h pixels)
  | sidePacket dt line bytes => exact bounded_sidePacket h dt line bytes
  | inputActiveEnd dt last => exact nextBounded (commandInv_endFrame (commandInv_endLast (s := s.advance dt) h last))
  | characterError dt place =>
    exact nextBounded (commandInv_linkError (s := { s.advance dt with lrx := s.lrx.markError place }) h)
  | elasticBufferSlip dt place => exact nextBounded h
  | frameTimeout dt => exact bounded_frameTimeout h dt
  | outputFrameStart dt scanFirst => exact bounded_outputFrameStart h dt scanFirst
  | outputBlankingLine dt line => exact bounded_outputBlankingLine h dt line
  | firstActiveLine dt => exact bounded_firstActiveLine h dt
  | outputLineBegin dt => exact bounded_outputLineBegin h dt
  | outputActiveEnd dt => exact bounded_outputActiveEnd h dt
  | solveComplete dt => exact bounded_solveComplete h dt
  | burstDone dt k => exact bounded_burstDone h dt k
  | darkBurstDone dt k => exact bounded_darkBurstDone h dt k
  | readbackSlot dt k bytes => exact bounded_readbackSlot h dt k bytes
  | latchSent dt k => exact bounded_latchSent h dt k
  | releaseSent dt k => exact bounded_releaseSent h dt k
  | assignmentSent dt k => exact bounded_assignmentSent h dt k
  | acknowledgement dt k bytes => exact bounded_acknowledgement h dt k bytes
  | enumAckTimeout dt k => exact bounded_enumAckTimeout h dt k
  | passRequestSent dt k => exact bounded_passRequestSent h dt k
  | passAnswer dt k bytes => exact bounded_passAnswer h dt k bytes
  | passTimeout dt k => exact bounded_passTimeout h dt k
  | conversionEnd dt raw => exact bounded_conversionEnd h dt raw
  | transmissionEnd dt => exact bounded_transmissionEnd h dt
  | identify dt => exact row dt _ _ _ _ fun p => loadOf_readSetting _ _
  | writeTable dt => exact row dt _ _ _ _ fun p => loadOf_writeTable _ p
  | readTable dt => exact row dt _ _ _ _ fun p => loadOf_readTable _ p
  | commit dt => exact row dt _ _ _ _ fun p => loadOf_commitTables _ p
  | cancelCommit dt => exact row dt _ _ _ _ fun p => rfl
  | setMode dt => exact row dt _ _ _ _ fun p => loadOf_setMode _ p
  | readStatus dt => exact row dt _ _ _ _ fun p => rfl
  | clearCounters dt => exact row dt _ _ _ _ fun p => rfl
  | clearFaults dt => exact row dt _ _ _ _ fun p => loadOf_clearFaults _ p
  | enumerateChain dt => exact row dt _ _ _ _ fun p => loadOf_enumerateChain _ p
  | driverPass dt => exact nextBounded (commandInv_driverPass (s := s.advance dt) h)
  | senseStart dt => exact nextBounded (commandInv_senseStart (s := s.advance dt) h)
  | senseAbort dt => exact nextBounded (commandInv_senseAbort (s := s.advance dt) h)
  | errorLogClear dt => exact row dt _ _ _ _ fun p => rfl
  | injectError dt => exact row dt _ _ _ _ fun p => loadOf_injectError _ p
  | timeSet dt => exact row dt _ _ _ _ fun p => rfl
  | timeAdjust dt => exact row dt _ _ _ _ fun p => rfl
  | softReset dt => exact bounded_softReset h dt
  | badCommand dt => exact bounded_badCommand h dt

/-- Settles O57: a step is a command that waited, or a microsecond of time. -/
theorem stepKeepsReplyReservations : Obligations.StepKeepsReplyReservations := by
  intro s t h ht
  unfold step at ht
  split at ht
  · next c rest _ => exact bounded_exec (s := { s with pending := rest }) h c t ht
  · exact nextBounded (t := s.advance 1) h t ht

end Sys2Proof.Laws
end

