-- ==== Sys2Proof/Proofs/Refusals.lean ====
section
/-! PROOF. The refusals that every command shares, and the broadcasts that are discarded (R27, R28, R31). -/

namespace Sys2Proof.Laws

open Sys2Proof.Machine

/-! ## The end of a command that has changed nothing -/

/-- An end with a clean DEVICE_TAG changes time, the command unit and the slot alone. -/
theorem finish_keptElsewhere (dt : Nat) (s : State) (p : Packet) (a : Option Answer)
    (h : s.cleanSetting Config.deviceTag) : s.keptElsewhere ((s.advance dt).finish p a) := by
  have kept := finish_kept (s.advance dt) p a h s.cmd s.rpu.slot
  exact (congrArg (fun t : State => { t with clock := s.clock }) kept :)

/-- A discarded command sends nothing, and the command unit goes on. -/
theorem finish_silent (dt : Nat) (s : State) (p : Packet) :
    s.replied ((s.advance dt).finish p none) [] ∧ s.tookNext ((s.advance dt).finish p none) :=
  ⟨⟨(pump_outgoing _).trans (List.append_nil _).symm, pump_owed _⟩, pump_cases (s.advance dt).release rfl⟩

/-- A refused command is answered with the result alone, and nothing else changes. -/
theorem finish_refused (dt : Nat) (s : State) (p : Packet) (r : Result) (h : s.cleanSetting Config.deviceTag) :
    s.answered ((s.advance dt).finish p (some (.plain r))) p r [] ∧
      ((s.advance dt).finish p (some (.plain r))).clock = (s.advance dt).clock ∧
      s.keptElsewhere ((s.advance dt).finish p (some (.plain r))) :=
  ⟨finish_answered s (s.advance dt) p r [] rfl rfl rfl, State.finish_clock _ _ _, finish_keptElsewhere dt s p _ h⟩

/-! ## The rows of the command table -/

/-- The row's command, with a packet of its code in flight: a discarded broadcast ends without an answer, and a packet
of a length that the row does not take is refused. -/
def RowRefuses (row : CommandRow) : Prop :=
  ∀ (dt : Nat) (s : State) (p : Packet), s.executing p → p.code = row.code →
    ((row.silent && p.broadcast) = true → exec (row.instr dt) s = .next ((s.advance dt).finish p none)) ∧
    ((row.silent && p.broadcast) = false → row.accepts p.payload.length = false →
      exec (row.instr dt) s = .next ((s.advance dt).finish p (some (.plain .badLength))))

/-- A row that is one execution of a body makes the shared checks first. -/
theorem rowRefuses_of_execute {code : Byte} {instr : Nat → Instr} {silent : Bool} {accepts : Nat → Bool}
    (body : Packet → State → State × Option Answer)
    (h : ∀ dt s, exec (instr dt) s = .next ((s.advance dt).execute code silent accepts body)) :
    RowRefuses ⟨code, instr, silent, accepts⟩ := by
  intro dt s p flying hc
  have run := execute_runs (s.advance dt) p code silent accepts body flying hc
  refine ⟨fun hs => ?_, fun hs ha => ?_⟩
  · rw [h, run, if_pos hs]
  · rw [h, run, if_neg (ne_true_of_eq_false hs), if_neg (ne_true_of_eq_false ha)]

/-- SOFT_RESET makes the check of its length itself. -/
theorem rowRefuses_softReset : RowRefuses ⟨0x7E, .softReset, false, (· == 0)⟩ := by
  intro dt s p flying hc
  refine ⟨nofun, fun _ ha => ?_⟩
  have hf : (s.advance dt).flying Config.codeSoftReset = some p := by
    unfold State.flying
    rw [show (s.advance dt).cmd.inFlight = _ from flying]
    exact if_pos hc
  have words : p.payload.isEmpty = false := by
    cases hp : p.payload with
    | nil => rw [hp] at ha; cases ha
    | cons => rfl
  show execSoftReset dt s = _
  unfold execSoftReset
  dsimp only
  rw [hf]
  dsimp only
  rw [words, if_neg Bool.false_ne_true]

theorem rowRefuses_commandRows : ∀ row ∈ commandRows, RowRefuses row := by
  simp only [commandRows, List.cons_append, List.nil_append, List.forall_mem_cons, List.not_mem_nil, false_imp_iff,
    implies_true, and_true]
  refine ⟨rowRefuses_of_execute identify ?_, rowRefuses_of_execute writeTable ?_, rowRefuses_of_execute readTable ?_,
    rowRefuses_of_execute commitTables ?_, rowRefuses_of_execute cancelCommit ?_, rowRefuses_of_execute setMode ?_,
    rowRefuses_of_execute readStatus ?_, rowRefuses_of_execute clearCounters ?_, rowRefuses_of_execute clearFaults ?_,
    rowRefuses_of_execute enumerateChain ?_, rowRefuses_of_execute driverPass ?_, rowRefuses_of_execute senseStart ?_,
    rowRefuses_of_execute senseAbort ?_, rowRefuses_of_execute errorLogClear ?_, rowRefuses_of_execute injectError ?_,
    rowRefuses_of_execute timeSet ?_, rowRefuses_of_execute timeAdjust ?_, rowRefuses_softReset⟩
  all_goals exact fun _ _ => rfl

/-- The codes of the rows are the codes that name a command (R27). -/
theorem commandCodes_eq : Config.commandCodes = commandRows.map CommandRow.code := rfl

/-- A packet in flight of no command's code is refused. -/
theorem exec_badCommand (dt : Nat) (s : State) (p : Packet) (flying : s.executing p)
    (h : ∀ row ∈ commandRows, row.code ≠ p.code) :
    exec (.badCommand dt) s = .next ((s.advance dt).finish p (some (.plain .badCommand))) := by
  have unknown : Config.commandCodes.contains p.code = false := by
    rw [commandCodes_eq, ← Bool.not_eq_true, List.contains_iff_mem, List.mem_map]
    rintro ⟨row, hr, hc⟩
    exact h row hr hc
  show execBadCommand dt s = _
  unfold execBadCommand
  dsimp only
  rw [show (s.advance dt).cmd.inFlight = _ from flying]
  dsimp only
  rw [unknown, if_neg Bool.false_ne_true]

/-- Settles O46: each refusal is the end of the command, with a bare result or with none. -/
theorem commandsAreRefused : Obligations.CommandsAreRefused := by
  intro dt s p
  refine ⟨fun ⟨flying, _, clean⟩ unknown => ?_, fun row hr ⟨flying, hc, clean⟩ => ⟨fun hs hb => ?_, fun hs ha => ?_⟩⟩
  · exact ⟨_, exec_badCommand dt s p flying unknown, finish_refused dt s p .badCommand clean⟩
  · obtain ⟨silent, -⟩ := rowRefuses_commandRows row hr dt s p flying hc
    obtain ⟨nothing, goesOn⟩ := finish_silent dt s p
    exact ⟨_, silent (by rw [hs, hb]; rfl), nothing, goesOn, State.finish_clock _ _ _,
      finish_keptElsewhere dt s p none clean⟩
  · obtain ⟨-, refused⟩ := rowRefuses_commandRows row hr dt s p flying hc
    exact ⟨_, refused hs ha, finish_refused dt s p .badLength clean⟩

end Sys2Proof.Laws
end

