-- ==== Sys2Proof/Proofs/Status.lean ====
section
/-! PROOF. IDENTIFY, READ_STATUS and the ATTN line (R35, R171, R172, R174). -/

namespace Sys2Proof.Laws

open Sys2Proof.Machine

/-! ## The ATTN line -/

/-- Every bit of a 17-bit mask is an event's. -/
theorem event_of_bit (i : Nat) (h : i < 17) : ∃ e : Event, e.number - 1 = i := by
  have listed : ∀ i : Fin 17, ∃ e ∈ [Event.packetCrcError, .packetDropped, .commitDone, .commitFailed, .modeChanged,
      .solveLate, .burstLate, .sceneCut, .inputStateChanged, .lineSlip, .gridMisfit, .zoneFaultNew, .deviceNoResponse,
      .enumDone, .senseOverrun, .memoryError, .reportLost], e.number - 1 = i.val := by decide
  obtain ⟨e, -, he⟩ := listed ⟨i, h⟩
  exact ⟨e, he⟩

/-- Two masks meet exactly where some event is in both. -/
theorem masks_meet_iff (a b : BitVec 17) :
    a &&& b ≠ 0 ↔ ∃ e : Event, a.getLsbD (e.number - 1) = true ∧ b.getLsbD (e.number - 1) = true := by
  constructor
  · intro h
    by_contra none
    refine h (BitVec.eq_of_getLsbD_eq fun i hi => ?_)
    obtain ⟨e, rfl⟩ := event_of_bit i hi
    rw [BitVec.getLsbD_and, show (0 : BitVec 17).getLsbD _ = false from BitVec.getLsbD_zero, ← Bool.not_eq_true,
      Bool.and_eq_true]
    exact fun both => none ⟨e, both⟩
  · rintro ⟨e, ha, hb⟩ h0
    have both : (a &&& b).getLsbD (e.number - 1) = true := by rw [BitVec.getLsbD_and, ha, hb]; rfl
    rw [h0] at both
    exact Bool.false_ne_true (BitVec.getLsbD_zero.symm.trans both)

theorem lostInSlot_iff (r : Rpu) : r.lostInSlot = true ↔ ∃ f, r.slot = some f ∧ f.flags.getLsbD 16 = true := by
  unfold Rpu.lostInSlot
  cases r.slot <;> simp [Event.number]

theorem attnLine_iff (s : State) : s.attnLine = true ↔ s.attention = true ∨
    (∃ e : Event, s.rpu.flags.getLsbD (e.number - 1) = true ∧ s.rpu.notifyMask.getLsbD (e.number - 1) = true) ∨
    ∃ r, s.rpu.slot = some r ∧ r.flags.getLsbD 16 = true ∧ s.rpu.notifyMask.getLsbD 16 = true := by
  unfold State.attnLine
  rw [Bool.or_eq_true, Bool.or_eq_true, decide_eq_true_eq, masks_meet_iff, Bool.and_eq_true, lostInSlot_iff, or_assoc]
  simp only [← and_assoc, exists_and_right]
  rfl

/-! ## The two commands -/

/-- A packet for the part alone, of a length that the row takes, runs the row's body. -/
theorem execute_body_own (s : State) (p : Packet) (code : Byte) (silent : Bool) (accepts : Nat → Bool)
    (body : Packet → State → State × Option Answer) (flying : s.executing p) (hc : p.code = code)
    (hb : p.broadcast = false) (ha : accepts p.payload.length = true) :
    s.execute code silent accepts body = (body p s).1.finish p (body p s).2 := by
  rw [execute_runs s p code silent accepts body flying hc, hb, Bool.and_false, if_neg Bool.false_ne_true, if_pos ha]

theorem exec_identify (dt : Nat) (s : State) (p : Packet) (hr : s.runs p 0x01) (hp : p.payload = [])
    (hb : p.broadcast = false) :
    exec (.identify dt) s = .next ((s.advance dt).finish p
      (some (.ok [0x2336, 3, wordOfNat (s.mem.active Config.deviceTag)]))) := by
  obtain ⟨flying, hc, clean⟩ := hr
  have read : (s.advance dt).readSetting Config.deviceTag = s.advance dt := readSetting_of_clean _ _ clean
  have body : identify p (s.advance dt) = (s.advance dt,
      some (.ok [0x2336, 3, wordOfNat (s.mem.active Config.deviceTag)])) := by
    unfold identify
    dsimp only
    rw [read]
    rfl
  show Host.Outcome.next _ = _
  rw [execute_body_own (s.advance dt) p Config.codeIdentify true (exactly 0) identify flying hc hb (by rw [hp]; rfl),
    body]

/-- The part with the watched items taken into the snapshot. -/
def State.snapshotTaken (s : State) : State := { s with rpu := { s.rpu with snapshot := s.watched } }

theorem exec_readStatus (dt : Nat) (s : State) (p : Packet) (hr : s.runs p 0x30) (hp : p.payload = [])
    (hb : p.broadcast = false) :
    exec (.readStatus dt) s = .next ((State.snapshotTaken (s.advance dt)).finish p
      (some (.ok (s.advance dt).statusWords))) := by
  obtain ⟨flying, hc, -⟩ := hr
  show Host.Outcome.next _ = _
  rw [execute_body_own (s.advance dt) p Config.codeReadStatus true (exactly 0) readStatus flying hc hb
    (by rw [hp]; rfl)]
  rfl

/-- The 34 words, each figure at its place (R172). -/
theorem statusWords_eq (s : State) : s.statusWords =
    s.rpu.counters.list.flatMap natWords ++
      [wordOfNat ((s.lrx.locked.map Geometry.width).getD 0), wordOfNat ((s.lrx.locked.map Geometry.height).getD 0)] ++
      natWords s.lrx.period ++
      [wordOfNat (256 * s.lrx.input.code + s.mdc.mode.code), wordOfNat (thermalWord s.sns.thermal),
        wordOfNat ((if s.sns.foldback then 1 else 0) + (if s.attention then 2 else 0)),
        wordOfNat s.chc.setLatches, wordOfNat s.chc.silentDevices, wordOfNat s.imn.log.length] := by
  have attention : 2 * flag s.attention = if s.attention then 2 else 0 := by cases s.attention <;> rfl
  unfold State.statusWords
  dsimp only
  rw [attention]
  cases s.lrx.locked <;> rfl

/-- Attention falls as the snapshot becomes the watched items (R171). -/
theorem attention_of_snapshot {s : State} (h : s.rpu.snapshot = s.watched) : s.attention = false := by
  unfold State.attention
  rw [h]
  simp

/-- Settles O47. -/
theorem identityAndStatusAreReturned : Obligations.IdentityAndStatusAreReturned := by
  refine ⟨attnLine_iff, fun dt s p hp hb => ⟨fun hr => ?_, fun hr => ?_⟩⟩
  · exact ⟨_, exec_identify dt s p hr hp hb, finish_ok_answered s (s.advance dt) p _ rfl, State.finish_clock _ _ _,
      finish_keptElsewhere dt s p _ hr.2.2⟩
  · have words := statusWords_eq (s.advance dt)
    have ended := finish_eq (State.snapshotTaken (s.advance dt)) p (some (.ok (s.advance dt).statusWords)) hr.2.2
    refine ⟨_, exec_readStatus dt s p hr hp hb, ?_, ?_, ?_, State.finish_clock _ _ _, ?_⟩
    · rw [words]
      exact finish_ok_answered s _ p _ rfl
    · rw [ended]; rfl
    · refine attention_of_snapshot ?_
      rw [ended]; rfl
    · unfold State.keptElsewhere
      rw [ended]; rfl

end Sys2Proof.Laws
end

