-- ==== Sys2Proof/Proofs/ReturnLane.lean ====
section
/-! PROOF. What the return lane carries, byte by byte, and what it sends next (R32, R168, R183). -/

namespace Sys2Proof.Laws

open Sys2Proof.Machine

/-! ## A packet of the source (R22, R24) -/

/-- Settles O14, by what each check finds in the bytes. -/
theorem packetRoundTrip : Obligations.PacketRoundTrip := fun p h =>
  ⟨by rw [length_packetBytes]; omega, by simpa using declaredLength_packetBytes p h [],
    packetPasses_packetBytes p h, parsePacket_packetBytes p h⟩

/-! ## Numbers of bytes, most significant first (R183) -/

/-- The number that a run of bytes spells. -/
def bytesValue (bytes : List Byte) : Nat := bytes.foldl (fun v b => 256 * v + b.toNat) 0

theorem bytesValue_byte (b : Byte) : bytesValue [b] = b.toNat := by
  simp [bytesValue]

theorem bytesValue_wordBytes (w : Word) : bytesValue (wordBytes w) = w.toNat := by
  have := w.isLt
  simp only [bytesValue, wordBytes, List.foldl_cons, List.foldl_nil, BitVec.extractLsb'_toNat,
    Nat.shiftRight_eq_div_pow]
  omega

theorem bytesValue_dwordBytes (d : Dword) : bytesValue (dwordBytes d) = d.toNat := by
  have := d.isLt
  simp only [bytesValue, dwordBytes, List.foldl_cons, List.foldl_nil, BitVec.extractLsb'_toNat,
    Nat.shiftRight_eq_div_pow]
  omega

theorem bytesValue_byteOf (n : Nat) : bytesValue [byteOf n] = n % 256 := by
  rw [bytesValue_byte, byteOf, BitVec.toNat_ofNat]

theorem bytesValue_byteOf_of_lt {n : Nat} (h : n < 256) : bytesValue [byteOf n] = n := by
  rw [bytesValue_byteOf, Nat.mod_eq_of_lt h]

theorem bytesValue_wordOfNat (n : Nat) : bytesValue (wordBytes (wordOfNat n)) = n % 65536 := by
  rw [bytesValue_wordBytes, wordOfNat, BitVec.toNat_ofNat]

theorem bytesValue_dwordOfNat (n : Nat) : bytesValue (dwordBytes (dwordOfNat n)) = n % 4294967296 := by
  rw [bytesValue_dwordBytes, dwordOfNat, BitVec.toNat_ofNat]

/-- The 17 event flags in three bytes. -/
theorem bytesValue_flags (f : BitVec 17) :
    bytesValue [byteOf (f.toNat / 65536), byteOf (f.toNat / 256), byteOf f.toNat] = f.toNat := by
  have := f.isLt
  simp only [bytesValue, byteOf, List.foldl_cons, List.foldl_nil, BitVec.toNat_ofNat]
  omega

/-! ## The codes of the fields (R28, R163) -/

theorem result_of_code (r : Result) :
    [Result.ok, .clamped, .badCommand, .badLength, .badTable, .range, .notInMode, .busy, .configInvalid, .timeout,
      .aborted, .readOnly][r.code]? = some r ∧ r.code < 256 := by
  cases r <;> decide

theorem reason_of_code (r : Reason) :
    [Reason.none, .duplicateChannel, .noZones, .chainUnknown][r.code]? = some r ∧ r.code < 256 := by
  cases r <;> decide

theorem mode_of_code (m : Mode) : [Mode.standby, .bypass, .dimming, .safe][m.code]? = some m ∧ m.code < 4 := by
  cases m <;> decide

theorem input_of_code (i : InputState) :
    [InputState.noSignal, .acquiring, .locked][i.code]? = some i ∧ i.code < 4 := by
  cases i <;> decide

theorem outcome_of_code (o : SolveOutcome) :
    [SolveOutcome.none, .onTime, .late][o.code]? = some o ∧ o.code < 256 := by
  cases o <;> decide

theorem thermal_of_code (t : Thermal) : [Thermal.normal, .warm, .hot][t.code]? = some t ∧ t.code < 4 := by
  cases t <;> decide

theorem flag_le (b : Bool) : flag b ≤ 1 := by cases b <;> decide

/-- The thermal word is below 2^16 and holds the state of chain k at bits 2k and 2k+1. -/
theorem thermalWord_digits (t : Vector Thermal 8) :
    thermalWord t < 65536 ∧ ∀ k : ChainNo, thermalWord t / 4 ^ k.val % 4 = t[k].code := by
  have word : thermalWord t = t[0].code + 4 * t[1].code + 16 * t[2].code + 64 * t[3].code + 256 * t[4].code +
      1024 * t[5].code + 4096 * t[6].code + 16384 * t[7].code := by
    simp only [thermalWord, allChains, List.foldl_cons, List.foldl_nil]
    simp
    omega
  have small (i : Nat) (hi : i < 8) : t[i].code < 4 := (thermal_of_code t[i]).2
  have := small 0 (by decide); have := small 1 (by decide); have := small 2 (by decide); have := small 3 (by decide)
  have := small 4 (by decide); have := small 5 (by decide); have := small 6 (by decide); have := small 7 (by decide)
  rw [word]
  refine ⟨by omega, fun k => ?_⟩
  fin_cases k <;> simp <;> omega

/-! ## The compact count code (R168) -/

theorem compactCode_small {c : Nat} (h : c < 32) : compactCode c = c := if_pos h

theorem exponent_le : ∀ e ∈ [1, 2, 3, 4, 5, 6, 7], e ≤ 7 := by decide

/-- The code of a count at its first exponent. -/
theorem compactCode_at {c e : Nat} (hc : 32 ≤ c) (h1 : 1 ≤ e) (h7 : e ≤ 7) (he : c / 4 ^ e < 32)
    (first : ∀ d, 1 ≤ d → d < e → 32 ≤ c / 4 ^ d) : compactCode c = 32 * e + c / 4 ^ e := by
  have found : [1, 2, 3, 4, 5, 6, 7].find? (fun e => decide (c / 4 ^ e < 32)) = some e := by
    rw [show [1, 2, 3, 4, 5, 6, 7] = List.range' 1 7 from rfl, List.find?_eq_some_iff_getElem]
    refine ⟨decide_eq_true he, e - 1, by rw [List.length_range']; omega, by rw [List.getElem_range']; omega,
      fun j hj => ?_⟩
    rw [List.getElem_range', Nat.one_mul, decide_eq_false (Nat.not_lt.2 (first (1 + j) (by omega) (by omega)))]
    rfl
  unfold compactCode
  rw [if_neg (Nat.not_lt.2 hc), found]

theorem compactCode_large {c : Nat} (h : 524288 ≤ c) : compactCode c = 255 := by
  have none_found : [1, 2, 3, 4, 5, 6, 7].find? (fun e => decide (c / 4 ^ e < 32)) = none := by
    rw [List.find?_eq_none]
    intro e he
    have le : 4 ^ e ≤ 4 ^ 7 := Nat.pow_le_pow_right (by decide) (exponent_le e he)
    rw [decide_eq_true_eq, Nat.not_lt, Nat.le_div_iff_mul_le (Nat.pow_pos (by decide))]
    omega
  unfold compactCode
  rw [if_neg (by omega), none_found]

theorem compactCode_lt (c : Nat) : compactCode c < 256 := by
  unfold compactCode
  split
  · omega
  · split
    · next e he =>
      have small : c / 4 ^ e < 32 := by simpa using List.find?_some he
      have le := exponent_le e (List.mem_of_find?_eq_some he)
      omega
    · decide

/-! ## A reply (R33) -/

/-- The bytes of a reply ahead of its CRC. -/
def replyBody (r : Reply) : List Byte :=
  r.tag :: r.seq :: r.code :: byteOf r.result.code :: byteOf r.reason.code :: byteOf (flag r.final) ::
    byteOf r.data.length :: unpackWords r.data

theorem bytes_reply (r : Reply) : r.bytes = replyBody r ++ wordBytes (crc16 (replyBody r)) := rfl

theorem length_replyBody (r : Reply) : (replyBody r).length = 7 + 2 * r.data.length := by
  simp only [replyBody, List.length_cons, length_unpackWords]
  omega

theorem drop_unpackWords (ws : List Word) (i : Nat) : (unpackWords ws).drop (2 * i) = unpackWords (ws.drop i) := by
  induction i generalizing ws with
  | zero => rfl
  | succ i ih =>
    cases ws with
    | nil => simp [unpackWords]
    | cons w ws => exact ih ws

/-- A data word stands at its place. -/
theorem replyBody_word (r : Reply) (crc : List Byte) (i : Nat) (w : Word) (h : r.data[i]? = some w) :
    ((replyBody r ++ crc).drop (7 + 2 * i)).take 2 = wordBytes w := by
  obtain ⟨hi, hw⟩ := List.getElem?_eq_some_iff.1 h
  have tail : (replyBody r).drop (7 + 2 * i) = unpackWords (r.data.drop i) := by
    rw [Nat.add_comm]
    exact drop_unpackWords r.data i
  rw [List.drop_append_of_le_length (by rw [length_replyBody]; omega), tail, List.drop_eq_getElem_cons hi, hw]
  rfl

/-- The fields of a reply's bytes ahead of its data. -/
theorem reply_fields (r : Reply) :
    bytesValue ((r.bytes.drop 0).take 1) = r.tag.toNat ∧ bytesValue ((r.bytes.drop 1).take 1) = r.seq.toNat ∧
    bytesValue ((r.bytes.drop 2).take 1) = r.code.toNat ∧ bytesValue ((r.bytes.drop 3).take 1) = r.result.code ∧
    bytesValue ((r.bytes.drop 4).take 1) = r.reason.code ∧ bytesValue ((r.bytes.drop 5).take 1) = flag r.final ∧
    bytesValue ((r.bytes.drop 6).take 1) = r.data.length % 256 :=
  ⟨bytesValue_byte r.tag, bytesValue_byte r.seq, bytesValue_byte r.code,
    bytesValue_byteOf_of_lt (result_of_code r.result).2, bytesValue_byteOf_of_lt (reason_of_code r.reason).2,
    bytesValue_byteOf_of_lt (by have := flag_le r.final; omega), bytesValue_byteOf r.data.length⟩

/-- The data words and the CRC of a reply's bytes. -/
theorem reply_words (r : Reply) :
    (∀ i w, r.data[i]? = some w → bytesValue ((r.bytes.drop (7 + 2 * i)).take 2) = w.toNat) ∧
    bytesValue ((r.bytes.drop (7 + 2 * r.data.length)).take 2) =
      (crc16 (r.bytes.take (7 + 2 * r.data.length))).toNat := by
  refine ⟨fun i w hw => ?_, ?_⟩
  · rw [bytes_reply, replyBody_word r _ i w hw, bytesValue_wordBytes]
  · rw [bytes_reply, ← length_replyBody r, List.take_left, List.drop_left]
    exact bytesValue_wordBytes _

theorem length_reply (r : Reply) : r.bytes.length = 9 + 2 * r.data.length := by
  rw [bytes_reply, List.length_append, length_replyBody, Nat.add_right_comm]
  rfl

/-! ## A frame report (R163) -/

/-- The states of the part in byte 9 of a report. -/
def reportStates (r : FrameReport) : Nat :=
  r.mode.code + 4 * r.input.code + 16 * flag r.transition + 32 * flag r.attention + 64 * flag r.foldback

/-- The 32 bytes of a report ahead of its CRC, and what follows them. -/
def reportThen (r : FrameReport) (crc : List Byte) : List Byte :=
  r.tag :: (dwordBytes r.frame ++ (dwordBytes r.stamp ++ (byteOf (reportStates r) :: r.committed.zeroExtend 8 ::
    byteOf r.reason.code :: ([byteOf (r.flags.toNat / 65536), byteOf (r.flags.toNat / 256), byteOf r.flags.toNat] ++
    (wordBytes (wordOfNat r.k) ++ (dwordBytes (dwordOfNat r.demand) ++ (wordBytes (wordOfNat r.maxL4) ++
    (wordBytes (wordOfNat r.globalMean) ++ (byteOf r.solveStatus.code :: r.burstLate ::
    (wordBytes (wordOfNat (thermalWord r.thermal)) ++ (byteOf (compactCode r.charErrors) ::
    byteOf (compactCode r.clips) :: byteOf (compactCode r.packetErrors) :: crc)))))))))))

theorem reportThen_append (r : FrameReport) (crc : List Byte) : reportThen r crc = reportThen r [] ++ crc := by
  simp [reportThen]

theorem length_reportThen (r : FrameReport) : (reportThen r []).length = 32 := rfl

/-- The bytes of a report, as its fields in order. -/
theorem bytes_report (r : FrameReport) : r.bytes = reportThen r (wordBytes (crc16 (reportThen r []))) := by
  rw [reportThen_append]
  simp [FrameReport.bytes, reportThen, reportStates]

theorem length_report (r : FrameReport) : r.bytes.length = 34 := by
  rw [bytes_report, reportThen_append, List.length_append, length_reportThen]
  rfl

/-- Byte 9 is below 256, and each state is found at its bits. -/
theorem reportStates_fields (r : FrameReport) :
    reportStates r < 256 ∧ reportStates r % 4 = r.mode.code ∧ reportStates r / 4 % 4 = r.input.code ∧
      reportStates r / 16 = flag r.transition + 2 * flag r.attention + 4 * flag r.foldback := by
  have := (mode_of_code r.mode).2
  have := (input_of_code r.input).2
  have := flag_le r.transition
  have := flag_le r.attention
  have := flag_le r.foldback
  unfold reportStates
  omega

theorem toNat_committed (r : FrameReport) : (r.committed.zeroExtend 8).toNat = r.committed.toNat := by
  have := r.committed.isLt
  show (BitVec.setWidth 8 r.committed).toNat = _
  rw [BitVec.toNat_setWidth]
  omega

/-- The fields of a report's bytes up to the event flags. -/
theorem report_states (r : FrameReport) (crc : List Byte) :
    bytesValue (((reportThen r crc).drop 0).take 1) = r.tag.toNat ∧
    bytesValue (((reportThen r crc).drop 1).take 4) = r.frame.toNat ∧
    bytesValue (((reportThen r crc).drop 5).take 4) = r.stamp.toNat ∧
    bytesValue (((reportThen r crc).drop 9).take 1) = reportStates r ∧
    bytesValue (((reportThen r crc).drop 10).take 1) = r.committed.toNat ∧
    bytesValue (((reportThen r crc).drop 11).take 1) = r.reason.code ∧
    bytesValue (((reportThen r crc).drop 12).take 3) = r.flags.toNat :=
  ⟨bytesValue_byte r.tag, bytesValue_dwordBytes r.frame, bytesValue_dwordBytes r.stamp,
    bytesValue_byteOf_of_lt (reportStates_fields r).1,
    (bytesValue_byte (r.committed.zeroExtend 8)).trans (toNat_committed r), bytesValue_byteOf_of_lt (reason_of_code r.reason).2, bytesValue_flags r.flags⟩

/-- The solver's figures in a report's bytes. -/
theorem report_figures (r : FrameReport) (crc : List Byte) :
    bytesValue (((reportThen r crc).drop 15).take 2) = r.k % 65536 ∧
    bytesValue (((reportThen r crc).drop 17).take 4) = r.demand % 4294967296 ∧
    bytesValue (((reportThen r crc).drop 21).take 2) = r.maxL4 % 65536 ∧
    bytesValue (((reportThen r crc).drop 23).take 2) = r.globalMean % 65536 ∧
    bytesValue (((reportThen r crc).drop 25).take 1) = r.solveStatus.code :=
  ⟨bytesValue_wordOfNat r.k, bytesValue_dwordOfNat r.demand, bytesValue_wordOfNat r.maxL4,
    bytesValue_wordOfNat r.globalMean, bytesValue_byteOf_of_lt (outcome_of_code r.solveStatus).2⟩

/-- The chains and the three counts in a report's bytes. -/
theorem report_counts (r : FrameReport) (crc : List Byte) :
    bytesValue (((reportThen r crc).drop 26).take 1) = r.burstLate.toNat ∧
    bytesValue (((reportThen r crc).drop 27).take 2) = thermalWord r.thermal ∧
    bytesValue (((reportThen r crc).drop 29).take 1) = compactCode r.charErrors ∧
    bytesValue (((reportThen r crc).drop 30).take 1) = compactCode r.clips ∧
    bytesValue (((reportThen r crc).drop 31).take 1) = compactCode r.packetErrors :=
  ⟨bytesValue_byte r.burstLate,
    (bytesValue_wordOfNat (thermalWord r.thermal)).trans (Nat.mod_eq_of_lt (thermalWord_digits _).1),
    bytesValue_byteOf_of_lt (compactCode_lt r.charErrors), bytesValue_byteOf_of_lt (compactCode_lt r.clips),
    bytesValue_byteOf_of_lt (compactCode_lt r.packetErrors)⟩

/-- The CRC in a report's bytes. -/
theorem report_crc (r : FrameReport) :
    bytesValue ((r.bytes.drop 32).take 2) = (crc16 (r.bytes.take 32)).toNat := by
  rw [bytes_report, reportThen_append, ← length_reportThen r, List.take_left, List.drop_left]
  exact bytesValue_wordBytes _

/-! ## The next packet (R26, R32) -/

/-- The part with its lane IDLE again. -/
def State.laneFreed (s : State) (dt : Nat) : State := { s.advance dt with cmd := { s.cmd with lane := none } }

theorem exec_transmissionEnd (dt : Nat) (s : State) (h : s.cmd.lane ≠ none) :
    exec (.transmissionEnd dt) s = .next (State.laneFreed s dt).pump := by
  show execTransmissionEnd dt s = _
  unfold execTransmissionEnd
  dsimp only
  split
  · rfl
  · next hn => exact absurd hn h

/-- With nothing in the slot the oldest filled reply is sent. -/
theorem sendNext_reply (s : State) (r : Reply) (rest : List Reply) (hl : s.cmd.lane = none) (hs : s.rpu.slot = none)
    (hf : s.cmd.filled = r :: rest) :
    s.sendNext = { s with cmd := { s.cmd with lane := some (.reply r), filled := rest } } := by
  simp [State.sendNext, hl, hs, hf]

theorem sendNext_nothing (s : State) (hs : s.rpu.slot = none) (hf : s.cmd.filled = []) : s.sendNext = s := by
  unfold State.sendNext
  split
  · rfl
  · simp [hs, hf]

/-- The command unit's look at its queue, in terms of the entries that its replies need (R26, R29). -/
theorem takeNext_entries (s : State) (hf : s.cmd.inFlight = none) :
    (∀ p rest, s.cmd.queue = p :: rest →
      (p.reserves = 0 ∨ p.reserves + s.cmd.filled.length + s.cmd.owed.length ≤ 8 →
        s.takeNext.cmd.inFlight = some ⟨p, p.reserves⟩ ∧ s.takeNext.cmd.queue = rest) ∧
      (p.reserves ≠ 0 → 8 < p.reserves + s.cmd.filled.length + s.cmd.owed.length →
        s.takeNext.cmd.inFlight = none ∧ s.takeNext.cmd.queue = s.cmd.queue)) ∧
    (s.cmd.queue = [] → s.takeNext.cmd.inFlight = none ∧ s.takeNext.cmd.queue = []) := by
  have free : s.cmd.free = 8 - (s.cmd.filled.length + s.cmd.owed.length) := by
    simp [Cmd.free, hf, Config.replyEntries]
  refine ⟨fun p rest hq => ⟨fun room => ?_, fun needs full => ?_⟩, fun hq => ?_⟩
  · rw [takeNext_takes s p rest hf hq (by omega)]
    exact ⟨rfl, rfl⟩
  · rw [takeNext_waits s p rest hq (by omega)]
    exact ⟨hf, rfl⟩
  · obtain ⟨flight, queue⟩ | ⟨q, -, queue⟩ := takeNext_cases s hf
    · exact ⟨flight, queue.trans hq⟩
    · rw [hq] at queue
      cases queue

/-- What the lane sends once it is IDLE, with nothing in the slot. -/
theorem pump_reply (s : State) (hl : s.cmd.lane = none) (hs : s.rpu.slot = none) :
    (∀ r rest, s.cmd.filled = r :: rest →
      s.pump.cmd.lane = some (.reply r) ∧ s.pump.cmd.filled = rest ∧ s.pump.rpu.slot = none) ∧
    (s.cmd.filled = [] → s.pump.cmd.lane = none ∧ s.pump.cmd.filled = [] ∧ s.pump.rpu.slot = none) := by
  unfold State.pump
  rw [takeNext_lane, takeNext_filled, State.takeNext_rpu]
  refine ⟨fun r rest hf => ?_, fun hf => ?_⟩
  · rw [sendNext_reply s r rest hl hs hf]
    exact ⟨rfl, rfl, hs⟩
  · rw [sendNext_nothing s hs hf]
    exact ⟨hl, hf, hs⟩

/-- Settles O45: the bytes of a reply and of a report field by field, the code of a count, and the lane's choice. -/
theorem laneChoosesNextPacket : Obligations.LaneChoosesNextPacket := by
  refine ⟨fun r => ?_, fun r => ?_, fun c => ⟨compactCode_small, compactCode_large, fun e => compactCode_at⟩,
    fun dt s h => ?_⟩
  · obtain ⟨tag, seq, code, result, reason, final, count⟩ := reply_fields r
    obtain ⟨words, crc⟩ := reply_words r
    refine ⟨r.bytes, rfl, length_reply r, tag, seq, code, ?_, ?_, final, count, words, crc⟩
    · exact (congrArg _ result).trans (result_of_code _).1
    · exact (congrArg _ reason).trans (reason_of_code _).1
  · have crc := report_crc r
    have length := length_report r
    have layout := bytes_report r
    generalize wordBytes _ = last at layout
    obtain ⟨tag, frame, stamp, states, committed, reason, flags⟩ := report_states r last
    obtain ⟨k, demand, maxL4, globalMean, solveStatus⟩ := report_figures r last
    obtain ⟨burstLate, thermal, charErrors, clips, packetErrors⟩ := report_counts r last
    obtain ⟨-, mode, input, rest⟩ := reportStates_fields r
    rw [← states] at mode input rest
    rw [layout] at crc length
    refine ⟨reportThen r last, congrArg _ layout, length, tag, frame, stamp, ?_, ?_, ?_, committed, ?_, flags, k,
      demand, maxL4, globalMean, ?_, burstLate, fun c => ?_, charErrors, clips, packetErrors, crc⟩
    · exact (congrArg _ mode).trans (mode_of_code _).1
    · exact (congrArg _ input).trans (input_of_code _).1
    · refine rest.trans ?_
      cases r.transition <;> cases r.attention <;> cases r.foldback <;> rfl
    · exact (congrArg _ reason).trans (reason_of_code _).1
    · exact (congrArg _ solveStatus).trans (outcome_of_code _).1
    · have digit := (thermalWord_digits r.thermal).2 c
      rw [← thermal] at digit
      exact (congrArg _ digit).trans (thermal_of_code _).1
  · have kept := congrArg (fun t : State => { t with clock := s.clock })
      (pump_kept (State.laneFreed s dt) s.cmd s.rpu.slot)
    have owed : (State.laneFreed s dt).sendNext.cmd.owed = s.cmd.owed := sendNext_owed _
    have flight : (State.laneFreed s dt).sendNext.cmd.inFlight = s.cmd.inFlight := sendNext_inFlight _
    have queue : (State.laneFreed s dt).sendNext.cmd.queue = s.cmd.queue := sendNext_queue _
    have takes := takeNext_entries (State.laneFreed s dt).sendNext
    rw [flight, queue] at takes
    refine ⟨_, exec_transmissionEnd dt s h, fun r hs => ?_, fun r rest hs => ?_, fun hs => ?_, pump_owed _,
      fun busy => ?_, fun p rest idle hq => ?_, fun idle hq => (takes idle).2 hq, State.pump_clock _, kept⟩
    · obtain ⟨sent, -, filled, -⟩ := pump_report (State.laneFreed s dt) r hs
      exact ⟨(sent rfl).1, (sent rfl).2, filled⟩
    · exact (pump_reply (State.laneFreed s dt) rfl hs).1 r rest
    · exact (pump_reply (State.laneFreed s dt) rfl hs).2
    · unfold State.pump
      rw [takeNext_busy _ (by rw [flight]; exact busy)]
      exact ⟨flight, queue⟩
    · unfold State.pump
      rw [takeNext_filled, takeNext_owed]
      exact (takes idle).1 p rest hq

end Sys2Proof.Laws
end

