-- ==== Sys2Proof/Proofs/WriteTable.lean ====
section
/-! PROOF. WRITE_TABLE: the words that it stores in a staging bank, and its checks in order (R41, R42). -/

namespace Sys2Proof.Laws

open Sys2Proof.Machine

/-! ## Runs of words -/

/-- What a read gives after a run of words is written. -/
theorem writeWords_word (ws : List Word) (s : State) (m i a : Nat) :
    (s.writeWords m i ws).mem.word a =
      if wordKey m i ≤ a ∧ a < wordKey m i + ws.length then ws.getD (a - wordKey m i) 0 else s.mem.word a := by
  induction ws generalizing s i with
  | nil => rw [if_neg (by simp)]; rfl
  | cons w ws ih =>
    have next : wordKey m (i + 1) = wordKey m i + 1 := by unfold wordKey; omega
    rw [State.writeWords, ih, next, State.writeWord_mem, List.length_cons]
    rcases Nat.lt_trichotomy a (wordKey m i) with below | rfl | above
    · rw [if_neg (by omega), if_neg (by omega), word_store_other _ _ _ _ (by omega)]
    · rw [if_neg (by omega), if_pos (by omega), word_store_same, Nat.sub_self, List.getD_cons_zero]
    · rw [word_store_other _ _ _ _ (by omega)]
      obtain ⟨j, rfl⟩ : ∃ j, a = wordKey m i + 1 + j := ⟨a - (wordKey m i + 1), by omega⟩
      have place : wordKey m i + 1 + j - wordKey m i = j + 1 := by omega
      rw [place, Nat.add_sub_cancel_left, List.getD_cons_succ]
      exact if_congr (by omega) rfl rfl

/-- A run of words that is written has fresh check bits; every other verdict stays. -/
theorem writeWords_upset (ws : List Word) (s : State) (m i a : Nat) :
    sparseGet (fun _ => none) (s.writeWords m i ws).imn.upsets a =
      if wordKey m i ≤ a ∧ a < wordKey m i + ws.length then none else sparseGet (fun _ => none) s.imn.upsets a := by
  induction ws generalizing s i with
  | nil => rw [if_neg (by simp)]; rfl
  | cons w ws ih =>
    have next : wordKey m (i + 1) = wordKey m i + 1 := by unfold wordKey; omega
    have fresh : sparseGet (fun _ => none) (s.writeWord (wordKey m i) w).imn.upsets a =
        if a = wordKey m i then none else sparseGet (fun _ => none) s.imn.upsets a :=
      sparseGet_put (fun _ => none) s.imn.upsets (wordKey m i) a none
    rw [State.writeWords, ih, next, fresh, List.length_cons, ← ite_or]
    exact if_congr (by omega) rfl rfl

/-- A run of words touches the memory and the verdicts alone. -/
theorem writeWords_kept (ws : List Word) (s : State) (m i : Nat) :
    ∃ mem upsets, s.writeWords m i ws = { s with mem := mem, imn := { s.imn with upsets := upsets } } := by
  induction ws generalizing s i with
  | nil => exact ⟨_, _, rfl⟩
  | cons w ws ih =>
    obtain ⟨mem, upsets, written⟩ := ih (s.writeWord (wordKey m i) w) (i + 1)
    exact ⟨mem, upsets, written⟩

theorem writeWords_append (a b : List Word) (s : State) (m i : Nat) :
    s.writeWords m i (a ++ b) = (s.writeWords m i a).writeWords m (i + a.length) b := by
  induction a generalizing s i with
  | nil => rfl
  | cons w a ih =>
    rw [List.cons_append, State.writeWords, ih, List.length_cons, Nat.add_right_comm, Nat.add_assoc]
    rfl

/-- Place `j` of piece `i` of a list that is made of pieces of one length. -/
theorem flatMap_getElem? {α β : Type} (f : α → List β) (per : Nat) (l : List α) (h : ∀ x ∈ l, (f x).length = per)
    (i j : Nat) (x : α) (hx : l[i]? = some x) (hj : j < per) : (l.flatMap f)[per * i + j]? = (f x)[j]? := by
  induction l generalizing i with
  | nil => cases hx
  | cons y l ih =>
    have hy : (f y).length = per := h y List.mem_cons_self
    rw [List.flatMap_cons]
    cases i with
    | zero =>
      obtain rfl : y = x := Option.some.inj hx
      rw [Nat.mul_zero, Nat.zero_add, List.getElem?_append_left (by omega)]
    | succ i =>
      have place : per * (i + 1) + j - per = per * i + j := by rw [Nat.mul_succ]; omega
      rw [List.getElem?_append_right (by rw [hy, Nat.mul_succ]; omega), hy, place]
      exact ih (fun z hz => h z (List.mem_cons_of_mem y hz)) i hx

/-! ## Entries -/

/-- Entry `i` of the data words. -/
def entryAt (per : Nat) (data : List Word) (i : Nat) : List Word := (data.drop (i * per)).take per

theorem entryAt_getD (per : Nat) (data : List Word) (i j : Nat) (h : j < per) :
    (entryAt per data i).getD j 0 = data.getD (per * i + j) 0 := by
  unfold entryAt
  rw [List.getD_eq_getElem?_getD, List.getD_eq_getElem?_getD, List.getElem?_take_of_lt h, List.getElem?_drop,
    Nat.mul_comm i]

theorem entriesOf_getElem? (per n : Nat) (data : List Word) (i : Nat) (h : i < n) :
    (entriesOf per n data)[i]? = some (entryAt per data i) := by
  simp [entriesOf, entryAt, h]

/-- Some entry of a write, told by its number, has a property. -/
theorem entries_any (f : Nat → List Word → Bool) (per n start : Nat) (data : List Word) :
    ((entriesOf per n data).zipIdx start).any (fun e => f e.2 e.1) = true ↔
      ∃ i < n, f (start + i) (entryAt per data i) = true := by
  rw [List.any_eq_true]
  constructor
  · rintro ⟨⟨ws, k⟩, mem, holds⟩
    obtain ⟨le, at_k⟩ := List.mk_mem_zipIdx_iff_le_and_getElem?_sub.1 mem
    obtain ⟨i, rfl⟩ := Nat.exists_eq_add_of_le le
    rw [Nat.add_sub_cancel_left] at at_k
    have hi : i < n := by simpa [entriesOf] using (List.getElem?_eq_some_iff.1 at_k).1
    rw [entriesOf_getElem? _ _ _ _ hi] at at_k
    exact ⟨i, hi, by rw [Option.some.inj at_k]; exact holds⟩
  · rintro ⟨i, hi, holds⟩
    refine ⟨(entryAt per data i, start + i), ?_, holds⟩
    rw [List.mk_mem_zipIdx_iff_le_and_getElem?_sub, Nat.add_sub_cancel_left]
    exact ⟨Nat.le_add_right _ _, entriesOf_getElem? _ _ _ _ hi⟩

/-- An entry of a loaded table is stored as that table's words. -/
theorem length_storedEntry (t e : Nat) (ws : List Word) (h : t ≤ 3) :
    (storedEntry t e ws).length = Config.wordsPerEntry t := by
  match t, h with
  | 0, _ | 1, _ | 2, _ | 3, _ => rfl

/-- The words that entries of table `t`, from entry `e` on, are stored as. -/
def storedWords (t e : Nat) (entries : List (List Word)) : List Word :=
  (entries.zipIdx e).flatMap (fun x => storedEntry t x.2 x.1)

theorem length_storedWords (t e : Nat) (entries : List (List Word)) (h : t ≤ 3) :
    (storedWords t e entries).length = entries.length * Config.wordsPerEntry t := by
  simp [storedWords, List.length_flatMap, length_storedEntry _ _ _ h]

/-- The entries of a write are one run of words. -/
theorem storeEntries_eq (t e : Nat) (entries : List (List Word)) (s : State) (h : t ≤ 3) :
    s.storeEntries t e entries =
      s.writeWords (bankMemory t 0) (e * Config.wordsPerEntry t) (storedWords t e entries) := by
  induction entries generalizing s e with
  | nil => rfl
  | cons ws rest ih =>
    have head : storedWords t e (ws :: rest) = storedEntry t e ws ++ storedWords t (e + 1) rest := rfl
    rw [State.storeEntries, ih, head, writeWords_append, length_storedEntry _ _ _ h, Nat.succ_mul]

/-- The key of word `j` of an entry, from the first key of the run that holds the entry. -/
theorem wordKey_in_run (m per start i j : Nat) :
    wordKey m (per * (start + i) + j) = wordKey m (start * per) + (per * i + j) := by
  unfold wordKey
  rw [Nat.mul_add, Nat.mul_comm start]
  omega

/-- Where a write of `n` entries stores, from its first word on. -/
theorem run_iff (m per start n a : Nat) :
    (wordKey m (start * per) ≤ a ∧ a < wordKey m (start * per) + n * per) ↔
      wordKey m (per * start) ≤ a ∧ a < wordKey m (per * (start + n)) := by
  unfold wordKey
  rw [Nat.mul_add, Nat.mul_comm start, Nat.mul_comm n]
  omega

/-! ## Entries stored in a staging bank -/

/-- `n` entries of the data words stored in the staging bank of table `t`, from entry `start` on. -/
def State.tableWritten (s : State) (t start n : Nat) (data : List Word) : State :=
  s.storeEntries t start (entriesOf (Config.wordsPerEntry t) n data)

theorem tableWritten_eq (s : State) (t start n : Nat) (data : List Word) (h : t ≤ 3) :
    State.tableWritten s t start n data = s.writeWords (bankMemory t 0) (start * Config.wordsPerEntry t)
      (storedWords t start (entriesOf (Config.wordsPerEntry t) n data)) :=
  storeEntries_eq t start _ s h

theorem length_written (t start n : Nat) (data : List Word) (h : t ≤ 3) :
    (storedWords t start (entriesOf (Config.wordsPerEntry t) n data)).length = n * Config.wordsPerEntry t := by
  rw [length_storedWords _ _ _ h]
  simp [entriesOf]

/-- A write touches the memory and the verdicts alone. -/
theorem tableWritten_kept (s : State) (t start n : Nat) (data : List Word) (h : t ≤ 3) :
    ∃ mem upsets, State.tableWritten s t start n data =
      { s with mem := mem, imn := { s.imn with upsets := upsets } } := by
  rw [tableWritten_eq s t start n data h]
  exact writeWords_kept _ s _ _

/-- A stored entry stands in the staging bank as its table stores it. -/
theorem tableWritten_inside (s : State) (t start n : Nat) (data : List Word) (h : t ≤ 3) (i j : Nat) (hi : i < n)
    (hj : j < Config.wordsPerEntry t) :
    (State.tableWritten s t start n data).mem.word
        (wordKey (2 * t) (Config.wordsPerEntry t * (start + i) + j)) =
      (storedEntry t (start + i) (entryAt (Config.wordsPerEntry t) data i)).getD j 0 := by
  have at_i : ((entriesOf (Config.wordsPerEntry t) n data).zipIdx start)[i]? =
      some (entryAt (Config.wordsPerEntry t) data i, start + i) := by
    rw [List.getElem?_zipIdx, entriesOf_getElem? _ _ _ _ hi]
    rfl
  have piece := flatMap_getElem? (fun x : List Word × Nat => storedEntry t x.2 x.1) (Config.wordsPerEntry t) _
    (fun x _ => length_storedEntry t _ _ h) i j _ at_i hj
  have inside : Config.wordsPerEntry t * i + j < n * Config.wordsPerEntry t := by
    calc Config.wordsPerEntry t * i + j < Config.wordsPerEntry t * (i + 1) := by rw [Nat.mul_succ]; omega
      _ ≤ n * Config.wordsPerEntry t := by rw [Nat.mul_comm n]; exact Nat.mul_le_mul_left _ hi
  rw [tableWritten_eq s t start n data h, writeWords_word, length_written t start n data h, wordKey_in_run,
    show bankMemory t 0 = 2 * t from rfl, if_pos (by omega), Nat.add_sub_cancel_left, List.getD_eq_getElem?_getD,
    List.getD_eq_getElem?_getD]
  exact congrArg (Option.getD · 0) piece

/-- Every other word stands as it stood, with its verdict. -/
theorem tableWritten_outside (s : State) (t start n : Nat) (data : List Word) (h : t ≤ 3) (a : Nat)
    (ha : a < wordKey (2 * t) (Config.wordsPerEntry t * start) ∨
      wordKey (2 * t) (Config.wordsPerEntry t * (start + n)) ≤ a) :
    (State.tableWritten s t start n data).mem.word a = s.mem.word a ∧
      sparseGet (fun _ => none) (State.tableWritten s t start n data).imn.upsets a =
        sparseGet (fun _ => none) s.imn.upsets a := by
  have apart := run_iff (2 * t) (Config.wordsPerEntry t) start n a
  rw [tableWritten_eq s t start n data h, writeWords_word, writeWords_upset, length_written t start n data h,
    show bankMemory t 0 = 2 * t from rfl, if_neg (by omega), if_neg (by omega)]
  exact ⟨rfl, rfl⟩

/-- Every stored word has fresh check bits. -/
theorem tableWritten_fresh (s : State) (t start n : Nat) (data : List Word) (h : t ≤ 3) (a : Nat)
    (ha : wordKey (2 * t) (Config.wordsPerEntry t * start) ≤ a)
    (ha' : a < wordKey (2 * t) (Config.wordsPerEntry t * (start + n))) :
    sparseGet (fun _ => none) (State.tableWritten s t start n data).imn.upsets a = none := by
  rw [tableWritten_eq s t start n data h, writeWords_upset, length_written t start n data h,
    show bankMemory t 0 = 2 * t from rfl, if_pos ((run_iff _ _ _ _ _).2 ⟨ha, ha'⟩)]

/-- The staging banks hold no word of an active bank: a write leaves every word of a memory of odd number. -/
theorem tableWritten_active (s : State) (t start n : Nat) (data : List Word) (h : t ≤ 3)
    (hn : start + n ≤ Config.tableEntries t) (m i : Nat) (hm : m % 2 = 1) (hi : i < 32768) :
    (State.tableWritten s t start n data).mem.word (wordKey m i) = s.mem.word (wordKey m i) ∧
      (State.tableWritten s t start n data).verdict (wordKey m i) = s.verdict (wordKey m i) := by
  have size : Config.wordsPerEntry t * (start + n) ≤ 32768 := by
    refine le_trans (Nat.mul_le_mul_left _ hn) ?_
    match t, h with
    | 0, _ | 1, _ | 2, _ | 3, _ => decide
  have le : Config.wordsPerEntry t * start ≤ Config.wordsPerEntry t * (start + n) :=
    Nat.mul_le_mul_left _ (Nat.le_add_right _ _)
  have apart : wordKey m i < wordKey (2 * t) (Config.wordsPerEntry t * start) ∨
      wordKey (2 * t) (Config.wordsPerEntry t * (start + n)) ≤ wordKey m i := by
    unfold wordKey
    omega
  obtain ⟨mem, upset⟩ := tableWritten_outside s t start n data h _ apart
  obtain ⟨mem', upsets', kept⟩ := tableWritten_kept s t start n data h
  refine ⟨mem, ?_⟩
  unfold State.verdict
  rw [upset, kept]

/-! ## What each table stores (R51, R53, R55) -/

theorem wordsPerEntry_loaded (t : Nat) (h : t ≤ 3) : Config.wordsPerEntry t = if t ≤ 1 then 2 else 1 := by
  match t, h with
  | 0, _ | 1, _ | 2, _ | 3, _ => rfl

theorem tableEntries_loaded (t : Nat) (h : t ≤ 3) :
    Config.tableEntries t = if t = 0 then 43 else if t = 1 then 2304 else if t = 2 then 33 else 49 := by
  match t, h with
  | 0, _ | 1, _ | 2, _ | 3, _ => rfl

/-- The two words of a count join to it again. -/
theorem natWords_join (v : Nat) (h : v < 4294967296) :
    ((natWords v).getD 0 0).toNat * 65536 + ((natWords v).getD 1 0).toNat = v := by
  simp only [natWords, dwordWords, dwordOfNat, List.getD_cons_zero, List.getD_cons_succ, BitVec.extractLsb'_toNat,
    BitVec.toNat_ofNat, Nat.shiftRight_eq_div_pow]
  omega

theorem pairValue_eq (ws : List Word) :
    pairValue ws = (ws.getD 0 0).toNat * 65536 + (ws.getD 1 0).toNat := toNat_joinWords _ _

/-- A clamped value lies in its row's range. -/
theorem clampTo_legal (e v : Nat) (h : e < 43) :
    (Config.setting e).lo ≤ clampTo (Config.setting e).lo (Config.setting e).hi v ∧
      clampTo (Config.setting e).lo (Config.setting e).hi v ≤ (Config.setting e).hi := by
  have row : ∀ i < 43, (Config.setting i).lo ≤ (Config.setting i).hi := by decide
  have := row e h
  unfold clampTo
  omega

/-- No value of SETTINGS is wider than its two words. -/
theorem setting_hi_lt (e : Nat) (h : e < 43) : (Config.setting e).hi < 4294967296 := by
  have row : ∀ i < 43, (Config.setting i).hi < 4294967296 := by decide
  exact row e h

/-- What a stored entry holds, table by table, where `word j` is its data word `j`. -/
theorem tableWritten_entry (s : State) (t start n : Nat) (data : List Word) (h : t ≤ 3)
    (hn : start + n ≤ Config.tableEntries t) (i : Nat) (hi : i < n) (word : Nat → Word)
    (hw : ∀ j < Config.wordsPerEntry t, (entryAt (Config.wordsPerEntry t) data i).getD j 0 = word j) :
    let mem := (State.tableWritten s t start n data).mem
    (t = 0 → mem.setting 0 (start + i) = clampTo (Config.setting (start + i)).lo (Config.setting (start + i)).hi
      ((word 0).toNat * 65536 + (word 1).toNat)) ∧
    (t = 1 → mem.word (wordKey 2 (2 * (start + i))) = (if (word 0).getLsbD 15 then word 0 &&& 0xFFFC else 0) ∧
      mem.word (wordKey 2 (2 * (start + i) + 1)) =
        (if (word 1).toNat / 256 = 0 then word 1 ||| 0x0100 else word 1)) ∧
    (t = 2 → mem.word (wordKey 4 (start + i)) = if 4095 < (word 0).toNat then 4095 else word 0) ∧
    (t = 3 → mem.word (wordKey 6 (start + i)) = word 0) := by
  intro mem
  have stored := tableWritten_inside s t start n data h i
  refine ⟨?_, ?_, ?_, ?_⟩ <;> rintro rfl
  · have within : start + n ≤ 43 := hn
    have legal := clampTo_legal (start + i) ((word 0).toNat * 65536 + (word 1).toNat) (by omega)
    have fits := setting_hi_lt (start + i) (by omega)
    have value : pairValue (entryAt (Config.wordsPerEntry 0) data i) = (word 0).toNat * 65536 + (word 1).toNat := by
      rw [pairValue_eq, hw 0 (by decide), hw 1 (by decide)]
    have high := stored 0 hi (by decide)
    have low := stored 1 hi (by decide)
    unfold storedEntry at high low
    dsimp only at high low
    rw [value] at high low
    exact (congrArg₂ (fun a b : Word => a.toNat * 65536 + b.toNat) high low).trans
      (natWords_join _ (lt_of_le_of_lt legal.2 fits))
  · have high := stored 0 hi (by decide)
    have low := stored 1 hi (by decide)
    rw [← hw 0 (by decide), ← hw 1 (by decide)]
    exact ⟨high, low⟩
  · have only := stored 0 hi (by decide)
    rw [← hw 0 (by decide)]
    exact (congrArg mem.word (by unfold wordKey; simp [Config.wordsPerEntry])).trans only
  · have only := stored 0 hi (by decide)
    rw [← hw 0 (by decide)]
    exact (congrArg mem.word (by unfold wordKey; simp [Config.wordsPerEntry])).trans only

theorem entryRefused_iff (t e : Nat) (ws : List Word) :
    entryRefused t e ws = true ↔
      (t = 0 ∧ (Config.setting e).refuse = true ∧
        (pairValue ws < (Config.setting e).lo ∨ (Config.setting e).hi < pairValue ws)) ∨
      (t = 1 ∧ (ws.getD 0 0).getLsbD 15 = true ∧
        (7 < ((ws.getD 0 0).toNat / 2048) % 16 ∨ 23 < ((ws.getD 0 0).toNat / 64) % 32)) := by
  match t with
  | 0 => simp [entryRefused]
  | 1 =>
    unfold entryRefused MapEntry.ofWords
    cases (ws.getD 0 0).getLsbD 15 <;> simp
  | t + 2 => simp [entryRefused]

theorem entryClamped_iff (t e : Nat) (ws : List Word) :
    entryClamped t e ws = true ↔
      (t = 0 ∧ (pairValue ws < (Config.setting e).lo ∨ (Config.setting e).hi < pairValue ws)) ∨
      (t = 1 ∧ (ws.getD 1 0).toNat / 256 = 0) ∨ (t = 2 ∧ 4095 < (ws.getD 0 0).toNat) := by
  match t with
  | 0 | 1 | 2 | t + 3 => simp [entryClamped]

/-! ## The checks and the answer -/

/-- A body that refuses with a packet in flight: the refusal is answered, and nothing else changes. -/
theorem refused_of_body {dt : Nat} {s : State} {p : Packet} {r : Result} {o : Host.Outcome State Fault Refusal}
    {b : State × Option Answer} (run : o = .next (b.1.finish p b.2)) (hb : b = refusal (s.advance dt) r)
    (clean : s.cleanSetting Config.deviceTag) :
    ∃ t, o = .next t ∧ s.answered t p r [] ∧ t.clock = (s.advance dt).clock ∧ s.keptElsewhere t := by
  subst hb
  exact ⟨_, run, finish_refused dt s p r clean⟩

theorem writeTable_eq (p : Packet) (s : State) (w0 w1 : Word) (data : List Word) (hp : p.payload = w0 :: w1 :: data) :
    writeTable p s =
      let t := w0.toNat
      let start := w1.toNat
      let per := Config.wordsPerEntry t
      let n := data.length / per
      if 7 < t then refusal s .badTable
      else if 3 < t then refusal s .readOnly
      else if data.length % per ≠ 0 then refusal s .badLength
      else if Config.tableEntries t ≤ start ∨ Config.tableEntries t < start + n then refusal s .range
      else if ∃ i < n, entryRefused t (start + i) (entryAt per data i) = true then refusal s .range
      else (State.tableWritten s t start n data,
        some (.plain (if ∃ i < n, entryClamped t (start + i) (entryAt per data i) = true then .clamped else .ok))) := by
  unfold writeTable Packet.arg
  rw [hp]
  dsimp only [List.getD_cons_zero, List.getD_cons_succ, List.drop_succ_cons, List.drop_zero]
  simp only [entries_any, List.zipIdx_map_fst]
  rfl

/-- A packet of this length in flight runs WRITE_TABLE's body. -/
theorem exec_writeTable (dt : Nat) (s : State) (p : Packet) (hr : s.runs p 0x10) (h : 3 ≤ p.payload.length)
    (h' : p.payload.length ≤ 120) :
    exec (.writeTable dt) s =
      .next ((writeTable p (s.advance dt)).1.finish p (writeTable p (s.advance dt)).2) :=
  congrArg Host.Outcome.next (execute_body (s.advance dt) p Config.codeWriteTable _ writeTable hr (by simp [h, h']))

/-- An accepted WRITE_TABLE is answered, and touches nothing but the memory and the verdicts. -/
theorem tableWritten_ended (dt : Nat) (s : State) (p : Packet) (r : Result) (t start n : Nat) (data : List Word)
    (ht : t ≤ 3) (hn : start + n ≤ Config.tableEntries t) (clean : s.cleanSetting Config.deviceTag) :
    let u := State.tableWritten (s.advance dt) t start n data
    let v := u.finish p (some (.plain r))
    s.answered v p r [] ∧ v.mem = u.mem ∧ v.imn = u.imn ∧ v.clock = (s.advance dt).clock ∧
      s.keptElsewhere { v with mem := s.mem, imn := { v.imn with upsets := s.imn.upsets } } := by
  intro u v
  have verdict (i : Nat) (hi : i < 32768) := (tableWritten_active (s.advance dt) t start n data ht hn 1 i rfl hi).2
  obtain ⟨mem, upsets, kept⟩ := tableWritten_kept (s.advance dt) t start n data ht
  have ended : v = { u with cmd := v.cmd, rpu := { u.rpu with slot := v.rpu.slot } } :=
    finish_eq u p (some (.plain r))
      ⟨(verdict 60 (by decide)).trans clean.1, (verdict 61 (by decide)).trans clean.2⟩
  have cmd : u.cmd = s.cmd := (congrArg State.cmd kept :)
  refine ⟨finish_answered s u p r [] (by rw [cmd]) (by rw [cmd]) (by rw [cmd]), ?_, ?_, ?_, ?_⟩
  · rw [ended]
  · rw [ended]
  · exact (State.finish_clock _ _ _).trans (congrArg State.clock kept :)
  · unfold State.keptElsewhere
    rw [ended, show u = _ from kept]
    rfl

/-- Settles O48: the checks in their order, and the stored words by their places in the staging bank. -/
theorem writeTableStoresStaging : Obligations.WriteTableStoresStaging := by
  intro dt s p w0 w1 data hr hp h1 h118 table start per size n word value row outside refused clamps stops
  obtain ⟨-, -, clean⟩ := id hr
  have run := exec_writeTable dt s p hr (by simp [hp]; omega) (by simp [hp]; omega)
  have body := writeTable_eq p (s.advance dt) w0 w1 data hp
  have stopped {r : Result} (hb : writeTable p (s.advance dt) = refusal (s.advance dt) r) : stops r :=
    refused_of_body run hb clean
  have hper (h : table ≤ 3) : Config.wordsPerEntry table = per := wordsPerEntry_loaded table h
  have hsize (h : table ≤ 3) : Config.tableEntries table = size := tableEntries_loaded table h
  have words (i j : Nat) (h : table ≤ 3) (hj : j < per) : (entryAt per data i).getD j 0 = word i j :=
    entryAt_getD per data i j hj
  have isRefused (i : Nat) (h : table ≤ 3) :
      entryRefused table (start + i) (entryAt per data i) = true ↔ refused i := by
    rw [entryRefused_iff, pairValue_eq]
    by_cases pairs : table ≤ 1
    · have two : per = 2 := if_pos pairs
      rw [words i 0 h (by omega), words i 1 h (by omega)]
    · exact iff_of_false (by omega) (by rintro (⟨h0, -⟩ | ⟨h1, -⟩) <;> omega)
  have isClamped (i : Nat) (h : table ≤ 3) : entryClamped table (start + i) (entryAt per data i) = true ↔ clamps i := by
    have first : 0 < per := by show 0 < if table ≤ 1 then 2 else 1; split <;> decide
    rw [entryClamped_iff, pairValue_eq, words i 0 h first]
    by_cases pairs : table ≤ 1
    · have two : per = 2 := if_pos pairs
      rw [words i 1 h (by omega)]
    · have two_or_more : table ≠ 0 ∧ table ≠ 1 := by omega
      show (table = 0 ∧ _ ∨ table = 1 ∧ _ ∨ _) ↔ (table = 0 ∧ _ ∨ table = 1 ∧ _ ∨ _)
      rw [eq_false two_or_more.1, eq_false two_or_more.2, false_and, false_and, false_and, false_and]
  refine ⟨fun big => stopped ?_, fun le big => stopped ?_, fun le ragged => stopped ?_, fun le whole out => stopped ?_,
    fun le whole lo hi bad => stopped ?_, fun le whole lo hi fine => ?_⟩
  · rw [body]
    exact if_pos big
  · rw [body]
    exact (if_neg (Nat.not_lt.2 le)).trans (if_pos big)
  all_goals
    have known : ¬ 7 < table ∧ ¬ 3 < table := by omega
    dsimp only at body
    rw [if_neg known.1, if_neg known.2, hper le, hsize le] at body
  · rw [body]
    exact if_pos ragged
  · rw [body, if_neg (not_not_intro whole)]
    exact if_pos out
  · rw [body, if_neg (not_not_intro whole), if_neg (by show ¬(size ≤ start ∨ size < start + n); omega)]
    exact if_pos (bad.imp fun i h => ⟨h.1, (isRefused i le).2 h.2⟩)
  · rw [if_neg (not_not_intro whole), if_neg (by show ¬(size ≤ start ∨ size < start + n); omega),
      if_neg (fun ⟨i, h, h'⟩ => fine i h ((isRefused i le).1 h'))] at body
    have fits : start + n ≤ Config.tableEntries table := by rw [hsize le]; exact hi
    obtain ⟨answered, mem, imn, clock, kept⟩ := tableWritten_ended dt s p
      (if ∃ i < n, entryClamped table (start + i) (entryAt per data i) = true then .clamped else .ok)
      table start n data le fits clean
    have entry (i : Nat) (h : i < n) := tableWritten_entry (s.advance dt) table start n data le fits i h (word i)
      (by rw [hper le]; exact fun j hj => words i j le hj)
    have apart := tableWritten_outside (s.advance dt) table start n data le
    have fresh := tableWritten_fresh (s.advance dt) table start n data le
    obtain ⟨mem', upsets', written⟩ := tableWritten_kept (s.advance dt) table start n data le
    have marks : (State.tableWritten (s.advance dt) table start n data).imn.marks = s.imn.marks :=
      (congrArg (fun u : State => u.imn.marks) written :)
    have anyClamped : (∃ i < n, entryClamped table (start + i) (entryAt per data i) = true) ↔ ∃ i < n, clamps i :=
      exists_congr fun i => and_congr_right fun _ => isClamped i le
    rw [hper le] at apart fresh
    refine ⟨_, _, run.trans (by rw [body]), answered, clock, ?_, ?_, fun i h => ?_, fun i h => ?_, fun i h => ?_,
      fun i h => ?_, fun a ha => ?_, fun a ha ha' => ?_, kept⟩
    · split
      · exact .inr rfl
      · exact .inl rfl
    · rw [← anyClamped]
      split
      · next c => exact iff_of_true rfl c
      · next c => exact iff_of_false nofun c
    · rw [mem]; exact (entry i h).1
    · rw [mem]; exact (entry i h).2.1
    · rw [mem]; exact (entry i h).2.2.1
    · rw [mem]; exact (entry i h).2.2.2
    · rw [mem, imn]; exact apart a ha
    · rw [imn, marks]; exact ⟨fresh a ha ha', rfl⟩

end Sys2Proof.Laws
end

