-- ==== Sys2Proof/Proofs/ReadTable.lean ====
section
/-! PROOF. READ_TABLE: the fields of every table's words at their places, and its checks in order (R43, R44, R184). -/

namespace Sys2Proof.Laws

open Sys2Proof.Machine

/-! ## Numbers in words -/

theorem toNat_wordOfNat {n : Nat} (h : n < 65536) : (wordOfNat n).toNat = n := by
  rw [wordOfNat, BitVec.toNat_ofNat]
  exact Nat.mod_eq_of_lt h

/-- The two words of a 32-bit value join to it again. -/
theorem dwordWords_join (d : Dword) :
    ((dwordWords d).getD 0 0).toNat * 65536 + ((dwordWords d).getD 1 0).toNat = d.toNat := by
  have := d.isLt
  simp only [dwordWords, List.getD_cons_zero, List.getD_cons_succ, BitVec.extractLsb'_toNat, Nat.shiftRight_eq_div_pow]
  omega

/-- The low word of a frame number. -/
theorem toNat_lowWord (f : Option Dword) : (lowWord f).toNat = (f.map (fun frame => frame.toNat % 65536)).getD 0 := by
  cases f with
  | none => rfl
  | some d => simp [lowWord]

theorem flag_eq_one (b : Bool) : flag b = 1 ↔ b = true := by cases b <;> decide

theorem flag_eq_ite (b : Bool) : flag b = if b then 1 else 0 := rfl

theorem latch_of_code (l : FaultLatch) : [FaultLatch.clear, .opened, .shorted][l.code]? = some l ∧ l.code < 4 := by
  cases l <;> decide

theorem device_of_code (d : DeviceState) :
    [DeviceState.unknown, .ok, .noResponse][d.code]? = some d ∧ d.code < 4 := by
  cases d <;> decide

theorem activity_code_lt (a : Activity) : a.code < 8 := by
  cases a <;> simp [Activity.code]

/-! ## The words of the live tables (R184) -/

/-- The fields of a ZONE_STATE entry. -/
theorem zoneWords_fields (s : State) (z : Nat) (w : Nat → Nat)
    (hw : ∀ j < 8, w j = ((s.zoneWords z).getD j 0).toNat) :
    let figures := statAt s.stu.stats z
    let shown := sparseGet (fun _ => 0) s.pxc.display z
    (figures.peak ≤ 4095 → w 0 % 4096 = figures.peak ∧
      [FaultLatch.clear, .opened, .shorted][w 0 / 4096]? = some (s.chc.latch z)) ∧
    (figures.mean ≤ 4095 → w 1 = figures.mean) ∧ (shown ≤ 4095 → w 2 = shown) ∧
    w 3 / 256 = compactCode figures.bright ∧ w 3 % 256 = compactCode figures.count ∧
    w 4 = (s.mem.word (zoneT z)).toNat ∧ w 5 = (s.mem.word (zoneF z)).toNat ∧
    w 6 = (s.mem.word (zoneL4 z)).toNat ∧ w 7 = (s.mem.word (zoneDuty z)).toNat := by
  intro figures shown
  obtain ⟨latch, code⟩ := latch_of_code (s.chc.latch z)
  have counts : w 3 = 256 * compactCode figures.bright + compactCode figures.count := by
    have bright := compactCode_lt figures.bright
    have count := compactCode_lt figures.count
    rw [hw 3 (by decide)]
    exact toNat_wordOfNat (n := 256 * compactCode figures.bright + compactCode figures.count) (by omega)
  refine ⟨fun peak => ?_, fun mean => ?_, fun level => ?_, ?_, ?_, hw 4 (by decide), hw 5 (by decide),
    hw 6 (by decide), hw 7 (by decide)⟩
  · have first : w 0 = figures.peak + 4096 * (s.chc.latch z).code := by
      rw [hw 0 (by decide)]
      exact toNat_wordOfNat (n := figures.peak + 4096 * (s.chc.latch z).code) (by omega)
    have high : w 0 / 4096 = (s.chc.latch z).code := by omega
    rw [high]
    exact ⟨by omega, latch⟩
  · rw [hw 1 (by decide)]
    exact toNat_wordOfNat (n := figures.mean) (by omega)
  · rw [hw 2 (by decide)]
    exact toNat_wordOfNat (n := shown) (by omega)
  · have := compactCode_lt figures.count
    omega
  · have := compactCode_lt figures.count
    omega

/-- The fields of a chain's first word, each at its bits. -/
theorem chainFlags_fields (w count long activity awaiting waiting pending hot done last enum : Nat)
    (hw : w = (wordOfNat (count + 32 * long + 64 * activity + 512 * awaiting + 1024 * waiting + 2048 * pending +
      4096 * hot + 8192 * done + 16384 * last + 32768 * enum)).toNat)
    (hc : count ≤ 24) (ha : activity < 8) (h5 : long ≤ 1) (h9 : awaiting ≤ 1) (h10 : waiting ≤ 1)
    (h11 : pending ≤ 1) (h12 : hot ≤ 1) (h13 : done ≤ 1) (h14 : last ≤ 1)
    (h15 : enum ≤ 1) :
    w % 32 = count ∧ w / 2 ^ 5 % 2 = long ∧ w / 64 % 8 = activity ∧ w / 2 ^ 9 % 2 = awaiting ∧
      w / 2 ^ 10 % 2 = waiting ∧ w / 2 ^ 11 % 2 = pending ∧ w / 2 ^ 12 % 2 = hot ∧ w / 2 ^ 13 % 2 = done ∧
      w / 2 ^ 14 % 2 = last ∧ w / 2 ^ 15 % 2 = enum := by
  rw [toNat_wordOfNat (by omega)] at hw
  norm_num only
  omega

theorem enumerating_iff (c : ChainRec) :
    c.enumerating = true ↔ c.enumWaiting = true ∨ ∃ phase, c.activity = .enumerate phase := by
  unfold ChainRec.enumerating ChainRec.sweeping
  rw [Bool.or_eq_true]
  cases c.activity <;> simp

/-- The fields of a CHAIN_STATE entry. -/
theorem chainWords_fields (s : State) (k : ChainNo) (w : Nat → Nat)
    (hw : ∀ j < 4, w j = ((s.chainWords k).getD j 0).toNat) :
    let c := s.chc.chains[k]
    let bit (n : Nat) : Prop := w 0 / 2 ^ n % 2 = 1
    (c.count ≤ 24 → w 0 % 32 = c.count ∧ (bit 5 ↔ c.overlength = true) ∧ w 0 / 64 % 8 = c.activity.code ∧
      (bit 9 ↔ c.awaiting ≠ none) ∧ (bit 10 ↔ c.waiting ≠ none) ∧ (bit 11 ↔ c.latchPending = true) ∧
      (bit 12 ↔ c.overTemp = true) ∧ (bit 13 ↔ c.doneTag ≠ none) ∧ (bit 14 ↔ c.lastLatch ≠ none) ∧
      (bit 15 ↔ c.enumWaiting = true ∨ ∃ phase, c.activity = .enumerate phase)) ∧
    (∀ r, s.sns.results[k.val]? = some r → r ≤ 1023 → w 1 % 1024 = r ∧
      [Thermal.normal, .warm, .hot][w 1 / 1024 % 4]? = some s.sns.thermal[k] ∧
      w 1 / 4096 = if s.sns.sensorFault[k] then 1 else 0) ∧
    w 2 = (c.doneTag.map (fun tag => tag.frame.toNat % 65536)).getD 0 ∧
    w 3 = (c.lastLatch.map (fun frame => frame.toNat % 65536)).getD 0 := by
  intro c bit
  have isSome {α : Type} (o : Option α) : flag o.isSome = 1 ↔ o ≠ none := by
    rw [flag_eq_one, Option.isSome_iff_ne_none]
  refine ⟨fun count => ?_, fun r stored range => ?_, ?_, ?_⟩
  · have long := flag_le c.overlength
    have awaiting := flag_le c.awaiting.isSome
    have waiting := flag_le c.waiting.isSome
    have pending := flag_le c.latchPending
    have hot := flag_le c.overTemp
    have done := flag_le c.doneTag.isSome
    have last := flag_le c.lastLatch.isSome
    have enum := flag_le c.enumerating
    have activity := activity_code_lt c.activity
    obtain ⟨b0, b5, b6, b9, b10, b11, b12, b13, b14, b15⟩ := chainFlags_fields (w 0) _ _ _ _ _ _ _ _ _ _
      (hw 0 (by decide)) count activity long awaiting waiting pending hot done last enum
    refine ⟨b0, ?_, b6, ?_, ?_, ?_, ?_, ?_, ?_, ?_⟩
    · show _ = 1 ↔ _
      rw [b5, flag_eq_one]
    · show _ = 1 ↔ _
      rw [b9, isSome]
    · show _ = 1 ↔ _
      rw [b10, isSome]
    · show _ = 1 ↔ _
      rw [b11, flag_eq_one]
    · show _ = 1 ↔ _
      rw [b12, flag_eq_one]
    · show _ = 1 ↔ _
      rw [b13, isSome]
    · show _ = 1 ↔ _
      rw [b14, isSome]
    · show _ = 1 ↔ _
      rw [b15, flag_eq_one, enumerating_iff]
  · obtain ⟨state, code⟩ := thermal_of_code s.sns.thermal[k]
    have result : s.sns.results.toList.getD k.val 0 = r := by
      rw [List.getD_eq_getElem?_getD, Vector.getElem?_toList, stored]
      rfl
    have fault := flag_le s.sns.sensorFault[k]
    have second : w 1 = r + 1024 * s.sns.thermal[k].code + 4096 * flag s.sns.sensorFault[k] := by
      rw [hw 1 (by decide)]
      show (wordOfNat (s.sns.results.toList.getD k.val 0 + _ + _)).toNat = _
      rw [result]
      exact toNat_wordOfNat (by omega)
    have thermal : w 1 / 1024 % 4 = s.sns.thermal[k].code := by omega
    rw [thermal, ← flag_eq_ite]
    exact ⟨by omega, state, by omega⟩
  · rw [hw 2 (by decide)]
    refine (toNat_lowWord _).trans ?_
    rw [Option.map_map]
    rfl
  · rw [hw 3 (by decide)]
    exact toNat_lowWord _

/-- The fields of a DEVICE_STATE entry. -/
theorem deviceWords_fields (s : State) (d : Nat) (w : Nat → Nat)
    (hw : ∀ j < 3, w j = ((s.deviceWords d).getD j 0).toNat) :
    let r := s.chc.device d
    (r.misses ≤ 15 → [DeviceState.unknown, .ok, .noResponse][w 0 % 4]? = some r.state ∧ w 0 / 4 % 16 = r.misses ∧
      w 0 / 64 = if r.overTemp then 1 else 0) ∧
    w 1 = r.opens.toNat ∧ w 2 = r.shorts.toNat := by
  intro r
  refine ⟨fun misses => ?_, hw 1 (by decide), hw 2 (by decide)⟩
  obtain ⟨state, code⟩ := device_of_code r.state
  have hot := flag_le r.overTemp
  have first : w 0 = r.state.code + 4 * r.misses + 64 * flag r.overTemp := by
    rw [hw 0 (by decide)]
    exact toNat_wordOfNat (n := r.state.code + 4 * r.misses + 64 * flag r.overTemp) (by omega)
  have low : w 0 % 4 = r.state.code := by omega
  rw [low, ← flag_eq_ite]
  exact ⟨state, by omega, by omega⟩

/-- The fields of an ERROR_LOG entry; zeros where there is none. -/
theorem logWords_fields (s : State) (i : Nat) (w : Nat → Nat)
    (hw : ∀ j < 4, w j = ((s.logWords i).getD j 0).toNat) :
    (s.imn.log[i]? = none → w 0 = 0 ∧ w 1 = 0 ∧ w 2 = 0 ∧ w 3 = 0) ∧
    ∀ e, s.imn.log[i]? = some e → e.memory ≤ 8 → e.index < 18432 →
      w 0 % 16 = e.memory ∧ w 0 / 16 = (if e.kind = .corrected then 1 else 2) ∧ w 1 = e.index ∧
      w 2 * 65536 + w 3 = e.frame.toNat := by
  have h0 := hw 0 (by decide)
  have h1 := hw 1 (by decide)
  have h2 := hw 2 (by decide)
  have h3 := hw 3 (by decide)
  constructor
  · intro empty
    simp only [State.logWords, empty] at h0 h1 h2 h3
    exact ⟨h0, h1, h2, h3⟩
  · intro e logged memory index
    simp only [State.logWords, logged] at h0 h1 h2 h3
    have kind : e.kind.code = if e.kind = .corrected then 1 else 2 := by cases e.kind <;> rfl
    have code : e.kind.code ≤ 2 := by cases e.kind <;> decide
    have first : w 0 = e.memory + 16 * e.kind.code := h0.trans (toNat_wordOfNat (by omega))
    rw [← kind]
    refine ⟨by omega, by omega, h1.trans (toNat_wordOfNat (by omega)), ?_⟩
    rw [h2, h3]
    exact dwordWords_join e.frame

/-! ## The words of a run of entries -/

/-- The words that READ_TABLE returns for `count` entries. -/
def State.runWords (s : State) (t b start count : Nat) : List Word :=
  (List.range count).flatMap (fun i => s.entryWords t b (start + i))

theorem entryWords_loaded (s : State) (t b e : Nat) (h : t ≤ 3) :
    s.entryWords t b e = (List.range (Config.wordsPerEntry t)).map
      (fun i => s.mem.word (wordKey (2 * t + b) (Config.wordsPerEntry t * e + i))) := by
  rw [Nat.mul_comm _ e]
  match t, h with
  | 0, _ | 1, _ | 2, _ | 3, _ => rfl

theorem entryWords_chain (s : State) (b e : Nat) (k : ChainNo) (h : k.val = e) :
    s.entryWords 5 b e = s.chainWords k := by
  subst h
  exact dif_pos k.isLt

theorem length_logWords (s : State) (i : Nat) : (s.logWords i).length = 4 := by
  unfold State.logWords
  split <;> rfl

/-- Every entry of a table has the table's number of words. -/
theorem length_entryWords (s : State) (t b e : Nat) (ht : t ≤ 7) (he : e < Config.tableEntries t) :
    (s.entryWords t b e).length = Config.wordsPerEntry t := by
  match t, ht with
  | 0, _ | 1, _ | 2, _ | 3, _ => rw [entryWords_loaded s _ b e (by decide), List.length_map, List.length_range]
  | 4, _ => rfl
  | 5, _ => rw [entryWords_chain s b e ⟨e, he⟩ rfl]; rfl
  | 6, _ => rfl
  | 7, _ => exact length_logWords s e

section
variable (s : State) (t b start count : Nat) (ht : t ≤ 7) (hn : start + count ≤ Config.tableEntries t)
include ht hn

theorem length_runWords : (State.runWords s t b start count).length = count * Config.wordsPerEntry t := by
  unfold State.runWords
  rw [List.length_flatMap, List.map_congr_left (g := fun _ => Config.wordsPerEntry t)]
  · simp
  · intro i hi
    have := List.mem_range.1 hi
    exact length_entryWords s t b _ ht (by omega)

/-- Word `j` of entry `i` of the run. -/
theorem runWords_getElem? (i j : Nat) (hi : i < count) (hj : j < Config.wordsPerEntry t) :
    (State.runWords s t b start count)[Config.wordsPerEntry t * i + j]? = (s.entryWords t b (start + i))[j]? := by
  refine flatMap_getElem? _ _ _ (fun i hi => ?_) i j i (by rw [List.getElem?_range hi]) hj
  have := List.mem_range.1 hi
  exact length_entryWords s t b _ ht (by omega)

end

/-! ## The checks and the answer -/

theorem readEntries_of_quiet (s : State) (hq : s.quiet) (t b start count : Nat) :
    s.readEntries t b start count = s := by
  unfold State.readEntries
  split
  · exact readRange_of_quiet s hq _ _
  · rfl

/-- READ_TABLE's checks, and the words that it returns where no error waits. -/
theorem readTable_eq (p : Packet) (s : State) (w0 w1 w2 w3 : Word) (hp : p.payload = [w0, w1, w2, w3])
    (hq : s.quiet) :
    readTable p s =
      if 7 < w0.toNat then refusal s .badTable
      else if (if w0.toNat ≤ 3 then 1 else 0) < w1.toNat then refusal s .badTable
      else if w3.toNat = 0 ∨ 112 < w3.toNat * Config.wordsPerEntry w0.toNat then refusal s .range
      else if Config.tableEntries w0.toNat ≤ w2.toNat ∨ Config.tableEntries w0.toNat < w2.toNat + w3.toNat then
        refusal s .range
      else (s, some (.ok ([w0, w1, w2, w3, s.tbs.marks.zeroExtend 16] ++ dwordWords s.ftu.frameNumber ++
        State.runWords s w0.toNat w1.toNat w2.toNat w3.toNat))) := by
  unfold readTable Packet.arg
  dsimp only
  rw [readEntries_of_quiet s hq, hp]
  rfl

theorem exec_readTable (dt : Nat) (s : State) (p : Packet) (hr : s.runs p 0x11) (hb : p.broadcast = false)
    (hp : p.payload.length = 4) :
    exec (.readTable dt) s =
      .next ((readTable p (s.advance dt)).1.finish p (readTable p (s.advance dt)).2) := by
  obtain ⟨flying, code, -⟩ := hr
  exact congrArg Host.Outcome.next (execute_body_own (s.advance dt) p Config.codeReadTable true (exactly 4) readTable
    flying code hb (by rw [hp]; rfl))

theorem wordsPerEntry_getD (t : Nat) (h : t ≤ 7) : Config.wordsPerEntry t = [2, 2, 1, 1, 8, 4, 3, 4].getD t 0 := by
  match t, h with
  | 0, _ | 1, _ | 2, _ | 3, _ | 4, _ | 5, _ | 6, _ | 7, _ => rfl

/-- Settles O49: the checks in their order, and the words of the entries, table by table. -/
theorem readTableReturnsEntries : Obligations.ReadTableReturnsEntries := by
  intro dt s p w0 w1 w2 w3 hr hb hp hq table bank start count per size stops
  obtain ⟨-, -, clean⟩ := id hr
  have run := exec_readTable dt s p hr hb (by rw [hp]; rfl)
  have body : readTable p (s.advance dt) =
      if 7 < table then refusal (s.advance dt) .badTable
      else if (if table ≤ 3 then 1 else 0) < bank then refusal (s.advance dt) .badTable
      else if count = 0 ∨ 112 < count * Config.wordsPerEntry table then refusal (s.advance dt) .range
      else if Config.tableEntries table ≤ start ∨ Config.tableEntries table < start + count then
        refusal (s.advance dt) .range
      else (s.advance dt, some (.ok ([w0, w1, w2, w3, s.tbs.marks.zeroExtend 16] ++ dwordWords s.ftu.frameNumber ++
        State.runWords s table bank start count))) :=
    readTable_eq p (s.advance dt) w0 w1 w2 w3 hp hq
  have stopped {r : Result} (hb : readTable p (s.advance dt) = refusal (s.advance dt) r) : stops r :=
    refused_of_body run hb clean
  have hper (h : table ≤ 7) : Config.wordsPerEntry table = per := wordsPerEntry_getD table h
  have hsize : Config.tableEntries table = size := rfl
  refine ⟨fun big => stopped ?_, fun loaded big => stopped ?_, fun live le big => stopped ?_, fun named =>
    ⟨fun out => stopped ?_, fun lo hi out => stopped ?_, fun lo hi first last => ?_⟩⟩
  · rw [body, if_pos big]
  · rw [body, if_neg (by omega), if_pos loaded, if_pos big]
  · rw [body, if_neg (by omega), if_pos (by rw [if_neg (by omega)]; exact big)]
  all_goals
    have le : table ≤ 7 := by omega
    have banked : ¬ (if table ≤ 3 then 1 else 0) < bank := by split <;> omega
    rw [if_neg (Nat.not_lt.2 le), if_neg banked, hper le, hsize] at body
  · rw [body, if_pos out]
  · rw [body, if_neg (by omega), if_pos out]
  · rw [if_neg (by omega), if_neg (by omega)] at body
    have within : start + count ≤ Config.tableEntries table := last
    have words := runWords_getElem? s table bank start count le within
    rw [hper le] at words
    refine ⟨_, State.runWords s table bank start count, run.trans (by rw [body]),
      finish_ok_answered s (s.advance dt) p _ rfl, ?_, fun i hi j hj => ?_, ?_⟩
    · rw [length_runWords s table bank start count le within, hper le]
    · rw [words i j hi hj]
      refine ⟨fun loaded => ?_, fun h => ?_, fun k h hk => ?_, fun h => ?_, fun h => ?_⟩
      · rw [entryWords_loaded s table bank _ loaded, hper le, List.getElem?_map, List.getElem?_range hj]
        rfl
      · rw [h]; rfl
      · rw [h, entryWords_chain s bank _ k hk]
      · rw [h]; rfl
      · rw [h]; rfl
    · intro w
      have field (i j : Nat) (hi : i < count) (hj : j < per) :
          w i j = ((s.entryWords table bank (start + i)).getD j 0).toNat := by
        show ((State.runWords s table bank start count).getD (per * i + j) 0).toNat = _
        rw [List.getD_eq_getElem?_getD, words i j hi hj, ← List.getD_eq_getElem?_getD]
      have width {e : Nat} (h : table = e) : per = [2, 2, 1, 1, 8, 4, 3, 4].getD e 0 := h ▸ rfl
      refine ⟨fun h i hi => ?_, fun h i hi k hk => ?_, fun h i hi => ?_, fun h i hi => ?_, State.finish_clock _ _ _,
        finish_keptElsewhere dt s p _ clean⟩
      · refine zoneWords_fields s (start + i) (w i) fun j hj => ?_
        rw [field i j hi (by rw [width h]; exact hj), h]
        rfl
      · refine chainWords_fields s k (w i) fun j hj => ?_
        rw [field i j hi (by rw [width h]; exact hj), h, entryWords_chain s bank _ k hk]
      · refine deviceWords_fields s (start + i) (w i) fun j hj => ?_
        rw [field i j hi (by rw [width h]; exact hj), h]
        rfl
      · refine logWords_fields s (start + i) (w i) fun j hj => ?_
        rw [field i j hi (by rw [width h]; exact hj), h]
        rfl

end Sys2Proof.Laws
end

