-- ==== Sys2Proof/Proofs/Requests.lean ====
section
/-! PROOF. COMMIT and SET_MODE: what they hold for the next frame turn (R45, R150). -/

namespace Sys2Proof.Laws

open Sys2Proof.Machine

/-! ## A reply with a reason (R33) -/

/-- The end of a command that has changed nothing: its reply is queued, and the command unit goes on. -/
theorem finish_replied (dt : Nat) (s : State) (p : Packet) (a : Answer) :
    let t := (s.advance dt).finish p (some a)
    s.replied t (if p.broadcast then [] else [⟨t.tag, p.seq, p.code, a.result, a.reason, a.final, a.data⟩]) ∧
      s.tookNext t := by
  unfold State.finish State.answer
  cases p.broadcast with
  | true =>
    exact ⟨⟨(pump_outgoing _).trans (List.append_nil _).symm, pump_owed _⟩, pump_cases (s.advance dt).release rfl⟩
  | false =>
    refine ⟨⟨(pump_outgoing _).trans ((fill_outgoing _ _ _ _ _ _ _).trans ?_), (pump_owed _).trans (fill_owed ..)⟩, ?_⟩
    · unfold State.tag
      dsimp only
      rw [State.pump_mem]
      rfl
    · have goesOn := pump_cases ((s.advance dt).release.fill p.seq p.code a.result a.reason a.final a.data)
        (fill_inFlight _ _ _ _ _ _ _)
      rw [fill_queue] at goesOn
      exact goesOn

/-! ## COMMIT (R45) -/

theorem validateStaging_of_read (s : State)
    (read : s.readRange (wordKey (bankMemory 1 0) 0) (Config.memoryWords (bankMemory 1 0)) = s) (mask : BitVec 4) :
    s.validateStaging mask = (s, !(mask.getLsbD 1 && s.mem.duplicateChannel 0)) := by
  unfold State.validateStaging
  split
  · next named =>
    dsimp only
    rw [read, named, Bool.true_and]
  · next other =>
    rw [Bool.not_eq_true] at other
    rw [other]
    rfl

/-- COMMIT's checks where no error waits. -/
theorem commitTables_eq (p : Packet) (s : State) (w : Word) (hp : p.payload = [w]) (hq : s.quiet) :
    commitTables p s =
      if 15 < w.toNat then refusal s .badTable
      else if (BitVec.ofNat 4 w.toNat).getLsbD 1 && s.mem.duplicateChannel 0 then
        (s, some ⟨.configInvalid, .duplicateChannel, true, []⟩)
      else accepted { s with tbs := { s.tbs with marks := s.tbs.marks ||| BitVec.ofNat 4 w.toNat } } := by
  unfold commitTables Packet.arg
  dsimp only
  rw [validateStaging_of_read s (readRange_of_quiet s hq _ _), hp, show [w].getD 0 0 = w from rfl]
  cases (BitVec.ofNat 4 w.toNat).getLsbD 1 && s.mem.duplicateChannel 0 <;> rfl

/-- The bits of a word of at most 15 as a mask of four tables. -/
theorem mask_bit (w : Word) (t : Nat) (ht : t < 4) : (BitVec.ofNat 4 w.toNat).getLsbD t = w.getLsbD t := by
  rw [BitVec.getLsbD_ofNat, decide_eq_true ht, Bool.true_and]
  rfl

/-! ## SET_MODE (R150) -/

theorem enumerating_any (c : Chc) : c.enumerating = true ↔ ∃ k : ChainNo, c.chains[k].enumerating = true := by
  unfold Chc.enumerating
  rw [List.any_eq_true]
  constructor
  · rintro ⟨r, mem, running⟩
    obtain ⟨k, hk, rfl⟩ := List.getElem_of_mem mem
    exact ⟨⟨k, by simpa using hk⟩, by simpa using running⟩
  · rintro ⟨k, running⟩
    exact ⟨c.chains[k], by simp, running⟩

theorem mode_ofNat (n : Nat) : Mode.ofNat? n = none ↔ 3 < n := by
  match n with
  | 0 | 1 | 2 | 3 => decide
  | n + 4 => exact iff_of_true rfl (by omega)

theorem mode_ofNat_code (m : Mode) : Mode.ofNat? m.code = some m := by cases m <;> rfl

theorem setMode_range (p : Packet) (s : State) (w : Word) (hp : p.payload = [w]) (h : 3 < w.toNat) :
    setMode p s = refusal s .range := by
  unfold setMode Packet.arg
  rw [hp, List.getD_cons_zero, (mode_ofNat _).2 h]

theorem setMode_busy (p : Packet) (s : State) (w : Word) (hp : p.payload = [w]) (h : w.toNat ≤ 3)
    (hb : s.mdc.request ≠ none ∨ ∃ k : ChainNo, s.chc.chains[k].enumerating = true) :
    setMode p s = refusal s .busy := by
  obtain ⟨target, named⟩ : ∃ target, Mode.ofNat? w.toNat = some target :=
    Option.ne_none_iff_exists'.1 fun none => absurd ((mode_ofNat _).1 none) (Nat.not_lt.2 h)
  unfold setMode Packet.arg
  rw [hp, List.getD_cons_zero, named]
  dsimp only
  rw [← enumerating_any, ← Option.isSome_iff_ne_none] at hb
  split
  · rfl
  · next free => rw [if_pos (hb.resolve_left free)]

theorem setMode_accepted (p : Packet) (s : State) (w : Word) (hp : p.payload = [w]) (target : Mode)
    (hw : w.toNat = target.code) (hn : s.mdc.request = none)
    (hk : ∀ k : ChainNo, s.chc.chains[k].enumerating = false) :
    setMode p s = accepted { s with mdc := { s.mdc with request := some target } } := by
  have still : s.chc.enumerating = false := by
    rw [← Bool.not_eq_true, enumerating_any]
    rintro ⟨k, running⟩
    rw [hk k] at running
    cases running
  unfold setMode Packet.arg
  rw [hp, List.getD_cons_zero, hw, mode_ofNat_code]
  dsimp only
  rw [hn, still]
  rfl

/-! ## The two commands -/

theorem exec_commit (dt : Nat) (s : State) (p : Packet) (hr : s.runs p 0x12) (hp : p.payload.length = 1) :
    exec (.commit dt) s =
      .next ((commitTables p (s.advance dt)).1.finish p (commitTables p (s.advance dt)).2) :=
  congrArg Host.Outcome.next (execute_body (s.advance dt) p Config.codeCommit (exactly 1) commitTables hr
    (by rw [hp]; rfl))

theorem exec_setMode (dt : Nat) (s : State) (p : Packet) (hr : s.runs p 0x20) (hp : p.payload.length = 1) :
    exec (.setMode dt) s = .next ((setMode p (s.advance dt)).1.finish p (setMode p (s.advance dt)).2) :=
  congrArg Host.Outcome.next (execute_body (s.advance dt) p Config.codeSetMode (exactly 1) setMode hr
    (by rw [hp]; rfl))

/-- Settles O50: the checks of either command in their order, and what an accepted one holds. -/
theorem commitAndModeAreHeld : Obligations.CommitAndModeAreHeld := by
  intro dt s p w hp
  refine ⟨fun hr hq => ?_, fun hr => ?_⟩
  · have run := exec_commit dt s p hr (by rw [hp]; rfl)
    have body := commitTables_eq p (s.advance dt) w hp hq
    obtain ⟨-, -, clean⟩ := id hr
    rw [mask_bit w 1 (by decide)] at body
    refine ⟨fun big => ?_, fun small map dup => ?_, fun small fine => ?_⟩
    · exact refused_of_body run (body.trans (if_pos big)) clean
    · rw [if_neg (Nat.not_lt.2 small), if_pos (by rw [map, Bool.true_and]; exact dup)] at body
      rw [body] at run
      obtain ⟨replied, goesOn⟩ := finish_replied dt s p ⟨.configInvalid, .duplicateChannel, true, []⟩
      exact ⟨_, run, replied, goesOn, State.finish_clock _ _ _, finish_keptElsewhere dt s p _ clean⟩
    · have passes : ¬ (w.getLsbD 1 && s.mem.duplicateChannel 0) = true := by
        rw [Bool.and_eq_true]
        rintro ⟨named, dup⟩
        rcases fine with h | h
        · rw [h] at named; cases named
        · rw [h] at dup; cases dup
      obtain ⟨c, x, ended, answered⟩ := execute_ok (s.advance dt) _ p Config.codeCommit (exactly 1) commitTables [] hr
        (by rw [hp]; rfl) (body.trans ((if_neg (Nat.not_lt.2 small)).trans (if_neg passes))) rfl clean
      refine ⟨_, congrArg Host.Outcome.next ended, answered, fun t ht => ?_, rfl, rfl⟩
      show (s.tbs.marks ||| BitVec.ofNat 4 w.toNat).getLsbD t = _
      rw [BitVec.getLsbD_or, mask_bit w t ht]
  · have run := exec_setMode dt s p hr (by rw [hp]; rfl)
    obtain ⟨-, -, clean⟩ := id hr
    refine ⟨fun big => ?_, fun small busy => ?_, fun target named free still => ?_⟩
    · exact refused_of_body run (setMode_range p _ w hp big) clean
    · exact refused_of_body run (setMode_busy p _ w hp small busy) clean
    · obtain ⟨c, x, ended, answered⟩ := execute_ok (s.advance dt)
        { s.advance dt with mdc := { s.mdc with request := some target } } p Config.codeSetMode (exactly 1) setMode []
        hr (by rw [hp]; rfl) (setMode_accepted p (s.advance dt) w hp target named free still) rfl clean
      refine ⟨_, congrArg Host.Outcome.next ended, answered, rfl, rfl, ?_⟩
      have none_held : ({ s.mdc with request := none } : Mdc) = s.mdc := by rw [← free]
      exact (congrArg (fun m : Mdc => { s with mdc := m }) none_held :)

end Sys2Proof.Laws
end

