-- ==== Sys2Proof/Proofs/LegalTables.lean ====
section
/-! PROOF. The legal content of the protected memories, and the operations on words that keep it (R46, R51, R178). -/

namespace Sys2Proof.Laws

open Sys2Proof.Machine

/-! ## Channels named once (R46) -/

/-- No two mapped entries of a bank of ZONE_MAP name one channel. -/
def DistinctChannels (mem : Memory) (bank : Nat) : Prop :=
  ∀ y z, y < Config.zones → z < Config.zones → y ≠ z → ∀ c, (mem.mapEntry bank y).channel = some c →
    (mem.mapEntry bank z).channel ≠ some c

/-- A bank whose entries name no channel that those of another do not name is as distinct. -/
theorem distinctChannels_of_channels {mem mem' : Memory} {bank bank' : Nat}
    (h : ∀ z < Config.zones, ∀ c, (mem'.mapEntry bank' z).channel = some c → (mem.mapEntry bank z).channel = some c)
    (hd : DistinctChannels mem bank) : DistinctChannels mem' bank' :=
  fun y z hy hz hne c hc hc' => hd y z hy hz hne c (h y hy c hc) (h z hz c hc')

/-- The check for duplicates finds all of them. -/
theorem distinctChannels_of_check {mem : Memory} {bank : Nat} (h : mem.duplicateChannel bank = false) :
    DistinctChannels mem bank := by
  have nodup : (mem.mappedChannels bank).Nodup := of_decide_eq_true ((Bool.not_eq_false' _).mp h)
  unfold Memory.mappedChannels List.Nodup at nodup
  rw [List.pairwise_filterMap, List.pairwise_iff_getElem] at nodup
  have apart (y z : Nat) (hz : z < Config.zones) (hlt : y < z) (c : Channel)
      (hy : (mem.mapEntry bank y).channel = some c) (hz' : (mem.mapEntry bank z).channel = some c) : False := by
    refine nodup y z (by rw [List.length_range]; omega) (by rw [List.length_range]; exact hz) hlt c ?_ c ?_ rfl
    · rw [List.getElem_range]; exact hy
    · rw [List.getElem_range]; exact hz'
  intro y z hy hz hne c hc hc'
  rcases Nat.lt_or_gt_of_ne hne with hlt | hlt
  · exact apart y z hz hlt c hc hc'
  · exact apart z y hy hlt c hc' hc

/-! ## Entries under a change of words -/

theorem setting_of_words {mem mem' : Memory} {b b' i : Nat}
    (h : ∀ j < 2, mem'.word (wordKey b' (2 * i + j)) = mem.word (wordKey b (2 * i + j))) :
    mem'.setting b' i = mem.setting b i := by
  have high := h 0 (by decide)
  have low := h 1 (by decide)
  rw [Nat.add_zero] at high
  unfold Memory.setting
  rw [high, low]

theorem mapEntry_of_words {mem mem' : Memory} {b b' z : Nat}
    (h : ∀ j < 2, mem'.word (wordKey (2 + b') (2 * z + j)) = mem.word (wordKey (2 + b) (2 * z + j))) :
    mem'.mapEntry b' z = mem.mapEntry b z := by
  have high := h 0 (by decide)
  have low := h 1 (by decide)
  rw [Nat.add_zero] at high
  exact congrArg₂ MapEntry.ofWords high low

/-- From one memory to the other, each entry of SETTINGS and of ZONE_MAP stays or takes its substitute (R178). -/
structure Substituted (mem mem' : Memory) : Prop where
  setting : ∀ b < 2, ∀ i < 43, mem'.setting b i = mem.setting b i ∨
    ∃ straps, mem'.setting b i = Config.defaultSetting straps i
  channel : ∀ b < 2, ∀ z < Config.zones, ∀ c, (mem'.mapEntry b z).channel = some c →
    (mem.mapEntry b z).channel = some c

theorem substituted_trans {a b c : Memory} (h : Substituted a b) (h' : Substituted b c) : Substituted a c where
  setting := fun m hm i hi => by
    rcases h'.setting m hm i hi with same | subst
    · rw [same]; exact h.setting m hm i hi
    · exact .inr subst
  channel := fun m hm z hz k hk => h.channel m hm z hz k (h'.channel m hm z hz k hk)

/-- A change outside SETTINGS and ZONE_MAP changes none of their entries. -/
theorem substituted_of_words {mem mem' : Memory} (h : ∀ a, keyMemory a < 4 → mem'.word a = mem.word a) :
    Substituted mem mem' where
  setting := fun b hb i hi => .inl (setting_of_words fun j hj => h _ (by rw [keyMemory_wordKey _ _ (by omega)]; omega))
  channel := fun b hb z hz c hc => by
    have hz : z < 2304 := hz
    have same : mem'.mapEntry b z = mem.mapEntry b z :=
      mapEntry_of_words fun j hj => h _ (by rw [keyMemory_wordKey _ _ (by omega)]; omega)
    rwa [same] at hc

theorem substituted_refl (mem : Memory) : Substituted mem mem := substituted_of_words fun _ _ => rfl

theorem legal_of_substituted {mem mem' : Memory} (h : Substituted mem mem') {b : Nat} (hb : b < 2)
    (hl : mem.settingsLegal b) : mem'.settingsLegal b := by
  intro i hi
  rcases h.setting b hb i hi with same | ⟨straps, subst⟩
  · rw [same]; exact hl i hi
  · rw [subst]; exact defaultSetting_legal straps i hi

theorem distinct_of_substituted {mem mem' : Memory} (h : Substituted mem mem') {b : Nat} (hb : b < 2)
    (hd : DistinctChannels mem b) : DistinctChannels mem' b :=
  distinctChannels_of_channels (h.channel b hb) hd

/-! ## Words written -/

/-- The memory with these words stored. -/
def Memory.stored (mem : Memory) (l : List (Nat × Word)) : Memory := l.foldl (fun mem e => mem.store e.1 e.2) mem

theorem wf_stored (l : List (Nat × Word)) (mem : Memory) (h : mem.wf = true)
    (hl : ∀ e ∈ l, protectedKey e.1 = true) : (Memory.stored mem l).wf = true := by
  induction l generalizing mem with
  | nil => exact h
  | cons e l ih =>
    exact ih _ (wf_store mem e.1 e.2 h (hl e List.mem_cons_self)) fun e he => hl e (List.mem_cons_of_mem _ he)

/-- The two words of entry `e` of memory `m` stored: they read as stored, and every other word stays. -/
theorem word_store_pair (mem : Memory) (m e : Nat) (hi lo : Word) (n i : Nat) (he : 2 * e + 1 < 32768) (h : i < 32768) :
    (Memory.stored mem [(wordKey m (2 * e), hi), (wordKey m (2 * e + 1), lo)]).word (wordKey n i) =
      if n = m ∧ i = 2 * e then hi else if n = m ∧ i = 2 * e + 1 then lo else mem.word (wordKey n i) := by
  have apart (j : Nat) (hj : j < 32768) := wordKey_inj n m i j h hj
  show ((mem.store _ hi).store _ lo).word _ = _
  by_cases second : n = m ∧ i = 2 * e + 1
  · obtain ⟨rfl, rfl⟩ := second
    rw [word_store_same, if_neg (by omega), if_pos ⟨rfl, rfl⟩]
  · rw [word_store_other _ _ _ _ (fun h => second ((apart _ he).1 h)), if_neg second]
    by_cases first : n = m ∧ i = 2 * e
    · obtain ⟨rfl, rfl⟩ := first
      rw [word_store_same, if_pos ⟨rfl, rfl⟩]
    · rw [word_store_other _ _ _ _ (fun h => first ((apart _ (by omega)).1 h)), if_neg first]

/-- A SETTINGS entry that takes its default. -/
theorem substituted_setting (mem : Memory) (straps : BitVec 3) (m e : Nat) (hm : m < 2) (he : 2 * e + 1 < 32768) :
    Substituted mem (Memory.stored mem
      [(wordKey m (2 * e), wordOf (Config.defaultSetting straps e) 0),
        (wordKey m (2 * e + 1), wordOf (Config.defaultSetting straps e) 1)]) where
  setting := fun b hb i hi => by
    by_cases own : b = m ∧ i = e
    · obtain ⟨rfl, rfl⟩ := own
      refine .inr ⟨straps, ?_⟩
      unfold Memory.setting
      rw [word_store_pair _ _ _ _ _ _ _ he (by omega), word_store_pair _ _ _ _ _ _ _ he (by omega),
        if_pos ⟨rfl, rfl⟩, if_neg (by omega), if_pos ⟨rfl, rfl⟩, wordOf_join _ (defaultSetting_lt straps i hi)]
    · refine .inl (setting_of_words fun j hj => ?_)
      rw [word_store_pair _ _ _ _ _ _ _ he (by omega), if_neg (by omega), if_neg (by omega)]
  channel := fun b hb z hz c hc => by
    have hz : z < 2304 := hz
    rwa [mapEntry_of_words (mem := mem) (b := b) fun j hj => ?_] at hc
    rw [word_store_pair _ _ _ _ _ _ _ he (by omega), if_neg (by omega), if_neg (by omega)]

/-- A ZONE_MAP entry that takes its default is unmapped. -/
theorem substituted_mapEntry (mem : Memory) (m e : Nat) (hm : m / 2 = 1) (he : 2 * e + 1 < 32768) :
    Substituted mem (Memory.stored mem [(wordKey m (2 * e), 0), (wordKey m (2 * e + 1), 0x0180)]) where
  setting := fun b hb i hi => by
    refine .inl (setting_of_words fun j hj => ?_)
    rw [word_store_pair _ _ _ _ _ _ _ he (by omega), if_neg (by omega), if_neg (by omega)]
  channel := fun b hb z hz c hc => by
    have hz : z < 2304 := hz
    by_cases own : 2 + b = m ∧ z = e
    · obtain ⟨rfl, rfl⟩ := own
      have unmapped : (Memory.stored mem [(wordKey (2 + b) (2 * z), 0), (wordKey (2 + b) (2 * z + 1), 0x0180)]).word
          (wordKey (bankMemory 1 b) (2 * z)) = 0 := by
        show (Memory.stored _ _).word (wordKey (2 + b) (2 * z)) = 0
        rw [word_store_pair _ _ _ _ _ _ _ he (by omega), if_pos ⟨rfl, rfl⟩]
      unfold Memory.mapEntry MapEntry.ofWords at hc
      rw [unmapped] at hc
      cases hc
    · rwa [mapEntry_of_words (mem := mem) (b := b) fun j hj => ?_] at hc
      rw [word_store_pair _ _ _ _ _ _ _ he (by omega), if_neg (by omega), if_neg (by omega)]

/-- One word stored outside SETTINGS and ZONE_MAP. -/
theorem substituted_store_high (mem : Memory) (a : Nat) (v : Word) (h : 4 ≤ keyMemory a) :
    Substituted mem (mem.store a v) :=
  substituted_of_words fun b hb => word_store_other _ _ _ _ (by rintro rfl; omega)

/-- What the integrity monitor writes back gives each entry that it touches its substitute (R178). -/
theorem substituted_substitutes (mem : Memory) (straps : BitVec 3) (a : Nat) :
    Substituted mem (Memory.stored mem (substitutes straps a)) := by
  have index : 2 * (keyIndex a / 2) + 1 < 32768 := by unfold keyIndex; omega
  unfold substitutes
  dsimp only
  split
  · next hm => exact substituted_setting mem straps _ _ (by omega) index
  · next hm => exact substituted_mapEntry mem _ _ hm index
  · next hm => exact substituted_store_high mem a _ (by omega)
  · next h0 h1 h2 =>
    have other : keyMemory a / 2 ≠ 0 ∧ keyMemory a / 2 ≠ 1 := ⟨h0, h1⟩
    exact substituted_store_high mem a 0 (by omega)

/-- What the integrity monitor writes back stands at protected words, as the word read does. -/
theorem substitutes_protected (straps : BitVec 3) (a : Nat) (h : protectedKey a = true) :
    ∀ e ∈ substitutes straps a, protectedKey e.1 = true := by
  have pair (size : Nat) (hs : Config.memoryWords (keyMemory a) = size) (even : size % 2 = 0)
      (hm : keyMemory a < 8) (j : Nat) (hj : j < 2) :
      protectedKey (wordKey (keyMemory a) (2 * (keyIndex a / 2) + j)) = true := by
    have inside : keyIndex a < size := by
      rw [← hs]
      simp only [protectedKey, Bool.and_eq_true, decide_eq_true_eq] at h
      exact h.1.2
    exact protectedKey_bank _ _ hm (by rw [hs]; omega)
  unfold substitutes
  dsimp only
  split
  · next hm =>
    have pair := pair 86 (by rcases (by omega : keyMemory a = 0 ∨ keyMemory a = 1) with h | h <;> rw [h] <;> rfl) rfl
      (by omega)
    rintro e he
    rcases List.mem_cons.1 he with rfl | he
    · exact pair 0 (by decide)
    · obtain rfl := List.mem_singleton.1 he
      exact pair 1 (by decide)
  · next hm =>
    have pair := pair 4608 (by rcases (by omega : keyMemory a = 2 ∨ keyMemory a = 3) with h | h <;> rw [h] <;> rfl) rfl
      (by omega)
    rintro e he
    rcases List.mem_cons.1 he with rfl | he
    · exact pair 0 (by decide)
    · obtain rfl := List.mem_singleton.1 he
      exact pair 1 (by decide)
  all_goals
    rintro e he
    obtain rfl := List.mem_singleton.1 he
    exact h

end Sys2Proof.Laws
end

