-- ==== Sys2Proof/Proofs/LegalState.lean ====
section
/-! PROOF. The invariants of the tables as one predicate, and the operations of the units that keep it. -/

namespace Sys2Proof.Laws

open Sys2Proof.Machine

/-- What the two invariants of the tables say: of the memory, of the marks and verdicts, of a captured copy. -/
structure LegalTables (s : State) : Prop where
  wf       : s.mem.wf = true
  verdicts : ∀ a, s.verdict a ≠ none → protectedKey a = true
  staged   : s.mem.settingsLegal 0
  active   : s.mem.settingsLegal 1
  captured : ∀ v, s.lvs.solve = some v → v.tables.settingsLegal 1
  distinct : DistinctChannels s.mem 1

theorem legalTables_iff (s : State) : LegalTables s ↔ s.memoryInv ∧ s.mapInv :=
  ⟨fun ⟨wf, verdicts, staged, active, captured, distinct⟩ => ⟨⟨wf, verdicts, staged, active, captured⟩, distinct⟩,
    fun ⟨⟨wf, verdicts, staged, active, captured⟩, distinct⟩ => ⟨wf, verdicts, staged, active, captured, distinct⟩⟩

/-- What the predicate speaks of: the memory, the marks, the verdicts and the captured copy. -/
def storesOf (s : State) : Memory × Sparse (Option ErrorKind) × Sparse (Option ErrorKind) × Option Memory :=
  (s.mem, s.imn.marks, s.imn.upsets, s.lvs.solve.map Solve.tables)

/-- The other units of a state written out have no part in it. -/
theorem storesOf_mk (pending : List Instr) (draws : Nat) (clock : Clock) (mem : Memory) (lrx : Lrx) (ftu : Ftu)
    (cmd : Cmd) (tbs : Tbs) (stu : Stu) (lvs : Lvs) (pxc : Pxc) (chc : Chc) (sns : Sns) (mdc : Mdc) (rpu : Rpu)
    (imn : Imn) :
    storesOf ⟨pending, draws, clock, mem, lrx, ftu, cmd, tbs, stu, lvs, pxc, chc, sns, mdc, rpu, imn⟩ =
      (mem, imn.marks, imn.upsets, lvs.solve.map Solve.tables) := rfl

/-- What changes the memory into a legal one, sets no mark and no verdict, and captures nothing, keeps the predicate. -/
theorem legal_of_change {s t : State} (h : LegalTables s) (wf : t.mem.wf = true) (change : Substituted s.mem t.mem)
    (verdicts : ∀ a, t.verdict a ≠ none → s.verdict a ≠ none)
    (captured : ∀ v, t.lvs.solve = some v → v.tables.settingsLegal 1) : LegalTables t where
  wf := wf
  verdicts := fun a ha => h.verdicts a (verdicts a ha)
  staged := legal_of_substituted change (by decide) h.staged
  active := legal_of_substituted change (by decide) h.active
  captured := captured
  distinct := distinct_of_substituted change (by decide) h.distinct

theorem legal_of_stores {s t : State} (h : storesOf t = storesOf s) (hs : LegalTables s) : LegalTables t := by
  obtain ⟨mem, marks, upsets, solve⟩ : t.mem = s.mem ∧ t.imn.marks = s.imn.marks ∧ t.imn.upsets = s.imn.upsets ∧
      t.lvs.solve.map Solve.tables = s.lvs.solve.map Solve.tables := by
    simpa only [storesOf, Prod.mk.injEq] using h
  have verdict (a : Nat) : t.verdict a = s.verdict a := by unfold State.verdict; rw [marks, upsets]
  refine legal_of_change hs (by rw [mem]; exact hs.wf) (by rw [mem]; exact substituted_refl _)
    (fun a ha => by rwa [verdict] at ha) fun v hv => ?_
  obtain ⟨w, hw, same⟩ : ∃ w, s.lvs.solve = some w ∧ w.tables = v.tables := by
    rw [hv, Option.map_some] at solve
    exact Option.map_eq_some_iff.1 solve.symm
  rw [← same]
  exact hs.captured w hw

/-- With no solve in flight nothing is captured. -/
theorem legal_idle {s : State} (h : LegalTables s) (lvs : Lvs) (hn : lvs.solve = none) :
    LegalTables { s with lvs := lvs } :=
  legal_of_change h h.wf (substituted_refl _) (fun _ ha => ha) (by
    intro v hv
    rw [show ({ s with lvs := lvs } : State).lvs.solve = none from hn] at hv
    cases hv)

theorem legal_foldl {α : Type} (g : State → α → State) (l : List α)
    (hg : ∀ s, ∀ a ∈ l, LegalTables s → LegalTables (g s a)) {s : State} (h : LegalTables s) :
    LegalTables (l.foldl g s) := by
  induction l generalizing s with
  | nil => exact h
  | cons a l ih => exact ih (fun s b hb => hg s b (List.mem_cons_of_mem _ hb)) (hg s a List.mem_cons_self h)

/-! ## Words written (R176) -/

/-- With the mark of a word as it was, and its upset gone or as it was, no verdict is set there. -/
theorem verdict_of_upset {s t : State} {b : Nat}
    (mark : sparseGet (fun _ => none) t.imn.marks b = sparseGet (fun _ => none) s.imn.marks b)
    (upset : sparseGet (fun _ => none) t.imn.upsets b = none ∨
      sparseGet (fun _ => none) t.imn.upsets b = sparseGet (fun _ => none) s.imn.upsets b) :
    t.verdict b ≠ none → s.verdict b ≠ none := by
  unfold State.verdict
  rw [mark]
  cases sparseGet (fun _ => none) s.imn.marks b with
  | some k => exact id
  | none =>
    rcases upset with gone | same
    · exact fun h => absurd gone h
    · rw [same]; exact id

/-- A word written sets no verdict. -/
theorem verdict_writeWord (s : State) (a : Nat) (v : Word) (b : Nat) :
    (s.writeWord a v).verdict b ≠ none → s.verdict b ≠ none := by
  have upset : sparseGet (fun _ => none) (s.writeWord a v).imn.upsets b =
      if b = a then none else sparseGet (fun _ => none) s.imn.upsets b :=
    sparseGet_put (fun _ => none) s.imn.upsets a b none
  refine verdict_of_upset rfl ?_
  rw [upset]
  split
  · exact .inl rfl
  · exact .inr rfl

theorem legal_writeWord {s : State} (h : LegalTables s) (a : Nat) (v : Word) (ha : protectedKey a = true)
    (change : Substituted s.mem (s.mem.store a v)) : LegalTables (s.writeWord a v) :=
  legal_of_change h (wf_writeWord s a v h.wf ha) change (verdict_writeWord s a v) h.captured

/-- A word of ZONE_STATE is written (R78). -/
theorem legal_writeZone {s : State} (h : LegalTables s) (v : Solve) (l : ZoneLevel) (z : Nat) (hz : z < Config.zones) :
    LegalTables (s.writeZone v l z) := by
  have word {u : State} (hu : LegalTables u) (j : Nat) (h4 : 4 ≤ j) (h8 : j < 8) (w : Word) :
      LegalTables (u.writeWord (wordKey 8 (8 * z + j)) w) := by
    have hz : z < 2304 := hz
    exact legal_writeWord hu _ w (protectedKey_zone z j hz h4 h8)
      (substituted_store_high _ _ _ (by rw [keyMemory_wordKey _ _ (by omega)]; decide))
  exact word (word (word (word h 4 (by decide) (by decide) _) 5 (by decide) (by decide) _) 6 (by decide) (by decide) _)
    7 (by decide) (by decide) _

theorem isZoneWord_memory {places : List Nat} {a : Nat} (h : isZoneWord places a = true) : keyMemory a = 8 := by
  unfold isZoneWord at h
  rw [Bool.and_eq_true, decide_eq_true_eq] at h
  exact h.1

theorem legal_zeroZoneWords {s : State} (h : LegalTables s) (places : List Nat) :
    LegalTables (s.zeroZoneWords places) := by
  refine legal_of_change h (wf_zeroZoneWords s places h.wf) (substituted_of_words fun a ha => ?_) (fun a => ?_)
    h.captured
  · show sparseGet unlistedWord (sparseClear (isZoneWord places) s.mem) a = _
    rw [sparseGet_clear, if_neg fun zone => by have := isZoneWord_memory zone; omega]
    rfl
  · have upset : sparseGet (fun _ => none) (s.zeroZoneWords places).imn.upsets a =
        if isZoneWord places a then none else sparseGet (fun _ => none) s.imn.upsets a := sparseGet_clear _ _ _ _
    refine verdict_of_upset rfl ?_
    rw [upset]
    split
    · exact .inl rfl
    · exact .inr rfl

/-! ## Reads through the integrity monitor (R177, R178) -/

theorem storesOf_logError (s : State) (a : Nat) (k : ErrorKind) : storesOf (s.logError a k) = storesOf s := by
  unfold State.logError
  split <;> rfl

theorem storesOf_autoSafe (s : State) : storesOf s.autoSafe = storesOf s := by
  unfold State.autoSafe
  dsimp only
  split <;> rfl

/-- The state whose word holds no injection mark. -/
def State.unmarked (s : State) (a : Nat) : State :=
  { s with imn := { s.imn with marks := sparsePut (fun _ => none) s.imn.marks a none } }

/-- What a read that meets an error writes back. -/
def State.writtenBack (s : State) (a : Nat) : List (Nat × Word) :=
  match s.verdict a with
  | none => []
  | some .corrected => [(a, s.mem.word a)]
  | some .uncorrectable => substitutes s.tbs.straps a

theorem writtenBack_corrected {s : State} {a : Nat} (h : s.verdict a = some .corrected) :
    State.writtenBack s a = [(a, s.mem.word a)] := by
  unfold State.writtenBack
  rw [h]

theorem writtenBack_uncorrectable {s : State} {a : Nat} (h : s.verdict a = some .uncorrectable) :
    State.writtenBack s a = substitutes s.tbs.straps a := by
  unfold State.writtenBack
  rw [h]

/-- What a read that meets an error does to the stores: the mark clears, and the words are written back. -/
theorem storesOf_readWord (s : State) (a : Nat) (h : s.verdict a ≠ none) :
    storesOf (s.readWord a) =
      storesOf ((State.writtenBack s a).foldl (fun s e => s.writeWord e.1 e.2) (State.unmarked s a)) := by
  unfold State.readWord
  dsimp only
  split
  · next clean => exact absurd clean h
  · next met =>
    rw [storesOf_logError, writtenBack_corrected met]
    rfl
  · next met =>
    rw [writtenBack_uncorrectable met]
    have logged := storesOf_logError ((((substitutes s.tbs.straps a).foldl (fun s e => s.writeWord e.1 e.2)
      (State.unmarked s a)).count .uncorrectable 1).raise .memoryError) a .uncorrectable
    unfold State.unmarked at logged ⊢
    generalize State.logError _ _ _ = v at logged ⊢
    split
    · exact (storesOf_autoSafe v).trans logged
    · split
      · exact logged
      · exact logged

/-- Writing words one behind the other stores them, and sets no verdict. -/
theorem foldl_writeWord_mem (l : List (Nat × Word)) (s : State) :
    (l.foldl (fun s e => s.writeWord e.1 e.2) s).mem = Memory.stored s.mem l := by
  induction l generalizing s with
  | nil => rfl
  | cons e l ih => exact ih (s.writeWord e.1 e.2)

theorem foldl_writeWord_verdict (l : List (Nat × Word)) (s : State) (b : Nat) :
    (l.foldl (fun s e => s.writeWord e.1 e.2) s).verdict b ≠ none → s.verdict b ≠ none := by
  induction l generalizing s with
  | nil => exact id
  | cons e l ih => exact fun h => verdict_writeWord s e.1 e.2 b (ih _ h)

theorem verdict_unmarked (s : State) (a b : Nat) (h : s.verdict a ≠ none) :
    (State.unmarked s a).verdict b ≠ none → s.verdict b ≠ none := by
  by_cases own : b = a
  · subst own
    exact fun _ => h
  · exact verdict_of_upset (sparseGet_put_other (fun _ => none) s.imn.marks a b none own) (.inr rfl)

theorem substituted_writtenBack (s : State) (a : Nat) :
    Substituted s.mem (Memory.stored s.mem (State.writtenBack s a)) := by
  unfold State.writtenBack
  split
  · exact substituted_refl _
  · refine substituted_of_words fun b _ => ?_
    show (s.mem.store a (s.mem.word a)).word b = _
    by_cases own : b = a
    · rw [own, word_store_same]
    · rw [word_store_other _ _ _ _ own]
  · exact substituted_substitutes _ _ a

theorem writtenBack_protected (s : State) (a : Nat) (h : protectedKey a = true) :
    ∀ e ∈ State.writtenBack s a, protectedKey e.1 = true := by
  unfold State.writtenBack
  split
  · exact nofun
  · rintro e he
    obtain rfl := List.mem_singleton.1 he
    exact h
  · exact substitutes_protected _ a h

theorem legal_readWord {s : State} (h : LegalTables s) (a : Nat) : LegalTables (s.readWord a) := by
  by_cases met : s.verdict a = none
  · rw [readWord_of_clean s a met]; exact h
  · refine legal_of_stores (storesOf_readWord s a met) (legal_of_change h ?_ ?_ (fun b hb => ?_) fun v hv => ?_)
    · rw [foldl_writeWord_mem]
      exact wf_stored _ _ h.wf (writtenBack_protected s a (h.verdicts a met))
    · rw [foldl_writeWord_mem]
      exact substituted_writtenBack s a
    · exact verdict_unmarked s a b met (foldl_writeWord_verdict _ _ b hb)
    · refine h.captured v (Eq.trans ?_ hv)
      exact (foldl_writeWord_keeps (fun s => s.lvs.solve) (fun _ _ _ => rfl) _ (State.unmarked s a)).symm

/-- Each read leaves the entries of SETTINGS and of ZONE_MAP, or gives them their substitutes. -/
theorem substituted_readWord (s : State) (a : Nat) : Substituted s.mem (s.readWord a).mem := by
  by_cases met : s.verdict a = none
  · rw [readWord_of_clean s a met]; exact substituted_refl _
  · have mem : (s.readWord a).mem = Memory.stored s.mem (State.writtenBack s a) :=
      (congrArg Prod.fst (storesOf_readWord s a met)).trans (foldl_writeWord_mem _ _)
    rw [mem]
    exact substituted_writtenBack s a

theorem substituted_foldl {α : Type} (g : State → α → State) (hg : ∀ s a, Substituted s.mem (g s a).mem) (l : List α)
    (s : State) : Substituted s.mem (l.foldl g s).mem := by
  induction l generalizing s with
  | nil => exact substituted_refl _
  | cons a l ih => exact substituted_trans (hg s a) (ih (g s a))

theorem legal_readRange {s : State} (h : LegalTables s) (lo n : Nat) : LegalTables (s.readRange lo n) :=
  legal_foldl _ _ (fun _ _ _ h => legal_readWord h _) h

theorem substituted_readRange (s : State) (lo n : Nat) : Substituted s.mem (s.readRange lo n).mem :=
  substituted_foldl _ (fun s _ => substituted_readWord s _) _ s

theorem legal_readSetting {s : State} (h : LegalTables s) (i : Nat) : LegalTables (s.readSetting i) :=
  legal_readRange h _ _

theorem legal_readSettings {s : State} (h : LegalTables s) (is : List Nat) : LegalTables (s.readSettings is) :=
  legal_foldl _ _ (fun _ _ _ h => legal_readSetting h _) h

theorem legal_readOverwritten {s : State} (h : LegalTables s) (t : Nat) : LegalTables (s.readOverwritten t) :=
  legal_foldl _ _ (fun _ _ _ h => legal_readWord h _) h

theorem substituted_readOverwritten (s : State) (t : Nat) : Substituted s.mem (s.readOverwritten t).mem :=
  substituted_foldl _ (fun s _ => substituted_readWord s _) _ s

theorem legal_readWhilePending {s : State} (h : LegalTables s) (lo n : Nat) :
    LegalTables (s.readWhilePending lo n) := by
  refine legal_foldl _ _ (fun s i _ h => ?_) h
  split
  · exact legal_readWord h _
  · exact h

theorem legal_readTables {s : State} (h : LegalTables s) : LegalTables s.readTables :=
  legal_foldl _ _ (fun _ _ _ h => legal_readRange h _ _) h

theorem legal_readFilters {s : State} (h : LegalTables s) : LegalTables s.readFilters :=
  legal_foldl _ _ (fun _ _ _ h => legal_readWord h _) h

end Sys2Proof.Laws
end

