-- ==== Sys2Proof/Proofs/LegalUnits.lean ====
section
/-! PROOF. What each unit's operations do to the tables: most leave them alone, and the others keep them legal. -/

namespace Sys2Proof.Laws

open Sys2Proof.Machine

/-! ## Operations that leave the stores alone -/

theorem storesOf_of_blankChains {s t : State} (h : blankChains t = blankChains s) : storesOf t = storesOf s :=
  (congrArg storesOf h :)

theorem storesOf_arbitrate (s : State) (k : ChainNo) : storesOf (s.arbitrate k) = storesOf s :=
  storesOf_of_blankChains (blankChains_arbitrate s k)

theorem storesOf_raise (s : State) (e : Event) : storesOf (s.raise e) = storesOf s := rfl

theorem storesOf_setChain (s : State) (k : ChainNo) (c : ChainRec) : storesOf (s.setChain k c) = storesOf s := rfl

theorem storesOf_freeChain (s : State) (k : ChainNo) : storesOf (s.freeChain k) = storesOf s :=
  storesOf_arbitrate _ k

theorem storesOf_latchesFallDue (s : State) : storesOf s.latchesFallDue = storesOf s :=
  storesOf_of_blankChains (blankChains_latchesFallDue s)

theorem storesOf_latchesOfLine (s : State) (n : Nat) : storesOf (s.latchesOfLine n) = storesOf s :=
  storesOf_of_blankChains (blankChains_latchesOfLine s n)

theorem storesOf_standbyChains (s : State) : storesOf s.standbyChains = storesOf s :=
  storesOf_of_blankChains (blankChains_standbyChains s)

theorem storesOf_handOff (s : State) (set : LevelSet) : storesOf (s.handOff set) = storesOf s :=
  foldl_keeps storesOf _ (fun s k => (storesOf_arbitrate _ k).trans (storesOf_setChain s k _)) _ s

theorem storesOf_updateHeld (s : State) (k : ChainNo) : storesOf (s.updateHeld k) = storesOf s := by
  unfold State.updateHeld
  dsimp only
  split <;> rfl

theorem storesOf_confirmChannel (s : State) (zones : List BurstZone) (key device channel : Nat) :
    storesOf (s.confirmChannel zones key device channel) = storesOf s := by
  have struck (chc : Chc) : storesOf (({ s with chc := chc } : State).raise .zoneFaultNew) = storesOf s := rfl
  unfold State.confirmChannel
  dsimp only
  split
  · split
    · exact struck _
    · rfl
  · rfl

theorem storesOf_goodStatus (s : State) (k : ChainNo) (zones : List BurstZone) (i : Nat) (st : Status) :
    storesOf (s.goodStatus k zones i st) = storesOf s := by
  unfold State.goodStatus
  dsimp only
  rw [storesOf_updateHeld, foldl_keeps storesOf _ (fun s c => storesOf_confirmChannel s zones _ i c), storesOf_mk]
  rfl

theorem storesOf_missedSlot (s : State) (k : ChainNo) (i : Nat) : storesOf (s.missedSlot k i) = storesOf s := by
  unfold State.missedSlot
  dsimp only
  split <;> rfl

theorem storesOf_endSweep (s : State) (k : ChainNo) (count : Nat) (long : Bool) :
    storesOf (s.endSweep k count long) = storesOf s := by
  unfold State.endSweep
  dsimp only
  rw [storesOf_arbitrate]
  exact storesOf_updateHeld _ k

theorem storesOf_pump (s : State) : storesOf s.pump = storesOf s := by rw [pump_eq]; rfl

theorem storesOf_addWaitingLines (s : State) : storesOf s.addWaitingLines = storesOf s := by
  obtain ⟨accumulators, lineBuffer, added⟩ := addWaitingLines_kept s
  rw [added]
  rfl

theorem storesOf_scanDecision (s : State) : storesOf s.scanDecision = storesOf s := by
  obtain ⟨sns, flags, counters, scanned⟩ := scanDecision_kept s
  rw [scanned]
  rfl

theorem storesOf_completeStatistics (s : State) : storesOf s.completeStatistics = storesOf s := by
  unfold State.completeStatistics
  split
  · rfl
  · dsimp only
    split <;> rfl

theorem storesOf_sendLine (s : State) (n : Nat) (pixels : List Pixel) (damaged off : Bool) (width : Nat) :
    storesOf (s.sendLine n pixels damaged off width) = storesOf s := by
  obtain ⟨chains, passQueue, sent⟩ := sendLine_kept s n pixels damaged off width
  rw [sent]
  rfl

theorem storesOf_lineBegun (s : State) : storesOf (State.lineBegun s) = storesOf s := by
  obtain ⟨pxc, chc, flags, counters, burstLate, begun, -⟩ := lineBegun_kept s
  rw [begun]
  rfl

/-- A change of the input state takes nothing from a captured copy (R87). -/
theorem storesOf_changeInput (s : State) (new : InputState) : storesOf (s.changeInput new) = storesOf s := by
  have left : s.lvs.leaveLocked.solve.map Solve.tables = s.lvs.solve.map Solve.tables := by
    unfold Lvs.leaveLocked
    rw [Option.map_map]
    rfl
  have was : (if s.lrx.input = .locked then s.lvs.leaveLocked else s.lvs).solve.map Solve.tables =
      s.lvs.solve.map Solve.tables := by
    split
    · exact left
    · rfl
  have changed (lrx : Lrx) (lvs : Lvs) (same : lvs.solve.map Solve.tables = s.lvs.solve.map Solve.tables) :
      storesOf (({ s with lrx := lrx, lvs := lvs } : State).raise .inputStateChanged) = storesOf s :=
    congrArg (fun captured => (s.mem, s.imn.marks, s.imn.upsets, captured)) same
  unfold State.changeInput
  dsimp only
  split
  · rfl
  · refine changed _ _ ?_
    split
    · exact was
    · exact was

theorem storesOf_handLine (s : State) (y : Nat) (pixels : List Pixel) (damaged off : Bool) (width : Nat) :
    storesOf (s.handLine y pixels damaged off width) = storesOf s := by
  unfold State.handLine
  split
  · rfl
  · dsimp only
    split
    · rfl
    · exact storesOf_addWaitingLines _

theorem storesOf_acquire (s : State) (r : FrameRec) (good : Bool) : storesOf (s.acquire r good) = storesOf s := by
  unfold State.acquire
  dsimp only
  split
  · exact storesOf_changeInput _ _
  · rfl

theorem storesOf_measure (s : State) : storesOf s.measure = storesOf s := by
  unfold State.measure
  split
  · exact storesOf_changeInput _ _
  · rfl
  · rfl

theorem storesOf_offer (s : State) (line : Nat) (errored : Bool) (bytes : List Byte) :
    storesOf (s.offer line errored bytes) = storesOf s := by
  rw [offer_eq]
  rfl

theorem storesOf_takeNext (s : State) : storesOf s.takeNext = storesOf s := by
  unfold storesOf
  rw [State.takeNext_mem, State.takeNext_imn, State.takeNext_lvs]

theorem storesOf_arrive (s : State) (errored : Bool) (bytes : List Byte) :
    storesOf (s.arrive errored bytes) = storesOf s := by
  unfold State.arrive
  split
  · split
    · exact storesOf_takeNext _
    · rfl
  · rfl

theorem storesOf_keepDark (s : State) (chc : Chc) (zones : List Nat) :
    storesOf { s with chc := chc, lvs := s.lvs.keepDark zones } = storesOf s := by
  show (s.mem, s.imn.marks, s.imn.upsets, (s.lvs.keepDark zones).solve.map Solve.tables) = _
  unfold Lvs.keepDark storesOf
  rw [Option.map_map]
  rfl

/-! ## The commit (R46, R48) -/

theorem memoryWords_banks (t : Nat) (ht : t < 4) :
    Config.memoryWords (bankMemory t 0) = Config.memoryWords (bankMemory t 1) ∧
      Config.memoryWords (bankMemory t 0) ≤ 4608 := by
  match t, ht with
  | 0, _ | 1, _ | 2, _ | 3, _ => decide

/-- The copy of a table gives its active bank the words of its staging bank, and leaves every other word. -/
theorem word_copyBank_bank (mem : Memory) (t m i : Nat) (ht : t < 4) (hi : i < 32768) :
    (mem.copyBank t).word (wordKey m i) =
      if m = 2 * t + 1 ∧ i < Config.memoryWords (bankMemory t 0) then mem.word (wordKey (2 * t) i)
      else mem.word (wordKey m i) := by
  obtain ⟨-, size⟩ := memoryWords_banks t ht
  rw [word_copyBank]
  unfold bankMemory at size ⊢
  by_cases own : m = 2 * t + 1 ∧ i < Config.memoryWords (2 * t + 0)
  · obtain ⟨rfl, inside⟩ := own
    have place : wordKey (2 * t + 1) i - wordKey (2 * t + 1) 0 = i := by unfold wordKey; omega
    rw [if_pos (by unfold wordKey; omega), if_pos ⟨rfl, inside⟩, place]
    rfl
  · rw [if_neg (by unfold wordKey; omega), if_neg own]

theorem settingsLegal_of_words {mem mem' : Memory} {b b' : Nat}
    (h : ∀ i < 86, mem'.word (wordKey b' i) = mem.word (wordKey b i)) (hl : mem.settingsLegal b) :
    mem'.settingsLegal b' := by
  intro i hi
  rw [setting_of_words (mem := mem) (b := b) fun j hj => h _ (by omega)]
  exact hl i hi

theorem distinctChannels_of_words {mem mem' : Memory} {b b' : Nat}
    (h : ∀ i < 4608, mem'.word (wordKey (2 + b') i) = mem.word (wordKey (2 + b) i)) (hd : DistinctChannels mem b) :
    DistinctChannels mem' b' :=
  distinctChannels_of_channels (fun z hz c hc => by
    have hz : z < 2304 := hz
    rwa [mapEntry_of_words (mem := mem) (b := b) fun j hj => h _ (by omega)] at hc) hd

/-- A copied table is as legal as its staging bank; the staging banks stay. -/
theorem copyBank_legal (mem : Memory) (t : Nat) (ht : t < 4) (h0 : mem.settingsLegal 0) (h1 : mem.settingsLegal 1)
    (hd : DistinctChannels mem 1) (hs : t = 1 → DistinctChannels mem 0) :
    (mem.copyBank t).settingsLegal 0 ∧ (mem.copyBank t).settingsLegal 1 ∧ DistinctChannels (mem.copyBank t) 1 := by
  have word := word_copyBank_bank mem t
  refine ⟨settingsLegal_of_words (fun i hi => ?_) h0, ?_, ?_⟩
  · rw [word 0 i ht (by omega), if_neg (by omega)]
  · by_cases own : t = 0
    · subst own
      exact settingsLegal_of_words (fun i hi => by rw [word 1 i ht (by omega), if_pos ⟨rfl, hi⟩]) h0
    · exact settingsLegal_of_words (fun i hi => by rw [word 1 i ht (by omega), if_neg (by omega)]) h1
  · by_cases own : t = 1
    · subst own
      exact distinctChannels_of_words (fun i hi => by rw [word 3 i ht (by omega), if_pos ⟨rfl, hi⟩]) (hs rfl)
    · exact distinctChannels_of_words (fun i hi => by rw [word (2 + 1) i ht (by omega), if_neg (by omega)]) hd

theorem copyBank_staging (mem : Memory) (t : Nat) (ht : t < 4) (hd : DistinctChannels mem 0) :
    DistinctChannels (mem.copyBank t) 0 :=
  distinctChannels_of_words
    (fun i hi => by rw [word_copyBank_bank mem t (2 + 0) i ht (by omega), if_neg (by omega)]) hd

/-- The state of a table's copy behind its reads. -/
def State.copyRead (s : State) (t : Nat) : State :=
  (s.readRange (wordKey (bankMemory t 0) 0) (Config.memoryWords (bankMemory t 0))).readOverwritten t

theorem copyTable_mem (s : State) (t : Nat) : (s.copyTable t).mem = (State.copyRead s t).mem.copyBank t := rfl

theorem legal_copyRead {s : State} (h : LegalTables s) (t : Nat) : LegalTables (State.copyRead s t) :=
  legal_readOverwritten (legal_readRange h _ _) t

theorem substituted_copyRead (s : State) (t : Nat) : Substituted s.mem (State.copyRead s t).mem :=
  substituted_trans (substituted_readRange s _ _) (substituted_readOverwritten _ t)

theorem legal_copyTable {s : State} (h : LegalTables s) (t : Nat) (ht : t < 4) (hs : t = 1 → DistinctChannels s.mem 0) :
    LegalTables (s.copyTable t) := by
  have read := legal_copyRead h t
  have staging (own : t = 1) := distinct_of_substituted (substituted_copyRead s t) (by decide) (hs own)
  unfold State.copyTable
  change LegalTables { State.copyRead s t with
    mem := (State.copyRead s t).mem.copyBank t
    imn := { (State.copyRead s t).imn with
      upsets := sparseClear (fun a => decide (keyMemory a = bankMemory t 1)) (State.copyRead s t).imn.upsets } }
  generalize State.copyRead s t = u at read staging ⊢
  obtain ⟨staged, active, distinct⟩ := copyBank_legal u.mem t ht read.staged read.active read.distinct staging
  refine ⟨wf_copyBank _ t ht read.wf, fun a ha => read.verdicts a ?_, staged, active, read.captured, distinct⟩
  revert ha
  refine verdict_of_upset rfl ?_
  dsimp only
  rw [sparseGet_clear]
  split
  · exact .inl rfl
  · exact .inr rfl

/-- The marked tables are copied one behind the other. -/
theorem legal_copyTables (l : List Nat) {s : State} (h : LegalTables s) (hl : ∀ t ∈ l, t < 4)
    (hs : 1 ∈ l → DistinctChannels s.mem 0) : LegalTables (l.foldl State.copyTable s) := by
  induction l generalizing s with
  | nil => exact h
  | cons t l ih =>
    have ht := hl t List.mem_cons_self
    refine ih (legal_copyTable h t ht fun own => hs (own ▸ List.mem_cons_self))
      (fun t ht => hl t (List.mem_cons_of_mem _ ht)) fun later => ?_
    rw [copyTable_mem]
    exact copyBank_staging _ t ht
      (distinct_of_substituted (substituted_copyRead s t) (by decide) (hs (List.mem_cons_of_mem _ later)))

/-- A validation reads the staging ZONE_MAP where it is named, and passes only a map without duplicates. -/
theorem legal_validateStaging {s : State} (h : LegalTables s) (mask : BitVec 4) :
    LegalTables (s.validateStaging mask).1 ∧
      (mask.getLsbD 1 = true → (s.validateStaging mask).2 = true →
        DistinctChannels (s.validateStaging mask).1.mem 0) := by
  unfold State.validateStaging
  split
  · dsimp only
    exact ⟨legal_readRange h _ _, fun _ pass => distinctChannels_of_check (by simpa using pass)⟩
  · next other => exact ⟨h, fun named => absurd named other⟩

theorem legal_applyMarks {s : State} (h : LegalTables s) : LegalTables s.applyMarks := by
  unfold State.applyMarks
  dsimp only
  split
  · exact legal_of_stores (s := s) rfl h
  · obtain ⟨valid, distinct⟩ := legal_validateStaging h s.tbs.marks
    split
    · next pass =>
      have copied := legal_copyTables s.tbs.marked valid
        (fun t ht => by simpa using (List.mem_filter.1 ht).1)
        (fun marked => distinct (List.mem_filter.1 marked).2 pass)
      generalize List.foldl _ _ _ = u at copied ⊢
      exact legal_of_stores (s := u) rfl copied
    · generalize (s.validateStaging s.tbs.marks).1 = u at valid ⊢
      exact legal_of_stores (s := u) rfl valid

/-! ## The frame turn (R17) -/

theorem legal_changeMode {s : State} (h : LegalTables s) (target : Mode) : LegalTables (s.changeMode target) := by
  unfold State.changeMode
  split
  · exact h
  · dsimp only
    split
    · have changed : LegalTables (({ s with mdc := { s.mdc with mode := target } } : State).raise .modeChanged) :=
        legal_of_stores (s := s) rfl h
      have cleared := legal_zeroZoneWords changed [5, 6, 7]
      unfold State.standbyEntry
      dsimp only
      generalize State.zeroZoneWords _ _ = u at cleared ⊢
      exact legal_of_stores (s := u) ((storesOf_standbyChains _).trans rfl) cleared
    · exact legal_of_stores (s := s) rfl h

theorem legal_handleRequest {s : State} (h : LegalTables s) : LegalTables s.handleRequest := by
  unfold State.handleRequest
  split
  · exact legal_of_stores (s := s) rfl h
  · next target _ =>
    have reads : LegalTables (if target.validated then s.readForMode else s) := by
      split
      · exact legal_readWhilePending (legal_readWhilePending h _ _) _ _
      · exact h
    dsimp only
    generalize (if target.validated then s.readForMode else s) = u at reads ⊢
    have held (mdc : Mdc) : LegalTables { u with mdc := mdc } := legal_of_stores (s := u) rfl reads
    split
    · exact held _
    · split
      · exact legal_changeMode (held _) _
      · exact legal_of_stores (storesOf_raise _ _) (held _)

theorem legal_layGrid {s : State} (h : LegalTables s) : LegalTables s.layGrid := by
  have read := legal_readSettings h [Config.gridColumns, Config.gridRows, Config.brightThreshold]
  unfold State.layGrid
  dsimp only
  generalize s.readSettings _ = u at read ⊢
  exact legal_of_stores (s := u) ((storesOf_addWaitingLines _).trans rfl) read

theorem legal_maskRead {s : State} (h : LegalTables s) : LegalTables (State.maskRead s) := by
  have read := legal_readSetting h Config.notifyMask
  unfold State.maskRead
  dsimp only
  generalize s.readSetting _ = u at read ⊢
  have used (rpu : Rpu) : LegalTables { u with rpu := rpu } := legal_of_stores (s := u) rfl read
  exact used _

theorem legal_frameTurn {s : State} (h : LegalTables s) : LegalTables s.frameTurn := by
  rw [frameTurn_eq]
  exact legal_maskRead (legal_layGrid (legal_handleRequest (legal_applyMarks (legal_of_stores (s := s) rfl h))))

theorem legal_abandonLate {s : State} (h : LegalTables s) : LegalTables s.abandonLate := by
  by_cases idle : s.lvs.solve = none
  · rw [abandonLate_idle s idle]; exact h
  · rw [abandonLate_solving s idle]
    exact legal_of_stores (s := { s with lvs := { s.lvs with solve := none, outcome := .late } }) rfl
      (legal_idle h _ rfl)

theorem legal_forceTurn {s : State} (h : LegalTables s) : LegalTables s.forceTurn := by
  unfold State.forceTurn
  split
  · exact legal_frameTurn (legal_abandonLate h)
  · exact h

theorem legal_turnOrWait {s : State} (h : LegalTables s) : LegalTables s.turnOrWait := by
  unfold State.turnOrWait
  split
  · exact legal_of_stores (s := s) rfl h
  · exact legal_frameTurn h

/-! ## Solves (R74, R78) -/

/-- The zones of a grid that the SETTINGS of a bank give are zones of the part. -/
theorem zones_le {mem : Memory} {b : Nat} (h : mem.settingsLegal b) :
    mem.setting b Config.gridColumns * mem.setting b Config.gridRows ≤ Config.zones :=
  Nat.mul_le_mul (h Config.gridColumns (by decide)).2 (h Config.gridRows (by decide)).2

/-- A solve in flight whose captured copy is legal. -/
theorem legal_solving {s : State} (h : LegalTables s) (v : Solve) (hv : v.tables.settingsLegal 1) :
    LegalTables { s with lvs := { s.lvs with solve := some v } } :=
  legal_of_change h h.wf (substituted_refl _) (fun _ ha => ha) (by rintro _ ⟨⟩; exact hv)

/-- A solve captures the active tables as they stand behind its reads. -/
theorem legal_startSolve {s : State} (h : LegalTables s) (trigger : Trigger) : LegalTables (s.startSolve trigger) := by
  unfold State.startSolve
  split
  · exact h
  · have tables := legal_readTables h
    dsimp only
    generalize s.readTables = u at tables ⊢
    have filters := legal_readFilters tables
    generalize u.readFilters = w at filters ⊢
    have captured : u.mem.activeWords.settingsLegal 1 := fun i hi => by
      have same : u.mem.activeWords.setting 1 i = u.mem.setting 1 i := active_activeWords u.mem i hi
      rw [same]
      exact tables.active i hi
    split
    · exact legal_solving filters _ captured
    · exact tables

theorem legal_finishSolve {s : State} (h : LegalTables s) (v : Solve) (hv : v.tables.settingsLegal 1) :
    LegalTables (s.finishSolve v) := by
  have written (set : LevelSet) : LegalTables (((v.withMarks s.lvs.reseed).processed).foldl
      (fun u z => u.writeZone (v.withMarks s.lvs.reseed) (set.zone z) z) (s.zeroZoneWords [4, 6, 7])) := by
    refine legal_foldl _ _ (fun u z hz hu => legal_writeZone hu _ _ z ?_) (legal_zeroZoneWords h _)
    have inGrid : z < v.zones := List.mem_range.1 (List.mem_filter.1 hz).1
    exact lt_of_lt_of_le inGrid (zones_le hv)
  specialize written ((v.withMarks s.lvs.reseed).levelSet s.chc)
  unfold State.finishSolve
  dsimp only
  generalize List.foldl _ (s.zeroZoneWords [4, 6, 7]) _ = u at written ⊢
  have ended (lvs : Lvs) (hn : lvs.solve = none) : LegalTables { u with lvs := lvs } := legal_idle written lvs hn
  split
  · exact legal_of_stores (storesOf_raise _ _) (ended _ rfl)
  · exact ended _ rfl

end Sys2Proof.Laws
end

