-- ==== Sys2Proof/Proofs/LegalCommands.lean ====
section
/-! PROOF. The lines of an output frame, the input link, the side packets and the replies keep the tables legal. -/

namespace Sys2Proof.Laws

open Sys2Proof.Machine

/-! ## The lines of an output frame -/

theorem legal_captureFrame {s : State} (h : LegalTables s) : LegalTables s.captureFrame := by
  have read := legal_readRange (legal_readSettings h
    [Config.bref, Config.gainLimit, Config.clipMode, Config.blackFloor]) (wordKey 7 0) (Config.memoryWords 7)
  unfold State.captureFrame
  dsimp only
  generalize State.readRange _ _ _ = u at read ⊢
  split
  · exact read
  · exact legal_of_stores (s := u) rfl read

theorem legal_readLatchLines {s : State} (h : LegalTables s) : LegalTables s.readLatchLines := by
  have read := legal_readSettings h (allChains.map (fun k => Config.latchLine k.val))
  unfold State.readLatchLines
  dsimp only
  generalize s.readSettings _ = u at read ⊢
  exact legal_of_stores (s := u) rfl read

theorem legal_firstLine {s : State} (h : LegalTables s) : LegalTables s.firstLine := by
  rw [firstLine_eq]
  exact legal_of_stores (storesOf_lineBegun _) (legal_readLatchLines (legal_captureFrame
    (legal_of_stores (storesOf_latchesFallDue _) (legal_forceTurn h))))

theorem legal_flushLines (l : List Delayed) {s : State} (h : LegalTables s) : LegalTables (s.flushLines l) := by
  induction l generalizing s with
  | nil => exact h
  | cons e rest ih =>
    match e with
    | .start | .activeEnd => exact h
    | .line pixels damaged off width =>
      unfold State.flushLines
      split
      · exact ih (legal_of_stores (storesOf_sendLine _ _ _ _ _ _) h)
      · exact ih (legal_of_stores (storesOf_sendLine _ _ _ _ _ _) (legal_firstLine h))
      · exact h
      · exact h

theorem legal_startFollowing {s : State} (h : LegalTables s) : LegalTables s.startFollowing := by
  cases hp : s.ftu.phase.isOver with
  | true => rw [startFollowing_over s hp]; exact legal_of_stores (s := s) rfl h
  | false =>
    rw [startFollowing_cuts s hp]
    have turned : LegalTables (State.linesDropped s).latchesFallDue.forceTurn :=
      legal_forceTurn (legal_of_stores (s := s) (storesOf_latchesFallDue (State.linesDropped s)) h)
    generalize State.forceTurn _ = u at turned ⊢
    exact legal_of_stores (s := u) rfl turned

theorem legal_queueReport {s : State} (h : LegalTables s) : LegalTables s.queueReport := by
  have read := legal_readSetting h Config.deviceTag
  unfold State.queueReport
  dsimp only
  generalize s.readSetting _ = u at read ⊢
  rw [fillSlot_eq]
  exact legal_of_stores (s := u) (storesOf_pump _) read

theorem legal_sendActiveEnd {s : State} (h : LegalTables s) : LegalTables s.sendActiveEnd := by
  have due : LegalTables (State.activeEndSent s).latchesFallDue :=
    legal_of_stores (s := s) (storesOf_latchesFallDue (State.activeEndSent s)) h
  have handed : LegalTables (State.activeEndSent s).latchesFallDue.handClips := by
    generalize (State.activeEndSent s).latchesFallDue = u at due ⊢
    exact legal_of_stores (s := u) rfl due
  exact legal_queueReport handed

theorem legal_closeFrame {s : State} (h : LegalTables s) : LegalTables s.closeFrame := by
  unfold State.closeFrame
  split
  · exact h
  · exact legal_sendActiveEnd (legal_forceTurn h)

theorem legal_outputClosed {s : State} (h : LegalTables s) : LegalTables (State.outputClosed s) := by
  have dropped : LegalTables { s with ftu := { s.ftu with delay := [], forward := [] } } :=
    legal_of_stores (s := s) rfl h
  have closed := legal_readSetting (legal_closeFrame dropped) Config.freeRunPeriod
  unfold State.outputClosed
  dsimp only
  generalize State.readSetting _ _ = u at closed ⊢
  exact legal_of_stores (s := u) rfl closed

theorem legal_stopFollowing {s : State} (h : LegalTables s) : LegalTables s.stopFollowing := by
  cases hf : s.ftu.state with
  | freeRun => rw [stopFollowing_of_freeRun s hf]; exact h
  | following =>
    rw [stopFollowing_eq s hf]
    exact legal_outputClosed (legal_flushLines _ (legal_of_stores (s := s) (t := State.linesDropped s) rfl h))

/-- The scan and the frame turn of an output frame start, in either order. -/
theorem legal_scanAndTurn {s : State} (h : LegalTables s) (scanFirst : Bool) :
    LegalTables (s.scanAndTurn scanFirst) := by
  unfold State.scanAndTurn
  split
  · exact legal_turnOrWait (legal_of_stores (storesOf_scanDecision _) h)
  · exact legal_of_stores (storesOf_scanDecision _) (legal_turnOrWait h)

theorem legal_startFreeRun {s : State} (h : LegalTables s) (scanFirst : Bool) :
    LegalTables (s.startFreeRun scanFirst) := by
  have numbered : LegalTables (s.numberFrame true (s.lrx.locked.getD ⟨Config.defaultWidth, Config.defaultHeight⟩)) :=
    legal_of_stores (s := s) rfl h
  have read := legal_readSetting numbered Config.freeRunPeriod
  unfold State.startFreeRun
  dsimp only
  generalize State.readSetting _ _ = u at read ⊢
  refine legal_scanAndTurn ?_ scanFirst
  exact legal_of_stores (s := u) rfl read

/-! ## The input link -/

theorem legal_loseSignal {s : State} (h : LegalTables s) : LegalTables s.loseSignal :=
  legal_stopFollowing (legal_of_stores (s := s)
    (storesOf_changeInput { s with lrx := { s.lrx.closeRecord.emptyRun with period := 0 } } _) h)

theorem legal_linkError {s : State} (h : LegalTables s) : LegalTables s.linkError := by
  cases hr : s.lrx.record with
  | none => rw [linkError_no_record s hr]; exact legal_of_stores (s := s) rfl h
  | some r =>
    have marked : LegalTables { s.countCharError with lrx := { s.lrx with record := some (FrameRec.withError r) } } :=
      legal_of_stores (s := s) rfl h
    have read := legal_readSetting marked Config.losErrorLimit
    rw [linkError_record s r hr]
    dsimp only
    split
    · exact legal_loseSignal read
    · exact read

theorem legal_endLine {s : State} (h : LegalTables s) (pixels : List Pixel) : LegalTables (s.endLine pixels) := by
  unfold State.endLine
  split
  · exact h
  · next r _ =>
    have handed (lrx : Lrx) (damaged off : Bool) (width : Nat) :
        LegalTables (({ s with lrx := lrx } : State).handLine r.lines pixels damaged off width) :=
      legal_of_stores (s := s) (storesOf_handLine { s with lrx := lrx } _ _ _ _ _) h
    dsimp only
    split
    · exact legal_linkError (handed _ _ _ _)
    · exact handed _ _ _ _

theorem legal_endLast {s : State} (h : LegalTables s) (last : Option (List Pixel)) : LegalTables (s.endLast last) := by
  cases last with
  | none => exact h
  | some pixels => exact legal_endLine h pixels

theorem legal_leaveLock {s : State} (h : LegalTables s) : LegalTables s.leaveLock :=
  legal_stopFollowing (legal_of_stores (s := s) (storesOf_changeInput { s with lrx := s.lrx.emptyRun } _) h)

theorem legal_statisticsEnd {s : State} (h : LegalTables s) : LegalTables s.statisticsEnd := by
  unfold State.statisticsEnd
  split
  · exact h
  · refine legal_startSolve (legal_of_stores (storesOf_completeStatistics _) ?_) _
    exact legal_of_stores (s := s) rfl h

theorem legal_endFrame {s : State} (h : LegalTables s) : LegalTables s.endFrame := by
  unfold State.endFrame
  split
  · exact h
  · next r _ =>
    have read := legal_readSettings h s.lrx.judgedBy
    dsimp only
    generalize s.readSettings _ = u at read ⊢
    have judged : LegalTables { u with lrx := u.lrx.closeRecord } := legal_of_stores (s := u) rfl read
    split
    · exact judged
    · exact legal_of_stores (storesOf_acquire _ _ _) judged
    · split
      · exact legal_leaveLock judged
      · exact legal_statisticsEnd judged

theorem legal_truncate {s : State} (h : LegalTables s) : LegalTables s.truncate := by
  unfold State.truncate
  split
  · exact h
  · have closed (lrx : Lrx) : LegalTables { s with lrx := lrx } := legal_of_stores (s := s) rfl h
    dsimp only
    split
    · exact legal_leaveLock (closed _)
    · exact closed _
    · exact closed _

theorem legal_markerToFtu {s : State} (h : LegalTables s) : LegalTables s.markerToFtu := by
  unfold State.markerToFtu
  split
  · exact legal_startFollowing h
  all_goals exact legal_of_stores (s := s) rfl h

theorem legal_openFrame {s : State} (h : LegalTables s) : LegalTables s.openFrame := by
  have read := legal_readSetting h Config.frameTimeout
  unfold State.openFrame
  dsimp only
  generalize s.readSetting _ = u at read ⊢
  exact legal_of_stores (s := u) rfl read

theorem legal_route {s : State} (h : LegalTables s) (line : Nat) (errored : Bool) (bytes : List Byte) :
    LegalTables (s.route line errored bytes) := by
  have arrived : LegalTables (if bytes.getD 0 0 = s.tag ∨ bytes.getD 0 0 = Config.broadcastTag then
      s.arrive errored bytes else s) := by
    split
    · exact legal_of_stores (storesOf_arrive _ _ _) h
    · exact h
  unfold State.route
  dsimp only
  split
  · exact arrived
  · exact legal_of_stores (storesOf_offer _ line errored bytes) arrived

theorem legal_takePacket {s : State} (h : LegalTables s) (line : Nat) (errored : Bool) (bytes : List Byte) :
    LegalTables (s.takePacket line errored bytes) := by
  have read := legal_readSetting h Config.deviceTag
  unfold State.takePacket
  dsimp only
  generalize s.readSetting _ = u at read ⊢
  split
  · split
    · split
      · exact legal_linkError (legal_route read _ _ _)
      · exact legal_route read _ _ _
    · exact legal_linkError read
  · exact legal_linkError read

/-! ## Replies, exchanges and conversions -/

theorem legal_fill {s : State} (h : LegalTables s) (seq code : Byte) (r : Result) (why : Reason) (final : Bool)
    (data : List Word) : LegalTables (s.fill seq code r why final data) := by
  have read := legal_readSetting h Config.deviceTag
  unfold State.fill
  dsimp only
  generalize s.readSetting _ = u at read ⊢
  exact legal_of_stores (s := u) rfl read

theorem legal_deliver {s : State} (h : LegalTables s) (owner : OwingUnit) (n : Nat) (r : Result) (data : List Word) :
    LegalTables (s.deliver owner n r data) := by
  unfold State.deliver
  split
  · refine legal_fill ?_ _ _ _ _ _ _
    exact legal_of_stores (s := s) rfl h
  · exact h

theorem legal_answer {s : State} (h : LegalTables s) (p : Packet) (a : Answer) : LegalTables (s.answer p a) := by
  unfold State.answer
  split
  · exact h
  · exact legal_fill h _ _ _ _ _ _

theorem legal_finish {s : State} (h : LegalTables s) (p : Packet) (a : Option Answer) :
    LegalTables (s.finish p a) := by
  have free : LegalTables s.release := legal_of_stores (s := s) rfl h
  cases a with
  | none => exact legal_of_stores (storesOf_pump _) free
  | some a => exact legal_of_stores (storesOf_pump _) (legal_answer free p a)

/-- A command row keeps the tables legal where its body does. -/
theorem legal_execute {s : State} (h : LegalTables s) (code : Byte) (silent : Bool) (accepts : Nat → Bool)
    (body : Packet → State → State × Option Answer) (hb : ∀ p, LegalTables (body p s).1) :
    LegalTables (s.execute code silent accepts body) := by
  unfold State.execute
  split
  · split
    · exact legal_finish h _ _
    · split
      · exact legal_finish (hb _) _ _
      · exact legal_finish h _ _
  · exact h

theorem legal_endExchange {s : State} (h : LegalTables s) (k : ChainNo) (r : Result) (data : List Word) :
    LegalTables (s.endExchange k r data) := by
  have delivered := legal_deliver h .chains (s.chc.exchange k) r data
  unfold State.endExchange
  dsimp only
  generalize State.deliver _ _ _ _ _ = u at delivered ⊢
  refine legal_of_stores (s := u) ?_ delivered
  rw [storesOf_pump, storesOf_arbitrate, storesOf_setChain]
  rfl

theorem legal_stopConverter {s : State} (h : LegalTables s) : LegalTables s.stopConverter := by
  have idle : LegalTables { s with sns := { s.sns with converter := .idle } } := legal_of_stores (s := s) rfl h
  unfold State.stopConverter
  dsimp only
  split
  · exact legal_deliver idle _ _ _ _
  · exact idle
  · exact idle

theorem legal_convert {s : State} (h : LegalTables s) (i raw : Nat) : LegalTables (s.convert i raw) := by
  have thermistor (u : State) (k : ChainNo) (r : Nat) : storesOf (u.handThermistor k r) = storesOf u := by
    unfold State.handThermistor
    split
    · rfl
    · rfl
  have read := legal_readSettings h (senseReads i raw)
  unfold State.convert
  dsimp only
  generalize s.readSettings _ = u at read ⊢
  have stored (sns : Sns) : LegalTables { u with sns := sns } := legal_of_stores (s := u) rfl read
  split
  · exact legal_of_stores (thermistor _ _ _) (stored _)
  · exact legal_of_stores (s := u) rfl read

theorem legal_readback {s : State} (h : LegalTables s) (k : ChainNo) (zones : List BurstZone) (i : Nat)
    (bytes : List Byte) : LegalTables (s.readback k zones i bytes) := by
  have read := legal_readSettings h [Config.faultConfirm, Config.missLimit]
  unfold State.readback
  dsimp only
  split
  · exact legal_of_stores (storesOf_goodStatus _ _ _ _ _) read
  · exact legal_of_stores (storesOf_missedSlot _ _ _) read

/-! ## The bodies of the commands -/

/-- A check of a command's own refuses and changes nothing, or lets the rest of the body run. -/
theorem legal_guard {s : State} {r : Result} (c : Prop) [Decidable c] {rest : State × Option Answer}
    (h : LegalTables s) (hr : ¬ c → LegalTables rest.1) : LegalTables (if c then refusal s r else rest).1 := by
  split
  · exact h
  · next pass => exact hr pass

theorem wf_writeWords (ws : List Word) (s : State) (m i : Nat) (h : s.mem.wf = true) (hm : m < 8)
    (hi : i + ws.length ≤ Config.memoryWords m) : (s.writeWords m i ws).mem.wf = true := by
  induction ws generalizing s i with
  | nil => exact h
  | cons w ws ih =>
    rw [List.length_cons] at hi
    exact ih (s.writeWord (wordKey m i) w) (i + 1)
      (wf_writeWord s _ w h (protectedKey_bank m i hm (by omega))) (by omega)

theorem verdict_writeWords (ws : List Word) (s : State) (m i b : Nat) :
    (s.writeWords m i ws).verdict b ≠ none → s.verdict b ≠ none := by
  induction ws generalizing s i with
  | nil => exact id
  | cons w ws ih => exact fun h => verdict_writeWord s _ w b (ih _ _ h)

theorem memoryWords_loaded (t : Nat) (h : t ≤ 3) :
    Config.memoryWords (bankMemory t 0) = Config.tableEntries t * Config.wordsPerEntry t := by
  match t, h with
  | 0, _ | 1, _ | 2, _ | 3, _ => rfl

/-- A write of entries inside a table stores legal values in its staging bank, and leaves the active banks. -/
theorem legal_tableWritten {s : State} (h : LegalTables s) (t start n : Nat) (data : List Word) (ht : t ≤ 3)
    (hn : start + n ≤ Config.tableEntries t) : LegalTables (State.tableWritten s t start n data) := by
  have active (m i : Nat) (hm : m % 2 = 1) (hi : i < 32768) :=
    (tableWritten_active s t start n data ht hn m i hm hi).1
  obtain ⟨mem, upsets, kept⟩ := tableWritten_kept s t start n data ht
  have lvs : (State.tableWritten s t start n data).lvs = s.lvs := by rw [kept]
  refine ⟨?_, fun a ha => h.verdicts a ?_, fun i hi => ?_, fun i hi => ?_,
    fun v hv => h.captured v (by rwa [← lvs]), ?_⟩
  · rw [tableWritten_eq s t start n data ht]
    refine wf_writeWords _ s _ _ h.wf (by unfold bankMemory; omega) ?_
    rw [length_written t start n data ht, memoryWords_loaded t ht, ← Nat.add_mul]
    exact Nat.mul_le_mul_right _ hn
  · rw [tableWritten_eq s t start n data ht] at ha
    exact verdict_writeWords _ s _ _ a ha
  · by_cases own : t = 0 ∧ start ≤ i ∧ i < start + n
    · obtain ⟨rfl, lo, hi'⟩ := own
      obtain ⟨j, rfl⟩ := Nat.exists_eq_add_of_le lo
      have entry := (tableWritten_entry s 0 start n data ht hn j (by omega) _ fun _ _ => rfl).1 rfl
      rw [entry]
      exact clampTo_legal _ _ hi
    · have same : (State.tableWritten s t start n data).mem.setting 0 i = s.mem.setting 0 i := by
        refine setting_of_words fun j hj => (tableWritten_outside s t start n data ht _ ?_).1
        by_cases first : t = 0
        · subst first
          rw [wordsPerEntry_loaded 0 (by decide), if_pos (by decide)]
          unfold wordKey
          omega
        · unfold wordKey
          omega
      rw [same]
      exact h.staged i hi
  · rw [setting_of_words (mem := s.mem) (b := 1) fun j hj => active 1 _ rfl (by omega)]
    exact h.active i hi
  · exact distinctChannels_of_words (fun i hi => active (2 + 1) i rfl (by omega)) h.distinct

theorem legal_writeTable {s : State} (h : LegalTables s) (p : Packet) : LegalTables (writeTable p s).1 := by
  unfold writeTable
  dsimp only
  refine legal_guard _ h fun _ => legal_guard _ h fun loaded => legal_guard _ h fun _ =>
    legal_guard _ h fun inside => legal_guard _ h fun _ => ?_
  dsimp only
  rw [List.zipIdx_map_fst]
  exact legal_tableWritten h _ _ _ _ (by omega) (by omega)

theorem legal_readTable {s : State} (h : LegalTables s) (p : Packet) : LegalTables (readTable p s).1 := by
  have reads (t b start count : Nat) : LegalTables (s.readEntries t b start count) := by
    unfold State.readEntries
    split
    · exact legal_readRange h _ _
    · exact h
  unfold readTable
  dsimp only
  exact legal_guard _ h fun _ => legal_guard _ h fun _ => legal_guard _ h fun _ => legal_guard _ h fun _ =>
    reads _ _ _ _

theorem legal_commitTables {s : State} (h : LegalTables s) (p : Packet) : LegalTables (commitTables p s).1 := by
  have valid := (legal_validateStaging h (BitVec.ofNat 4 (p.arg 0))).1
  unfold commitTables
  dsimp only
  split
  · exact h
  · generalize State.validateStaging s _ = u at valid ⊢
    split
    · exact legal_of_stores (s := u.1) rfl valid
    · exact valid

theorem legal_setMode {s : State} (h : LegalTables s) (p : Packet) : LegalTables (setMode p s).1 := by
  unfold setMode
  split
  · exact h
  · exact legal_guard _ h fun _ => legal_guard _ h fun _ => legal_of_stores (s := s) rfl h

theorem legal_clearFaults {s : State} (h : LegalTables s) (p : Packet) : LegalTables (clearFaults p s).1 := by
  have range (first last : Nat) : LegalTables (clearFaultRange first last s).1 := by
    have read := legal_readRange h (wordKey 3 (2 * first)) (2 * (last + 1 - first))
    unfold clearFaultRange
    dsimp only
    generalize s.readRange _ _ = u at read ⊢
    exact legal_of_stores (storesOf_keepDark u _ _) read
  unfold clearFaults
  split
  · exact legal_of_stores (storesOf_keepDark s _ _) h
  · split
    · exact range _ _
    · exact h

theorem legal_enumerateChain {s : State} (h : LegalTables s) (p : Packet) : LegalTables (enumerateChain p s).1 := by
  unfold enumerateChain
  split
  · exact legal_guard _ h fun _ => legal_guard _ h fun _ =>
      legal_of_stores ((storesOf_arbitrate _ _).trans (storesOf_setChain _ _ _)) h
  · exact h

theorem legal_driverPass {s : State} (h : LegalTables s) (p : Packet) : LegalTables (driverPass p s).1 := by
  unfold driverPass
  split
  · exact legal_guard _ h fun _ => legal_guard _ h fun _ => legal_of_stores (s := s) (storesOf_arbitrate _ _) h
  · exact h

theorem legal_senseStart {s : State} (h : LegalTables s) (p : Packet) : LegalTables (senseStart p s).1 := by
  unfold senseStart
  refine legal_guard _ h fun _ => ?_
  split
  · exact legal_of_stores (s := s) rfl h
  · exact h
  · exact h

/-- A mark is set at a protected word only (R179). -/
theorem legal_injectError {s : State} (h : LegalTables s) (p : Packet) : LegalTables (injectError p s).1 := by
  unfold injectError
  refine legal_guard _ h fun memory => legal_guard _ h fun place => ?_
  split
  · exact h
  · next k _ =>
    have inside : protectedKey (wordKey (p.arg 0) (p.arg 1)) = true := by
      by_cases zone : p.arg 0 = 8
      · have words : p.arg 1 < 18432 := by
          rw [zone] at place
          exact not_le.1 fun le => place (.inl le)
        have split : 8 * (p.arg 1 / 8) + p.arg 1 % 8 = p.arg 1 := Nat.div_add_mod _ 8
        rw [zone, ← split]
        exact protectedKey_zone _ _ (show p.arg 1 / 8 < 2304 by omega) (by omega) (by omega)
      · exact protectedKey_bank _ _ (by omega) (by omega)
    refine ⟨h.wf, fun a ha => ?_, h.staged, h.active, h.captured, h.distinct⟩
    by_cases own : a = wordKey (p.arg 0) (p.arg 1)
    · rw [own]; exact inside
    · refine h.verdicts a ?_
      revert ha
      exact verdict_of_upset (sparseGet_put_other (fun _ => none) s.imn.marks _ a (some k) own) (.inr rfl)

end Sys2Proof.Laws
end

