-- ==== Sys2Proof/Proofs/LegalSteps.lean ====
section
/-! PROOF. Every command of the block keeps the tables legal. -/

namespace Sys2Proof.Laws

open Sys2Proof.Machine

/-- The state that a command gives, if it gives one, has legal tables. -/
def NextLegal (o : Host.Outcome State Fault Refusal) : Prop := ∀ t, o = .next t → LegalTables t

theorem nextLegal {t : State} (h : LegalTables t) : NextLegal (.next t) := by
  rintro _ ⟨⟩
  exact h

theorem legal_advance {s : State} (h : LegalTables s) (dt : Nat) : LegalTables (s.advance dt) :=
  legal_of_stores (s := s) rfl h

theorem legal_advanceTo {s : State} (h : LegalTables s) (t : Nat) : LegalTables (s.advanceTo t) := legal_advance h _

theorem legal_powerOn (straps : BitVec 3) : LegalTables (State.powerOn straps) :=
  (legalTables_iff _).2 ⟨memoryInv_powerOn straps, mapInv_powerOn straps⟩

/-! ## SOFT_RESET (R36, R179) -/

/-- SOFT_RESET zeroes words of ZONE_STATE, drops the marks, and keeps the rest of the protected memories. -/
theorem legal_resetFor {s : State} (h : LegalTables s) : LegalTables (State.resetFor s) := by
  have zeroed := legal_zeroZoneWords h [4, 5, 6, 7]
  refine legal_of_change zeroed zeroed.wf (substituted_refl _) (fun a ha => ?_) nofun
  show (s.zeroZoneWords [4, 5, 6, 7]).verdict a ≠ none
  change sparseGet (fun _ => none) (s.zeroZoneWords [4, 5, 6, 7]).imn.upsets a ≠ none at ha
  unfold State.verdict
  split
  · nofun
  · exact ha

theorem legal_softReset {s : State} (h : LegalTables s) (p : Packet) : LegalTables (s.softReset p) := by
  have reset : LegalTables (allChains.foldl State.arbitrate (State.resetFor s)) :=
    legal_of_stores (foldl_keeps storesOf _ storesOf_arbitrate _ _) (legal_resetFor h)
  rw [softReset_shape]
  exact legal_of_stores (storesOf_pump _) (legal_foldl _ _ (fun _ _ _ h => legal_fill h _ _ _ _ _ _)
    (legal_answer reset p _))

/-! ## The commands of the chains -/

theorem legal_execReadbackSlot {s : State} (h : LegalTables s) (dt : Nat) (k : ChainNo) (bytes : List Byte) :
    NextLegal (execReadbackSlot dt k bytes s) := by
  have h := legal_advance h dt
  refine nextLegal ?_
  dsimp only
  split
  · split
    · exact legal_of_stores (storesOf_setChain _ _ _) (legal_readback h _ _ _ _)
    · exact h
  · split
    · exact legal_of_stores (storesOf_setChain _ _ _) (legal_readback h _ _ _ _)
    · exact h
  all_goals exact h

theorem legal_execBurstDone {s : State} (h : LegalTables s) (dt : Nat) (k : ChainNo) :
    NextLegal (execBurstDone dt k s) := by
  refine nextLegal (legal_of_stores (s := s) ?_ h)
  dsimp only
  split
  · split
    · exact storesOf_freeChain _ _
    · rfl
  all_goals rfl

theorem legal_execDarkBurstDone {s : State} (h : LegalTables s) (dt : Nat) (k : ChainNo) :
    NextLegal (execDarkBurstDone dt k s) := by
  refine nextLegal (legal_of_stores (s := s) ?_ h)
  split
  · split
    · rfl
    · rfl
  all_goals rfl

theorem legal_execLatchSent {s : State} (h : LegalTables s) (dt : Nat) (k : ChainNo) :
    NextLegal (execLatchSent dt k s) := by
  refine nextLegal (legal_of_stores (s := s) ?_ h)
  dsimp only
  split
  · exact storesOf_freeChain _ _
  · exact storesOf_freeChain _ _
  all_goals rfl

theorem legal_execReleaseSent {s : State} (h : LegalTables s) (dt : Nat) (k : ChainNo) :
    NextLegal (execReleaseSent dt k s) := by
  refine nextLegal (legal_of_stores (s := s) ?_ h)
  split
  all_goals rfl

theorem legal_execAssignmentSent {s : State} (h : LegalTables s) (dt : Nat) (k : ChainNo) :
    NextLegal (execAssignmentSent dt k s) := by
  refine nextLegal (legal_of_stores (s := s) ?_ h)
  split
  all_goals rfl

theorem legal_execAcknowledgement {s : State} (h : LegalTables s) (dt : Nat) (k : ChainNo) (bytes : List Byte) :
    NextLegal (execAcknowledgement dt k bytes s) := by
  refine nextLegal (legal_of_stores (s := s) ?_ h)
  split
  · split
    · rfl
    · split
      · split
        · exact storesOf_endSweep _ _ _ _
        · rfl
      · exact storesOf_endSweep _ _ _ _
  all_goals rfl

theorem legal_execEnumAckTimeout {s : State} (h : LegalTables s) (dt : Nat) (k : ChainNo) :
    NextLegal (execEnumAckTimeout dt k s) := by
  refine nextLegal (legal_of_stores (s := s) ?_ h)
  split
  · exact storesOf_endSweep _ _ _ _
  all_goals rfl

theorem legal_execPassRequestSent {s : State} (h : LegalTables s) (dt : Nat) (k : ChainNo) :
    NextLegal (execPassRequestSent dt k s) := by
  refine nextLegal (legal_of_stores (s := s) ?_ h)
  dsimp only
  split
  · exact storesOf_freeChain _ _
  all_goals rfl

theorem legal_execPassAnswer {s : State} (h : LegalTables s) (dt : Nat) (k : ChainNo) (bytes : List Byte) :
    NextLegal (execPassAnswer dt k bytes s) := by
  have h := legal_advance h dt
  refine nextLegal ?_
  split
  · split
    · split
      · exact legal_endExchange h _ _ _
      · exact h
    · exact h
  · exact h

theorem legal_execPassTimeout {s : State} (h : LegalTables s) (dt : Nat) (k : ChainNo) :
    NextLegal (execPassTimeout dt k s) := by
  have h := legal_advance h dt
  refine nextLegal ?_
  split
  · exact legal_endExchange (legal_advanceTo h _) _ _ _
  · exact h

theorem legal_execConversionEnd {s : State} (h : LegalTables s) (dt : Nat) (raw : BitVec 10) :
    NextLegal (execConversionEnd dt raw s) := by
  have h := legal_advance h dt
  refine nextLegal ?_
  dsimp only
  split
  · exact h
  · next i since _ =>
    have stored := legal_convert (legal_advanceTo h (since + Config.conversionTime)) i raw.toNat
    generalize State.convert _ _ _ = u at stored ⊢
    exact legal_of_stores (s := u) rfl stored
  · next i since _ =>
    have stored := legal_convert (legal_advanceTo h (since + Config.conversionTime)) i raw.toNat
    generalize State.convert _ _ _ = u at stored ⊢
    refine legal_of_stores (storesOf_pump _) (legal_deliver ?_ _ _ _ _)
    exact legal_of_stores (s := u) rfl stored

/-! ## The commands of the link and of the output frame -/

theorem legal_execSidePacket {s : State} (h : LegalTables s) (dt line : Nat) (bytes : List Byte) :
    NextLegal (execSidePacket dt line bytes s) := by
  have h := legal_advance h dt
  have blanking : LegalTables (State.atBlanking s dt) := legal_of_stores (s := s.advance dt) rfl h
  have taken (isActive lost errored : Bool) :
      LegalTables (if isActive then (s.advance dt).endLine [] else if lost then State.atBlanking s dt
        else (State.atBlanking s dt).takePacket line errored bytes) := by
    split
    · exact legal_endLine h []
    · split
      · exact blanking
      · exact legal_takePacket blanking line errored bytes
  refine nextLegal ?_
  dsimp only
  split
  · exact h
  · exact h
  · exact taken _ _ _
  · exact taken _ _ _

theorem legal_execFrameTimeout {s : State} (h : LegalTables s) (dt : Nat) : NextLegal (execFrameTimeout dt s) := by
  have h := legal_advance h dt
  refine nextLegal ?_
  split
  · exact h
  · exact legal_loseSignal (legal_advanceTo h _)
  · exact legal_loseSignal (legal_advanceTo h _)

theorem legal_execOutputFrameStart {s : State} (h : LegalTables s) (dt : Nat) (scanFirst : Bool) :
    NextLegal (execOutputFrameStart dt scanFirst s) := by
  have h := legal_advance h dt
  refine nextLegal ?_
  split
  · split
    · refine legal_scanAndTurn ?_ scanFirst
      exact legal_of_stores (s := s.advance dt) rfl h
    · exact legal_startFreeRun (legal_advanceTo h _) scanFirst
    · exact h
  · exact h

theorem legal_execOutputBlankingLine {s : State} (h : LegalTables s) (dt line : Nat) :
    NextLegal (execOutputBlankingLine dt line s) := by
  refine nextLegal (legal_of_stores (s := s) ?_ h)
  dsimp only
  split
  all_goals rfl

theorem legal_execFirstActiveLine {s : State} (h : LegalTables s) (dt : Nat) :
    NextLegal (execFirstActiveLine dt s) := by
  have h := legal_advance h dt
  refine nextLegal ?_
  split
  · exact legal_firstLine h
  · exact legal_firstLine (legal_advanceTo h _)
  · exact h

theorem legal_execOutputLineBegin {s : State} (h : LegalTables s) (dt : Nat) :
    NextLegal (execOutputLineBegin dt s) := by
  refine nextLegal (legal_of_stores (s := s) ?_ h)
  split
  · exact storesOf_sendLine _ _ _ _ _ _
  · split
    · exact storesOf_latchesOfLine _ _
    · rfl
  · rfl

theorem legal_execOutputActiveEnd {s : State} (h : LegalTables s) (dt : Nat) :
    NextLegal (execOutputActiveEnd dt s) := by
  have h := legal_advance h dt
  refine nextLegal ?_
  dsimp only
  split
  · refine legal_sendActiveEnd ?_
    exact legal_of_stores (s := s.advance dt) rfl h
  · exact legal_startSolve (legal_sendActiveEnd (legal_advanceTo h _)) _
  · exact h

theorem legal_execSolveComplete {s : State} (h : LegalTables s) (dt : Nat) : NextLegal (execSolveComplete dt s) := by
  have h := legal_advance h dt
  refine nextLegal ?_
  dsimp only
  split
  · next v solving =>
    have solved (set : LevelSet) := legal_of_stores (storesOf_handOff _ set)
      (legal_finishSolve (legal_advanceTo h v.dueAt) v (h.captured v solving))
    split
    · exact legal_frameTurn (solved _)
    · exact solved _
  · exact h

theorem legal_execTransmissionEnd {s : State} (h : LegalTables s) (dt : Nat) :
    NextLegal (execTransmissionEnd dt s) := by
  refine nextLegal (legal_of_stores (s := s) ?_ h)
  dsimp only
  split
  · exact storesOf_pump _
  · rfl

theorem legal_execSoftReset {s : State} (h : LegalTables s) (dt : Nat) : NextLegal (execSoftReset dt s) := by
  have h := legal_advance h dt
  refine nextLegal ?_
  split
  · split
    · exact legal_softReset h _
    · exact legal_finish h _ _
  · exact h

theorem legal_execBadCommand {s : State} (h : LegalTables s) (dt : Nat) : NextLegal (execBadCommand dt s) := by
  have h := legal_advance h dt
  refine nextLegal ?_
  split
  · split
    · exact h
    · exact legal_finish h _ _
  · exact h

/-- The marker ends a line and an open frame, opens a record and hands the output frame on. -/
theorem legal_marker {s : State} (h : LegalTables s) : LegalTables s.measure.openFrame.markerToFtu :=
  legal_markerToFtu (legal_openFrame (legal_of_stores (storesOf_measure s) h))

/-- Every command keeps the tables legal. -/
theorem legal_exec {s : State} (h : LegalTables s) (i : Instr) : NextLegal (exec i s) := by
  have row (dt : Nat) (code : Byte) (silent : Bool) (accepts : Nat → Bool)
      (body : Packet → State → State × Option Answer) (hb : ∀ p, LegalTables (body p (s.advance dt)).1) :
      NextLegal (.next ((s.advance dt).execute code silent accepts body)) :=
    nextLegal (legal_execute (legal_advance h dt) code silent accepts body hb)
  have later (dt : Nat) : LegalTables (s.advance dt) := legal_advance h dt
  have same {u : State} (hu : storesOf u = storesOf s) : LegalTables u := legal_of_stores hu h
  have restarted (u : State) (hu : LegalTables u) :
      LegalTables { u with pending := s.pending, draws := s.draws } := legal_of_stores (s := u) rfl hu
  cases i with
  | powerOn straps => exact nextLegal (restarted _ (legal_powerOn straps))
  | resetn straps => exact nextLegal (restarted _ (legal_powerOn straps))
  | frameStartMarker dt last => exact nextLegal (legal_marker (legal_truncate (legal_endLast (later dt) last)))
  | activeLine dt pixels => exact nextLegal (legal_endLine (later dt) pixels)
  | sidePacket dt line bytes => exact legal_execSidePacket h dt line bytes
  | inputActiveEnd dt last => exact nextLegal (legal_endFrame (legal_endLast (later dt) last))
  | characterError dt place =>
    have marked : LegalTables { s.advance dt with lrx := s.lrx.markError place } := same rfl
    exact nextLegal (legal_linkError marked)
  | elasticBufferSlip dt place => exact nextLegal (same rfl)
  | frameTimeout dt => exact legal_execFrameTimeout h dt
  | outputFrameStart dt scanFirst => exact legal_execOutputFrameStart h dt scanFirst
  | outputBlankingLine dt line => exact legal_execOutputBlankingLine h dt line
  | firstActiveLine dt => exact legal_execFirstActiveLine h dt
  | outputLineBegin dt => exact legal_execOutputLineBegin h dt
  | outputActiveEnd dt => exact legal_execOutputActiveEnd h dt
  | solveComplete dt => exact legal_execSolveComplete h dt
  | burstDone dt k => exact legal_execBurstDone h dt k
  | darkBurstDone dt k => exact legal_execDarkBurstDone h dt k
  | readbackSlot dt k bytes => exact legal_execReadbackSlot h dt k bytes
  | latchSent dt k => exact legal_execLatchSent h dt k
  | releaseSent dt k => exact legal_execReleaseSent h dt k
  | assignmentSent dt k => exact legal_execAssignmentSent h dt k
  | acknowledgement dt k bytes => exact legal_execAcknowledgement h dt k bytes
  | enumAckTimeout dt k => exact legal_execEnumAckTimeout h dt k
  | passRequestSent dt k => exact legal_execPassRequestSent h dt k
  | passAnswer dt k bytes => exact legal_execPassAnswer h dt k bytes
  | passTimeout dt k => exact legal_execPassTimeout h dt k
  | conversionEnd dt raw => exact legal_execConversionEnd h dt raw
  | transmissionEnd dt => exact legal_execTransmissionEnd h dt
  | identify dt => exact row dt _ _ _ _ fun _ => legal_readSetting (later dt) _
  | writeTable dt => exact row dt _ _ _ _ fun p => legal_writeTable (later dt) p
  | readTable dt => exact row dt _ _ _ _ fun p => legal_readTable (later dt) p
  | commit dt => exact row dt _ _ _ _ fun p => legal_commitTables (later dt) p
  | cancelCommit dt => exact row dt _ _ _ _ fun _ => same rfl
  | setMode dt => exact row dt _ _ _ _ fun p => legal_setMode (later dt) p
  | readStatus dt => exact row dt _ _ _ _ fun _ => same rfl
  | clearCounters dt => exact row dt _ _ _ _ fun _ => same rfl
  | clearFaults dt => exact row dt _ _ _ _ fun p => legal_clearFaults (later dt) p
  | enumerateChain dt => exact row dt _ _ _ _ fun p => legal_enumerateChain (later dt) p
  | driverPass dt => exact row dt _ _ _ _ fun p => legal_driverPass (later dt) p
  | senseStart dt => exact row dt _ _ _ _ fun p => legal_senseStart (later dt) p
  | senseAbort dt => exact row dt _ _ _ _ fun _ => legal_stopConverter (later dt)
  | errorLogClear dt => exact row dt _ _ _ _ fun _ => same rfl
  | injectError dt => exact row dt _ _ _ _ fun p => legal_injectError (later dt) p
  | timeSet dt => exact row dt _ _ _ _ fun _ => same rfl
  | timeAdjust dt => exact row dt _ _ _ _ fun _ => same rfl
  | softReset dt => exact legal_execSoftReset h dt
  | badCommand dt => exact legal_execBadCommand h dt

/-- Settles O58: a step is a command that waited, or a microsecond of time. -/
theorem stepKeepsTablesLegal : Obligations.StepKeepsTablesLegal := by
  intro s t memory map ht
  have legal : LegalTables s := (legalTables_iff s).2 ⟨memory, map⟩
  rw [← legalTables_iff]
  unfold step at ht
  split at ht
  · next c rest _ =>
    have waiting : LegalTables { s with pending := rest } := legal_of_stores (s := s) rfl legal
    exact legal_exec waiting c t ht
  · exact nextLegal (t := s.advance 1) (legal_advance legal 1) t ht

end Sys2Proof.Laws
end

