-- ==== Sys2Proof/Proofs/CopiedTables.lean ====
section
/-! PROOF. The copy of the marked tables, without an error and with one wrong word in a bank that is overwritten. -/

namespace Sys2Proof.Laws

open Sys2Proof.Machine

/-! ## Flags -/

/-- The flag of an event is set. -/
def State.flagged (s : State) (e : Event) : Prop := s.rpu.flags &&& e.bit ≠ 0

theorem flagged_raise (s : State) (e : Event) : State.flagged (s.raise e) e :=
  raised_of_keepsFlags (keepsFlags_refl (s.raise e))

theorem flagged_of_keepsFlags {s t : State} {e : Event} (h : keepsFlags s t) (hs : State.flagged s e) :
    State.flagged t e := by
  obtain ⟨f, kept⟩ := h
  intro zero
  refine hs (BitVec.eq_of_getLsbD_eq fun i hi => ?_)
  have bit := congrArg (fun b => b.getLsbD i) zero
  rw [kept] at bit
  simp only [BitVec.getLsbD_and, BitVec.getLsbD_or] at bit ⊢
  cases flag : s.rpu.flags.getLsbD i with
  | false => exact (BitVec.getLsbD_zero ..).symm
  | true => rwa [flag, Bool.true_or] at bit

/-! ## The words of a copy (R48) -/

/-- From `mem` to `mem'` each of these tables has its staging bank copied to its active bank, and the others stay. -/
def Copied (l : List Nat) (mem mem' : Memory) : Prop :=
  ∀ t < 4, ∀ i < Config.memoryWords (2 * t), mem'.word (wordKey (2 * t) i) = mem.word (wordKey (2 * t) i) ∧
    mem'.word (wordKey (2 * t + 1) i) =
      if t ∈ l then mem.word (wordKey (2 * t) i) else mem.word (wordKey (2 * t + 1) i)

theorem copied_nil (mem : Memory) : Copied [] mem mem := fun _ _ _ _ => ⟨rfl, (if_neg List.not_mem_nil).symm⟩

theorem copied_cons {t : Nat} {l : List Nat} {mem mem' mem'' : Memory} (h : Copied [t] mem mem')
    (h' : Copied l mem' mem'') : Copied (t :: l) mem mem'' := by
  intro u hu i hi
  obtain ⟨staging, active⟩ := h u hu i hi
  obtain ⟨staging', active'⟩ := h' u hu i hi
  refine ⟨staging'.trans staging, active'.trans ?_⟩
  rw [staging, active]
  by_cases later : u ∈ l
  · rw [if_pos later, if_pos (List.mem_cons_of_mem _ later)]
  · rw [if_neg later]
    by_cases now : u = t
    · rw [if_pos (List.mem_singleton.2 now), if_pos (now ▸ List.mem_cons_self)]
    · rw [if_neg (fun h => now (List.mem_singleton.1 h)), if_neg (List.not_mem_cons_of_ne_of_not_mem now later)]

/-- A copy takes no word from the bank that it overwrites. -/
theorem copied_copyBank {t : Nat} (ht : t < 4) {mem mem' : Memory}
    (h : ∀ a, keyMemory a ≠ 2 * t + 1 → mem'.word a = mem.word a) : Copied [t] mem (mem'.copyBank t) := by
  intro u hu i hi
  obtain ⟨-, size⟩ := memoryWords_banks u hu
  have hi' : i < 32768 := lt_of_lt_of_le hi (le_trans size (by decide))
  have other (m : Nat) (hm : m ≠ 2 * t + 1) : mem'.word (wordKey m i) = mem.word (wordKey m i) :=
    h _ (by rw [keyMemory_wordKey _ _ hi']; exact hm)
  rw [word_copyBank_bank mem' t _ i ht hi', word_copyBank_bank mem' t _ i ht hi']
  refine ⟨by rw [if_neg (by omega), other _ (by omega)], ?_⟩
  by_cases own : u = t
  · subst own
    rw [if_pos ⟨rfl, hi⟩, if_pos (List.mem_singleton.2 rfl), other _ (by omega)]
  · rw [if_neg (by omega), if_neg (fun h => own (List.mem_singleton.1 h)), other _ (by omega)]

theorem copied_copyBanks (l : List Nat) (hl : ∀ t ∈ l, t < 4) (mem : Memory) :
    Copied l mem (l.foldl Memory.copyBank mem) := by
  induction l generalizing mem with
  | nil => exact copied_nil mem
  | cons t l ih =>
    exact copied_cons (copied_copyBank (hl t List.mem_cons_self) fun _ _ => rfl)
      (ih (fun t ht => hl t (List.mem_cons_of_mem _ ht)) _)

theorem copyTable_of_quiet (s : State) (hq : s.quiet) (t : Nat) :
    s.copyTable t = { s with mem := s.mem.copyBank t } := by
  unfold State.copyTable
  rw [readRange_of_quiet s hq, readOverwritten_of_quiet s hq]
  dsimp only
  rw [show sparseClear _ s.imn.upsets = s.imn.upsets by rw [hq.2]; rfl]

theorem copyTables_of_quiet (l : List Nat) (s : State) (hq : s.quiet) :
    l.foldl State.copyTable s = { s with mem := l.foldl Memory.copyBank s.mem } := by
  induction l generalizing s with
  | nil => rfl
  | cons t l ih =>
    rw [List.foldl_cons, List.foldl_cons, copyTable_of_quiet s hq, ih]
    exact hq

/-! ## One wrong word waits (R177) -/

/-- A word that is not among those stored stays. -/
theorem stored_other (l : List (Nat × Word)) (mem : Memory) (a : Nat) (h : ∀ e ∈ l, a ≠ e.1) :
    (Memory.stored mem l).word a = mem.word a := by
  induction l generalizing mem with
  | nil => rfl
  | cons e l ih =>
    exact (ih _ fun e he => h e (List.mem_cons_of_mem _ he)).trans
      (word_store_other _ _ _ _ (h e List.mem_cons_self))


/-- The only outstanding error is two wrong bits in one word of a table's active bank. -/
def State.waits (s : State) (table i : Nat) : Prop :=
  s.imn.marks = [] ∧ s.imn.upsets = [(wordKey (2 * table + 1) i, some .uncorrectable)]

theorem verdict_of_waits {s : State} {table i : Nat} (h : State.waits s table i) (a : Nat) :
    s.verdict a = if a = wordKey (2 * table + 1) i then some .uncorrectable else none := by
  unfold State.verdict
  rw [h.1, h.2]
  by_cases own : a = wordKey (2 * table + 1) i
  · rw [if_pos own, own]
    simp [sparseGet]
  · rw [if_neg own]
    simp [sparseGet, Ne.symm own]

/-- Of the words of a run, one alone is met. -/
theorem filter_range_single (n i : Nat) (p : Nat → Bool) (hi : i < n) (h : ∀ j < n, p j = decide (j = i)) :
    (List.range n).filter p = [i] := by
  rw [List.filter_congr fun j hj => h j (List.mem_range.1 hj), List.filter_eq,
    List.count_eq_one_of_mem List.nodup_range (List.mem_range.2 hi)]
  rfl

/-- The error has been met: it is counted and logged, and SAFE is entered with any request cancelled (R158, R159). -/
structure ErrorMet (s t : State) (table i : Nat) : Prop where
  quiet : t.quiet
  mode : t.mdc.mode = .safe
  request : t.mdc.request = none
  memoryError : State.flagged t .memoryError
  modeChanged : s.mdc.mode ≠ .safe → State.flagged t .modeChanged
  counted : t.rpu.counters.uncorrectable = satAdd s.rpu.counters.uncorrectable 1
  logged : s.imn.log.length < 4 → t.imn.log = s.imn.log ++ [⟨2 * table + 1, i, .uncorrectable, s.ftu.frameNumber⟩]

/-- What the integrity monitor writes back stands in the memory of the word read, and covers that word. -/
theorem substitutes_keys (straps : BitVec 3) (a : Nat) :
    (∀ e ∈ substitutes straps a, keyMemory e.1 = keyMemory a) ∧ ∃ e ∈ substitutes straps a, e.1 = a := by
  have pair (j : Nat) (hj : j < 2) : keyMemory (wordKey (keyMemory a) (2 * (keyIndex a / 2) + j)) = keyMemory a :=
    keyMemory_wordKey _ _ (by unfold keyIndex; omega)
  have covers (v w : Word) : ∃ e ∈ [(wordKey (keyMemory a) (2 * (keyIndex a / 2)), v),
      (wordKey (keyMemory a) (2 * (keyIndex a / 2) + 1), w)], e.1 = a := by
    by_cases even : keyIndex a % 2 = 0
    · exact ⟨_, List.mem_cons_self, by unfold wordKey keyMemory keyIndex at *; omega⟩
    · exact ⟨_, List.mem_cons_of_mem _ List.mem_cons_self, by unfold wordKey keyMemory keyIndex at *; omega⟩
  unfold substitutes
  dsimp only
  split
  · exact ⟨List.forall_mem_cons.2 ⟨pair 0 (by decide), List.forall_mem_singleton.2 (pair 1 (by decide))⟩, covers _ _⟩
  · exact ⟨List.forall_mem_cons.2 ⟨pair 0 (by decide), List.forall_mem_singleton.2 (pair 1 (by decide))⟩, covers _ _⟩
  all_goals exact ⟨List.forall_mem_singleton.2 rfl, _, List.mem_cons_self, rfl⟩

theorem writeWord_upsets (s : State) (a : Nat) (v : Word) :
    (s.writeWord a v).imn.upsets = s.imn.upsets.filter (fun x => x.1 != a) := by
  unfold State.writeWord sparsePut
  dsimp only
  rw [if_pos rfl]

theorem quiet_foldl_writeWord (l : List (Nat × Word)) (s : State) (hq : s.quiet) :
    (l.foldl (fun s e => s.writeWord e.1 e.2) s).quiet := by
  induction l generalizing s with
  | nil => exact hq
  | cons e l ih =>
    refine ih (s.writeWord e.1 e.2) ⟨hq.1, ?_⟩
    rw [writeWord_upsets, hq.2, List.filter_nil]

/-- Words written, the one that waits among them, leave no error. -/
theorem quiet_of_written (l : List (Nat × Word)) (s : State) (table i : Nat) (h : State.waits s table i)
    (hl : ∃ e ∈ l, e.1 = wordKey (2 * table + 1) i) : (l.foldl (fun s e => s.writeWord e.1 e.2) s).quiet := by
  induction l generalizing s with
  | nil => obtain ⟨e, he, -⟩ := hl; cases he
  | cons e l ih =>
    have upsets : (s.writeWord e.1 e.2).imn.upsets =
        [(wordKey (2 * table + 1) i, some ErrorKind.uncorrectable)].filter (fun x => x.1 != e.1) := by
      rw [writeWord_upsets, h.2]
    by_cases own : e.1 = wordKey (2 * table + 1) i
    · refine quiet_foldl_writeWord l _ ⟨h.1, upsets.trans ?_⟩
      simp [own]
    · refine ih _ ⟨h.1, upsets.trans ?_⟩ ?_
      · simp [Ne.symm own]
      · obtain ⟨x, hx, key⟩ := hl
        rcases List.mem_cons.1 hx with rfl | later
        · exact absurd key own
        · exact ⟨x, later, key⟩

theorem autoSafe_mdc (s : State) : s.autoSafe.mdc = { s.mdc with mode := .safe, request := none } := by
  unfold State.autoSafe
  dsimp only
  split
  · next safe => rw [safe]
  · rfl

theorem autoSafe_counters (s : State) : s.autoSafe.rpu.counters = s.rpu.counters := by
  unfold State.autoSafe
  dsimp only
  split <;> rfl

theorem autoSafe_modeChanged (s : State) (h : s.mdc.mode ≠ .safe) : State.flagged s.autoSafe .modeChanged := by
  unfold State.autoSafe
  dsimp only
  rw [if_neg h]
  exact flagged_raise _ _

theorem logError_log (s : State) (a : Nat) (k : ErrorKind) (h : s.imn.log.length < 4) :
    (s.logError a k).imn.log = s.imn.log ++ [⟨keyMemory a, keyIndex a, k, s.ftu.frameNumber⟩] := by
  have room : s.imn.log.length < Config.logEntries := h
  unfold State.logError
  rw [if_pos room]

theorem quiet_logError (s : State) (a : Nat) (k : ErrorKind) (hq : s.quiet) : (s.logError a k).quiet := by
  unfold State.logError
  split <;> exact hq

/-- The error is counted, flagged and logged, and SAFE is entered. -/
theorem errorMet_entered {s u : State} {table i : Nat} (hi : i < 32768) (quiet : u.quiet) (ftu : u.ftu = s.ftu)
    (mdc : u.mdc = s.mdc) (rpu : u.rpu = s.rpu) (log : u.imn.log = s.imn.log) :
    ErrorMet s (((u.count .uncorrectable 1).raise .memoryError).logError (wordKey (2 * table + 1) i)
      .uncorrectable).autoSafe table i := by
  have raised := flagged_raise (u.count .uncorrectable 1) .memoryError
  have counted : ((u.count .uncorrectable 1).raise .memoryError).rpu.counters.uncorrectable =
      satAdd s.rpu.counters.uncorrectable 1 := by rw [← rpu]; rfl
  have mdc : ((u.count .uncorrectable 1).raise .memoryError).mdc = s.mdc := mdc
  have quiet : ((u.count .uncorrectable 1).raise .memoryError).quiet := quiet
  have log : ((u.count .uncorrectable 1).raise .memoryError).imn.log = s.imn.log := log
  have ftu : ((u.count .uncorrectable 1).raise .memoryError).ftu = s.ftu := ftu
  generalize (u.count .uncorrectable 1).raise .memoryError = v at raised counted mdc quiet log ftu ⊢
  have entered := keepsFlags_autoSafe (v.logError (wordKey (2 * table + 1) i) .uncorrectable)
  have logged : keepsFlags v (v.logError (wordKey (2 * table + 1) i) .uncorrectable) :=
    keepsFlags_of_eq (by rw [State.logError_rpu])
  exact {
    quiet := quiet_of_imn (State.autoSafe_imn _) (quiet_logError v _ _ quiet)
    mode := by rw [autoSafe_mdc]
    request := by rw [autoSafe_mdc]
    memoryError := flagged_of_keepsFlags (keepsFlags_trans logged entered) raised
    modeChanged := fun h => autoSafe_modeChanged _ (by rw [State.logError_mdc, mdc]; exact h)
    counted := by rw [autoSafe_counters, State.logError_rpu, counted]
    logged := fun room => by
      rw [State.autoSafe_imn, logError_log v _ _ (by rw [log]; exact room), keyMemory_wordKey _ _ hi,
        keyIndex_wordKey _ _ hi, log, ftu] }

/-- The read of the wrong word meets the error, and rewrites words of its memory alone. -/
theorem readWord_of_waits {s : State} {table i : Nat} (h : State.waits s table i) (ht : table < 4) (hi : i < 32768) :
    ErrorMet s (s.readWord (wordKey (2 * table + 1) i)) table i ∧
      ∀ a, keyMemory a ≠ 2 * table + 1 → (s.readWord (wordKey (2 * table + 1) i)).mem.word a = s.mem.word a := by
  have met : s.verdict (wordKey (2 * table + 1) i) = some .uncorrectable := by rw [verdict_of_waits h, if_pos rfl]
  have memory : keyMemory (wordKey (2 * table + 1) i) = 2 * table + 1 := keyMemory_wordKey _ _ hi
  have active : isActiveKey (wordKey (2 * table + 1) i) = true := by
    unfold isActiveKey
    rw [memory, decide_eq_true (by omega), decide_eq_true (by omega)]
    rfl
  have unmarked : State.unmarked s (wordKey (2 * table + 1) i) = s := by
    unfold State.unmarked
    rw [show sparsePut _ s.imn.marks _ none = s.imn.marks by rw [h.1]; rfl]
  obtain ⟨inside, covers⟩ := substitutes_keys s.tbs.straps (wordKey (2 * table + 1) i)
  have run : s.readWord (wordKey (2 * table + 1) i) =
      ((((((substitutes s.tbs.straps (wordKey (2 * table + 1) i)).foldl (fun s e => s.writeWord e.1 e.2) s).count
        .uncorrectable 1).raise .memoryError).logError (wordKey (2 * table + 1) i) .uncorrectable).autoSafe) := by
    conv_rhs => rw [← unmarked]
    unfold State.readWord
    simp only [met, active, if_true]
    rfl
  have quiet := quiet_of_written _ s table i h covers
  have mem := foldl_writeWord_mem (substitutes s.tbs.straps (wordKey (2 * table + 1) i)) s
  rw [run]
  refine ⟨errorMet_entered hi quiet ?_ ?_ ?_ ?_, fun a ha => ?_⟩
  · exact foldl_writeWord_keeps State.ftu (fun _ _ _ => rfl) _ s
  · exact foldl_writeWord_keeps State.mdc (fun _ _ _ => rfl) _ s
  · exact foldl_writeWord_keeps State.rpu (fun _ _ _ => rfl) _ s
  · exact foldl_writeWord_keeps (fun s => s.imn.log) (fun _ _ _ => rfl) _ s
  · rw [State.autoSafe_mem, State.logError_mem]
    show (List.foldl _ s _).mem.word a = _
    rw [mem]
    exact stored_other _ _ a fun e he => by rintro rfl; exact ha ((inside e he).trans memory)

/-! ## The copy with one wrong word (R48, R179) -/

theorem cleanAt_of_waits {s : State} {table i m j : Nat} (h : State.waits s table i) (hi : i < 32768) (hj : j < 32768)
    (hne : ¬ (m = 2 * table + 1 ∧ j = i)) : s.cleanAt (wordKey m j) := by
  unfold State.cleanAt
  rw [verdict_of_waits h, if_neg fun same => hne ((wordKey_inj _ _ _ _ hj hi).1 same)]

/-- The words of a staging bank read clean. -/
theorem readStaging_of_waits {s : State} {table i : Nat} (h : State.waits s table i) (hi : i < 32768) (t : Nat)
    (ht : t < 4) : s.readRange (wordKey (bankMemory t 0) 0) (Config.memoryWords (bankMemory t 0)) = s := by
  obtain ⟨-, size⟩ := memoryWords_banks t ht
  refine readRange_of_clean s _ _ fun j hj => ?_
  have place : wordKey (bankMemory t 0) 0 + j = wordKey (2 * t) j := by unfold wordKey bankMemory; omega
  rw [place]
  exact cleanAt_of_waits h hi (by omega) (by omega)

theorem copyTable_other {s : State} {table i : Nat} (h : State.waits s table i) (hi : i < 32768) (t : Nat) (ht : t < 4)
    (hne : t ≠ table) : s.copyTable t = { s with mem := s.mem.copyBank t } := by
  obtain ⟨same, size⟩ := memoryWords_banks t ht
  have clean : s.readOverwritten t = s := by
    unfold State.readOverwritten
    dsimp only
    rw [List.filter_eq_nil_iff.2]
    · rfl
    · intro j hj
      have hj := List.mem_range.1 hj
      have place : wordKey (bankMemory t 1) 0 + j = wordKey (2 * t + 1) j := by unfold wordKey bankMemory; omega
      rw [place, show s.verdict (wordKey (2 * t + 1) j) = none from cleanAt_of_waits h hi (by omega) (by omega)]
      simp
  have kept : sparseClear (fun a => decide (keyMemory a = bankMemory t 1)) s.imn.upsets = s.imn.upsets := by
    have outside : ¬ 2 * table + 1 = bankMemory t 1 := by unfold bankMemory; omega
    rw [h.2]
    simp [sparseClear, keyMemory_wordKey _ _ hi, outside]
  unfold State.copyTable
  rw [readStaging_of_waits h hi t ht, clean]
  dsimp only
  rw [kept]

/-- The table's own copy reads the words that it overwrites, and meets the error. -/
theorem copyTable_own {s : State} {table i : Nat} (h : State.waits s table i) (ht : table < 4)
    (hi : i < Config.memoryWords (2 * table + 1)) :
    ErrorMet s (s.copyTable table) table i ∧ Copied [table] s.mem (s.copyTable table).mem := by
  obtain ⟨same, size⟩ := memoryWords_banks table ht
  have hi : i < Config.memoryWords (bankMemory table 1) := hi
  have hi' : i < 32768 := by omega
  have read : s.readOverwritten table = s.readWord (wordKey (2 * table + 1) i) := by
    unfold State.readOverwritten
    dsimp only
    rw [filter_range_single _ i _ hi fun j hj => ?_]
    · exact congrArg s.readWord (by unfold wordKey bankMemory; omega)
    · have place : wordKey (bankMemory table 1) 0 + j = wordKey (2 * table + 1) j := by
        unfold wordKey bankMemory; omega
      rw [place, h.1, verdict_of_waits h]
      by_cases own : j = i
      · simp [own, sparseGet]
      · rw [if_neg fun same => own ((wordKey_inj _ _ _ _ (by omega) hi').1 same).2, decide_eq_false own]
        rfl
  obtain ⟨met, words⟩ := readWord_of_waits h ht hi'
  unfold State.copyTable
  rw [readStaging_of_waits h hi' table ht, read]
  generalize s.readWord _ = v at met words ⊢
  refine ⟨{ met with quiet := ⟨met.quiet.1, ?_⟩ }, copied_copyBank ht words⟩
  show sparseClear (fun a => decide (keyMemory a = bankMemory table 1)) v.imn.upsets = []
  rw [met.quiet.2]
  rfl

/-- The marked tables are all copied, and on the way the error is met (R48). -/
theorem copyTables_of_waits (l : List Nat) (hl : ∀ t ∈ l, t < 4) {s : State} {table i : Nat} (h : State.waits s table i)
    (hm : table ∈ l) (hi : i < Config.memoryWords (2 * table + 1)) :
    ErrorMet s (l.foldl State.copyTable s) table i ∧ Copied l s.mem (l.foldl State.copyTable s).mem := by
  have ht := hl table hm
  obtain ⟨same, size⟩ := memoryWords_banks table ht
  have hi' : i < 32768 := lt_of_lt_of_le hi (by rw [show 2 * table + 1 = bankMemory table 1 from rfl]; omega)
  induction l generalizing s with
  | nil => cases hm
  | cons t l ih =>
    have later (u : Nat) (hu : u ∈ l) : u < 4 := hl u (List.mem_cons_of_mem _ hu)
    rw [List.foldl_cons]
    by_cases own : t = table
    · subst own
      obtain ⟨met, copied⟩ := copyTable_own h ht hi
      rw [copyTables_of_quiet l _ met.quiet]
      exact ⟨{ met with }, copied_cons copied (copied_copyBanks l later _)⟩
    · have waits : State.waits { s with mem := s.mem.copyBank t } table i := h
      have hm : table ∈ l := (List.mem_cons.1 hm).resolve_left fun e => own e.symm
      obtain ⟨met, copied⟩ := ih later waits hm
      rw [copyTable_other h hi' t (hl t List.mem_cons_self) own]
      exact ⟨{ met with },
        copied_cons (copied_copyBank (hl t List.mem_cons_self) fun _ _ => rfl) copied⟩

end Sys2Proof.Laws
end

