-- ==== Sys2Proof/Proofs/CommitTurn.lean ====
section
/-! PROOF. The commit at an output frame start: every marked table or none, and the error that its copy may meet. -/

namespace Sys2Proof.Laws

open Sys2Proof.Machine

/-! ## The marks taken (R46, R48) -/

theorem mem_marked (b : Tbs) (t : Nat) (ht : t < 4) : t ∈ b.marked ↔ b.marks.getLsbD t = true := by
  unfold Tbs.marked
  rw [List.mem_filter, List.mem_range]
  exact and_iff_right ht

theorem marked_lt (b : Tbs) : ∀ t ∈ b.marked, t < 4 := fun _ ht => List.mem_range.1 (List.mem_filter.1 ht).1

theorem marks_ne_zero {marks : BitVec 4} {t : Nat} (h : marks.getLsbD t = true) : marks ≠ 0 := by
  rintro rfl
  exact Bool.false_ne_true (BitVec.getLsbD_zero.symm.trans h)

theorem copyTables_tbs (l : List Nat) (s : State) : (l.foldl State.copyTable s).tbs = s.tbs := by
  refine foldl_keeps State.tbs _ (fun s t => ?_) l s
  have active (u : State) : (u.readOverwritten t).tbs = u.tbs :=
    foldl_keeps State.tbs _ (fun u _ => State.readWord_tbs u _) _ u
  unfold State.copyTable
  exact (active _).trans (State.readRange_tbs s _ _)

/-- The state whose staging ZONE_MAP reads clean. -/
def State.stagedMapClean (s : State) : Prop :=
  s.readRange (wordKey (bankMemory 1 0) 0) (Config.memoryWords (bankMemory 1 0)) = s

/-- What the frame turn finds of the marked tables: a staging ZONE_MAP that passes, where it is marked. -/
def State.marksPass (s : State) : Prop := s.tbs.marks.getLsbD 1 = false ∨ s.mem.duplicateChannel 0 = false

theorem validation_passes {s : State} (h : State.marksPass s) :
    (!(s.tbs.marks.getLsbD 1 && s.mem.duplicateChannel 0)) = true := by
  rcases h with off | distinct
  · rw [off, Bool.false_and, Bool.not_false]
  · rw [distinct, Bool.and_false, Bool.not_false]

theorem applyMarks_unmarked (s : State) (h : s.tbs.marks = 0) :
    s.applyMarks = { s with tbs := { s.tbs with outcome := 0 } } := by
  unfold State.applyMarks
  exact if_pos h

theorem applyMarks_refused (s : State) (h : s.tbs.marks ≠ 0) (clean : State.stagedMapClean s)
    (named : s.tbs.marks.getLsbD 1 = true) (twice : s.mem.duplicateChannel 0 = true) :
    s.applyMarks = ({ s with tbs := { s.tbs with marks := 0, outcome := 0 } } : State).raise .commitFailed := by
  unfold State.applyMarks
  dsimp only
  rw [if_neg h, validateStaging_of_read s clean, named, twice, Bool.true_and, Bool.not_true,
    if_neg Bool.false_ne_true]

theorem applyMarks_copies (s : State) (h : s.tbs.marks ≠ 0) (clean : State.stagedMapClean s)
    (pass : State.marksPass s) :
    s.applyMarks = ({ s.tbs.marked.foldl State.copyTable s with
      tbs := { s.tbs with marks := 0, outcome := s.tbs.marks } } : State).raise .commitDone := by
  unfold State.applyMarks
  dsimp only
  rw [if_neg h, validateStaging_of_read s clean, if_pos (validation_passes pass), copyTables_tbs]

/-- From `s` to `t` the marked tables have been copied, all of them, and the outcome tells which. -/
structure Committed (s t : State) : Prop where
  marks : t.tbs.marks = 0
  straps : t.tbs.straps = s.tbs.straps
  outcome : t.tbs.outcome = s.tbs.marks
  done : State.flagged t .commitDone
  copied : Copied s.tbs.marked s.mem t.mem

theorem applyMarks_commits {s : State} (h : s.tbs.marks ≠ 0) (clean : State.stagedMapClean s) (pass : State.marksPass s)
    (copied : Copied s.tbs.marked s.mem (s.tbs.marked.foldl State.copyTable s).mem) : Committed s s.applyMarks := by
  rw [applyMarks_copies s h clean pass]
  exact ⟨rfl, rfl, rfl, flagged_raise _ _, copied⟩

theorem committed_of_quiet {s : State} (hq : s.quiet) (h : s.tbs.marks ≠ 0) (pass : State.marksPass s) :
    Committed s s.applyMarks := by
  refine applyMarks_commits h (readRange_of_quiet s hq _ _) pass ?_
  rw [copyTables_of_quiet _ s hq]
  exact copied_copyBanks _ (marked_lt s.tbs) s.mem

theorem errorMet_committed {s u : State} {table i : Nat} (h : ErrorMet s u table i) (tbs : Tbs) :
    ErrorMet s (({ u with tbs := tbs } : State).raise .commitDone) table i :=
  { h with
    memoryError := flagged_of_keepsFlags (s := u) ⟨_, rfl⟩ h.memoryError
    modeChanged := fun changed => flagged_of_keepsFlags (s := u) ⟨_, rfl⟩ (h.modeChanged changed) }

/-- With one wrong word in a bank that is overwritten, all is copied all the same, and the error is met (R158). -/
theorem committed_of_waits {s : State} {table i : Nat} (h : State.waits s table i) (ht : table < 4)
    (hi : i < Config.memoryWords (2 * table + 1)) (hm : s.tbs.marks.getLsbD table = true) (pass : State.marksPass s) :
    Committed s s.applyMarks ∧ ErrorMet s s.applyMarks table i := by
  obtain ⟨same, size⟩ := memoryWords_banks table ht
  have hi' : i < 32768 := lt_of_lt_of_le hi (by rw [show 2 * table + 1 = bankMemory table 1 from rfl]; omega)
  have clean : State.stagedMapClean s := readStaging_of_waits h hi' 1 (by decide)
  have marks := marks_ne_zero hm
  obtain ⟨met, copied⟩ := copyTables_of_waits s.tbs.marked (marked_lt s.tbs) h ((mem_marked s.tbs table ht).2 hm) hi
  refine ⟨applyMarks_commits marks clean pass copied, ?_⟩
  rw [applyMarks_copies s marks clean pass]
  exact errorMet_committed met _

/-! ## The rest of the frame turn, and the scan decision (R17, R65) -/

/-- From `s` to `t` the table memory's record and the banks stand, and no flag has fallen. -/
structure BanksKept (s t : State) : Prop where
  tbs : t.tbs = s.tbs
  words : ∀ a, keyMemory a < 8 → t.mem.word a = s.mem.word a
  flags : keepsFlags s t

theorem banksKept_trans {s t u : State} (h : BanksKept s t) (h' : BanksKept t u) : BanksKept s u :=
  ⟨h'.tbs.trans h.tbs, fun a ha => (h'.words a ha).trans (h.words a ha), keepsFlags_trans h.flags h'.flags⟩

theorem banksKept_of_eq {s t : State} (tbs : t.tbs = s.tbs) (mem : t.mem = s.mem) (flags : keepsFlags s t) :
    BanksKept s t := ⟨tbs, fun a _ => by rw [mem], flags⟩

theorem committed_of_banks {s t u : State} (h : Committed s t) (kept : BanksKept t u) : Committed s u where
  marks := by rw [kept.tbs]; exact h.marks
  straps := by rw [kept.tbs]; exact h.straps
  outcome := by rw [kept.tbs]; exact h.outcome
  done := flagged_of_keepsFlags kept.flags h.done
  copied := fun t ht i hi => by
    obtain ⟨staging, active⟩ := h.copied t ht i hi
    obtain ⟨-, size⟩ := memoryWords_banks t ht
    have hi' : i < 32768 := lt_of_lt_of_le hi (le_trans size (by decide))
    have word (m : Nat) (hm : m < 8) := kept.words (wordKey m i) (by rw [keyMemory_wordKey _ _ hi']; exact hm)
    rw [word _ (by omega), word _ (by omega)]
    exact ⟨staging, active⟩

/-- The entry of STANDBY touches ZONE_STATE alone of the memories. -/
theorem banksKept_changeMode (s : State) (target : Mode) : BanksKept s (s.changeMode target) := by
  refine ⟨changeMode_tbs s target, fun a ha => ?_, (turnKeeps_changeMode s target).2⟩
  unfold State.changeMode
  split
  · rfl
  · dsimp only
    split
    · unfold State.standbyEntry
      dsimp only
      rw [State.standbyChains_mem]
      show sparseGet unlistedWord (sparseClear (isZoneWord [5, 6, 7]) s.mem) a = _
      rw [sparseGet_clear, if_neg fun zone => by have := isZoneWord_memory zone; omega]
      rfl
    · rfl

theorem banksKept_handleRequest (s : State) (hq : s.quiet) : BanksKept s s.handleRequest := by
  have flags := (turnKeeps_handleRequest s).2
  have tbs := (handleRequest_of_quiet s hq).2.2
  refine ⟨tbs, fun a ha => ?_, flags⟩
  unfold State.handleRequest
  split
  · rfl
  · rw [readForMode_of_quiet s hq, ite_self]
    dsimp only
    split
    · rfl
    · split
      · exact (banksKept_changeMode _ _).words a ha
      · rfl

theorem handleRequest_idle (s : State) (h : s.mdc.request = none) :
    s.handleRequest = { s with mdc := { s.mdc with reason := .none } } := by
  unfold State.handleRequest
  rw [h]

/-- The end of a frame turn, behind the marks. -/
def State.turnEnded (s : State) : State := State.maskRead s.handleRequest.layGrid

theorem turnEnded_of_quiet (s : State) (hq : s.quiet) :
    ∃ stu notifyMask, State.turnEnded s =
      { s.handleRequest with stu := stu, rpu := { s.handleRequest.rpu with notifyMask := notifyMask } } := by
  obtain ⟨handled, -, -⟩ := handleRequest_of_quiet s hq
  unfold State.turnEnded
  generalize s.handleRequest = u at handled ⊢
  obtain ⟨accumulators, lineBuffer, laid⟩ := layGrid_of_quiet u handled
  rw [laid, maskRead_of_quiet]
  · exact ⟨_, _, rfl⟩
  · exact handled

theorem banksKept_turnEnded (s : State) (hq : s.quiet) : BanksKept s (State.turnEnded s) := by
  obtain ⟨stu, notifyMask, ended⟩ := turnEnded_of_quiet s hq
  have kept := banksKept_handleRequest s hq
  rw [ended]
  generalize s.handleRequest = u at kept ⊢
  exact ⟨kept.tbs, kept.words, kept.flags⟩

/-- From `s` to `t` the scan decision alone has been taken. -/
structure ScanTaken (s t : State) : Prop where
  mem : t.mem = s.mem
  tbs : t.tbs = s.tbs
  imn : t.imn = s.imn
  mdc : t.mdc = s.mdc
  lvs : t.lvs = s.lvs
  ftu : t.ftu = s.ftu
  flags : keepsFlags s t
  counted : t.rpu.counters.uncorrectable = s.rpu.counters.uncorrectable

theorem scanTaken_refl (s : State) : ScanTaken s s := ⟨rfl, rfl, rfl, rfl, rfl, rfl, keepsFlags_refl s, rfl⟩

theorem scanTaken_scanDecision (s : State) : ScanTaken s s.scanDecision := by
  unfold State.scanDecision
  split
  · exact scanTaken_refl s
  · split
    · exact ⟨rfl, rfl, rfl, rfl, rfl, rfl, keepsFlags_of_eq rfl, rfl⟩
    all_goals exact ⟨rfl, rfl, rfl, rfl, rfl, rfl, ⟨_, rfl⟩, rfl⟩

/-- With no solve in flight the turn is taken, and the scan decision ahead of it or behind it. -/
theorem scanAndTurn_taken (s : State) (scanFirst : Bool) (h : s.lvs.solve = none) :
    ∃ u, ScanTaken s u ∧ ScanTaken u.frameTurn (s.scanAndTurn scanFirst) := by
  have decided := scanTaken_scanDecision s
  unfold State.scanAndTurn
  split
  · refine ⟨s.scanDecision, decided, ?_⟩
    rw [turnOrWait_turns _ (by rw [decided.lvs]; exact h)]
    exact scanTaken_refl _
  · refine ⟨s, scanTaken_refl s, ?_⟩
    rw [turnOrWait_turns s h]
    exact scanTaken_scanDecision _

theorem frameTurn_ended (s : State) : s.frameTurn = State.turnEnded (State.turnBegun s).applyMarks := by
  rw [frameTurn_eq]
  rfl

/-- Where no error waits, what the marks leave stands behind the frame start. -/
theorem scanAndTurn_banks (s : State) (scanFirst : Bool) (h : s.lvs.solve = none) (hq : s.quiet) :
    ∃ u : State, u.quiet ∧ u.tbs = s.tbs ∧ u.mem = s.mem ∧ BanksKept u.applyMarks (s.scanAndTurn scanFirst) := by
  obtain ⟨u, before, after⟩ := scanAndTurn_taken s scanFirst h
  have quiet : (State.turnBegun u).quiet := quiet_of_imn (s := s) before.imn hq
  refine ⟨State.turnBegun u, quiet, before.tbs, before.mem, ?_⟩
  have ended := banksKept_turnEnded _ (applyMarks_of_quiet _ quiet).1
  rw [← frameTurn_ended] at ended
  exact banksKept_trans ended (banksKept_of_eq after.tbs after.mem after.flags)

/-! ## What the frame start leaves of an error that its copy met -/

/-- In `t` the error that waited in `s` has been met in the frame of this number, and the frame turn is over. -/
structure ErrorTurned (s t : State) (table i : Nat) (number : Dword) : Prop where
  mdc : t.mdc = ⟨.safe, none, .none⟩
  memoryError : State.flagged t .memoryError
  modeChanged : s.mdc.mode ≠ .safe → State.flagged t .modeChanged
  counted : t.rpu.counters.uncorrectable = satAdd s.rpu.counters.uncorrectable 1
  logged : s.imn.log.length < 4 → t.imn.log = s.imn.log ++ [⟨2 * table + 1, i, .uncorrectable, number⟩]

theorem errorTurned_of_met {s w : State} {table i : Nat} (h : ErrorMet s w table i) :
    ErrorTurned s (State.turnEnded w) table i s.ftu.frameNumber := by
  obtain ⟨stu, notifyMask, ended⟩ := turnEnded_of_quiet w h.quiet
  rw [ended, handleRequest_idle w h.request]
  refine ⟨?_, h.memoryError, h.modeChanged, h.counted, h.logged⟩
  show (⟨w.mdc.mode, w.mdc.request, .none⟩ : Mdc) = _
  rw [h.mode, h.request]

theorem errorTurned_of_scan {s t u : State} {table i : Nat} {number : Dword} (h : ErrorTurned s t table i number)
    (scan : ScanTaken t u) : ErrorTurned s u table i number where
  mdc := by rw [scan.mdc]; exact h.mdc
  memoryError := flagged_of_keepsFlags scan.flags h.memoryError
  modeChanged := fun hm => flagged_of_keepsFlags scan.flags (h.modeChanged hm)
  counted := by rw [scan.counted]; exact h.counted
  logged := fun room => by rw [scan.imn]; exact h.logged room

theorem errorTurned_of_scanned {s u t : State} {table i : Nat} {number : Dword} (scan : ScanTaken s u)
    (h : ErrorTurned u t table i number) : ErrorTurned s t table i number where
  mdc := h.mdc
  memoryError := h.memoryError
  modeChanged := fun hm => h.modeChanged (by rw [scan.mdc]; exact hm)
  counted := by rw [← scan.counted]; exact h.counted
  logged := fun room => by rw [← scan.imn]; exact h.logged (by rw [scan.imn]; exact room)

theorem committed_of_scanned {s u t : State} (scan : ScanTaken s u) (h : Committed (State.turnBegun u) t) :
    Committed s t := by
  obtain ⟨marks, straps, outcome, done, copied⟩ := h
  have tbs : (State.turnBegun u).tbs = s.tbs := scan.tbs
  have mem : (State.turnBegun u).mem = s.mem := scan.mem
  rw [tbs] at straps outcome copied
  rw [mem] at copied
  exact ⟨marks, straps, outcome, done, copied⟩

/-- A frame start whose turn copies over the wrong word. -/
theorem scanAndTurn_of_waits {s : State} {table i : Nat} (scanFirst : Bool) (idle : s.lvs.solve = none)
    (h : State.waits s table i) (ht : table < 4) (hi : i < Config.memoryWords (2 * table + 1))
    (hm : s.tbs.marks.getLsbD table = true) (pass : State.marksPass s) :
    Committed s (s.scanAndTurn scanFirst) ∧ ErrorTurned s (s.scanAndTurn scanFirst) table i s.ftu.frameNumber := by
  obtain ⟨u, before, after⟩ := scanAndTurn_taken s scanFirst idle
  have waits : State.waits (State.turnBegun u) table i := by
    show u.imn.marks = [] ∧ u.imn.upsets = _
    rw [before.imn]
    exact h
  have marked : (State.turnBegun u).tbs.marks.getLsbD table = true := by
    show u.tbs.marks.getLsbD table = true
    rw [before.tbs]
    exact hm
  have passes : State.marksPass (State.turnBegun u) := by
    show u.tbs.marks.getLsbD 1 = false ∨ u.mem.duplicateChannel 0 = false
    rw [before.tbs, before.mem]
    exact pass
  obtain ⟨committed, met⟩ := committed_of_waits waits ht hi marked passes
  have banks := banksKept_turnEnded _ met.quiet
  have turned := errorTurned_of_met met
  rw [← frameTurn_ended] at banks turned
  have number : (State.turnBegun u).ftu.frameNumber = s.ftu.frameNumber := by
    show u.ftu.frameNumber = _
    rw [before.ftu]
  rw [number] at turned
  refine ⟨committed_of_scanned before (committed_of_banks committed (banksKept_trans banks
    (banksKept_of_eq after.tbs after.mem after.flags))), errorTurned_of_scanned before ?_⟩
  exact errorTurned_of_scan { turned with } after

/-- An error already met stays met while the marks are taken. -/
theorem errorMet_applyMarks {s u : State} {table i : Nat} (h : ErrorMet s u table i) (marks : u.tbs.marks ≠ 0)
    (pass : State.marksPass u) : ErrorMet s u.applyMarks table i := by
  rw [applyMarks_copies u marks (readRange_of_quiet u h.quiet _ _) pass, copyTables_of_quiet _ u h.quiet]
  have copied : ErrorMet s { u with mem := u.tbs.marked.foldl Memory.copyBank u.mem } table i := { h with }
  exact errorMet_committed copied _

theorem errorMet_of_scan {s t u : State} {table i : Nat} (h : ErrorMet s t table i) (scan : ScanTaken t u) :
    ErrorMet s (State.turnBegun u) table i where
  quiet := quiet_of_imn (s := t) scan.imn h.quiet
  mode := by show u.mdc.mode = _; rw [scan.mdc]; exact h.mode
  request := by show u.mdc.request = _; rw [scan.mdc]; exact h.request
  memoryError := flagged_of_keepsFlags (t := u) scan.flags h.memoryError
  modeChanged := fun changed => flagged_of_keepsFlags (t := u) scan.flags (h.modeChanged changed)
  counted := scan.counted.trans h.counted
  logged := fun room => by show u.imn.log = _; rw [scan.imn]; exact h.logged room

/-- A frame start whose turn copies once the error has been met: the copy meets none. -/
theorem scanAndTurn_of_met {s t : State} {table i : Nat} (scanFirst : Bool) (idle : t.lvs.solve = none)
    (h : ErrorMet s t table i) (marks : t.tbs.marks ≠ 0) (pass : State.marksPass t) :
    Committed t (t.scanAndTurn scanFirst) ∧ ErrorTurned s (t.scanAndTurn scanFirst) table i s.ftu.frameNumber := by
  obtain ⟨u, before, after⟩ := scanAndTurn_taken t scanFirst idle
  have begun := errorMet_of_scan h before
  have marked : (State.turnBegun u).tbs.marks ≠ 0 := by
    show u.tbs.marks ≠ 0
    rw [before.tbs]
    exact marks
  have passes : State.marksPass (State.turnBegun u) := by
    show u.tbs.marks.getLsbD 1 = false ∨ u.mem.duplicateChannel 0 = false
    rw [before.tbs, before.mem]
    exact pass
  have met := errorMet_applyMarks begun marked passes
  have banks := banksKept_turnEnded _ met.quiet
  have turned := errorTurned_of_met met
  rw [← frameTurn_ended] at banks turned
  exact ⟨committed_of_scanned before (committed_of_banks (committed_of_quiet begun.quiet marked passes)
    (banksKept_trans banks (banksKept_of_eq after.tbs after.mem after.flags))), errorTurned_of_scan turned after⟩

/-! ## FREE_RUN_PERIOD, read ahead of the turn (R18) -/

/-- The state of a free-run frame start, numbered and stamped, ahead of its reads. -/
def State.freeNumbered (s : State) (dt due : Nat) : State :=
  ((s.advance dt).advanceTo due).numberFrame true (s.lrx.locked.getD ⟨Config.defaultWidth, Config.defaultHeight⟩)

/-- The free-run frame start behind its reads. -/
def State.freeBegun (s : State) : State :=
  let period := s.mem.active Config.freeRunPeriod
  { s with
    ftu := { s.ftu with period := period, freeDue := some (s.ftu.startedAt + period), lastLine := none }
    stu := { s.stu with accumulators := [] } }

/-- A free-run frame start, also where an error waits. -/
theorem exec_outputFrameStart_free (dt : Nat) (scanFirst : Bool) (s : State) (due : Nat)
    (hp : s.ftu.phase.isOver = true) (hf : s.ftu.state = .freeRun) (hd : s.ftu.freeDue = some due) :
    exec (.outputFrameStart dt scanFirst) s = .next
      ((State.freeBegun ((State.freeNumbered s dt due).readSetting Config.freeRunPeriod)).scanAndTurn scanFirst) := by
  show execOutputFrameStart dt scanFirst s = _
  unfold execOutputFrameStart
  dsimp only
  rw [State.advance_ftu, hp, hf, hd, if_pos rfl]
  rfl

/-- The read of a setting that stands at the wrong word meets the error; of another it meets none. -/
theorem readSetting_of_waits {s : State} {table i : Nat} (h : State.waits s table i) (ht : table < 4) (hi : i < 32768)
    (e : Nat) (he : e < 43) :
    s.readSetting e = s ∨ (ErrorMet s (s.readSetting e) table i ∧
      ∀ a, keyMemory a ≠ 2 * table + 1 → (s.readSetting e).mem.word a = s.mem.word a) := by
  by_cases own : table = 0 ∧ i / 2 = e
  · obtain ⟨rfl, rfl⟩ := own
    right
    have read : s.readSetting (i / 2) = s.readWord (wordKey (2 * 0 + 1) i) := by
      unfold State.readSetting State.readRange
      rw [filter_range_single 2 (i % 2) _ (Nat.mod_lt _ (by decide)) fun j hj => ?_]
      · exact congrArg s.readWord (by unfold wordKey; omega)
      · rw [verdict_of_waits h]
        by_cases odd : j = i % 2
        · rw [if_pos (by unfold wordKey; omega), decide_eq_true odd]
          rfl
        · rw [if_neg (by unfold wordKey; omega), decide_eq_false odd]
          rfl
    rw [read]
    exact readWord_of_waits h ht hi
  · left
    refine readSetting_of_clean s e ⟨cleanAt_of_waits h hi (by omega) (by omega), ?_⟩
    exact cleanAt_of_waits h hi (by omega) (by omega)

theorem duplicateChannel_of_words {mem mem' : Memory}
    (h : ∀ i < 4608, mem'.word (wordKey 2 i) = mem.word (wordKey 2 i)) :
    mem'.duplicateChannel 0 = mem.duplicateChannel 0 := by
  have channels : mem'.mappedChannels 0 = mem.mappedChannels 0 := by
    unfold Memory.mappedChannels
    refine List.filterMap_congr fun z hz => ?_
    have inside : z < 2304 := List.mem_range.1 hz
    rw [mapEntry_of_words (mem := mem) (b := 0) fun j hj => h _ (by omega)]
  unfold Memory.duplicateChannel
  rw [channels]

/-- The staging ZONE_MAP is no bank that is overwritten. -/
theorem marksPass_of_overwritten {s u : State} {table : Nat} (tbs : u.tbs = s.tbs)
    (words : ∀ a, keyMemory a ≠ 2 * table + 1 → u.mem.word a = s.mem.word a) (h : State.marksPass s) :
    State.marksPass u := by
  unfold State.marksPass
  rw [tbs, duplicateChannel_of_words fun i hi => words _ (by rw [keyMemory_wordKey _ _ (by omega)]; omega)]
  exact h

/-- What has changed of the bank that is overwritten does not show in the copy. -/
theorem committed_of_overwritten {s u t : State} {table : Nat} (ht : table < 4) (tbs : u.tbs = s.tbs)
    (hm : s.tbs.marks.getLsbD table = true) (words : ∀ a, keyMemory a ≠ 2 * table + 1 → u.mem.word a = s.mem.word a)
    (h : Committed u t) : Committed s t := by
  obtain ⟨marks, straps, outcome, done, copied⟩ := h
  rw [tbs] at straps outcome copied
  refine ⟨marks, straps, outcome, done, fun v hv i hi => ?_⟩
  obtain ⟨staging, active⟩ := copied v hv i hi
  obtain ⟨-, size⟩ := memoryWords_banks v hv
  have hi' : i < 32768 := lt_of_lt_of_le hi (le_trans size (by decide))
  have word (m : Nat) (hne : m ≠ 2 * table + 1) : u.mem.word (wordKey m i) = s.mem.word (wordKey m i) :=
    words _ (by rw [keyMemory_wordKey _ _ hi']; exact hne)
  rw [word _ (by omega)] at staging active
  refine ⟨staging, active.trans ?_⟩
  by_cases own : v = table
  · subst own
    have named := (mem_marked s.tbs v hv).2 hm
    rw [if_pos named, if_pos named]
  · rw [word _ (by omega)]

/-! ## Both ways of the frame start -/

/-- An error that the frame start meets, on whichever read: all is copied all the same, and SAFE is entered. -/
theorem outputFrameStart_of_waits (dt : Nat) (scanFirst : Bool) (s : State) (hdue : s.frameStartDue)
    (idle : s.lvs.solve = none) {table i : Nat} (h : State.waits s table i) (ht : table < 4)
    (hi : i < Config.memoryWords (2 * table + 1)) (hm : s.tbs.marks.getLsbD table = true) (pass : State.marksPass s) :
    ∃ t, exec (.outputFrameStart dt scanFirst) s = .next t ∧ Committed s t ∧
      ErrorTurned s t table i t.ftu.frameNumber := by
  obtain ⟨same, size⟩ := memoryWords_banks table ht
  have hi' : i < 32768 := lt_of_lt_of_le hi (by rw [show 2 * table + 1 = bankMemory table 1 from rfl]; omega)
  have numbered {u : State} (hu : ErrorTurned s (u.scanAndTurn scanFirst) table i u.ftu.frameNumber) :
      ErrorTurned s (u.scanAndTurn scanFirst) table i (u.scanAndTurn scanFirst).ftu.frameNumber := by
    rw [(scanAndTurn_kept u scanFirst).1]
    exact hu
  obtain ⟨hp, ⟨hf, rest, hd⟩ | ⟨hf, due, hd⟩⟩ := hdue
  · refine ⟨_, exec_outputFrameStart_followed dt scanFirst s rest hp hf hd, ?_⟩
    have start (clock : Clock) (ftu : Ftu) :
        Committed s ((State.frameBegun s clock ftu).scanAndTurn scanFirst) ∧
          ErrorTurned s ((State.frameBegun s clock ftu).scanAndTurn scanFirst) table i ftu.frameNumber := by
      obtain ⟨committed, turned⟩ :=
        scanAndTurn_of_waits (s := State.frameBegun s clock ftu) scanFirst idle h ht hi hm pass
      exact ⟨{ committed with }, { turned with }⟩
    obtain ⟨committed, turned⟩ := start _ _
    exact ⟨committed, numbered turned⟩
  · refine ⟨_, exec_outputFrameStart_free dt scanFirst s due hp hf hd, ?_⟩
    have waits : State.waits (State.freeNumbered s dt due) table i := h
    rcases readSetting_of_waits waits ht hi' Config.freeRunPeriod (by decide) with clean | ⟨met, words⟩
    · rw [clean]
      obtain ⟨committed, turned⟩ :=
        scanAndTurn_of_waits (s := State.freeBegun (State.freeNumbered s dt due)) scanFirst idle h ht hi hm pass
      exact ⟨{ committed with }, numbered { turned with }⟩
    · have read := turnKeeps_readSetting (State.freeNumbered s dt due) Config.freeRunPeriod
      have solve := (solve_of_turnKeeps read).trans idle
      have number := congrArg Ftu.frameNumber (ftu_of_turnKeeps read)
      have tbs := State.readSetting_tbs (State.freeNumbered s dt due) Config.freeRunPeriod
      generalize (State.freeNumbered s dt due).readSetting Config.freeRunPeriod = r at met words solve number tbs ⊢
      have begun : ErrorMet (State.freeNumbered s dt due) (State.freeBegun r) table i := { met with }
      have solve : (State.freeBegun r).lvs.solve = none := solve
      have number : (State.freeBegun r).ftu.frameNumber = (State.freeNumbered s dt due).ftu.frameNumber := number
      have tbs : (State.freeBegun r).tbs = s.tbs := tbs
      have words : ∀ a, keyMemory a ≠ 2 * table + 1 → (State.freeBegun r).mem.word a = s.mem.word a := words
      generalize State.freeBegun r = u at begun solve number tbs words ⊢
      obtain ⟨committed, turned⟩ := scanAndTurn_of_met scanFirst solve begun
        (by rw [tbs]; exact marks_ne_zero hm) (marksPass_of_overwritten tbs words pass)
      rw [← number] at turned
      exact ⟨committed_of_overwritten ht tbs hm words committed, numbered { turned with }⟩

/-- The words of the copy, told by the mask. -/
theorem copied_by_mask {s t : State} (h : Committed s t) :
    t.tbs.outcome = s.tbs.marks ∧ t.rpu.flags &&& Event.commitDone.bit ≠ 0 ∧
      ∀ table < 4, ∀ i < Config.memoryWords (2 * table),
        t.mem.word (wordKey (2 * table) i) = s.mem.word (wordKey (2 * table) i) ∧
        t.mem.word (wordKey (2 * table + 1) i) =
          if s.tbs.marks.getLsbD table then s.mem.word (wordKey (2 * table) i)
          else s.mem.word (wordKey (2 * table + 1) i) := by
  refine ⟨h.outcome, h.done, fun table ht i hi => ?_⟩
  obtain ⟨staging, active⟩ := h.copied table ht i hi
  exact ⟨staging, active.trans (if_congr (mem_marked s.tbs table ht) rfl rfl)⟩

theorem applyMarks_straps (s : State) (hq : s.quiet) : s.applyMarks.tbs.straps = s.tbs.straps := by
  unfold State.applyMarks
  dsimp only
  rw [validateStaging_of_read s (readRange_of_quiet s hq _ _)]
  split
  · rfl
  · split
    · have kept := congrArg Tbs.straps (copyTables_tbs s.tbs.marked s)
      exact kept
    · rfl

/-- Settles O19: what the marks leave stands behind the frame turn, and the copy may meet the one error. -/
theorem commitIsAllOrNothing : Obligations.CommitIsAllOrNothing := by
  intro dt scanFirst s hdue idle
  refine ⟨fun hq => ?_, fun table i ht hi hm pass marks upsets => ?_⟩
  · obtain ⟨clock, ftu, run, -⟩ := outputFrameStart_cases dt scanFirst s hdue hq
    obtain ⟨u, quiet, tbs, mem, kept⟩ := scanAndTurn_banks (State.frameBegun s clock ftu) scanFirst idle hq
    have tbs : u.tbs = s.tbs := tbs
    have mem : u.mem = s.mem := mem
    refine ⟨_, run, ?_, ?_, fun none_marked => ?_, fun some_marked named twice => ?_, fun some_marked pass => ?_⟩
    · rw [kept.tbs]
      exact (applyMarks_of_quiet u quiet).2
    · rw [kept.tbs, applyMarks_straps u quiet, tbs]
    · rw [applyMarks_unmarked u (by rw [tbs]; exact none_marked)] at kept
      exact ⟨congrArg Tbs.outcome kept.tbs, fun a ha => (kept.words a ha).trans (by rw [← mem])⟩
    · rw [applyMarks_refused u (by rw [tbs]; exact some_marked) (readRange_of_quiet u quiet _ _)
        (by rw [tbs]; exact named) (by rw [mem]; exact twice)] at kept
      exact ⟨congrArg Tbs.outcome kept.tbs, raised_of_keepsFlags kept.flags,
        fun a ha => (kept.words a ha).trans (by rw [← mem]; rfl)⟩
    · have committed := committed_of_banks (committed_of_quiet quiet (by rw [tbs]; exact some_marked)
        (by unfold State.marksPass; rw [tbs, mem]; exact pass)) kept
      have copied := copied_by_mask committed
      rw [tbs, mem] at copied
      exact copied
  · obtain ⟨t, run, committed, turned⟩ :=
      outputFrameStart_of_waits dt scanFirst s hdue idle ⟨marks, upsets⟩ ht hi hm pass
    exact ⟨t, run, committed.marks, copied_by_mask committed, turned.mdc, turned.memoryError, turned.modeChanged,
      turned.counted, turned.logged⟩

end Sys2Proof.Laws
end

