-- ==== Sys2Proof/Proofs/StatisticsEnd.lean ====
section
/-! PROOF. The active end of a followed frame that kept its geometry: statistics complete, and the solve that starts. -/

namespace Sys2Proof.Laws

open Sys2Proof.Machine

/-! ## Statistics complete (R66 to R69) -/

/-- The statistics of every zone of the grid `g`, from the accumulators as they stand. -/
def Stu.gridStats (u : Stu) (g : Grid) : Sparse ZoneStat :=
  sparseTabulate (fun _ => .zero) 0 g.zones (fun z => (accAt u.accumulators z).figures)

/-- The mean of the zones' means over the grid `g`. -/
def meanOfMeans (stats : Sparse ZoneStat) (g : Grid) : Nat :=
  ((List.range g.zones).map (fun z => (statAt stats z).mean)).sum / g.zones

/-- The part with the statistics over the grid `g` complete. -/
def State.statisticsDone (s : State) (g : Grid) : State :=
  { s with
    stu := { s.stu with stats := Stu.gridStats s.stu g, globalMean := meanOfMeans (Stu.gridStats s.stu g) g }
    rpu := { s.rpu with flags := if g.misfit then s.rpu.flags ||| Event.gridMisfit.bit else s.rpu.flags } }

theorem completeStatistics_eq (s : State) (g : Grid) (hg : s.stu.grid = some g) :
    s.completeStatistics = State.statisticsDone s g := by
  simp only [State.completeStatistics, State.statisticsDone, hg]
  split
  · rfl
  · rfl

/-- The figures of a zone with a pixel, by cases; zeros without one (R67). -/
theorem figures_eq (a : Accumulator) :
    a.figures = if a.count ≠ 0 then ⟨a.peak, a.sum / a.count, a.bright, a.count⟩ else ⟨0, 0, 0, 0⟩ :=
  (ite_not _ _ _).symm

/-- A zone of the grid with a pixel has the figures of its accumulator; every other zone has zeros (R66, R67). -/
theorem statAt_gridStats (u : Stu) (g : Grid) (z : Nat) :
    statAt (Stu.gridStats u g) z =
      let a := accAt u.accumulators z
      if z < g.columns * g.rows ∧ a.count ≠ 0 then ⟨a.peak, a.sum / a.count, a.bright, a.count⟩ else ⟨0, 0, 0, 0⟩ := by
  have read : statAt (Stu.gridStats u g) z = if z < g.zones then (accAt u.accumulators z).figures else .zero := by
    simpa [statAt, Stu.gridStats] using
      sparseGet_tabulate (fun _ => ZoneStat.zero) 0 g.zones (fun z => (accAt u.accumulators z).figures) z
  rw [read, figures_eq]
  exact (ite_and _ _ _ _).symm

/-! ## The source of a statistics trigger (R80) -/

/-- The target source of a solve that statistics trigger, outside STANDBY. -/
def statisticsSource (mode : Mode) (misfit : Bool) : TargetSource :=
  match mode with
  | .dimming => if misfit then .safe else .statistics
  | .bypass => .bypass
  | .standby | .safe => .safe

theorem targetSource_statistics (mode : Mode) (misfit : Bool) (h : mode ≠ .standby) :
    targetSource mode .statistics misfit = some (statisticsSource mode misfit) := by
  cases mode with
  | standby => exact absurd rfl h
  | bypass | dimming | safe => rfl

/-! ## The active end of a frame that kept its geometry -/

/-- The part at such an active end, its statistics not yet complete: the record closed, the marker in the delay. -/
def State.frameKept (s : State) : State :=
  { s with lrx := s.lrx.closeRecord, ftu := { s.ftu with delay := s.ftu.delay ++ [Delayed.activeEnd] } }

/-- A followed frame that kept its geometry completes the statistics and triggers a solve (R66, R73). -/
theorem endFrame_keeps (s : State) (r : FrameRec) (g : Geometry) (grid : Grid) (hq : s.quiet)
    (hi : s.lrx.input = .locked) (hg : s.lrx.locked = some g) (hf : s.ftu.state = .following)
    (hr : s.lrx.record = some r) (ho : r.offGeometry = false) (hl : g.height ≤ r.lines)
    (hs : s.stu.grid = some grid) :
    s.endFrame = (State.statisticsDone (State.frameKept s) grid).startSolve .statistics := by
  have input : s.lrx.closeRecord.input = .locked := hi
  have short : s.lrx.closeRecord.shortOf r = false := by
    have : s.lrx.closeRecord.locked = some g := hg
    simpa [Lrx.shortOf, this] using hl
  rw [← completeStatistics_eq (State.frameKept s) grid hs]
  simp only [State.endFrame, hr, readSettings_of_quiet s hq, input, short, ho, Bool.or_self, Bool.false_eq_true,
    if_false, State.statisticsEnd, hf, State.frameKept]

/-- Settles O9: the statistics of the grid, then by mode the solve over them, or none in STANDBY. -/
theorem statisticsCompleteAtActiveEnd : Obligations.StatisticsCompleteAtActiveEnd := by
  intro dt s r g grid hi hg hf hr ho hl hs hq
  have run := exec_inputActiveEnd dt s
  rw [endFrame_keeps (s.advance dt) r g grid hq hi hg hf hr ho hl hs] at run
  have figures := statAt_gridStats s.stu grid
  by_cases standby : s.mdc.mode = .standby
  · rw [startSolve_standby (State.statisticsDone (State.frameKept (s.advance dt)) grid) _ standby] at run
    exact ⟨_, run, hi, rfl, rfl, figures, rfl, rfl, fun _ => rfl, fun h => absurd standby h, rfl⟩
  · rw [startSolve_quiet (State.statisticsDone (State.frameKept (s.advance dt)) grid) _ grid _ hq standby hs
      (targetSource_statistics _ _ standby)] at run
    have captures := captured_solveStarted (State.statisticsDone (State.frameKept (s.advance dt)) grid) grid
      (statisticsSource s.mdc.mode grid.misfit) .statistics
    exact ⟨_, run, hi, rfl, rfl, figures, rfl, rfl, fun h => absurd h standby,
      fun _ => ⟨_, rfl, rfl, rfl, rfl, rfl, (captured_congr grid _ rfl rfl rfl rfl rfl).1 captures, rfl⟩, rfl⟩

end Sys2Proof.Laws
end

