-- ==== Sys2Proof/Proofs/ConsistentState.lean ====
section
/-! PROOF. What STANDBY means in every unit, the error log's bounds and the over-temperature hold as one predicate, and
the operations on reads and chains that keep it (R97, R104, R125, R135, R145, R179). -/

namespace Sys2Proof.Laws

open Sys2Proof.Machine

/-! ## The predicate -/

/-- The three invariants of the units. -/
structure Consistent (s : State) : Prop where
  standby : s.standbyInv
  log     : s.logInv
  held    : s.heldInv

/-- A chain as STANDBY has it: no update burst waits or runs, and nothing of one is left (R121, R135). -/
def DarkChain (c : ChainRec) : Prop :=
  c.waiting = none ∧ c.doneTag = none ∧ c.latchPending = false ∧ c.activity.code ≠ 1

/-- The error log, the chain records, and the sense unit's part in the hold: what is bounded in every mode. -/
def recordsOf (s : State) : (List LogEntry × Bool × Nat) × Vector ChainRec 8 × Vector Bool 8 × Vector Thermal 8 :=
  ((s.imn.log, s.imn.overflow, s.imn.lost), s.chc.chains, s.sns.overTemp, s.sns.thermal)

/-- Whether a solve is in flight, the last set and the display: what STANDBY empties besides the chains. -/
def litOf (s : State) :
    Bool × LevelSet × Sparse Nat × Sparse (Option Nat) × Vector (Option SolveTag) 8 :=
  (s.lvs.solve.isNone, s.lvs.lastSet, s.pxc.display, s.pxc.displayChain, s.pxc.taken)

/-- All that the predicate speaks of. -/
def vitalsOf (s : State) := (s.mdc.mode, recordsOf s, litOf s)

/-- The other units of a state written out have no part in it. -/
theorem vitalsOf_mk (pending : List Instr) (draws : Nat) (clock : Clock) (mem : Memory) (lrx : Lrx) (ftu : Ftu)
    (cmd : Cmd) (tbs : Tbs) (stu : Stu) (lvs : Lvs) (pxc : Pxc) (chc : Chc) (sns : Sns) (mdc : Mdc) (rpu : Rpu)
    (imn : Imn) :
    vitalsOf ⟨pending, draws, clock, mem, lrx, ftu, cmd, tbs, stu, lvs, pxc, chc, sns, mdc, rpu, imn⟩ =
      (mdc.mode, ((imn.log, imn.overflow, imn.lost), chc.chains, sns.overTemp, sns.thermal),
        lvs.solve.isNone, lvs.lastSet, pxc.display, pxc.displayChain, pxc.taken) := rfl

/-! ## What keeps it -/

theorem logInv_of_records {s t : State} (h : recordsOf t = recordsOf s) (hs : s.logInv) : t.logInv := by
  have log : (t.imn.log, t.imn.overflow, t.imn.lost) = (s.imn.log, s.imn.overflow, s.imn.lost) :=
    congrArg Prod.fst h
  simp only [Prod.mk.injEq] at log
  obtain ⟨entries, overflow, lost⟩ := log
  unfold State.logInv
  rw [entries, overflow, lost]
  exact hs

theorem heldInv_of_records {s t : State} (h : recordsOf t = recordsOf s) (hs : s.heldInv) : t.heldInv := by
  have records : (t.chc.chains, t.sns.overTemp, t.sns.thermal) = (s.chc.chains, s.sns.overTemp, s.sns.thermal) :=
    congrArg Prod.snd h
  simp only [Prod.mk.injEq] at records
  obtain ⟨chains, overTemp, thermal⟩ := records
  unfold State.heldInv
  rw [chains, overTemp, thermal]
  exact hs

/-- Outside STANDBY the records alone count. -/
theorem consistent_of_lit {s t : State} (h : Consistent s) (lit : t.mdc.mode ≠ .standby)
    (records : recordsOf t = recordsOf s) : Consistent t where
  standby := fun standby => absurd standby lit
  log := logInv_of_records records h.log
  held := heldInv_of_records records h.held

theorem consistent_of_vitals {s t : State} (h : vitalsOf t = vitalsOf s) (hs : Consistent s) : Consistent t := by
  have mode : t.mdc.mode = s.mdc.mode := congrArg Prod.fst h
  have records : recordsOf t = recordsOf s := congrArg (fun v => v.2.1) h
  have lit : litOf t = litOf s := congrArg (fun v => v.2.2) h
  have chains : t.chc.chains = s.chc.chains := congrArg (fun r => r.2.1) records
  simp only [litOf, Prod.mk.injEq] at lit
  obtain ⟨solve, lastSet, display, displayChain, taken⟩ := lit
  refine ⟨fun standby => ?_, logInv_of_records records hs.log, heldInv_of_records records hs.held⟩
  obtain ⟨idle, dark⟩ := hs.standby (mode ▸ standby)
  rw [idle, Option.isNone_none, Option.isNone_iff_eq_none] at solve
  rw [lastSet, display, displayChain, taken, chains]
  exact ⟨solve, dark⟩

theorem consistent_raise {s : State} (h : Consistent s) (e : Event) : Consistent (s.raise e) :=
  consistent_of_vitals (s := s) rfl h

/-- In STANDBY no solve is in flight. -/
theorem mode_of_solving {s : State} (h : Consistent s) {v : Solve} (hv : s.lvs.solve = some v) :
    s.mdc.mode ≠ .standby :=
  fun standby => absurd ((h.standby standby).1.symm.trans hv) nofun

theorem consistent_foldl {α : Type} (g : State → α → State) (hg : ∀ s a, Consistent s → Consistent (g s a))
    (l : List α) {s : State} (h : Consistent s) : Consistent (l.foldl g s) := by
  induction l generalizing s with
  | nil => exact h
  | cons a l ih => exact ih (hg s a h)

/-! ## Reads through the integrity monitor (R177 to R179) -/

/-- An error is logged while there is room, and counted as lost when there is none. -/
theorem logInv_logError {s : State} (h : s.logInv) (a : Nat) (k : ErrorKind) : (s.logError a k).logInv := by
  obtain ⟨entries, lost, overflow, full⟩ := h
  unfold State.logError
  split
  · next room =>
    have room : s.imn.log.length < 4 := room
    refine ⟨?_, lost, overflow, fun lossy => absurd (full lossy) (Nat.ne_of_lt room)⟩
    rw [List.length_append, List.length_singleton]
    exact room
  · next none_free =>
    have none_free : ¬ s.imn.log.length < 4 := none_free
    refine ⟨entries, Nat.min_le_left _ _, iff_of_true rfl ?_, fun _ => ?_⟩
    · dsimp only
      omega
    · dsimp only
      omega

theorem logInv_readWord {s : State} (h : s.logInv) (a : Nat) : (s.readWord a).logInv := by
  unfold State.readWord
  dsimp only
  split
  · exact h
  · refine logInv_logError ?_ a .corrected
    exact h
  · have written : recordsOf ((substitutes s.tbs.straps a).foldl (fun s e => s.writeWord e.1 e.2)
        (State.unmarked s a)) = recordsOf s := foldl_writeWord_keeps recordsOf (fun _ _ _ => rfl) _ _
    unfold State.unmarked at written
    generalize List.foldl _ _ _ = u at written ⊢
    have met : ((u.count .uncorrectable 1).raise .memoryError).logInv := logInv_of_records (t := u) written h
    have logged := logInv_logError met a .uncorrectable
    generalize State.logError _ _ _ = v at logged ⊢
    split
    · unfold State.logInv
      rw [State.autoSafe_imn]
      exact logged
    · split
      · exact logged
      · exact logged

/-- A read never enters STANDBY. -/
theorem mode_readWord (s : State) (a : Nat) : (s.readWord a).mdc.mode = .standby → s.mdc.mode = .standby := by
  unfold State.readWord
  dsimp only
  split
  · exact id
  · rw [State.logError_mdc]
    exact id
  · have written : ((substitutes s.tbs.straps a).foldl (fun s e => s.writeWord e.1 e.2) (State.unmarked s a)).mdc =
        s.mdc := foldl_writeWord_keeps State.mdc (fun _ _ _ => rfl) _ _
    unfold State.unmarked at written
    generalize List.foldl _ _ _ = u at written ⊢
    have logged : (((u.count .uncorrectable 1).raise .memoryError).logError a .uncorrectable).mdc = s.mdc := by
      rw [State.logError_mdc]
      exact written
    generalize State.logError _ _ _ = v at logged ⊢
    rw [← logged]
    split
    · rw [autoSafe_mdc]
      nofun
    · split
      · exact id
      · exact id

theorem consistent_readWord {s : State} (h : Consistent s) (a : Nat) : Consistent (s.readWord a) := by
  have read := blankRead_readWord s a
  have chc : (s.readWord a).chc = s.chc := (congrArg State.chc read :)
  have sns : (s.readWord a).sns = s.sns := (congrArg State.sns read :)
  have pxc : (s.readWord a).pxc = s.pxc := (congrArg State.pxc read :)
  have solve : (s.readWord a).lvs.solve = s.lvs.solve := (congrArg (fun u => u.lvs.solve) read :)
  have lastSet : (s.readWord a).lvs.lastSet = s.lvs.lastSet := (congrArg (fun u => u.lvs.lastSet) read :)
  refine ⟨fun standby => ?_, logInv_readWord h.log a, ?_⟩
  · rw [solve, lastSet, pxc, chc]
    exact h.standby (mode_readWord s a standby)
  · unfold State.heldInv
    rw [sns, chc]
    exact h.held

theorem consistent_readRange {s : State} (h : Consistent s) (lo n : Nat) : Consistent (s.readRange lo n) :=
  consistent_foldl _ (fun _ _ h => consistent_readWord h _) _ h

theorem consistent_readSetting {s : State} (h : Consistent s) (i : Nat) : Consistent (s.readSetting i) :=
  consistent_readRange h _ _

theorem consistent_readSettings {s : State} (h : Consistent s) (is : List Nat) : Consistent (s.readSettings is) :=
  consistent_foldl _ (fun _ _ h => consistent_readSetting h _) _ h

theorem consistent_readOverwritten {s : State} (h : Consistent s) (t : Nat) : Consistent (s.readOverwritten t) :=
  consistent_foldl _ (fun _ _ h => consistent_readWord h _) _ h

theorem consistent_readWhilePending {s : State} (h : Consistent s) (lo n : Nat) :
    Consistent (s.readWhilePending lo n) := by
  refine consistent_foldl _ (fun s i h => ?_) _ h
  split
  · exact consistent_readWord h _
  · exact h

theorem consistent_readTables {s : State} (h : Consistent s) : Consistent s.readTables :=
  consistent_foldl _ (fun _ _ h => consistent_readRange h _ _) _ h

theorem consistent_readFilters {s : State} (h : Consistent s) : Consistent s.readFilters :=
  consistent_foldl _ (fun _ _ h => consistent_readWord h _) _ h

/-- The reads of a solve's F leave a mode that is not STANDBY. -/
theorem mode_readFilters (s : State) : s.readFilters.mdc.mode = .standby → s.mdc.mode = .standby := by
  unfold State.readFilters
  dsimp only
  generalize List.filter _ _ = l
  induction l generalizing s with
  | nil => exact id
  | cons z l ih =>
    rw [List.foldl_cons]
    exact fun h => mode_readWord s (zoneF z) (ih (s.readWord (zoneF z)) h)

/-! ## The chains (R117, R135) -/

theorem getElem_vector_set {α : Type} (v : Vector α 8) (k j : ChainNo) (a : α) :
    (v.set k a)[j] = if j = k then a else v[j] := by
  by_cases own : j = k
  · subst own
    simp
  · have apart : k.val ≠ j.val := fun e => own (Fin.ext e.symm)
    simp [own, apart]

/-- A chain that is dark in STANDBY stays so, and the hold stays, where only chain records change. -/
theorem consistent_of_chains {s t : State} (h : Consistent s) (others : blankChains t = blankChains s)
    (held : ∀ k : ChainNo, t.chc.chains[k].overTemp = s.chc.chains[k].overTemp)
    (dark : s.mdc.mode = .standby → ∀ k : ChainNo, DarkChain s.chc.chains[k] → DarkChain t.chc.chains[k]) :
    Consistent t := by
  have mdc : t.mdc = s.mdc := (congrArg State.mdc others :)
  have imn : t.imn = s.imn := (congrArg State.imn others :)
  have sns : t.sns = s.sns := (congrArg State.sns others :)
  have pxc : t.pxc = s.pxc := (congrArg State.pxc others :)
  have lvs : t.lvs = s.lvs := (congrArg State.lvs others :)
  refine ⟨fun standby => ?_, ?_, fun k => ?_⟩
  · rw [mdc] at standby
    obtain ⟨solve, lastSet, display, displayChain, taken, chains⟩ := h.standby standby
    rw [lvs, pxc]
    exact ⟨solve, lastSet, display, displayChain, taken, fun k => dark standby k (chains k)⟩
  · unfold State.logInv
    rw [imn]
    exact h.log
  · rw [sns, held k]
    exact h.held k

theorem consistent_setChain {s : State} (h : Consistent s) (k : ChainNo) (c : ChainRec)
    (held : c.overTemp = s.chc.chains[k].overTemp)
    (dark : s.mdc.mode = .standby → DarkChain s.chc.chains[k] → DarkChain c) : Consistent (s.setChain k c) := by
  refine consistent_of_chains h (blankChains_setChain s k c) (fun j => ?_) fun standby j hj => ?_
  · by_cases own : k = j
    · subst own
      rw [State.setChain_chain_same, held]
    · rw [State.setChain_chain_other s k j c own]
  · by_cases own : k = j
    · subst own
      rw [State.setChain_chain_same]
      exact dark standby hj
    · rw [State.setChain_chain_other s k j c own]
      exact hj

/-- What the arbiter starts on a chain leaves its hold and its count, and starts no update burst on a dark one. -/
theorem next_kept {c c' : ChainRec} {entry : Option PassEntry} (h : c.next entry = some c') :
    c'.overTemp = c.overTemp ∧ c'.count = c.count ∧ (DarkChain c → DarkChain c') := by
  unfold ChainRec.next at h
  split at h
  · cases h
  · split at h
    · obtain rfl := Option.some.inj h
      exact ⟨rfl, rfl, fun ⟨waiting, done, pending, _⟩ => ⟨waiting, done, pending, nofun⟩⟩
    · split at h
      · cases h
      · split at h
        · obtain rfl := Option.some.inj h
          exact ⟨rfl, rfl, fun ⟨waiting, done, pending, _⟩ => ⟨waiting, done, pending, nofun⟩⟩
        · split at h
          · next burst =>
            obtain rfl := Option.some.inj h
            exact ⟨rfl, rfl, fun ⟨waiting, _⟩ => absurd (waiting.symm.trans burst) nofun⟩
          · obtain rfl := Option.some.inj h
            exact ⟨rfl, rfl, fun ⟨waiting, done, pending, _⟩ => ⟨waiting, done, pending, nofun⟩⟩
          · cases h

/-- The three things an arbiter can do with its chain: nothing, send the latch that is due, start what comes next. -/
theorem arbitrate_chain (s : State) (k : ChainNo) :
    (s.arbitrate k).chc.chains[k] = s.chc.chains[k] ∨
    (∃ f, (s.arbitrate k).chc.chains[k] =
      { s.chc.chains[k] with latchDue := none }.sending (.latch (some f)) latchMessage) ∨
    ∃ entry c, s.chc.chains[k].next entry = some c ∧ (s.arbitrate k).chc.chains[k] = c := by
  cases busy : s.chc.chains[k].isIdle with
  | false => exact .inl (by rw [arbitrate_busy s k busy])
  | true =>
    cases due : s.chc.chains[k].latchDue with
    | some f => exact .inr (.inl ⟨f, by rw [arbitrate_latch s k f busy due, State.setChain_chain_same]⟩)
    | none =>
      rw [arbitrate_next s k busy due]
      split
      · next c starts =>
        refine .inr (.inr ⟨_, c, starts, ?_⟩)
        split
        · exact State.setChain_chain_same s k c
        · exact State.setChain_chain_same s k c
      · exact .inl rfl

/-- The arbiter leaves its chain's hold and count, and starts no update burst on a dark chain. -/
theorem arbitrate_chain_kept (s : State) (k : ChainNo) :
    (s.arbitrate k).chc.chains[k].overTemp = s.chc.chains[k].overTemp ∧
      (s.arbitrate k).chc.chains[k].count = s.chc.chains[k].count ∧
      (DarkChain s.chc.chains[k] → DarkChain (s.arbitrate k).chc.chains[k]) := by
  rcases arbitrate_chain s k with same | ⟨f, latch⟩ | ⟨entry, c, starts, next⟩
  · rw [same]
    exact ⟨rfl, rfl, id⟩
  · rw [latch]
    exact ⟨rfl, rfl, fun ⟨waiting, done, pending, _⟩ => ⟨waiting, done, pending, nofun⟩⟩
  · rw [next]
    exact next_kept starts

theorem consistent_arbitrate {s : State} (h : Consistent s) (k : ChainNo) : Consistent (s.arbitrate k) := by
  obtain ⟨held, -, dark⟩ := arbitrate_chain_kept s k
  refine consistent_of_chains h (blankChains_arbitrate s k) (fun j => ?_) fun _ j hj => ?_
  · by_cases own : j = k
    · subst own
      exact held
    · rw [arbitrate_other s k j own]
  · by_cases own : j = k
    · subst own
      exact dark hj
    · rwa [arbitrate_other s k j own]

theorem consistent_freeChain {s : State} (h : Consistent s) (k : ChainNo) : Consistent (s.freeChain k) :=
  consistent_arbitrate (consistent_setChain h k s.chc.chains[k].toIdle rfl
    fun _ ⟨waiting, done, pending, _⟩ => ⟨waiting, done, pending, nofun⟩) k

theorem consistent_latchFallsDue {s : State} (h : Consistent s) (k : ChainNo) : Consistent (s.latchFallsDue k) := by
  unfold State.latchFallsDue
  dsimp only
  split
  · exact consistent_arbitrate (consistent_setChain h k
      { s.chc.chains[k] with latchDue := some s.ftu.frameNumber } rfl fun _ dark => dark) k
  · exact h

theorem consistent_latchesFallDue {s : State} (h : Consistent s) : Consistent s.latchesFallDue :=
  consistent_foldl _ (fun _ _ h => consistent_latchFallsDue h _) _ h

theorem consistent_latchesOfLine {s : State} (h : Consistent s) (n : Nat) : Consistent (s.latchesOfLine n) :=
  consistent_foldl _ (fun _ _ h => consistent_latchFallsDue h _) _ h

/-- A change of the hold reaches the chain and the sense unit together, and a new hold means HOT. -/
theorem consistent_updateHeld {s : State} (h : Consistent s) (k : ChainNo) : Consistent (s.updateHeld k) := by
  unfold State.updateHeld
  dsimp only
  split
  · exact h
  · generalize s.chc.heldNow k = held
    refine ⟨fun standby => ?_, h.log, fun j => ?_⟩
    · obtain ⟨solve, lastSet, display, displayChain, taken, chains⟩ := h.standby standby
      refine ⟨solve, lastSet, display, displayChain, taken, fun j => ?_⟩
      show DarkChain (s.chc.chains.set k { s.chc.chains[k] with overTemp := held })[j]
      rw [getElem_vector_set]
      split
      · exact chains k
      · exact chains j
    · show (s.sns.overTemp.set k held)[j] = (s.chc.chains.set k { s.chc.chains[k] with overTemp := held })[j].overTemp ∧
        ((s.sns.overTemp.set k held)[j] = true →
          (if held then s.sns.thermal.set k .hot else s.sns.thermal)[j] = .hot)
      obtain ⟨same, hot⟩ := h.held j
      by_cases own : j = k
      · subst own
        rw [getElem_vector_set, getElem_vector_set, if_pos rfl, if_pos rfl]
        refine ⟨rfl, ?_⟩
        rintro rfl
        rw [if_pos rfl, getElem_vector_set, if_pos rfl]
      · rw [getElem_vector_set, getElem_vector_set, if_neg own, if_neg own]
        refine ⟨same, fun on => ?_⟩
        split
        · rw [getElem_vector_set, if_neg own]
          exact hot on
        · exact hot on

/-! ## Readback and enumeration (R124 to R127, R131) -/

theorem vitalsOf_confirmChannel (s : State) (zones : List BurstZone) (key device channel : Nat) :
    vitalsOf (s.confirmChannel zones key device channel) = vitalsOf s := by
  have struck (latches : Sparse FaultLatch) (struck : Sparse Bool) :
      vitalsOf (({ s with chc := { s.chc with latches := latches, struck := struck } } : State).raise .zoneFaultNew) =
        vitalsOf s := rfl
  unfold State.confirmChannel
  dsimp only
  split
  · split
    · exact struck _ _
    · rfl
  · rfl

theorem consistent_goodStatus {s : State} (h : Consistent s) (k : ChainNo) (zones : List BurstZone) (i : Nat)
    (st : Status) : Consistent (s.goodStatus k zones i st) := by
  unfold State.goodStatus
  refine consistent_updateHeld (consistent_of_vitals (foldl_keeps vitalsOf _
    (fun s c => vitalsOf_confirmChannel s zones _ i c) _ _) ?_) k
  exact consistent_of_vitals (s := s) rfl h

theorem vitalsOf_missedSlot (s : State) (k : ChainNo) (i : Nat) : vitalsOf (s.missedSlot k i) = vitalsOf s := by
  unfold State.missedSlot
  dsimp only
  split <;> rfl

theorem consistent_readback {s : State} (h : Consistent s) (k : ChainNo) (zones : List BurstZone) (i : Nat)
    (bytes : List Byte) : Consistent (s.readback k zones i bytes) := by
  have read := consistent_readSettings h [Config.faultConfirm, Config.missLimit]
  unfold State.readback
  dsimp only
  split
  · exact consistent_goodStatus read _ _ _ _
  · exact consistent_of_vitals (vitalsOf_missedSlot _ _ _) read

theorem consistent_endSweep {s : State} (h : Consistent s) (k : ChainNo) (count : Nat) (long : Bool) :
    Consistent (s.endSweep k count long) := by
  have swept := consistent_setChain h k { s.chc.chains[k].toIdle with count := count, overlength := long } rfl
    fun _ ⟨waiting, done, pending, _⟩ => ⟨waiting, done, pending, nofun⟩
  unfold State.endSweep
  dsimp only
  generalize s.setChain k _ = u at swept ⊢
  refine consistent_arbitrate (consistent_raise (consistent_updateHeld ?_ k) _) k
  exact consistent_of_vitals (s := u) rfl swept

end Sys2Proof.Laws
end

