-- ==== Sys2Proof/Proofs/ConsistentUnits.lean ====
section
/-! PROOF. STANDBY entry at the chains, and the units' operations that keep what STANDBY means, the log's bounds and the
over-temperature hold (R17, R73, R97, R104, R135). -/

namespace Sys2Proof.Laws

open Sys2Proof.Machine

/-! ## STANDBY entry at the chains (R135) -/

/-- A chain before STANDBY entry, and the chain that its arbiter then leaves: dark, with a dark burst where none of its
messages is in the way. -/
structure Darkened (c c' : ChainRec) : Prop where
  dark  : DarkChain c'
  held  : c'.overTemp = c.overTemp
  count : c'.count = c.count
  burst : (c.activity = .idle ∨ ∃ job devices slot, c.activity = .burst job devices slot) → c.awaiting = none →
    0 < c.count → c'.activity = .darkBurst c.count 0 ∧ c'.message = burstMessage c.count (fun _ _ => 0)

theorem standby_dark (c : ChainRec) :
    DarkChain c.standby ∧ c.standby.overTemp = c.overTemp ∧ c.standby.count = c.count := by
  unfold ChainRec.standby
  split
  · exact ⟨⟨rfl, rfl, rfl, nofun⟩, rfl, rfl⟩
  all_goals
    next activity =>
      refine ⟨⟨rfl, rfl, rfl, ?_⟩, rfl, rfl⟩
      show c.activity.code ≠ 1
      rw [activity]
      nofun

/-- A chain with devices that sends nothing but perhaps an update burst is idle at STANDBY entry, its dark burst next. -/
theorem standby_next (c : ChainRec)
    (h : c.activity = .idle ∨ ∃ job devices slot, c.activity = .burst job devices slot) (ha : c.awaiting = none)
    (hc : 0 < c.count) (entry : Option PassEntry) :
    c.standby.isIdle = true ∧ c.standby.latchDue = none ∧
      ∃ c', c.standby.next entry = some c' ∧ c'.activity = .darkBurst c.count 0 ∧
        c'.message = burstMessage c.count (fun _ _ => 0) := by
  have idle : c.standby.activity = .idle := by
    unfold ChainRec.standby
    rcases h with idle | ⟨job, devices, slot, burst⟩
    · rw [idle]
      exact idle
    · rw [burst]
      rfl
  have kept : c.standby.awaiting = none ∧ c.standby.latchDue = none ∧ c.standby.darkWaiting = true := by
    unfold ChainRec.standby
    split <;> exact ⟨ha, rfl, decide_eq_true hc⟩
  obtain ⟨awaiting, due, dark⟩ := kept
  have started : c.standby.next entry = some (({ c.standby with darkWaiting := false } : ChainRec).sending
      (.darkBurst c.standby.count 0) (burstMessage c.standby.count (fun _ _ => 0))) := by
    unfold ChainRec.next
    rw [if_neg (by rw [awaiting]; nofun), if_pos dark]
  rw [(standby_dark c).2.2] at started
  exact ⟨(isIdle_iff _).2 idle, due, _, started, rfl, rfl⟩

theorem darkened_arbitrate (s : State) (k : ChainNo) :
    Darkened s.chc.chains[k] ((s.setChain k s.chc.chains[k].standby).arbitrate k).chc.chains[k] := by
  obtain ⟨dark, held, count⟩ := standby_dark s.chc.chains[k]
  obtain ⟨held', count', dark'⟩ := arbitrate_chain_kept (s.setChain k s.chc.chains[k].standby) k
  rw [State.setChain_chain_same] at held' count' dark'
  refine ⟨dark' dark, held'.trans held, count'.trans count, fun free awaiting devices => ?_⟩
  obtain ⟨idle, due, c, next, activity, message⟩ := standby_next s.chc.chains[k] free awaiting devices
    ((s.setChain k s.chc.chains[k].standby).chc.passQueue.find? (fun e => e.chain == k))
  rw [arbitrate_next _ k (by rw [State.setChain_chain_same]; exact idle) (by rw [State.setChain_chain_same]; exact due),
    State.setChain_chain_same, next]
  dsimp only
  rw [if_neg (by rw [activity]; nofun), State.setChain_chain_same]
  exact ⟨activity, message⟩

/-- What each step of a fold over chains does to its own chain, leaving the others, the fold does to each of them. -/
theorem chains_of_foldl {R : ChainRec → ChainRec → Prop} (g : State → ChainNo → State)
    (hit : ∀ s k, R s.chc.chains[k] (g s k).chc.chains[k])
    (other : ∀ s (k j : ChainNo), j ≠ k → (g s k).chc.chains[j] = s.chc.chains[j]) (l : List ChainNo) (hn : l.Nodup)
    (s : State) : ∀ k ∈ l, R s.chc.chains[k] (l.foldl g s).chc.chains[k] := by
  have outside (l : List ChainNo) (s : State) (k : ChainNo) (hk : k ∉ l) :
      (l.foldl g s).chc.chains[k] = s.chc.chains[k] := by
    induction l generalizing s with
    | nil => rfl
    | cons j l ih =>
      exact (ih (g s j) fun h => hk (List.mem_cons_of_mem j h)).trans
        (other s j k fun e => hk (e ▸ List.mem_cons_self))
  induction l generalizing s with
  | nil => exact nofun
  | cons j l ih =>
    obtain ⟨fresh, hn⟩ := List.nodup_cons.1 hn
    intro k hk
    rw [List.foldl_cons]
    rcases List.mem_cons.1 hk with rfl | later
    · rw [outside l _ k fresh]
      exact hit s k
    · have apart : k ≠ j := fun e => fresh (e ▸ later)
      rw [← other s j k apart]
      exact ih hn (g s j) k later

/-- STANDBY entry of the chains, one by one: each is left dark. -/
theorem darkened_foldl (s : State) (k : ChainNo) (g : State → ChainNo → State)
    (hg : g = fun s k => (s.setChain k s.chc.chains[k].standby).arbitrate k) :
    Darkened s.chc.chains[k] (allChains.foldl g s).chc.chains[k] := by
  subst hg
  refine chains_of_foldl (R := Darkened) _ darkened_arbitrate (fun s k j apart => ?_) allChains (by decide) s k
    (mem_allChains k)
  rw [arbitrate_other _ k j apart, State.setChain_chain_other s k j _ apart.symm]

/-- STANDBY entry leaves every chain dark. -/
theorem darkened_standbyChains (s : State) (k : ChainNo) :
    Darkened s.chc.chains[k] s.standbyChains.chc.chains[k] := by
  rw [State.standbyChains]
  exact darkened_foldl s k _ rfl

/-- The chains darkened complete what STANDBY means, where the solver and the display hold nothing. -/
theorem consistent_of_darkened {u t : State} (others : blankChains t = blankChains u)
    (darkened : ∀ k : ChainNo, Darkened u.chc.chains[k] t.chc.chains[k]) (log : u.logInv) (held : u.heldInv)
    (solve : u.lvs.solve = none) (lastSet : u.lvs.lastSet = .zero) (display : u.pxc.display = [])
    (displayChain : u.pxc.displayChain = []) (taken : ∀ k : ChainNo, u.pxc.taken[k] = none) : Consistent t := by
  have hlvs : t.lvs = u.lvs := (congrArg State.lvs others :)
  have hpxc : t.pxc = u.pxc := (congrArg State.pxc others :)
  have himn : t.imn = u.imn := (congrArg State.imn others :)
  have hsns : t.sns = u.sns := (congrArg State.sns others :)
  refine ⟨fun _ => ?_, ?_, fun k => ?_⟩
  · rw [hlvs, hpxc]
    exact ⟨solve, lastSet, display, displayChain, taken, fun k => (darkened k).dark⟩
  · unfold State.logInv
    rw [himn]
    exact log
  · rw [hsns, (darkened k).held]
    exact held k

/-- The solver and the display as STANDBY entry leaves them, before the chains (R97, R104). -/
def standbyUnits (s : State) : State :=
  { s.zeroZoneWords [5, 6, 7] with
    lvs := { s.lvs with lastSet := .zero, unlit := [], reseed := [] }
    pxc := { s.pxc with display := [], displayChain := [], taken := Vector.replicate 8 none } }

theorem standbyEntry_eq (s : State) : s.standbyEntry = (standbyUnits s).standbyChains := rfl

theorem recordsOf_standbyUnits (s : State) : recordsOf (standbyUnits s) = recordsOf s := rfl

/-- STANDBY entry makes all of STANDBY's meaning true, where no solve is in flight. -/
theorem consistent_standbyEntry {s : State} (log : s.logInv) (held : s.heldInv) (idle : s.lvs.solve = none) :
    Consistent s.standbyEntry := by
  rw [standbyEntry_eq]
  exact consistent_of_darkened (blankChains_standbyChains _) (darkened_standbyChains _)
    (logInv_of_records (recordsOf_standbyUnits s) log) (heldInv_of_records (recordsOf_standbyUnits s) held) idle rfl
    rfl rfl fun k => by simp [standbyUnits]

/-! ## The frame turn (R17) -/

theorem consistent_validateStaging {s : State} (h : Consistent s) (mask : BitVec 4) :
    Consistent (s.validateStaging mask).1 := by
  have read := consistent_readRange h (wordKey (bankMemory 1 0) 0) (Config.memoryWords (bankMemory 1 0))
  unfold State.validateStaging
  dsimp only
  generalize s.readRange _ _ = u at read ⊢
  split
  · exact read
  · exact h

theorem consistent_copyTable {s : State} (h : Consistent s) (t : Nat) : Consistent (s.copyTable t) := by
  have read := consistent_readOverwritten (consistent_readRange h
    (wordKey (bankMemory t 0) 0) (Config.memoryWords (bankMemory t 0))) t
  unfold State.copyTable
  dsimp only
  generalize State.readOverwritten _ t = u at read ⊢
  exact consistent_of_vitals (s := u) rfl read

theorem consistent_applyMarks {s : State} (h : Consistent s) : Consistent s.applyMarks := by
  unfold State.applyMarks
  dsimp only
  split
  · exact consistent_of_vitals (s := s) rfl h
  · have valid := consistent_validateStaging h s.tbs.marks
    split
    · have copied := consistent_foldl _ (fun _ t h => consistent_copyTable h t) s.tbs.marked valid
      generalize List.foldl _ _ _ = u at copied ⊢
      have settled (tbs : Tbs) : Consistent { u with tbs := tbs } := consistent_of_vitals (s := u) rfl copied
      exact consistent_raise (settled _) _
    · generalize (s.validateStaging s.tbs.marks).1 = u at valid ⊢
      have settled (tbs : Tbs) : Consistent { u with tbs := tbs } := consistent_of_vitals (s := u) rfl valid
      exact consistent_raise (settled _) _

/-- Of all changes of mode, the one to STANDBY brings its own meaning with it. -/
theorem consistent_changeMode {s : State} (h : Consistent s) (idle : s.lvs.solve = none) (target : Mode) :
    Consistent (s.changeMode target) := by
  unfold State.changeMode
  dsimp only
  split
  · exact h
  · split
    · exact consistent_standbyEntry (logInv_of_records (s := s) rfl h.log)
        (heldInv_of_records (s := s) rfl h.held) idle
    · next other => exact consistent_of_lit h other rfl

theorem consistent_handleRequest {s : State} (h : Consistent s) (idle : s.lvs.solve = none) :
    Consistent s.handleRequest := by
  unfold State.handleRequest
  split
  · exact consistent_of_vitals (s := s) rfl h
  · next target _ =>
    have reads : Consistent (if target.validated then s.readForMode else s) ∧
        (if target.validated then s.readForMode else s).lvs.solve = none := by
      split
      · exact ⟨consistent_readWhilePending (consistent_readWhilePending h _ _) _ _,
          (solve_of_turnKeeps (turnKeeps_readForMode s)).trans idle⟩
      · exact ⟨h, idle⟩
    dsimp only
    generalize (if target.validated then s.readForMode else s) = u at reads ⊢
    obtain ⟨reads, idle⟩ := reads
    have answered (request : Option Mode) (reason : Reason) :
        Consistent { u with mdc := { u.mdc with request := request, reason := reason } } :=
      consistent_of_vitals (s := u) rfl reads
    split
    · exact answered _ _
    · split
      · exact consistent_changeMode (answered none (u.modeReason target)) idle target
      · exact consistent_raise (answered none (u.modeReason target)) .commitFailed

theorem vitalsOf_addWaitingLines (s : State) : vitalsOf s.addWaitingLines = vitalsOf s := by
  obtain ⟨accumulators, lineBuffer, added⟩ := addWaitingLines_kept s
  rw [added]
  rfl

theorem consistent_layGrid {s : State} (h : Consistent s) : Consistent s.layGrid := by
  have read := consistent_readSettings h [Config.gridColumns, Config.gridRows, Config.brightThreshold]
  unfold State.layGrid
  dsimp only
  generalize s.readSettings _ = u at read ⊢
  exact consistent_of_vitals (s := u) ((vitalsOf_addWaitingLines _).trans rfl) read

theorem consistent_maskRead {s : State} (h : Consistent s) : Consistent (State.maskRead s) := by
  have read := consistent_readSetting h Config.notifyMask
  unfold State.maskRead
  dsimp only
  generalize s.readSetting _ = u at read ⊢
  have used (rpu : Rpu) : Consistent { u with rpu := rpu } := consistent_of_vitals (s := u) rfl read
  exact used _

/-- A frame turn is taken with no solve in flight. -/
theorem consistent_frameTurn {s : State} (h : Consistent s) (idle : s.lvs.solve = none) : Consistent s.frameTurn := by
  have begun : Consistent (State.turnBegun s) := consistent_of_vitals (s := s) rfl h
  have idle : (State.turnBegun s).lvs.solve = none := idle
  rw [frameTurn_eq]
  generalize State.turnBegun s = u at begun idle ⊢
  have applied := consistent_applyMarks begun
  have idle := (solve_of_turnKeeps (turnKeeps_applyMarks u)).trans idle
  exact consistent_maskRead (consistent_layGrid (consistent_handleRequest applied idle))

/-- An abandoned solve leaves nothing of itself. -/
theorem consistent_solveGivenUp {s : State} (h : Consistent s) (solving : s.lvs.solve ≠ none) :
    Consistent (State.solveGivenUp s) :=
  consistent_of_lit h (fun standby => solving (h.standby standby).1) rfl

theorem consistent_forceTurn {s : State} (h : Consistent s) : Consistent s.forceTurn := by
  unfold State.forceTurn
  split
  · by_cases idle : s.lvs.solve = none
    · rw [abandonLate_idle s idle]
      exact consistent_frameTurn h idle
    · rw [abandonLate_solving s idle]
      exact consistent_frameTurn (consistent_solveGivenUp h idle) rfl
  · exact h

theorem consistent_turnOrWait {s : State} (h : Consistent s) : Consistent s.turnOrWait := by
  unfold State.turnOrWait
  split
  · exact consistent_of_vitals (s := s) rfl h
  · next idle => exact consistent_frameTurn h idle

theorem vitalsOf_scanDecision (s : State) : vitalsOf s.scanDecision = vitalsOf s := by
  unfold State.scanDecision
  split
  · rfl
  · split <;> rfl

theorem consistent_scanAndTurn {s : State} (h : Consistent s) (scanFirst : Bool) :
    Consistent (s.scanAndTurn scanFirst) := by
  unfold State.scanAndTurn
  split
  · exact consistent_turnOrWait (consistent_of_vitals (vitalsOf_scanDecision s) h)
  · exact consistent_of_vitals (vitalsOf_scanDecision _) (consistent_turnOrWait h)

/-! ## Solves (R73, R78, R118) -/

/-- A solve starts outside STANDBY alone: there is no target source in STANDBY (R80). -/
theorem consistent_startSolve {s : State} (h : Consistent s) (trigger : Trigger) :
    Consistent (s.startSolve trigger) := by
  unfold State.startSolve
  split
  · exact h
  · have tables := consistent_readTables h
    dsimp only
    generalize s.readTables = u at tables ⊢
    have filters := consistent_readFilters tables
    have mode := mode_readFilters u
    generalize u.readFilters = w at filters mode ⊢
    split
    · next source =>
      refine consistent_of_lit filters (fun standby => ?_) rfl
      have dark : u.mdc.mode = .standby := mode standby
      rw [dark] at source
      cases source
    · exact tables

theorem recordsOf_writeZone (s : State) (v : Solve) (l : ZoneLevel) (z : Nat) :
    recordsOf (s.writeZone v l z) = recordsOf s := by
  unfold recordsOf
  rw [State.writeZone_chc, State.writeZone_sns]
  rfl

/-- The zone words and the records of a completed solve leave the chains and the log; no solve is in flight then. -/
theorem finishSolve_kept (s : State) (v : Solve) :
    recordsOf (s.finishSolve v) = recordsOf s ∧ (s.finishSolve v).mdc = s.mdc ∧
      (s.finishSolve v).lvs.solve = none := by
  have written (set : LevelSet) : recordsOf (((v.withMarks s.lvs.reseed).processed).foldl
      (fun u z => u.writeZone (v.withMarks s.lvs.reseed) (set.zone z) z) (s.zeroZoneWords [4, 6, 7])) = recordsOf s ∧
      (((v.withMarks s.lvs.reseed).processed).foldl
        (fun u z => u.writeZone (v.withMarks s.lvs.reseed) (set.zone z) z) (s.zeroZoneWords [4, 6, 7])).mdc = s.mdc :=
    ⟨foldl_keeps recordsOf _ (fun u z => recordsOf_writeZone u _ (set.zone z) z) _ _,
      foldl_keeps State.mdc _ (fun u z => State.writeZone_mdc u _ (set.zone z) z) _ _⟩
  specialize written ((v.withMarks s.lvs.reseed).levelSet s.chc)
  unfold State.finishSolve
  dsimp only
  generalize List.foldl _ (s.zeroZoneWords [4, 6, 7]) _ = u at written ⊢
  split
  · exact ⟨written.1, written.2, rfl⟩
  · exact ⟨written.1, written.2, rfl⟩

/-- A set is handed to the chains outside STANDBY. -/
theorem consistent_handOff {s : State} (h : Consistent s) (lit : s.mdc.mode ≠ .standby) (set : LevelSet) :
    Consistent (s.handOff set) := by
  have step (l : List ChainNo) (u : State) (hu : Consistent u) (lit : u.mdc.mode ≠ .standby) :
      Consistent (l.foldl (fun s k => (s.setChain k { s.chc.chains[k] with waiting := set.job k }).arbitrate k) u) := by
    induction l generalizing u with
    | nil => exact hu
    | cons k l ih =>
      have given := consistent_arbitrate (consistent_setChain hu k { u.chc.chains[k] with waiting := set.job k } rfl
        fun standby => absurd standby lit) k
      have lit : ((u.setChain k { u.chc.chains[k] with waiting := set.job k }).arbitrate k).mdc.mode ≠ .standby := by
        rw [State.arbitrate_mdc]
        exact lit
      exact ih _ given lit
  exact step allChains s h lit

/-- The solver's own part and the hand-off of a solve that was in flight. -/
theorem consistent_finishSolve {s : State} (h : Consistent s) {v : Solve} (lit : s.mdc.mode ≠ .standby)
    (set : LevelSet) : Consistent ((s.finishSolve v).handOff set) := by
  obtain ⟨records, mdc, -⟩ := finishSolve_kept s v
  have lit' : (s.finishSolve v).mdc.mode ≠ .standby := by rw [mdc]; exact lit
  exact consistent_handOff (consistent_of_lit h lit' records) lit' set

theorem vitalsOf_completeStatistics (s : State) : vitalsOf s.completeStatistics = vitalsOf s := by
  unfold State.completeStatistics
  split
  · rfl
  · dsimp only
    split <;> rfl

/-! ## The first active line (R99 to R106, R120, R121) -/

theorem consistent_captureFrame {s : State} (h : Consistent s) : Consistent s.captureFrame := by
  have read := consistent_readRange (consistent_readSettings h
    [Config.bref, Config.gainLimit, Config.clipMode, Config.blackFloor]) (wordKey 7 0) (Config.memoryWords 7)
  unfold State.captureFrame
  dsimp only
  generalize State.readRange _ _ _ = u at read ⊢
  split
  · exact read
  · exact consistent_of_vitals (s := u) rfl read

theorem consistent_readLatchLines {s : State} (h : Consistent s) : Consistent s.readLatchLines := by
  have read := consistent_readSettings h (allChains.map (fun k => Config.latchLine k.val))
  unfold State.readLatchLines
  dsimp only
  generalize s.readSettings _ = u at read ⊢
  exact consistent_of_vitals (s := u) rfl read

/-- In STANDBY no chain takes a set. -/
theorem settle_standby (s : State) (h : s.mdc.mode = .standby) (k : ChainNo) : s.settle k = .held := by
  unfold State.settle
  rw [h]

/-- In STANDBY the display levels are cleared; in the other modes they may be anything. -/
theorem consistent_setDisplay {s : State} (h : Consistent s) (took : Vector Settlement 8) :
    Consistent (s.setDisplay took) := by
  by_cases standby : s.mdc.mode = .standby
  · rw [State.setDisplay, if_pos standby]
    obtain ⟨solve, lastSet, -, displayChain, taken, chains⟩ := h.standby standby
    exact ⟨fun _ => ⟨solve, lastSet, rfl, displayChain, taken, chains⟩, logInv_of_records (s := s) rfl h.log,
      heldInv_of_records (s := s) rfl h.held⟩
  · obtain ⟨pxc, display, -⟩ := setDisplay_kept s took
    rw [display]
    exact consistent_of_lit h standby rfl

/-- A latch becomes pending outside STANDBY alone. -/
theorem consistent_permitLatches {s : State} (h : Consistent s) (took : Vector Settlement 8)
    (none_takes : s.mdc.mode = .standby → ∀ k : ChainNo, took[k] = .held) : Consistent (s.permitLatches took) := by
  have permitted (k : ChainNo) : (s.permitLatches took).chc.chains[k] =
      if took[k] = .takes then { s.chc.chains[k] with latchPending := true } else s.chc.chains[k] := by
    simp [State.permitLatches]
  refine consistent_of_chains h rfl (fun k => ?_) fun standby k dark => ?_
  · rw [permitted]
    split <;> rfl
  · rw [permitted, none_takes standby k, if_neg nofun]
    exact dark

theorem consistent_lineBegun {s : State} (h : Consistent s) : Consistent (State.lineBegun s) := by
  have none_takes (standby : s.mdc.mode = .standby) (k : ChainNo) : s.settlements[k] = .held := by
    simpa [State.settlements] using settle_standby s standby k
  unfold State.lineBegun
  dsimp only
  generalize s.settlements = took at none_takes ⊢
  obtain ⟨flags, counters, burstLate, late, -⟩ := reportLate_kept s took
  rw [late]
  have reported : Consistent { s with rpu := { s.rpu with
      flags := flags, counters := counters, burstLate := burstLate } } := consistent_of_vitals (s := s) rfl h
  have shown := consistent_setDisplay reported took
  obtain ⟨pxc, display, -⟩ := setDisplay_kept { s with rpu := { s.rpu with
    flags := flags, counters := counters, burstLate := burstLate } } took
  rw [display] at shown ⊢
  have lit : vitalsOf (State.lightFrame { s with
      pxc := pxc, rpu := { s.rpu with flags := flags, counters := counters, burstLate := burstLate } }) =
      vitalsOf { s with
        pxc := pxc, rpu := { s.rpu with flags := flags, counters := counters, burstLate := burstLate } } := by
    unfold State.lightFrame
    split
    · split <;> rfl
    · rfl
  have permitted := consistent_latchesOfLine
    (consistent_permitLatches (consistent_of_vitals lit shown) took fun standby =>
      none_takes ((congrArg Prod.fst lit).symm.trans standby)) 0
  generalize State.latchesOfLine _ 0 = u at permitted ⊢
  exact consistent_of_vitals (s := u) rfl permitted

theorem consistent_firstLine {s : State} (h : Consistent s) : Consistent s.firstLine := by
  rw [firstLine_eq]
  exact consistent_lineBegun (consistent_readLatchLines (consistent_captureFrame (consistent_latchesFallDue
    (consistent_forceTurn h))))

/-! ## The lines and the ends of an output frame -/

theorem consistent_sendLine {s : State} (h : Consistent s) (n : Nat) (pixels : List Pixel) (damaged off : Bool)
    (width : Nat) : Consistent (s.sendLine n pixels damaged off width) := by
  rw [sendLine_eq]
  refine consistent_latchesOfLine ?_ n
  exact consistent_of_vitals (s := s) rfl h

theorem consistent_flushLines (l : List Delayed) {s : State} (h : Consistent s) : Consistent (s.flushLines l) := by
  induction l generalizing s with
  | nil => exact h
  | cons e rest ih =>
    match e with
    | .start | .activeEnd => exact h
    | .line pixels damaged off width =>
      unfold State.flushLines
      split
      · exact ih (consistent_sendLine h _ _ _ _ _)
      · exact ih (consistent_sendLine (consistent_firstLine h) _ _ _ _ _)
      · exact h
      · exact h

theorem consistent_startFollowing {s : State} (h : Consistent s) : Consistent s.startFollowing := by
  have dropped : Consistent (State.linesDropped s) := consistent_of_vitals (s := s) rfl h
  cases hp : s.ftu.phase.isOver with
  | true =>
    rw [startFollowing_over s hp]
    exact consistent_of_vitals (s := s) rfl h
  | false =>
    have turned := consistent_forceTurn (consistent_latchesFallDue dropped)
    rw [startFollowing_cuts s hp]
    generalize State.forceTurn _ = u at turned ⊢
    exact consistent_of_vitals (s := u) rfl turned

theorem vitalsOf_pump (s : State) : vitalsOf s.pump = vitalsOf s := by
  rw [pump_eq]
  rfl

theorem consistent_pump {s : State} (h : Consistent s) : Consistent s.pump := consistent_of_vitals (vitalsOf_pump s) h

theorem consistent_queueReport {s : State} (h : Consistent s) : Consistent s.queueReport := by
  have read := consistent_readSetting h Config.deviceTag
  unfold State.queueReport
  dsimp only
  generalize s.readSetting _ = u at read ⊢
  rw [fillSlot_eq]
  refine consistent_pump ?_
  exact consistent_of_vitals (s := u) rfl read

theorem consistent_sendActiveEnd {s : State} (h : Consistent s) : Consistent s.sendActiveEnd := by
  have sent : Consistent (State.activeEndSent s) := consistent_of_vitals (s := s) rfl h
  have due := consistent_latchesFallDue sent
  have handed : Consistent (State.activeEndSent s).latchesFallDue.handClips := by
    generalize (State.activeEndSent s).latchesFallDue = u at due ⊢
    exact consistent_of_vitals (s := u) rfl due
  exact consistent_queueReport handed

theorem consistent_closeFrame {s : State} (h : Consistent s) : Consistent s.closeFrame := by
  unfold State.closeFrame
  split
  · exact h
  · exact consistent_sendActiveEnd (consistent_forceTurn h)

theorem consistent_outputClosed {s : State} (h : Consistent s) : Consistent (State.outputClosed s) := by
  have dropped : Consistent { s with ftu := { s.ftu with delay := [], forward := [] } } :=
    consistent_of_vitals (s := s) rfl h
  have closed := consistent_readSetting (consistent_closeFrame dropped) Config.freeRunPeriod
  unfold State.outputClosed
  dsimp only
  generalize State.readSetting _ _ = u at closed ⊢
  exact consistent_of_vitals (s := u) rfl closed

theorem consistent_stopFollowing {s : State} (h : Consistent s) : Consistent s.stopFollowing := by
  cases hf : s.ftu.state with
  | freeRun =>
    rw [stopFollowing_of_freeRun s hf]
    exact h
  | following =>
    rw [stopFollowing_eq s hf]
    exact consistent_outputClosed (consistent_flushLines _
      (consistent_of_vitals (s := s) (t := State.linesDropped s) rfl h))

theorem consistent_startFreeRun {s : State} (h : Consistent s) (scanFirst : Bool) :
    Consistent (s.startFreeRun scanFirst) := by
  have numbered : Consistent (s.numberFrame true (s.lrx.locked.getD ⟨Config.defaultWidth, Config.defaultHeight⟩)) :=
    consistent_of_vitals (s := s) rfl h
  have read := consistent_readSetting numbered Config.freeRunPeriod
  unfold State.startFreeRun
  dsimp only
  generalize State.readSetting _ _ = u at read ⊢
  refine consistent_scanAndTurn ?_ scanFirst
  exact consistent_of_vitals (s := u) rfl read

end Sys2Proof.Laws
end

