-- ==== Sys2Proof/Proofs/ConsistentSteps.lean ====
section
/-! PROOF. The input link, the commands of the host and every step keep what STANDBY means in every unit, the error
log's bounds and the over-temperature hold. -/

namespace Sys2Proof.Laws

open Sys2Proof.Machine

/-! ## The input link (R10, R11) -/

/-- A change of the input state starts and ends no solve. -/
theorem vitalsOf_changeInput (s : State) (new : InputState) : vitalsOf (s.changeInput new) = vitalsOf s := by
  have changed (lrx : Lrx) (lvs : Lvs) (solve : lvs.solve.isNone = s.lvs.solve.isNone)
      (lastSet : lvs.lastSet = s.lvs.lastSet) :
      vitalsOf (({ s with lrx := lrx, lvs := lvs } : State).raise .inputStateChanged) = vitalsOf s := by
    show (s.mdc.mode, recordsOf s, lvs.solve.isNone, lvs.lastSet, s.pxc.display, s.pxc.displayChain, s.pxc.taken) = _
    rw [solve, lastSet]
    rfl
  have was : (if s.lrx.input = .locked then s.lvs.leaveLocked else s.lvs).solve.isNone = s.lvs.solve.isNone := by
    split
    · exact Option.isNone_map
    · rfl
  have set : (if s.lrx.input = .locked then s.lvs.leaveLocked else s.lvs).lastSet = s.lvs.lastSet := by
    split
    · rfl
    · rfl
  unfold State.changeInput
  dsimp only
  split
  · rfl
  · refine changed _ _ ?_ ?_
    · rw [← was]
      split
      · rfl
      · rfl
    · rw [← set]
      split
      · rfl
      · rfl

theorem consistent_loseSignal {s : State} (h : Consistent s) : Consistent s.loseSignal := by
  have emptied : Consistent { s with lrx := { s.lrx.closeRecord.emptyRun with period := 0 } } :=
    consistent_of_vitals (s := s) rfl h
  exact consistent_stopFollowing (consistent_of_vitals (vitalsOf_changeInput _ _) emptied)

theorem consistent_linkError {s : State} (h : Consistent s) : Consistent s.linkError := by
  cases hr : s.lrx.record with
  | none =>
    rw [linkError_no_record s hr]
    exact consistent_of_vitals (s := s) rfl h
  | some r =>
    have marked : Consistent { s.countCharError with lrx := { s.lrx with record := some (FrameRec.withError r) } } :=
      consistent_of_vitals (s := s) rfl h
    have read := consistent_readSetting marked Config.losErrorLimit
    rw [linkError_record s r hr]
    dsimp only
    split
    · exact consistent_loseSignal read
    · exact read

theorem vitalsOf_handLine (s : State) (y : Nat) (pixels : List Pixel) (damaged off : Bool) (width : Nat) :
    vitalsOf (s.handLine y pixels damaged off width) = vitalsOf s := by
  unfold State.handLine
  split
  · rfl
  · dsimp only
    split
    · rfl
    · exact vitalsOf_addWaitingLines _

theorem consistent_endLine {s : State} (h : Consistent s) (pixels : List Pixel) : Consistent (s.endLine pixels) := by
  unfold State.endLine
  split
  · exact h
  · next r _ =>
    have handed (lrx : Lrx) (damaged off : Bool) (width : Nat) :
        Consistent (({ s with lrx := lrx } : State).handLine r.lines pixels damaged off width) :=
      consistent_of_vitals (s := s) (vitalsOf_handLine { s with lrx := lrx } _ _ _ _ _) h
    dsimp only
    split
    · exact consistent_linkError (handed _ _ _ _)
    · exact handed _ _ _ _

theorem consistent_endLast {s : State} (h : Consistent s) (last : Option (List Pixel)) :
    Consistent (s.endLast last) := by
  cases last with
  | none => exact h
  | some pixels => exact consistent_endLine h pixels

theorem consistent_leaveLock {s : State} (h : Consistent s) : Consistent s.leaveLock :=
  consistent_stopFollowing (consistent_of_vitals (s := s) (vitalsOf_changeInput { s with lrx := s.lrx.emptyRun } _) h)

theorem consistent_statisticsEnd {s : State} (h : Consistent s) : Consistent s.statisticsEnd := by
  unfold State.statisticsEnd
  split
  · exact h
  · refine consistent_startSolve (consistent_of_vitals (vitalsOf_completeStatistics _) ?_) _
    exact consistent_of_vitals (s := s) rfl h

theorem vitalsOf_acquire (s : State) (r : FrameRec) (good : Bool) : vitalsOf (s.acquire r good) = vitalsOf s := by
  unfold State.acquire
  dsimp only
  split
  · exact vitalsOf_changeInput _ _
  · rfl

theorem consistent_endFrame {s : State} (h : Consistent s) : Consistent s.endFrame := by
  unfold State.endFrame
  split
  · exact h
  · next r _ =>
    have read := consistent_readSettings h s.lrx.judgedBy
    dsimp only
    generalize s.readSettings _ = u at read ⊢
    have judged : Consistent { u with lrx := u.lrx.closeRecord } := consistent_of_vitals (s := u) rfl read
    split
    · exact judged
    · exact consistent_of_vitals (vitalsOf_acquire _ _ _) judged
    · split
      · exact consistent_leaveLock judged
      · exact consistent_statisticsEnd judged

theorem consistent_truncate {s : State} (h : Consistent s) : Consistent s.truncate := by
  unfold State.truncate
  split
  · exact h
  · have closed (lrx : Lrx) : Consistent { s with lrx := lrx } := consistent_of_vitals (s := s) rfl h
    dsimp only
    split
    · exact consistent_leaveLock (closed _)
    · exact closed _
    · exact closed _

theorem vitalsOf_measure (s : State) : vitalsOf s.measure = vitalsOf s := by
  unfold State.measure
  split
  · exact vitalsOf_changeInput _ _
  · rfl
  · rfl

theorem consistent_markerToFtu {s : State} (h : Consistent s) : Consistent s.markerToFtu := by
  unfold State.markerToFtu
  split
  · exact consistent_startFollowing h
  all_goals exact consistent_of_vitals (s := s) rfl h

theorem consistent_openFrame {s : State} (h : Consistent s) : Consistent s.openFrame := by
  have read := consistent_readSetting h Config.frameTimeout
  unfold State.openFrame
  dsimp only
  generalize s.readSetting _ = u at read ⊢
  exact consistent_of_vitals (s := u) rfl read

/-- The marker opens a record and hands the output frame on. -/
theorem consistent_marker {s : State} (h : Consistent s) : Consistent s.measure.openFrame.markerToFtu :=
  consistent_markerToFtu (consistent_openFrame (consistent_of_vitals (vitalsOf_measure s) h))

theorem vitalsOf_arrive (s : State) (errored : Bool) (bytes : List Byte) :
    vitalsOf (s.arrive errored bytes) = vitalsOf s := by
  have taken (u : State) : vitalsOf u.takeNext = vitalsOf u := by
    unfold vitalsOf recordsOf litOf
    simp only [State.takeNext_imn, State.takeNext_lvs, State.takeNext_mdc, State.takeNext_chc, State.takeNext_sns,
      State.takeNext_pxc]
  unfold State.arrive
  split
  · split
    · exact taken _
    · rfl
  · rfl

theorem consistent_route {s : State} (h : Consistent s) (line : Nat) (errored : Bool) (bytes : List Byte) :
    Consistent (s.route line errored bytes) := by
  have arrived : Consistent (if bytes.getD 0 0 = s.tag ∨ bytes.getD 0 0 = Config.broadcastTag then
      s.arrive errored bytes else s) := by
    split
    · exact consistent_of_vitals (vitalsOf_arrive _ _ _) h
    · exact h
  unfold State.route
  dsimp only
  generalize (if bytes.getD 0 0 = s.tag ∨ bytes.getD 0 0 = Config.broadcastTag then
    s.arrive errored bytes else s) = u at arrived ⊢
  split
  · exact arrived
  · rw [offer_eq]
    exact consistent_of_vitals (s := u) rfl arrived

theorem consistent_takePacket {s : State} (h : Consistent s) (line : Nat) (errored : Bool) (bytes : List Byte) :
    Consistent (s.takePacket line errored bytes) := by
  have read := consistent_readSetting h Config.deviceTag
  unfold State.takePacket
  dsimp only
  generalize s.readSetting _ = u at read ⊢
  split
  · split
    · split
      · exact consistent_linkError (consistent_route read _ _ _)
      · exact consistent_route read _ _ _
    · exact consistent_linkError read
  · exact consistent_linkError read

/-! ## Replies, exchanges and conversions (R30, R134, R138) -/

theorem consistent_fill {s : State} (h : Consistent s) (seq code : Byte) (r : Result) (why : Reason) (final : Bool)
    (data : List Word) : Consistent (s.fill seq code r why final data) := by
  have read := consistent_readSetting h Config.deviceTag
  unfold State.fill
  dsimp only
  generalize s.readSetting _ = u at read ⊢
  exact consistent_of_vitals (s := u) rfl read

theorem consistent_deliver {s : State} (h : Consistent s) (owner : OwingUnit) (n : Nat) (r : Result)
    (data : List Word) : Consistent (s.deliver owner n r data) := by
  unfold State.deliver
  split
  · refine consistent_fill ?_ _ _ _ _ _ _
    exact consistent_of_vitals (s := s) rfl h
  · exact h

theorem consistent_answer {s : State} (h : Consistent s) (p : Packet) (a : Answer) : Consistent (s.answer p a) := by
  unfold State.answer
  split
  · exact h
  · exact consistent_fill h _ _ _ _ _ _

theorem consistent_finish {s : State} (h : Consistent s) (p : Packet) (a : Option Answer) :
    Consistent (s.finish p a) := by
  have free : Consistent s.release := consistent_of_vitals (s := s) rfl h
  cases a with
  | none => exact consistent_pump free
  | some a => exact consistent_pump (consistent_answer free p a)

/-- A command row keeps the units consistent where its body does. -/
theorem consistent_execute {s : State} (h : Consistent s) (code : Byte) (silent : Bool) (accepts : Nat → Bool)
    (body : Packet → State → State × Option Answer) (hb : ∀ p, Consistent (body p s).1) :
    Consistent (s.execute code silent accepts body) := by
  unfold State.execute
  split
  · split
    · exact consistent_finish h _ _
    · split
      · exact consistent_finish (hb _) _ _
      · exact consistent_finish h _ _
  · exact h

theorem consistent_endExchange {s : State} (h : Consistent s) (k : ChainNo) (r : Result) (data : List Word) :
    Consistent (s.endExchange k r data) := by
  have delivered := consistent_deliver h .chains (s.chc.exchange k) r data
  unfold State.endExchange
  dsimp only
  generalize State.deliver _ _ _ _ _ = u at delivered ⊢
  have left (queue : List PassEntry) : Consistent { u with chc := { u.chc with passQueue := queue } } :=
    consistent_of_vitals (s := u) rfl delivered
  exact consistent_pump (consistent_arbitrate
    (consistent_setChain (left (u.chc.passQueue.eraseIdx (s.chc.exchange k))) k
      { u.chc.chains[k] with awaiting := none } rfl fun _ dark => dark) k)

theorem consistent_stopConverter {s : State} (h : Consistent s) : Consistent s.stopConverter := by
  have idle : Consistent { s with sns := { s.sns with converter := .idle } } := consistent_of_vitals (s := s) rfl h
  unfold State.stopConverter
  dsimp only
  split
  · exact consistent_deliver idle _ _ _ _
  · exact idle
  · exact idle

/-- A thermistor result leaves a chain that is held HOT (R143 to R145). -/
theorem consistent_handThermistor {s : State} (h : Consistent s) (k : ChainNo) (r : Nat) :
    Consistent (s.handThermistor k r) := by
  have handed (t : Thermal) (ht : s.sns.overTemp[k] = true → t = .hot) (sensorFault : Vector Bool 8) :
      Consistent { s with sns := { s.sns with thermal := s.sns.thermal.set k t, sensorFault := sensorFault } } := by
    refine ⟨h.standby, h.log, fun j => ?_⟩
    obtain ⟨same, hot⟩ := h.held j
    refine ⟨same, fun on => ?_⟩
    show (s.sns.thermal.set k t)[j] = .hot
    rw [getElem_vector_set]
    split
    · next own =>
      subst own
      exact ht on
    · exact hot on
  unfold State.handThermistor
  split
  · exact handed _ (fun _ => rfl) _
  · exact handed _ (fun on => if_pos on) _

theorem consistent_convert {s : State} (h : Consistent s) (i raw : Nat) : Consistent (s.convert i raw) := by
  have read := consistent_readSettings h (senseReads i raw)
  unfold State.convert
  dsimp only
  generalize s.readSettings _ = u at read ⊢
  have stored (results : Vector Nat 9) : Consistent { u with sns := { u.sns with results := results } } :=
    consistent_of_vitals (s := u) rfl read
  split
  · exact consistent_handThermistor (stored _) _ _
  · exact consistent_of_vitals (s := u) rfl read

/-! ## The bodies of the commands -/

/-- A check of a command's own refuses and changes nothing, or lets the rest of the body run. -/
theorem consistent_guard {s : State} {r : Result} (c : Prop) [Decidable c] {rest : State × Option Answer}
    (h : Consistent s) (hr : ¬ c → Consistent rest.1) : Consistent (if c then refusal s r else rest).1 := by
  split
  · exact h
  · next pass => exact hr pass

theorem vitalsOf_writeWords (m : Nat) (ws : List Word) (s : State) (i : Nat) :
    vitalsOf (s.writeWords m i ws) = vitalsOf s := by
  induction ws generalizing s i with
  | nil => rfl
  | cons w ws ih => exact ih _ _

theorem vitalsOf_storeEntries (t : Nat) (entries : List (List Word)) (s : State) (e : Nat) :
    vitalsOf (s.storeEntries t e entries) = vitalsOf s := by
  induction entries generalizing s e with
  | nil => rfl
  | cons ws rest ih => exact (ih _ _).trans (vitalsOf_writeWords _ _ _ _)

theorem consistent_writeTable {s : State} (h : Consistent s) (p : Packet) : Consistent (writeTable p s).1 := by
  unfold writeTable
  dsimp only
  exact consistent_guard _ h fun _ => consistent_guard _ h fun _ => consistent_guard _ h fun _ =>
    consistent_guard _ h fun _ => consistent_guard _ h fun _ => consistent_of_vitals (vitalsOf_storeEntries _ _ _ _) h

theorem consistent_readTable {s : State} (h : Consistent s) (p : Packet) : Consistent (readTable p s).1 := by
  have reads (t b start count : Nat) : Consistent (s.readEntries t b start count) := by
    unfold State.readEntries
    split
    · exact consistent_readRange h _ _
    · exact h
  unfold readTable
  dsimp only
  exact consistent_guard _ h fun _ => consistent_guard _ h fun _ => consistent_guard _ h fun _ =>
    consistent_guard _ h fun _ => reads _ _ _ _

theorem consistent_commitTables {s : State} (h : Consistent s) (p : Packet) : Consistent (commitTables p s).1 := by
  have valid := consistent_validateStaging h (BitVec.ofNat 4 (p.arg 0))
  unfold commitTables
  dsimp only
  split
  · exact h
  · generalize State.validateStaging s _ = u at valid ⊢
    split
    · exact consistent_of_vitals (s := u.1) rfl valid
    · exact valid

theorem consistent_setMode {s : State} (h : Consistent s) (p : Packet) : Consistent (setMode p s).1 := by
  unfold setMode
  split
  · exact h
  · exact consistent_guard _ h fun _ => consistent_guard _ h fun _ => consistent_of_vitals (s := s) rfl h

/-- A clear of the latches leaves a mark in the last set's zones and in those of a solve in flight. -/
theorem consistent_keepDark {s : State} (h : Consistent s) (latches : Sparse FaultLatch)
    (opens shorts : Sparse Nat) (zones : List Nat) :
    Consistent { s with
      chc := { s.chc with latches := latches, openCount := opens, shortCount := shorts }
      lvs := s.lvs.keepDark zones } := by
  refine consistent_of_vitals (s := s) ?_ h
  show (s.mdc.mode, recordsOf s, (s.lvs.keepDark zones).solve.isNone, s.lvs.lastSet, s.pxc.display,
    s.pxc.displayChain, s.pxc.taken) = _
  unfold Lvs.keepDark
  rw [Option.isNone_map]
  rfl

theorem consistent_clearFaults {s : State} (h : Consistent s) (p : Packet) : Consistent (clearFaults p s).1 := by
  have range (first last : Nat) : Consistent (clearFaultRange first last s).1 := by
    have read := consistent_readRange h (wordKey 3 (2 * first)) (2 * (last + 1 - first))
    unfold clearFaultRange
    dsimp only
    generalize s.readRange _ _ = u at read ⊢
    exact consistent_keepDark read _ _ _ _
  unfold clearFaults
  split
  · exact consistent_keepDark h _ _ _ _
  · split
    · exact range _ _
    · exact h

theorem consistent_enumerateChain {s : State} (h : Consistent s) (p : Packet) :
    Consistent (enumerateChain p s).1 := by
  unfold enumerateChain
  split
  · next inside =>
    exact consistent_guard _ h fun _ => consistent_guard _ h fun _ =>
      consistent_arbitrate (consistent_setChain h ⟨p.arg 0, inside⟩
        { s.chc.chains[(⟨p.arg 0, inside⟩ : ChainNo)] with enumWaiting := true } rfl fun _ dark => dark) _
  · exact h

theorem consistent_driverPass {s : State} (h : Consistent s) (p : Packet) : Consistent (driverPass p s).1 := by
  have queued (queue : List PassEntry) (owed : List Owed) :
      Consistent { s with chc := { s.chc with passQueue := queue }, cmd := { s.cmd with owed := owed } } :=
    consistent_of_vitals (s := s) rfl h
  unfold driverPass
  split
  · exact consistent_guard _ h fun _ => consistent_guard _ h fun _ => consistent_arbitrate (queued _ _) _
  · exact h

theorem consistent_senseStart {s : State} (h : Consistent s) (p : Packet) : Consistent (senseStart p s).1 := by
  unfold senseStart
  refine consistent_guard _ h fun _ => ?_
  split
  · exact consistent_of_vitals (s := s) rfl h
  · exact h
  · exact h

/-- An emptied log has lost nothing. -/
theorem consistent_errorLogClear {s : State} (h : Consistent s) (p : Packet) :
    Consistent (errorLogClear p s).1 := by
  exact ⟨h.standby, ⟨Nat.zero_le _, Nat.zero_le _, iff_of_false nofun fun lost => lost rfl, nofun⟩, h.held⟩

theorem consistent_injectError {s : State} (h : Consistent s) (p : Packet) : Consistent (injectError p s).1 := by
  unfold injectError
  refine consistent_guard _ h fun _ => consistent_guard _ h fun _ => ?_
  split
  · exact h
  · exact consistent_of_vitals (s := s) rfl h

/-! ## The resets (R21, R36, R37) -/

theorem consistent_powerOn (straps : BitVec 3) : Consistent (State.powerOn straps) :=
  ⟨standbyInv_powerOn straps, logInv_powerOn straps, heldInv_powerOn straps⟩

/-- SOFT_RESET keeps the error log and leaves every chain dark, none held. -/
theorem consistent_resetFor {s : State} (h : Consistent s) : Consistent (State.resetFor s) := by
  have chain (k : ChainNo) : (State.resetFor s).chc.chains[k] = s.chc.chains[k].softReset := by
    simp [State.resetFor, State.resetUnits, Chc.softReset]
  refine ⟨fun _ => ⟨rfl, rfl, rfl, rfl, fun k => ?_, fun k => ?_⟩, h.log, fun k => ?_⟩
  · simp [State.resetFor, State.resetUnits, Pxc.reset]
  · rw [chain]
    exact ⟨rfl, rfl, rfl, Nat.zero_ne_one⟩
  · rw [chain]
    simp [State.resetFor, State.resetUnits, Sns.reset, ChainRec.softReset, ChainRec.reset]

theorem consistent_softReset {s : State} (h : Consistent s) (p : Packet) : Consistent (s.softReset p) := by
  have reset := consistent_foldl State.arbitrate (fun _ k h => consistent_arbitrate h k) allChains
    (consistent_resetFor h)
  rw [softReset_shape]
  exact consistent_pump (consistent_foldl _ (fun _ _ h => consistent_fill h _ _ _ _ _ _) _
    (consistent_answer reset p _))

end Sys2Proof.Laws
end

