-- ==== Sys2Proof/Proofs/ConsistentCommands.lean ====
section
/-! PROOF. Every command of the block, and so every step, keeps what STANDBY means in every unit, the error log's bounds
and the over-temperature hold. -/

namespace Sys2Proof.Laws

open Sys2Proof.Machine

/-- The state that a command gives, if it gives one, is consistent. -/
def NextConsistent (o : Host.Outcome State Fault Refusal) : Prop := ∀ t, o = .next t → Consistent t

theorem nextConsistent {t : State} (h : Consistent t) : NextConsistent (.next t) := by
  rintro _ ⟨⟩
  exact h

theorem consistent_advance {s : State} (h : Consistent s) (dt : Nat) : Consistent (s.advance dt) :=
  consistent_of_vitals (s := s) rfl h

theorem consistent_advanceTo {s : State} (h : Consistent s) (t : Nat) : Consistent (s.advanceTo t) :=
  consistent_advance h _

/-! ## The commands of the chains -/

/-- An update burst runs outside STANDBY alone. -/
theorem mode_of_burst {s : State} (h : Consistent s) {k : ChainNo} {job : BurstJob} {devices slot : Nat}
    (burst : s.chc.chains[k].activity = .burst job devices slot) : s.mdc.mode ≠ .standby := by
  intro standby
  obtain ⟨-, -, -, -, -, chains⟩ := h.standby standby
  obtain ⟨-, -, -, code⟩ := chains k
  rw [burst] at code
  exact code rfl

theorem mode_readSettings (is : List Nat) (s : State) :
    (s.readSettings is).mdc.mode = .standby → s.mdc.mode = .standby := by
  have words (l : List Nat) (s : State) (a : Nat) :
      (l.foldl (fun s i => s.readWord (a + i)) s).mdc.mode = .standby → s.mdc.mode = .standby := by
    induction l generalizing s with
    | nil => exact id
    | cons i l ih => exact fun h => mode_readWord s _ (ih _ h)
  induction is generalizing s with
  | nil => exact id
  | cons i is ih => exact fun h => words _ s _ (ih (s.readSetting i) h)

theorem mode_goodStatus (s : State) (k : ChainNo) (zones : List BurstZone) (i : Nat) (st : Status) :
    (s.goodStatus k zones i st).mdc.mode = s.mdc.mode := by
  have held (u : State) : (u.updateHeld k).mdc = u.mdc := by
    unfold State.updateHeld
    dsimp only
    split <;> rfl
  have confirmed (u : State) (c : Nat) :
      (u.confirmChannel zones (deviceKey k i) i c).mdc.mode = u.mdc.mode :=
    congrArg Prod.fst (vitalsOf_confirmChannel u zones (deviceKey k i) i c)
  unfold State.goodStatus
  dsimp only
  rw [held, foldl_keeps (fun u : State => u.mdc.mode) _ confirmed]

/-- A readback never enters STANDBY. -/
theorem mode_readback (s : State) (k : ChainNo) (zones : List BurstZone) (i : Nat) (bytes : List Byte) :
    (s.readback k zones i bytes).mdc.mode = .standby → s.mdc.mode = .standby := by
  have read := mode_readSettings [Config.faultConfirm, Config.missLimit] s
  unfold State.readback
  dsimp only
  split
  · rw [mode_goodStatus]
    exact read
  · have missed : ((s.readSettings [Config.faultConfirm, Config.missLimit]).missedSlot k i).mdc.mode =
        (s.readSettings [Config.faultConfirm, Config.missLimit]).mdc.mode :=
      congrArg Prod.fst (vitalsOf_missedSlot _ k i)
    rw [missed]
    exact read

theorem consistent_execReadbackSlot {s : State} (h : Consistent s) (dt : Nat) (k : ChainNo) (bytes : List Byte) :
    NextConsistent (execReadbackSlot dt k bytes s) := by
  have h := consistent_advance h dt
  refine nextConsistent ?_
  dsimp only
  split
  · next job d slot burst =>
    split
    · have read := consistent_readback h k job.zones slot bytes
      have lit := mt (mode_readback (s.advance dt) k job.zones slot bytes) (mode_of_burst h burst)
      generalize State.readback _ _ _ _ _ = u at read lit ⊢
      exact consistent_setChain read k { u.chc.chains[k] with activity := .burst job d (slot + 1) } rfl
        fun standby => absurd standby lit
    · exact h
  · next d slot _ =>
    split
    · have read := consistent_readback h k [] slot bytes
      generalize State.readback _ _ _ _ _ = u at read ⊢
      exact consistent_setChain read k { u.chc.chains[k] with activity := .darkBurst d (slot + 1) } rfl
        fun _ ⟨waiting, done, pending, _⟩ => ⟨waiting, done, pending, nofun⟩
    · exact h
  all_goals exact h

theorem consistent_execBurstDone {s : State} (h : Consistent s) (dt : Nat) (k : ChainNo) :
    NextConsistent (execBurstDone dt k s) := by
  have h := consistent_advance h dt
  refine nextConsistent ?_
  dsimp only
  split
  · next job d slot burst =>
    split
    · exact consistent_freeChain (consistent_setChain h k
        { (s.advance dt).chc.chains[k] with doneTag := some job.tag } rfl
        fun standby => absurd standby (mode_of_burst h burst)) k
    · exact h
  all_goals exact h

theorem consistent_execDarkBurstDone {s : State} (h : Consistent s) (dt : Nat) (k : ChainNo) :
    NextConsistent (execDarkBurstDone dt k s) := by
  have h := consistent_advance h dt
  refine nextConsistent ?_
  split
  · split
    · exact consistent_setChain h k ((s.advance dt).chc.chains[k].sending (.latch none) latchMessage) rfl
        fun _ ⟨waiting, done, pending, _⟩ => ⟨waiting, done, pending, nofun⟩
    · exact h
  all_goals exact h

theorem consistent_execLatchSent {s : State} (h : Consistent s) (dt : Nat) (k : ChainNo) :
    NextConsistent (execLatchSent dt k s) := by
  have h := consistent_advance h dt
  refine nextConsistent ?_
  split
  · next f _ =>
    exact consistent_freeChain (consistent_setChain h k
      { (s.advance dt).chc.chains[k] with latchPending := false, lastLatch := some f } rfl
      fun _ ⟨waiting, done, _, code⟩ => ⟨waiting, done, rfl, code⟩) k
  · exact consistent_freeChain h k
  all_goals exact h

/-- A chain that goes on to a message other than an update burst stays dark. -/
theorem consistent_sending {s : State} (h : Consistent s) (k : ChainNo) (activity : Activity) (message : List Byte)
    (code : activity.code ≠ 1) : Consistent (s.setChain k (s.chc.chains[k].sending activity message)) :=
  consistent_setChain h k (s.chc.chains[k].sending activity message) rfl
    fun _ ⟨waiting, done, pending, _⟩ => ⟨waiting, done, pending, code⟩

theorem consistent_execReleaseSent {s : State} (h : Consistent s) (dt : Nat) (k : ChainNo) :
    NextConsistent (execReleaseSent dt k s) := by
  have h := consistent_advance h dt
  refine nextConsistent ?_
  split
  · exact consistent_sending h k _ _ nofun
  all_goals exact h

theorem consistent_execAssignmentSent {s : State} (h : Consistent s) (dt : Nat) (k : ChainNo) :
    NextConsistent (execAssignmentSent dt k s) := by
  have h := consistent_advance h dt
  refine nextConsistent ?_
  split
  · exact consistent_sending h k _ _ nofun
  all_goals exact h

theorem consistent_execAcknowledgement {s : State} (h : Consistent s) (dt : Nat) (k : ChainNo) (bytes : List Byte) :
    NextConsistent (execAcknowledgement dt k bytes s) := by
  have h := consistent_advance h dt
  refine nextConsistent ?_
  split
  · split
    · exact h
    · split
      · split
        · exact consistent_endSweep h _ _ _
        · exact consistent_sending h k _ _ nofun
      · exact consistent_endSweep h _ _ _
  all_goals exact h

theorem consistent_execEnumAckTimeout {s : State} (h : Consistent s) (dt : Nat) (k : ChainNo) :
    NextConsistent (execEnumAckTimeout dt k s) := by
  have h := consistent_advance h dt
  refine nextConsistent ?_
  split
  · exact consistent_endSweep (consistent_advanceTo h _) _ _ _
  all_goals exact h

theorem consistent_execPassRequestSent {s : State} (h : Consistent s) (dt : Nat) (k : ChainNo) :
    NextConsistent (execPassRequestSent dt k s) := by
  have h := consistent_advance h dt
  refine nextConsistent ?_
  split
  · exact consistent_freeChain (consistent_setChain h k
      { (s.advance dt).chc.chains[k] with awaiting := some (s.advance dt).clock.now } rfl fun _ dark => dark) k
  all_goals exact h

theorem consistent_execPassAnswer {s : State} (h : Consistent s) (dt : Nat) (k : ChainNo) (bytes : List Byte) :
    NextConsistent (execPassAnswer dt k bytes s) := by
  have h := consistent_advance h dt
  refine nextConsistent ?_
  split
  · split
    · split
      · exact consistent_endExchange h _ _ _
      · exact h
    · exact h
  · exact h

theorem consistent_execPassTimeout {s : State} (h : Consistent s) (dt : Nat) (k : ChainNo) :
    NextConsistent (execPassTimeout dt k s) := by
  have h := consistent_advance h dt
  refine nextConsistent ?_
  split
  · exact consistent_endExchange (consistent_advanceTo h _) _ _ _
  · exact h

theorem consistent_execConversionEnd {s : State} (h : Consistent s) (dt : Nat) (raw : BitVec 10) :
    NextConsistent (execConversionEnd dt raw s) := by
  have h := consistent_advance h dt
  refine nextConsistent ?_
  dsimp only
  split
  · exact h
  · next i since _ =>
    have stored := consistent_convert (consistent_advanceTo h (since + Config.conversionTime)) i raw.toNat
    generalize State.convert _ _ _ = u at stored ⊢
    exact consistent_of_vitals (s := u) rfl stored
  · next i since _ =>
    have stored := consistent_convert (consistent_advanceTo h (since + Config.conversionTime)) i raw.toNat
    generalize State.convert _ _ _ = u at stored ⊢
    refine consistent_pump (consistent_deliver ?_ _ _ _ _)
    exact consistent_of_vitals (s := u) rfl stored

/-! ## The commands of the link and of the output frame -/

theorem consistent_execSidePacket {s : State} (h : Consistent s) (dt line : Nat) (bytes : List Byte) :
    NextConsistent (execSidePacket dt line bytes s) := by
  have h := consistent_advance h dt
  have blanking : Consistent (State.atBlanking s dt) := consistent_of_vitals (s := s.advance dt) rfl h
  have taken (isActive lost errored : Bool) :
      Consistent (if isActive then (s.advance dt).endLine [] else if lost then State.atBlanking s dt
        else (State.atBlanking s dt).takePacket line errored bytes) := by
    split
    · exact consistent_endLine h []
    · split
      · exact blanking
      · exact consistent_takePacket blanking line errored bytes
  refine nextConsistent ?_
  dsimp only
  split
  · exact h
  · exact h
  · exact taken _ _ _
  · exact taken _ _ _

theorem consistent_execFrameTimeout {s : State} (h : Consistent s) (dt : Nat) :
    NextConsistent (execFrameTimeout dt s) := by
  have h := consistent_advance h dt
  refine nextConsistent ?_
  split
  · exact h
  · exact consistent_loseSignal (consistent_advanceTo h _)
  · exact consistent_loseSignal (consistent_advanceTo h _)

theorem consistent_execOutputFrameStart {s : State} (h : Consistent s) (dt : Nat) (scanFirst : Bool) :
    NextConsistent (execOutputFrameStart dt scanFirst s) := by
  have h := consistent_advance h dt
  refine nextConsistent ?_
  split
  · split
    · refine consistent_scanAndTurn ?_ scanFirst
      exact consistent_of_vitals (s := s.advance dt) rfl h
    · exact consistent_startFreeRun (consistent_advanceTo h _) scanFirst
    · exact h
  · exact h

theorem consistent_execOutputBlankingLine {s : State} (h : Consistent s) (dt line : Nat) :
    NextConsistent (execOutputBlankingLine dt line s) := by
  refine nextConsistent (consistent_of_vitals (s := s) ?_ h)
  dsimp only
  split
  all_goals rfl

theorem consistent_execFirstActiveLine {s : State} (h : Consistent s) (dt : Nat) :
    NextConsistent (execFirstActiveLine dt s) := by
  have h := consistent_advance h dt
  refine nextConsistent ?_
  split
  · exact consistent_firstLine h
  · exact consistent_firstLine (consistent_advanceTo h _)
  · exact h

theorem consistent_execOutputLineBegin {s : State} (h : Consistent s) (dt : Nat) :
    NextConsistent (execOutputLineBegin dt s) := by
  have h := consistent_advance h dt
  refine nextConsistent ?_
  split
  · refine consistent_sendLine ?_ _ _ _ _ _
    exact consistent_of_vitals (s := s.advance dt) rfl h
  · split
    · refine consistent_latchesOfLine ?_ _
      exact consistent_of_vitals (s := s.advance dt) rfl h
    · exact h
  · exact h

theorem consistent_execOutputActiveEnd {s : State} (h : Consistent s) (dt : Nat) :
    NextConsistent (execOutputActiveEnd dt s) := by
  have h := consistent_advance h dt
  refine nextConsistent ?_
  dsimp only
  split
  · refine consistent_sendActiveEnd ?_
    exact consistent_of_vitals (s := s.advance dt) rfl h
  · exact consistent_startSolve (consistent_sendActiveEnd (consistent_advanceTo h _)) _
  · exact h

theorem consistent_execSolveComplete {s : State} (h : Consistent s) (dt : Nat) :
    NextConsistent (execSolveComplete dt s) := by
  have h := consistent_advance h dt
  refine nextConsistent ?_
  dsimp only
  split
  · next v solving =>
    have lit : (s.advance dt).mdc.mode ≠ .standby := mode_of_solving h solving
    have solved (set : LevelSet) := consistent_finishSolve (v := v) (consistent_advanceTo h v.dueAt) lit set
    split
    · refine consistent_frameTurn (solved _) ?_
      obtain ⟨-, -, idle⟩ := finishSolve_kept ((s.advance dt).advanceTo v.dueAt) v
      rw [State.handOff_lvs]
      exact idle
    · exact solved _
  · exact h

theorem consistent_execTransmissionEnd {s : State} (h : Consistent s) (dt : Nat) :
    NextConsistent (execTransmissionEnd dt s) := by
  have h := consistent_advance h dt
  refine nextConsistent ?_
  dsimp only
  split
  · refine consistent_pump ?_
    exact consistent_of_vitals (s := s.advance dt) rfl h
  · exact h

theorem consistent_execSoftReset {s : State} (h : Consistent s) (dt : Nat) : NextConsistent (execSoftReset dt s) := by
  have h := consistent_advance h dt
  refine nextConsistent ?_
  split
  · split
    · exact consistent_softReset h _
    · exact consistent_finish h _ _
  · exact h

theorem consistent_execBadCommand {s : State} (h : Consistent s) (dt : Nat) :
    NextConsistent (execBadCommand dt s) := by
  have h := consistent_advance h dt
  refine nextConsistent ?_
  split
  · split
    · exact h
    · exact consistent_finish h _ _
  · exact h

/-- Every command keeps the units consistent. -/
theorem consistent_exec {s : State} (h : Consistent s) (i : Instr) : NextConsistent (exec i s) := by
  have row (dt : Nat) (code : Byte) (silent : Bool) (accepts : Nat → Bool)
      (body : Packet → State → State × Option Answer) (hb : ∀ p, Consistent (body p (s.advance dt)).1) :
      NextConsistent (.next ((s.advance dt).execute code silent accepts body)) :=
    nextConsistent (consistent_execute (consistent_advance h dt) code silent accepts body hb)
  have later (dt : Nat) : Consistent (s.advance dt) := consistent_advance h dt
  have same {u : State} (hu : vitalsOf u = vitalsOf s) : Consistent u := consistent_of_vitals hu h
  have restarted (u : State) (hu : Consistent u) :
      Consistent { u with pending := s.pending, draws := s.draws } := consistent_of_vitals (s := u) rfl hu
  cases i with
  | powerOn straps => exact nextConsistent (restarted _ (consistent_powerOn straps))
  | resetn straps => exact nextConsistent (restarted _ (consistent_powerOn straps))
  | frameStartMarker dt last =>
    exact nextConsistent (consistent_marker (consistent_truncate (consistent_endLast (later dt) last)))
  | activeLine dt pixels => exact nextConsistent (consistent_endLine (later dt) pixels)
  | sidePacket dt line bytes => exact consistent_execSidePacket h dt line bytes
  | inputActiveEnd dt last => exact nextConsistent (consistent_endFrame (consistent_endLast (later dt) last))
  | characterError dt place =>
    have marked : Consistent { s.advance dt with lrx := s.lrx.markError place } := same rfl
    exact nextConsistent (consistent_linkError marked)
  | elasticBufferSlip dt place => exact nextConsistent (same rfl)
  | frameTimeout dt => exact consistent_execFrameTimeout h dt
  | outputFrameStart dt scanFirst => exact consistent_execOutputFrameStart h dt scanFirst
  | outputBlankingLine dt line => exact consistent_execOutputBlankingLine h dt line
  | firstActiveLine dt => exact consistent_execFirstActiveLine h dt
  | outputLineBegin dt => exact consistent_execOutputLineBegin h dt
  | outputActiveEnd dt => exact consistent_execOutputActiveEnd h dt
  | solveComplete dt => exact consistent_execSolveComplete h dt
  | burstDone dt k => exact consistent_execBurstDone h dt k
  | darkBurstDone dt k => exact consistent_execDarkBurstDone h dt k
  | readbackSlot dt k bytes => exact consistent_execReadbackSlot h dt k bytes
  | latchSent dt k => exact consistent_execLatchSent h dt k
  | releaseSent dt k => exact consistent_execReleaseSent h dt k
  | assignmentSent dt k => exact consistent_execAssignmentSent h dt k
  | acknowledgement dt k bytes => exact consistent_execAcknowledgement h dt k bytes
  | enumAckTimeout dt k => exact consistent_execEnumAckTimeout h dt k
  | passRequestSent dt k => exact consistent_execPassRequestSent h dt k
  | passAnswer dt k bytes => exact consistent_execPassAnswer h dt k bytes
  | passTimeout dt k => exact consistent_execPassTimeout h dt k
  | conversionEnd dt raw => exact consistent_execConversionEnd h dt raw
  | transmissionEnd dt => exact consistent_execTransmissionEnd h dt
  | identify dt => exact row dt _ _ _ _ fun _ => consistent_readSetting (later dt) _
  | writeTable dt => exact row dt _ _ _ _ fun p => consistent_writeTable (later dt) p
  | readTable dt => exact row dt _ _ _ _ fun p => consistent_readTable (later dt) p
  | commit dt => exact row dt _ _ _ _ fun p => consistent_commitTables (later dt) p
  | cancelCommit dt => exact row dt _ _ _ _ fun _ => same rfl
  | setMode dt => exact row dt _ _ _ _ fun p => consistent_setMode (later dt) p
  | readStatus dt => exact row dt _ _ _ _ fun _ => same rfl
  | clearCounters dt => exact row dt _ _ _ _ fun _ => same rfl
  | clearFaults dt => exact row dt _ _ _ _ fun p => consistent_clearFaults (later dt) p
  | enumerateChain dt => exact row dt _ _ _ _ fun p => consistent_enumerateChain (later dt) p
  | driverPass dt => exact row dt _ _ _ _ fun p => consistent_driverPass (later dt) p
  | senseStart dt => exact row dt _ _ _ _ fun p => consistent_senseStart (later dt) p
  | senseAbort dt => exact row dt _ _ _ _ fun _ => consistent_stopConverter (later dt)
  | errorLogClear dt => exact row dt _ _ _ _ fun p => consistent_errorLogClear (later dt) p
  | injectError dt => exact row dt _ _ _ _ fun p => consistent_injectError (later dt) p
  | timeSet dt => exact row dt _ _ _ _ fun _ => same rfl
  | timeAdjust dt => exact row dt _ _ _ _ fun _ => same rfl
  | softReset dt => exact consistent_execSoftReset h dt
  | badCommand dt => exact consistent_execBadCommand h dt

/-- Settles O59: a step is a command that waited, or a microsecond of time. -/
theorem stepKeepsUnitsConsistent : Obligations.StepKeepsUnitsConsistent := by
  intro s t standby log held ht
  have consistent : Consistent s := ⟨standby, log, held⟩
  suffices after : Consistent t from ⟨after.standby, after.log, after.held⟩
  unfold step at ht
  split at ht
  · next c rest _ =>
    have waiting : Consistent { s with pending := rest } := consistent_of_vitals (s := s) rfl consistent
    exact consistent_exec waiting c t ht
  · exact nextConsistent (t := s.advance 1) (consistent_advance consistent 1) t ht

end Sys2Proof.Laws
end

