-- ==== Sys2Proof/Proofs/SolverStages.lean ====
section
/-! PROOF. The stages of a solve for one zone and over the grid (R80, R82 to R96). -/

namespace Sys2Proof.Laws

open Sys2Proof.Machine

/-! ## The target (R82 to R84) -/

/-- The rounded step from 0 toward `d`, `f` of 128 parts of the way, stays between 0 and `d`. -/
theorem interpolated_between (d f : Int) (nonneg : 0 ≤ f) (below : f < 128) :
    min 0 d ≤ (d * f + 64) / 128 ∧ (d * f + 64) / 128 ≤ max 0 d := by
  rcases le_total 0 d with up | down
  · have lower : 0 ≤ d * f := Int.mul_nonneg up nonneg
    have upper : d * f ≤ d * 127 := Int.mul_le_mul_of_nonneg_left (by omega) up
    rcases up.eq_or_lt with rfl | pos
    · omega
    · omega
  · have lower : d * 127 ≤ d * f := Int.mul_le_mul_of_nonpos_left down (by omega)
    have upper : d * f ≤ 0 := Int.mul_nonpos_of_nonpos_of_nonneg down nonneg
    omega

/-- The tone curve between two neighbouring points is floor division, and stays between the two. -/
theorem tone_between (point : Nat → Nat) (s : Nat) :
    (tone point s : Int) = point (s / 128) +
        (((point (s / 128 + 1) : Int) - point (s / 128)) * (s % 128 : Nat) + 64) / 128 ∧
      min (point (s / 128)) (point (s / 128 + 1)) ≤ tone point s ∧
      tone point s ≤ max (point (s / 128)) (point (s / 128 + 1)) := by
  have between := interpolated_between ((point (s / 128 + 1) : Int) - point (s / 128)) (s % 128 : Nat) (by omega)
    (by omega)
  unfold tone
  dsimp only
  rw [Int.fdiv_eq_ediv_of_nonneg _ (by omega)]
  generalize (_ * ((s % 128 : Nat) : Int) + 64) / 128 = d at between ⊢
  omega

theorem target_safe (v : Solve) (z : Nat) (h : v.source = .safe) : v.target z = v.setting Config.safeLevel := by
  rw [Solve.target, h]

theorem target_bypass (v : Solve) (z : Nat) (h : v.source = .bypass) :
    v.target z = v.setting Config.bypassLevel := by
  rw [Solve.target, h]

/-- A statistics source clamps the peak, blends it with the mean and looks the result up on the tone curve. -/
theorem target_statistics (v : Solve) (z : Nat) (h : v.source = .statistics) :
    v.target z = tone v.tables.tonePoint (blend (v.setting Config.blendWeight)
      (speckleClamp (v.setting Config.brightThreshold) (v.setting Config.speckleLimit) (statAt v.stats z).peak
        (statAt v.stats z).mean (statAt v.stats z).bright) (statAt v.stats z).mean) := by
  rw [Solve.target, h]

/-! ## The filter (R85 to R88) -/

theorem newF_of_jump (v : Solve) (z : Nat)
    (h : v.sceneCut = true ∨ v.lockJump = true ∨ sparseGet (fun _ => false) v.reseed z = true) :
    v.newF z = 16 * v.target z := by
  unfold Solve.newF
  exact if_pos (by simpa [or_assoc] using h)

theorem newF_of_no_jump (v : Solve) (z : Nat)
    (h : ¬ (v.sceneCut = true ∨ v.lockJump = true ∨ sparseGet (fun _ => false) v.reseed z = true)) :
    v.newF z = filterStep (v.setting Config.riseRate) (v.setting Config.fallRate)
      (sparseGet (fun _ => 0) v.prevF z) (16 * v.target z) := by
  unfold Solve.newF
  exact if_neg (by simpa [or_assoc] using h)

theorem filterStep_rising (rise fall f goal : Nat) (h : f < goal) :
    filterStep rise fall f goal = f + max 1 ((goal - f) * rise / 256) := if_pos h

theorem filterStep_falling (rise fall f goal : Nat) (h : goal < f) :
    filterStep rise fall f goal = f - max 1 ((f - goal) * fall / 256) := by
  unfold filterStep
  rw [if_neg (by omega), if_pos h]

theorem filterStep_there (rise fall f : Nat) : filterStep rise fall f f = f := by
  unfold filterStep
  rw [if_neg (by omega), if_neg (by omega)]

/-- A rate of at most 256 moves by no more than the whole way. -/
theorem rate_le (way rate : Nat) (h : rate ≤ 256) : way * rate / 256 ≤ way := by
  refine Nat.div_le_of_le_mul ?_
  rw [Nat.mul_comm 256]
  exact Nat.mul_le_mul_left way h

theorem filterStep_between (rise fall f goal : Nat) (hr : rise ≤ 256) (hf : fall ≤ 256) :
    min f goal ≤ filterStep rise fall f goal ∧ filterStep rise fall f goal ≤ max f goal := by
  rcases lt_trichotomy f goal with up | rfl | down
  · have := rate_le (goal - f) rise hr
    rw [filterStep_rising rise fall f goal up]
    omega
  · rw [filterStep_there]
    omega
  · have := rate_le (f - goal) fall hf
    rw [filterStep_falling rise fall f goal down]
    omega

/-- Settles O30, by the source of the target and by the side from which the filter comes. -/
theorem targetAndFilterOfAZone : Obligations.TargetAndFilterOfAZone := by
  intro v z
  refine ⟨target_safe v z, target_bypass v z, fun statistics => ?_, newF_of_jump v z, fun still up => ?_,
    fun still down => ?_, fun still there => ?_, fun rise fall => ?_⟩
  · rw [target_statistics v z statistics]
    exact tone_between v.tables.tonePoint _
  · rw [newF_of_no_jump v z still, filterStep_rising _ _ _ _ up]
  · rw [newF_of_no_jump v z still, filterStep_falling _ _ _ _ down]
  · rw [newF_of_no_jump v z still, there, filterStep_there]
  · by_cases jump : v.sceneCut = true ∨ v.lockJump = true ∨ sparseGet (fun _ => false) v.reseed z = true
    · rw [newF_of_jump v z jump]
      omega
    · rw [newF_of_no_jump v z jump]
      exact filterStep_between _ _ _ _ rise fall

/-! ## The halo guard (R89, R90) -/

/-- The guard is the greatest of a level and of its neighbours' levels less the step. -/
theorem haloGuard_greatest (step l : Nat) (neighbours : List Nat) :
    l ≤ haloGuard step l neighbours ∧ (∀ n ∈ neighbours, n - step ≤ haloGuard step l neighbours) ∧
      (haloGuard step l neighbours = l ∨ ∃ n ∈ neighbours, haloGuard step l neighbours = n - step) := by
  unfold haloGuard
  induction neighbours generalizing l with
  | nil => exact ⟨Nat.le_refl l, nofun, .inl rfl⟩
  | cons n ns ih =>
    obtain ⟨above, each, met⟩ := ih (max l (n - step))
    rw [List.foldl_cons]
    refine ⟨(Nat.le_max_left _ _).trans above, fun m hm => ?_, ?_⟩
    · rcases List.mem_cons.1 hm with rfl | later
      · exact (Nat.le_max_right _ _).trans above
      · exact each m later
    · rcases met with own | ⟨m, later, equal⟩
      · rcases max_choice l (n - step) with left | right
        · exact .inl (own.trans left)
        · exact .inr ⟨n, List.mem_cons_self, own.trans right⟩
      · exact .inr ⟨m, List.mem_cons_of_mem n later, equal⟩

/-- The offsets of a neighbour, each raised by one: all of a three by three square but its middle. -/
theorem mem_offsets (i j : Nat) :
    (i, j) ∈ [(0, 0), (1, 0), (2, 0), (0, 1), (2, 1), (0, 2), (1, 2), (2, 2)] ↔
      i ≤ 2 ∧ j ≤ 2 ∧ ¬ (i = 1 ∧ j = 1) := by
  simp only [List.mem_cons, List.not_mem_nil, Prod.mk.injEq, or_false]
  constructor
  · omega
  · intro h
    omega

/-- A zone by its row and its column. -/
theorem zone_iff (columns n r c : Nat) (hc : c < columns) : r * columns + c = n ↔ n / columns = r ∧ n % columns = c := by
  constructor
  · rintro rfl
    rw [Nat.mul_comm, Nat.mul_add_div (Nat.zero_lt_of_lt hc), Nat.mul_add_mod, Nat.div_eq_of_lt hc,
      Nat.mod_eq_of_lt hc]
    exact ⟨rfl, rfl⟩
  · rintro ⟨rfl, rfl⟩
    exact Nat.div_add_mod' n columns

/-- The neighbours of a zone are the other zones of the grid whose column and whose row are at most one away. -/
theorem mem_neighbours (columns rows z n : Nat) (inside : n < columns * rows) :
    n ∈ neighbours columns rows z ↔ n ≠ z ∧ n / columns ≤ z / columns + 1 ∧ z / columns ≤ n / columns + 1 ∧
      n % columns ≤ z % columns + 1 ∧ z % columns ≤ n % columns + 1 := by
  have pos : 0 < columns := Nat.pos_of_mul_pos_right (Nat.zero_lt_of_lt inside)
  have row : n / columns < rows := Nat.div_lt_of_lt_mul inside
  have column : n % columns < columns := Nat.mod_lt n pos
  have own : n = z ↔ n / columns = z / columns ∧ n % columns = z % columns := by
    rw [← zone_iff columns n _ _ (Nat.mod_lt z pos), Nat.div_add_mod', eq_comm]
  have place (r c : Nat) (hc : c < columns) := zone_iff columns n r c hc
  unfold neighbours
  dsimp only
  rw [List.mem_filterMap, ne_eq, own]
  generalize n / columns = nr at *
  generalize n % columns = nc at *
  generalize z / columns = zr at *
  generalize z % columns = zc at *
  constructor
  · rintro ⟨⟨i, j⟩, offset, found⟩
    rw [mem_offsets] at offset
    dsimp only at found
    split at found
    · next fits =>
      rw [Option.some.injEq, place _ _ fits.2.1] at found
      omega
    · cases found
  · intro near
    have fits : 1 ≤ zc + (nc + 1 - zc) ∧ zc + (nc + 1 - zc) - 1 < columns ∧ 1 ≤ zr + (nr + 1 - zr) ∧
        zr + (nr + 1 - zr) - 1 < rows := by omega
    refine ⟨(nc + 1 - zc, nr + 1 - zr), (mem_offsets _ _).2 (by omega), ?_⟩
    dsimp only
    rw [if_pos fits, Option.some.injEq, place _ _ fits.2.1]
    omega

/-- A processed zone lies in the captured grid and is mapped to a chain (R81). -/
theorem processes_iff (v : Solve) (z : Nat) :
    v.processes z = true ↔ z < v.zones ∧ (v.entry z).channel.isSome = true := by
  simp [Solve.processes]

/-- What the halo guard and the minimum make of a zone, its processed neighbours being `near`. -/
theorem guarded_greatest (v : Solve) (z : Nat) (near : Nat → Prop)
    (hnear : ∀ n, n ∈ (neighbours (v.setting Config.gridColumns) (v.setting Config.gridRows) z).filter v.processes ↔
      near n) :
    v.output z ≤ v.guarded z ∧ v.setting Config.minLevel ≤ v.guarded z ∧
      (∀ n, near n → v.output n - v.setting Config.haloStep ≤ v.guarded z) ∧
      (v.guarded z = v.output z ∨ v.guarded z = v.setting Config.minLevel ∨
        ∃ n, near n ∧ v.guarded z = v.output n - v.setting Config.haloStep) := by
  obtain ⟨above, each, met⟩ := haloGuard_greatest (v.setting Config.haloStep) (v.output z)
    (((neighbours (v.setting Config.gridColumns) (v.setting Config.gridRows) z).filter v.processes).map v.output)
  unfold Solve.guarded
  generalize haloGuard _ _ _ = guard at above each met ⊢
  refine ⟨above.trans (Nat.le_max_left _ _), Nat.le_max_right _ _, fun n hn => ?_, ?_⟩
  · exact (each _ (List.mem_map_of_mem ((hnear n).2 hn))).trans (Nat.le_max_left _ _)
  · rcases max_choice guard (v.setting Config.minLevel) with left | right
    · rw [left]
      rcases met with own | ⟨m, hm, equal⟩
      · exact .inl own
      · obtain ⟨n, hn, rfl⟩ := List.mem_map.1 hm
        exact .inr (.inr ⟨n, (hnear n).1 hn, equal⟩)
    · exact .inr (.inl right)

/-! ## Derating, scale and duty (R91 to R96) -/

theorem derated_latched (v : Solve) (z : Nat) (h : sparseGet (fun _ => FaultLatch.clear) v.latches z ≠ .clear) :
    v.derated z = 0 := if_pos h

/-- Without a captured latch a zone is derated by the captured state of its chain. -/
theorem derated_clear (v : Solve) (z : Nat) (c : Channel) (k : ChainNo)
    (h : sparseGet (fun _ => FaultLatch.clear) v.latches z = .clear) (mapped : (v.entry z).channel = some c)
    (hk : c.chain = k.val) :
    v.derated z = v.guarded z *
      deratingFactor (v.setting Config.warmFactor) (v.setting Config.hotFactor) v.thermal[k] / 256 := by
  have state : v.thermalOf k.val = v.thermal[k] := by simp [Solve.thermalOf]
  unfold Solve.derated
  rw [if_neg (not_not.2 h), mapped]
  dsimp only [Option.map_some, Option.getD_some]
  rw [hk, state]

theorem scale_eq (v : Solve) :
    v.scale = if v.demand ≤ v.budget then 4096 else v.budget * 4096 / v.demand := rfl

/-- The level set holds every zone as the solve leaves it; the zones outside the grid are skipped. -/
theorem levelSet_zone (v : Solve) (now : Chc) (z : Nat) :
    (v.levelSet now).zone z = v.zoneLevel now v.scale z := by
  unfold LevelSet.zone Solve.levelSet
  dsimp only
  rw [sparseGet_tabulate, Nat.zero_add, Nat.sub_zero]
  split
  · rfl
  · next outside =>
    have skipped : v.processes z = false := by
      rw [← Bool.not_eq_true, processes_iff]
      exact fun h => outside ⟨Nat.zero_le z, h.1⟩
    rw [Solve.zoneLevel, skipped]
    rfl

theorem levelSet_processed (v : Solve) (now : Chc) (z : Nat) (h : v.processes z = true) :
    (v.levelSet now).zone z = ⟨v.level now v.scale z, dutyOf (v.level now v.scale z) (v.entry z).calibration,
      (v.entry z).channel⟩ := by
  rw [levelSet_zone, Solve.zoneLevel, if_pos h]

theorem levelSet_skipped (v : Solve) (now : Chc) (z : Nat) (h : v.processes z = false) :
    (v.levelSet now).zone z = ⟨0, 0, none⟩ := by
  rw [levelSet_zone, Solve.zoneLevel, h]
  rfl

/-- A zone that a latch has reached, at capture or since, is not lit. -/
theorem level_dark (v : Solve) (now : Chc) (z : Nat)
    (h : (now.latch z ≠ .clear ∨ sparseGet (fun _ => false) v.unlit z = true) ∨
      sparseGet (fun _ => FaultLatch.clear) v.latches z ≠ .clear) : v.level now v.scale z = 0 := by
  by_cases captured : sparseGet (fun _ => FaultLatch.clear) v.latches z = .clear
  · exact level_of_lateFault v now _ z ((lateFault_iff v now z).2
      ⟨h.resolve_right (not_not.2 captured), captured⟩)
  · unfold Solve.level
    rw [derated_latched v z captured]
    simp

theorem level_lit (v : Solve) (now : Chc) (z : Nat)
    (h : ¬ (now.latch z ≠ .clear ∨ sparseGet (fun _ => false) v.unlit z = true)) :
    v.level now v.scale z = v.derated z * v.scale / 4096 :=
  level_of_no_lateFault v now _ z (Bool.not_eq_true _ ▸ fun late => h ((lateFault_iff v now z).1 late).1)

/-- Settles O31, stage by stage. -/
theorem levelStagesOfAZone : Obligations.LevelStagesOfAZone := by
  intro v now z e c k processed entry mapped chain l columns near l3 level caught
  subst entry
  have near_iff (n : Nat) :
      n ∈ (neighbours (v.setting Config.gridColumns) (v.setting Config.gridRows) z).filter v.processes ↔ near n := by
    rw [List.mem_filter]
    constructor
    · rintro ⟨place, hn⟩
      obtain ⟨apart, up, down, right, left⟩ := (mem_neighbours _ _ z n ((processes_iff v n).1 hn).1).1 place
      exact ⟨apart, up, down, right, left, hn⟩
    · rintro ⟨apart, up, down, right, left, hn⟩
      exact ⟨(mem_neighbours _ _ z n ((processes_iff v n).1 hn).1).2 ⟨apart, up, down, right, left⟩, hn⟩
  have zone := levelSet_processed v now z processed
  have is_level : level = v.level now v.scale z := congrArg ZoneLevel.level zone
  have is_duty : ((v.levelSet now).zone z).duty = dutyOf level (v.entry z).calibration := by
    rw [is_level, zone]
  refine ⟨guarded_greatest v z near near_iff, derated_latched v z, fun clear => ?_, scale_eq v, fun dark => ?_,
    fun lit => is_level.trans (level_lit v now z lit), is_duty, (congrArg ZoneLevel.channel zone).trans mapped⟩
  · rw [derated_clear v z c k clear mapped chain]
    cases v.thermal[k] <;> rfl
  · have zero : level = 0 := is_level.trans (level_dark v now z dark)
    refine ⟨zero, ?_⟩
    rw [is_duty, zero]
    simp [dutyOf]

/-! ## The budget (R93, R94) -/

/-- A sum over the elements that pass a test is the sum of what the others leave out. -/
theorem sum_filter_map (p : Nat → Bool) (f : Nat → Nat) (l : List Nat) :
    ((l.filter p).map f).sum = (l.map (fun z => if p z then f z else 0)).sum := by
  induction l with
  | nil => rfl
  | cons z l ih =>
    cases hz : p z with
    | true => simp [hz, ih]
    | false => simp [hz, ih]

theorem demand_eq (v : Solve) :
    v.demand = ((List.range v.zones).map (fun z =>
      if v.processes z then v.derated z * (v.entry z).weight else 0)).sum :=
  sum_filter_map v.processes (fun z => v.derated z * (v.entry z).weight) (List.range v.zones)

theorem scale_in_budget (v : Solve) (h : v.demand ≤ v.budget) : v.scale = 4096 := if_pos h

theorem scale_cut (v : Solve) (h : v.budget < v.demand) :
    v.scale = v.budget * 4096 / v.demand ∧ v.scale ≤ 4095 := by
  have cut : v.scale = v.budget * 4096 / v.demand := if_neg (not_le.2 h)
  have below : v.budget * 4096 / v.demand < 4096 := by
    rw [Nat.div_lt_iff_lt_mul (Nat.zero_lt_of_lt h), Nat.mul_comm 4096]
    exact Nat.mul_lt_mul_of_pos_right h (by omega)
  exact ⟨cut, by omega⟩

/-- The demand scaled is within the budget. -/
theorem scaled_demand_le (v : Solve) : v.demand * v.scale ≤ v.budget * 4096 := by
  rcases Nat.lt_or_ge v.budget v.demand with over_budget | within
  · rw [(scale_cut v over_budget).1]
    exact Nat.mul_div_le _ _
  · rw [scale_in_budget v within]
    exact Nat.mul_le_mul_right _ within

/-- A zone's level times its weight, in 4096ths, is at most what it demands, scaled. -/
theorem level_le_scaled (v : Solve) (now : Chc) (z : Nat) :
    4096 * (((v.levelSet now).zone z).level * (v.entry z).weight) ≤
      (if v.processes z then v.derated z * (v.entry z).weight else 0) * v.scale := by
  cases processed : v.processes z with
  | false =>
    rw [levelSet_skipped v now z processed]
    simp
  | true =>
    rw [levelSet_processed v now z processed, if_pos rfl]
    have level : 4096 * v.level now v.scale z ≤ v.derated z * v.scale := by
      unfold Solve.level
      split
      · exact Nat.zero_le _
      · exact Nat.mul_div_le _ _
    calc 4096 * (v.level now v.scale z * (v.entry z).weight)
        = 4096 * v.level now v.scale z * (v.entry z).weight := (Nat.mul_assoc _ _ _).symm
      _ ≤ v.derated z * v.scale * (v.entry z).weight := Nat.mul_le_mul_right _ level
      _ = v.derated z * (v.entry z).weight * v.scale := Nat.mul_right_comm _ _ _

theorem sum_map_le_mul (a b : Nat → Nat) (m k : Nat) (h : ∀ z, m * a z ≤ b z * k) (l : List Nat) :
    m * (l.map a).sum ≤ (l.map b).sum * k := by
  induction l with
  | nil => simp
  | cons z l ih =>
    rw [List.map_cons, List.map_cons, List.sum_cons, List.sum_cons, Nat.mul_add, Nat.add_mul]
    exact Nat.add_le_add (h z) ih

/-- The levels of a set, weighted, stay within the effective budget. -/
theorem levels_le_budget (v : Solve) (now : Chc) :
    ((List.range v.zones).map (fun z => ((v.levelSet now).zone z).level * (v.entry z).weight)).sum ≤ v.budget := by
  have scaled := sum_map_le_mul _ _ 4096 v.scale (level_le_scaled v now) (List.range v.zones)
  rw [← demand_eq v] at scaled
  have within := scaled.trans (scaled_demand_le v)
  omega

/-- Settles O32, from the bound of each zone's share of the demand. -/
theorem levelsStayInBudget : Obligations.LevelsStayInBudget := by
  intro v now
  refine ⟨demand_eq v, rfl, scale_in_budget v, scale_cut v, fun z processed lit => ?_, fun z processed late => ?_,
    levels_le_budget v now, rate_le _ _ ∘ fun factor => ?_⟩
  · have level : ((v.levelSet now).zone z).level = v.derated z * v.scale / 4096 := by
      rw [levelSet_processed v now z processed]
      exact level_of_no_lateFault v now v.scale z lit
    refine ⟨level, fun within => ?_⟩
    rw [level, scale_in_budget v within]
    exact Nat.mul_div_cancel _ (by omega)
  · rw [levelSet_processed v now z processed]
    exact level_of_lateFault v now v.scale z late
  · split
    · exact factor
    · exact Nat.le_refl 256

end Sys2Proof.Laws
end

