-- ==== Sys2Proof/Proofs/StandbyEntry.lean ====
section
/-! PROOF. What a frame turn leaves where no error waits, and a frame turn that enters STANDBY (R17, R97, R104, R135,
R155). -/

namespace Sys2Proof.Laws

open Sys2Proof.Machine

/-! ## The commits of a frame turn, where no error waits (R45 to R49) -/

theorem validateStaging_of_quiet (s : State) (hq : s.quiet) (mask : BitVec 4) : (s.validateStaging mask).1 = s := by
  unfold State.validateStaging
  rw [readRange_of_quiet s hq]
  split <;> rfl

/-- The copies of the marked tables stay among the tables' banks. -/
theorem copyBanks_zone_state (l : List Nat) (hl : ∀ t ∈ l, t < 4) (mem : Memory) (a : Nat) (ha : keyMemory a = 8) :
    (l.foldl Memory.copyBank mem).word a = mem.word a := by
  induction l generalizing mem with
  | nil => rfl
  | cons t l ih =>
    obtain ⟨-, size⟩ := memoryWords_banks t (hl t List.mem_cons_self)
    rw [List.foldl_cons, ih fun t ht => hl t (List.mem_cons_of_mem _ ht), word_copyBank]
    refine if_neg fun inside => ?_
    have := hl t List.mem_cons_self
    unfold keyMemory at ha
    unfold bankMemory wordKey at *
    omega

/-- The marks touch the tables, their record and two flags; ZONE_STATE stands. -/
theorem applyMarks_kept (s : State) (hq : s.quiet) :
    ∃ mem tbs flags, s.applyMarks = { s with mem := mem, tbs := tbs, rpu := { s.rpu with flags := flags } } ∧
      ∀ a, keyMemory a = 8 → mem.word a = s.mem.word a := by
  unfold State.applyMarks
  dsimp only
  split
  · exact ⟨s.mem, _, s.rpu.flags, rfl, fun _ _ => rfl⟩
  · have copied := copyTables_of_quiet s.tbs.marked s hq
    have valid := validateStaging_of_quiet s hq s.tbs.marks
    rw [valid]
    split
    · rw [copied]
      exact ⟨_, _, _, rfl, copyBanks_zone_state _ (marked_lt s.tbs) s.mem⟩
    · exact ⟨_, _, _, rfl, fun _ _ => rfl⟩

/-- A frame turn's last steps lay the grid and take the NOTIFY_MASK in use, where no error waits. -/
theorem frameTurn_shape (s : State) (hq : s.quiet) :
    ∃ mem tbs flags stu notifyMask, (∀ a, keyMemory a = 8 → mem.word a = s.mem.word a) ∧
      s.frameTurn =
        (fun w : State => { w with stu := stu, rpu := { w.rpu with notifyMask := notifyMask } })
          ({ State.turnBegun s with mem := mem, tbs := tbs, rpu := { s.rpu with flags := flags } } :
            State).handleRequest := by
  have begun : (State.turnBegun s).quiet := hq
  obtain ⟨mem, tbs, flags, applied, zones⟩ := applyMarks_kept (State.turnBegun s) begun
  have quiet := (applyMarks_of_quiet (State.turnBegun s) begun).1
  obtain ⟨stu, notifyMask, ended⟩ := turnEnded_of_quiet _ quiet
  refine ⟨mem, tbs, flags, stu, notifyMask, zones, ?_⟩
  rw [frameTurn_ended, ended, applied]
  rfl

/-! ## The answer to a request for STANDBY (R153, R155) -/

theorem handleRequest_standby (s : State) (hr : s.mdc.request = some .standby) (hm : s.mdc.mode ≠ .standby) :
    s.handleRequest =
      (({ s with mdc := ⟨.standby, none, .none⟩ } : State).raise .modeChanged).standbyEntry := by
  have unread : (if Mode.standby.validated then s.readForMode else s) = s := if_neg Bool.false_ne_true
  unfold State.handleRequest
  rw [hr]
  dsimp only
  rw [unread, hr, Option.isNone_some, if_neg Bool.false_ne_true, State.modeReason, if_pos rfl, State.changeMode,
    if_neg (Ne.symm hm)]
  rfl

/-- From `s` to `t` STANDBY has been entered: the last set is empty, the budget records stand, ZONE_STATE keeps its
targets alone, and the display and the chains are dark. -/
structure StandbyEntered (s t : State) : Prop where
  mode         : t.mdc.mode = .standby
  lastSet      : t.lvs.lastSet = .zero
  reseed       : t.lvs.reseed = []
  unlit        : t.lvs.unlit = []
  k            : t.lvs.k = s.lvs.k
  demand       : t.lvs.demand = s.lvs.demand
  gprev        : t.lvs.gprev = s.lvs.gprev
  lockJump     : t.lvs.lockJump = s.lvs.lockJump
  targets      : ∀ z < Config.zones, t.mem.word (zoneT z) = s.mem.word (zoneT z)
  zeroed       : ∀ z < Config.zones,
    t.mem.word (zoneF z) = 0 ∧ t.mem.word (zoneL4 z) = 0 ∧ t.mem.word (zoneDuty z) = 0
  display      : t.pxc.display = []
  displayChain : t.pxc.displayChain = []
  taken        : ∀ k : ChainNo, t.pxc.taken[k] = none
  chains       : ∀ k : ChainNo, Darkened s.chc.chains[k] t.chc.chains[k]

/-- A word of ZONE_STATE behind a zeroing of the given places of its entries. -/
theorem word_zeroZoneWords (s : State) (places : List Nat) (z j : Nat) (hz : z < 4096) (hj : j < 8) :
    (s.zeroZoneWords places).mem.word (wordKey 8 (8 * z + j)) =
      if j ∈ places then 0 else s.mem.word (wordKey 8 (8 * z + j)) := by
  have zone : isZoneWord places (wordKey 8 (8 * z + j)) = decide (j ∈ places) := by
    unfold isZoneWord
    rw [keyMemory_wordKey _ _ (by omega), keyIndex_wordKey _ _ (by omega), Nat.mul_add_mod, Nat.mod_eq_of_lt hj]
    simp
  have unlisted : unlistedWord (wordKey 8 (8 * z + j)) = 0 := by
    unfold unlistedWord
    rw [keyMemory_wordKey _ _ (by omega)]
    rfl
  show sparseGet unlistedWord (sparseClear (isZoneWord places) s.mem) _ = _
  rw [sparseGet_clear, zone, unlisted]
  by_cases place : j ∈ places
  · rw [decide_eq_true place, if_pos rfl, if_pos place]
  · rw [decide_eq_false place, if_neg nofun, if_neg place]
    rfl

theorem standbyEntered_of_darkened {s t : State} (others : blankChains t = blankChains (standbyUnits s))
    (darkened : ∀ k : ChainNo, Darkened (standbyUnits s).chc.chains[k] t.chc.chains[k]) (h : s.mdc.mode = .standby) :
    StandbyEntered s t := by
  have mdc : t.mdc = s.mdc := (congrArg State.mdc others :)
  have lvs : t.lvs = { s.lvs with lastSet := .zero, unlit := [], reseed := [] } := (congrArg State.lvs others :)
  have pxc : t.pxc = { s.pxc with display := [], displayChain := [], taken := Vector.replicate 8 none } :=
    (congrArg State.pxc others :)
  have mem : t.mem = (s.zeroZoneWords [5, 6, 7]).mem := (congrArg State.mem others :)
  have word (z j : Nat) (hz : z < Config.zones) (hj : j < 8) := word_zeroZoneWords s [5, 6, 7] z j
    (lt_trans hz (by decide)) hj
  refine ⟨by rw [mdc]; exact h, by rw [lvs], by rw [lvs], by rw [lvs], by rw [lvs], by rw [lvs], by rw [lvs],
    by rw [lvs], fun z hz => ?_, fun z hz => ?_, by rw [pxc], by rw [pxc], fun k => by rw [pxc]; simp, darkened⟩
  · rw [mem]
    exact word z 4 hz (by decide)
  · rw [mem]
    exact ⟨word z 5 hz (by decide), word z 6 hz (by decide), word z 7 hz (by decide)⟩

theorem standbyEntered_standbyEntry (s : State) (h : s.mdc.mode = .standby) : StandbyEntered s s.standbyEntry := by
  rw [standbyEntry_eq]
  exact standbyEntered_of_darkened (blankChains_standbyChains _) (darkened_standbyChains _) h

/-- What is done besides, before and behind the entry, leaves all that the entry is about. -/
theorem standbyEntered_of_eq {s s' t t' : State} (h : StandbyEntered s t) (lvs : s.lvs = s'.lvs)
    (chains : s.chc.chains = s'.chc.chains)
    (zones : ∀ a, keyMemory a = 8 → s.mem.word a = s'.mem.word a) (mdc' : t'.mdc = t.mdc) (lvs' : t'.lvs = t.lvs)
    (mem' : t'.mem = t.mem) (pxc' : t'.pxc = t.pxc) (chc' : t'.chc = t.chc) : StandbyEntered s' t' where
  mode := by rw [mdc', h.mode]
  lastSet := by rw [lvs', h.lastSet]
  reseed := by rw [lvs', h.reseed]
  unlit := by rw [lvs', h.unlit]
  k := by rw [lvs', h.k, lvs]
  demand := by rw [lvs', h.demand, lvs]
  gprev := by rw [lvs', h.gprev, lvs]
  lockJump := by rw [lvs', h.lockJump, lvs]
  targets := fun z hz => by
    have place : keyMemory (zoneT z) = 8 := keyMemory_wordKey _ _ (by unfold Config.zones at hz; omega)
    rw [mem', h.targets z hz, zones _ place]
  zeroed := fun z hz => by
    rw [mem']
    exact h.zeroed z hz
  display := by rw [pxc', h.display]
  displayChain := by rw [pxc', h.displayChain]
  taken := fun k => by rw [pxc', h.taken]
  chains := fun k => by
    rw [chc', ← chains]
    exact h.chains k

/-- A frame turn that finds a request for STANDBY in another mode enters it. -/
theorem frameTurn_enters_standby (s : State) (hq : s.quiet) (hr : s.mdc.request = some .standby)
    (hm : s.mdc.mode ≠ .standby) : StandbyEntered s s.frameTurn := by
  obtain ⟨mem, tbs, flags, stu, notifyMask, zones, turned⟩ := frameTurn_shape s hq
  have handled := handleRequest_standby
    { State.turnBegun s with mem := mem, tbs := tbs, rpu := { s.rpu with flags := flags } } hr hm
  have entered := standbyEntered_standbyEntry
    (({ State.turnBegun s with
        mem := mem, tbs := tbs, rpu := { s.rpu with flags := flags }, mdc := ⟨.standby, none, .none⟩ } : State).raise
      .modeChanged) rfl
  rw [turned, handled]
  generalize State.standbyEntry _ = w at entered ⊢
  exact standbyEntered_of_eq entered rfl rfl zones rfl rfl rfl rfl rfl

/-- Settles O21: with no solve in flight the frame turn is taken, and it enters STANDBY. -/
theorem standbyEntryGoesDark : Obligations.StandbyEntryGoesDark := by
  intro dt scanFirst s due hq idle hr hm
  obtain ⟨clock, ftu, runs, -⟩ := outputFrameStart_cases dt scanFirst s due hq
  obtain ⟨sns, flags, counters, sns', flags', counters', turns⟩ :=
    scanAndTurn_turns (State.frameBegun s clock ftu) scanFirst idle
  have entered := frameTurn_enters_standby (State.scanned (State.frameBegun s clock ftu) sns flags counters) hq hr hm
  rw [turns] at runs
  generalize State.frameTurn _ = w at entered runs
  have entered : StandbyEntered s (State.scanned w sns' flags' counters') :=
    standbyEntered_of_eq entered rfl rfl (fun _ _ => rfl) rfl rfl rfl rfl rfl
  refine ⟨_, runs, entered.mode, entered.lastSet, entered.reseed, entered.unlit, entered.k, entered.demand,
    entered.gprev, entered.lockJump, fun z hz => ⟨entered.targets z hz, entered.zeroed z hz⟩, entered.display,
    entered.displayChain, fun k => ?_⟩
  obtain ⟨⟨waiting, done, pending, -⟩, -, count, burst⟩ := entered.chains k
  exact ⟨entered.taken k, done, waiting, pending, count, fun free awaiting devices => burst free awaiting devices⟩

end Sys2Proof.Laws
end

