-- ==== Sys2Proof/Proofs/LateSolve.lean ====
section
/-! PROOF. A frame turn that waits at the first active line gives its solve up as late and is taken there (R17, R76,
R77). -/

namespace Sys2Proof.Laws

open Sys2Proof.Machine

/-! ## What a frame turn leaves of the solver and the counters, where no error waits -/

theorem changeMode_counters (s : State) (target : Mode) :
    (s.changeMode target).rpu.counters = s.rpu.counters := by
  unfold State.changeMode
  split
  · rfl
  · dsimp only
    split
    · rw [standbyEntry_eq, State.standbyChains_rpu]
      rfl
    · rfl

theorem handleRequest_counters (s : State) (hq : s.quiet) : s.handleRequest.rpu.counters = s.rpu.counters := by
  unfold State.handleRequest
  split
  · rfl
  · rw [readForMode_of_quiet s hq, ite_self]
    dsimp only
    split
    · rfl
    · split
      · exact changeMode_counters _ _
      · rfl

theorem quiet_frameTurn (s : State) (hq : s.quiet) : s.frameTurn.quiet := by
  have applied := (applyMarks_of_quiet (State.turnBegun s) hq).1
  obtain ⟨stu, notifyMask, ended⟩ := turnEnded_of_quiet _ applied
  rw [frameTurn_ended, ended]
  exact (handleRequest_of_quiet _ applied).1

theorem frameTurn_counters (s : State) (hq : s.quiet) : s.frameTurn.rpu.counters = s.rpu.counters := by
  obtain ⟨mem, tbs, flags, stu, notifyMask, -, turned⟩ := frameTurn_shape s hq
  have kept := handleRequest_counters
    { State.turnBegun s with mem := mem, tbs := tbs, rpu := { s.rpu with flags := flags } } hq
  rw [turned]
  generalize State.handleRequest _ = w at kept ⊢
  exact kept

/-- Without a mode request a frame turn leaves the solver and ZONE_STATE. -/
theorem frameTurn_no_request (s : State) (hq : s.quiet) (hr : s.mdc.request = none) :
    s.frameTurn.lvs = s.lvs ∧ ∀ a, keyMemory a = 8 → s.frameTurn.mem.word a = s.mem.word a := by
  obtain ⟨mem, tbs, flags, stu, notifyMask, zones, turned⟩ := frameTurn_shape s hq
  have handled := handleRequest_idle
    { State.turnBegun s with mem := mem, tbs := tbs, rpu := { s.rpu with flags := flags } } hr
  rw [turned, handled]
  exact ⟨rfl, zones⟩

/-! ## A solve given up at a turn -/

/-- From `s` to `t` the frame turn has been taken and the solve that it waited for given up as late. -/
structure SolveLate (s t : State) : Prop where
  turnWaiting : t.ftu.turnWaiting = false
  solve       : t.lvs.solve = none
  outcome     : t.lvs.outcome = .late
  gprev       : t.lvs.gprev = s.lvs.gprev
  lockJump    : t.lvs.lockJump = s.lvs.lockJump
  k           : t.lvs.k = s.lvs.k
  demand      : t.lvs.demand = s.lvs.demand
  maxL4       : t.lvs.maxL4 = s.lvs.maxL4
  counted     : t.rpu.counters.solvesLate = satAdd s.rpu.counters.solvesLate 1
  raised      : t.rpu.flags &&& Event.solveLate.bit ≠ 0
  marks       : t.tbs.marks = 0
  request     : t.mdc.request = none
  kept        : s.mdc.request = none → t.lvs.lastSet = s.lvs.lastSet ∧
    ∀ a, keyMemory a = 8 → t.mem.word a = s.mem.word a

theorem solveLate_forceTurn (s : State) (hw : s.ftu.turnWaiting = true) (hs : s.lvs.solve ≠ none) (hq : s.quiet) :
    SolveLate s s.forceTurn := by
  obtain ⟨solve, outcome, raised⟩ := forceTurn_gives_up s hw hs
  have quiet : (State.solveGivenUp s).quiet := hq
  rw [forceTurn_waiting s hw, abandonLate_solving s hs] at solve outcome raised ⊢
  obtain ⟨marks, request, -, -⟩ := frameTurn_of_quiet _ quiet
  have kept := (turnKeeps_frameTurn (State.solveGivenUp s)).1
  have counters := frameTurn_counters _ quiet
  have stays (hr : s.mdc.request = none) := frameTurn_no_request (State.solveGivenUp s) quiet hr
  generalize (State.solveGivenUp s).frameTurn = t at solve outcome raised marks request kept counters stays ⊢
  exact {
    turnWaiting := (congrArg (fun u : State => u.ftu.turnWaiting) kept :)
    solve := solve
    outcome := outcome
    gprev := (congrArg (fun u : State => u.lvs.gprev) kept :)
    lockJump := (congrArg (fun u : State => u.lvs.lockJump) kept :)
    k := (congrArg (fun u : State => u.lvs.k) kept :)
    demand := (congrArg (fun u : State => u.lvs.demand) kept :)
    maxL4 := (congrArg (fun u : State => u.lvs.maxL4) kept :)
    counted := congrArg Counters.solvesLate counters
    raised := raised
    marks := marks
    request := request
    kept := fun hr => ⟨(congrArg Lvs.lastSet (stays hr).1 :), (stays hr).2⟩ }

/-! ## The rest of the first active line -/

theorem reportLate_solvesLate (s : State) (took : Vector Settlement 8) :
    (s.reportLate took).rpu.counters.solvesLate = s.rpu.counters.solvesLate := by
  unfold State.reportLate
  dsimp only
  split <;> rfl

/-- The first active line counts late chains, no late solves. -/
theorem lineBegun_solvesLate (s : State) :
    (State.lineBegun s).rpu.counters.solvesLate = s.rpu.counters.solvesLate := by
  have reported := reportLate_solvesLate s s.settlements
  unfold State.lineBegun
  dsimp only
  generalize s.reportLate s.settlements = a at reported ⊢
  obtain ⟨shown, display, -⟩ := setDisplay_kept a s.settlements
  obtain ⟨lit, light, -⟩ := lightFrame_kept { a with pxc := shown }
  rw [State.latchesOfLine_rpu, display, light]
  exact reported

/-- Once its turn is taken, a first active line goes on as one for which no turn waits. -/
theorem firstLine_forced (s : State) : s.firstLine = s.forceTurn.firstLine := by
  have taken := (turnForced_forceTurn s).ftu
  rw [firstLine_eq s, firstLine_eq s.forceTurn, forceTurn_not_waiting s.forceTurn (by rw [taken])]

theorem firstLine_solvesLate (s : State) (hq : s.quiet) (hw : s.ftu.turnWaiting = false) :
    s.firstLine.rpu.counters.solvesLate = s.rpu.counters.solvesLate := by
  have due := eq_of_blankChains (blankChains_latchesFallDue s)
  rw [firstLine_eq, forceTurn_not_waiting s hw, lineBegun_solvesLate]
  generalize s.latchesFallDue = u at due ⊢
  have quiet : u.quiet := by rw [due]; exact hq
  obtain ⟨v, capture, captured, -, same, -⟩ := captureFrame_kept u
  obtain rfl := same quiet
  rw [captured]
  obtain ⟨w, latchLines, read, -, same, -⟩ := readLatchLines_kept { v with pxc := { v.pxc with capture := capture } }
  obtain rfl := same quiet
  rw [read, due]

theorem solveLate_firstLine (s : State) (hw : s.ftu.turnWaiting = true) (hs : s.lvs.solve ≠ none) (hq : s.quiet) :
    SolveLate s s.firstLine ∧ s.firstLine.ftu.phase = .active 0 := by
  have late := solveLate_forceTurn s hw hs hq
  have quiet : s.forceTurn.quiet := by
    rw [forceTurn_waiting s hw, abandonLate_solving s hs]
    exact quiet_frameTurn _ hq
  rw [firstLine_forced s]
  generalize s.forceTurn = u at late quiet ⊢
  have counted := firstLine_solvesLate u quiet late.turnWaiting
  obtain ⟨pxc, chc, flags, counters, burstLate, begun, -, -, raised⟩ :=
    firstLine_of_quiet u quiet late.turnWaiting
  rw [begun] at counted raised ⊢
  refine ⟨{ late with counted := counted.trans late.counted, raised := ?_ }, rfl⟩
  exact flagged_of_keepsFlags raised late.raised

/-- A due first active line is taken, at its time. -/
theorem exec_firstActiveLine_due (dt : Nat) (s : State) (h : s.firstLineDue) :
    ∃ clock, exec (.firstActiveLine dt) s = .next ({ s with clock := clock } : State).firstLine := by
  obtain ⟨phase, free | ⟨following, pixels, damaged, off, width, rest, delay⟩⟩ := h
  · refine ⟨((s.advance dt).advanceTo (s.ftu.startedAt + Config.freeRunBlanking)).clock, ?_⟩
    show execFirstActiveLine dt s = _
    unfold execFirstActiveLine
    simp only [State.advance_ftu, phase, free]
    rfl
  · refine ⟨(s.advance dt).clock, ?_⟩
    show execFirstActiveLine dt s = _
    unfold execFirstActiveLine
    simp only [State.advance_ftu, phase, following, delay]
    rfl

/-- Settles O26: the forced turn gives the solve up, and the rest of the line leaves what that is about. -/
theorem lateSolveIsAbandoned : Obligations.LateSolveIsAbandoned := by
  intro dt s v due waiting solving hq
  obtain ⟨clock, runs⟩ := exec_firstActiveLine_due dt s due
  obtain ⟨late, phase⟩ := solveLate_firstLine { s with clock := clock } waiting (by rw [solving]; nofun) hq
  refine ⟨_, runs, phase, late.turnWaiting, late.solve, late.outcome, late.gprev, late.lockJump, late.k, late.demand,
    late.maxL4, late.counted, late.raised, late.marks, late.request, fun hr => ?_⟩
  obtain ⟨lastSet, words⟩ := late.kept hr
  refine ⟨lastSet, fun z hz => ?_⟩
  unfold Config.zones at hz
  exact ⟨words _ (keyMemory_wordKey _ _ (by omega)), words _ (keyMemory_wordKey _ _ (by omega))⟩

end Sys2Proof.Laws
end

