-- ==== Sys2Proof/Proofs/SolveComplete.lean ====
section
/-! PROOF. What solve complete writes: the words of ZONE_STATE, the last set, the report's figures, and the frame turn
that waited for it (R17, R78, R81, R86 to R88, R96). -/

namespace Sys2Proof.Laws

open Sys2Proof.Machine

/-! ## The words of the processed zones (R78) -/

/-- The word that solve complete gives zone `z` at place `j` of its entry, from the fourth on. -/
def solvedWord (v : Solve) (l : ZoneLevel) (z j : Nat) : Word :=
  wordOfNat (if j = 4 then v.target z else if j = 5 then v.newF z else if j = 6 then l.level else l.duty)

theorem writeZone_word (s : State) (v : Solve) (l : ZoneLevel) (z y j : Nat) (hj : j < 8) :
    (s.writeZone v l z).mem.word (wordKey 8 (8 * y + j)) =
      if y = z ∧ 4 ≤ j then solvedWord v l z j else s.mem.word (wordKey 8 (8 * y + j)) := by
  show ((((s.mem.store (zoneT z) _).store (zoneF z) _).store (zoneL4 z) _).store (zoneDuty z) _).word _ = _
  have stored (mem : Memory) (i : Nat) (hi : i < 8) (w : Word) :
      (mem.store (wordKey 8 (8 * z + i)) w).word (wordKey 8 (8 * y + j)) =
        if y = z ∧ j = i then w else mem.word (wordKey 8 (8 * y + j)) := by
    split
    · next own =>
      rw [own.1, own.2]
      exact word_store_same _ _ _
    · next other =>
      refine word_store_other _ _ _ _ ?_
      unfold wordKey
      omega
  unfold zoneT zoneF zoneL4 zoneDuty solvedWord
  rw [stored _ 7 (by decide), stored _ 6 (by decide), stored _ 5 (by decide), stored _ 4 (by decide)]
  by_cases own : y = z
  · rcases (by omega : j < 4 ∨ j = 4 ∨ j = 5 ∨ j = 6 ∨ j = 7) with low | rfl | rfl | rfl | rfl
    · rw [if_neg (by omega), if_neg (by omega), if_neg (by omega), if_neg (by omega), if_neg (by omega)]
    all_goals simp [own]
  · simp [own]

theorem writeZone_bank (s : State) (v : Solve) (l : ZoneLevel) (z a : Nat) (ha : keyMemory a < 8) :
    (s.writeZone v l z).mem.word a = s.mem.word a := by
  have apart (i : Nat) : a ≠ wordKey 8 i := by
    unfold keyMemory at ha
    unfold wordKey
    omega
  show ((((s.mem.store (zoneT z) _).store (zoneF z) _).store (zoneL4 z) _).store (zoneDuty z) _).word _ = _
  rw [zoneT, zoneF, zoneL4, zoneDuty, word_store_other _ _ _ _ (apart _), word_store_other _ _ _ _ (apart _),
    word_store_other _ _ _ _ (apart _), word_store_other _ _ _ _ (apart _)]

/-- The zones of a list written one by one. -/
def zonesWritten (v : Solve) (set : LevelSet) (l : List Nat) (s : State) : State :=
  l.foldl (fun s z => s.writeZone v (set.zone z) z) s

theorem zonesWritten_word (v : Solve) (set : LevelSet) (l : List Nat) (s : State) (z j : Nat) (hj : j < 8) :
    (zonesWritten v set l s).mem.word (wordKey 8 (8 * z + j)) =
      if z ∈ l ∧ 4 ≤ j then solvedWord v (set.zone z) z j else s.mem.word (wordKey 8 (8 * z + j)) := by
  induction l generalizing s with
  | nil => simp [zonesWritten]
  | cons y l ih =>
    refine (ih _).trans ?_
    rw [writeZone_word _ _ _ _ _ _ hj]
    by_cases own : z = y
    · subst own
      by_cases high : 4 ≤ j
      · simp [high]
      · simp [high]
    · simp [own]

theorem zonesWritten_bank (v : Solve) (set : LevelSet) (l : List Nat) (s : State) (a : Nat) (ha : keyMemory a < 8) :
    (zonesWritten v set l s).mem.word a = s.mem.word a := by
  have each (u : State) (z : Nat) : (u.writeZone v (set.zone z) z).mem.word a = u.mem.word a :=
    writeZone_bank u v (set.zone z) z a ha
  unfold zonesWritten
  induction l generalizing s with
  | nil => rfl
  | cons z l ih => rw [List.foldl_cons, ih, each]

/-- Only memory, and the upsets of the words written, change. -/
theorem zonesWritten_kept (v : Solve) (set : LevelSet) (l : List Nat) (s : State) :
    ∃ mem upsets, zonesWritten v set l s = { s with mem := mem, imn := { s.imn with upsets := upsets } } := by
  induction l generalizing s with
  | nil =>
    refine ⟨s.mem, s.imn.upsets, ?_⟩
    rw [zonesWritten, List.foldl_nil]
  | cons z l ih =>
    obtain ⟨mem, upsets, kept⟩ := ih (s.writeZone v (set.zone z) z)
    have written : zonesWritten v set (z :: l) s = zonesWritten v set l (s.writeZone v (set.zone z) z) :=
      List.foldl_cons ..
    rw [written, kept]
    exact ⟨mem, upsets, rfl⟩

theorem quiet_zonesWritten (v : Solve) (set : LevelSet) (l : List Nat) (s : State) (hq : s.quiet) :
    (zonesWritten v set l s).quiet := by
  induction l generalizing s with
  | nil => exact hq
  | cons z l ih =>
    exact ih _ (quiet_writeWord _ _ _ (quiet_writeWord _ _ _ (quiet_writeWord _ _ _ (quiet_writeWord _ _ _ hq))))

/-! ## The solver's own part -/

/-- The zones that a solve reaches, written, and the other zones' T, L4 and duty zeroed. -/
def solvedZones (s : State) (v : Solve) : State :=
  zonesWritten v (v.levelSet s.chc) v.processed (s.zeroZoneWords [4, 6, 7])

/-- The solver behind the completion of a solve. -/
def solvedLvs (l : Lvs) (now : Chc) (v : Solve) : Lvs :=
  { l with
    solve := none
    reseed := sparseClear v.processes l.reseed
    lastSet := v.levelSet now
    unlit := v.unlit
    k := v.scale
    demand := v.demand
    maxL4 := (v.levelSet now).zones.foldl (fun m e => max m e.2.level) 0
    outcome := if l.outcome = .late then .late else .onTime
    gprev := if decide (v.source = .statistics) && v.setsGprev then some v.mean else l.gprev
    lockJump := if v.lockJump then false else l.lockJump }

/-- Solve complete writes the zones, the solver's record, and one flag. -/
theorem finishSolve_eq (s : State) (started : Solve) (v : Solve) (hv : v = started.withMarks s.lvs.reseed) :
    s.finishSolve started =
      { solvedZones s v with
        lvs := solvedLvs s.lvs s.chc v
        rpu := { s.rpu with flags := if v.sceneCut then s.rpu.flags ||| Event.sceneCut.bit else s.rpu.flags } } := by
  subst hv
  obtain ⟨mem, upsets, kept⟩ := zonesWritten_kept (started.withMarks s.lvs.reseed)
    ((started.withMarks s.lvs.reseed).levelSet s.chc) (started.withMarks s.lvs.reseed).processed
    (s.zeroZoneWords [4, 6, 7])
  unfold State.finishSolve solvedZones
  dsimp only
  change zonesWritten _ _ _ _ = _ at kept
  unfold zonesWritten at kept ⊢
  rw [kept]
  split
  · rfl
  · rfl

theorem mem_processed (v : Solve) (z : Nat) : z ∈ v.processed ↔ v.processes z = true := by
  unfold Solve.processed
  rw [List.mem_filter, List.mem_range]
  exact ⟨fun h => h.2, fun h => ⟨((processes_iff v z).1 h).1, h⟩⟩

/-- Solve complete at a word of ZONE_STATE, from the fourth of an entry on. -/
theorem solvedZones_word (s : State) (v : Solve) (z j : Nat) (hz : z < Config.zones) (hj : j < 8) (high : 4 ≤ j) :
    (solvedZones s v).mem.word (wordKey 8 (8 * z + j)) =
      if v.processes z then solvedWord v ((v.levelSet s.chc).zone z) z j
      else if j = 5 then s.mem.word (wordKey 8 (8 * z + j)) else 0 := by
  unfold solvedZones
  rw [zonesWritten_word _ _ _ _ _ _ hj]
  split
  · next written => rw [if_pos ((mem_processed v z).1 written.1)]
  · next skipped =>
    rw [if_neg fun processed => skipped ⟨(mem_processed v z).2 processed, high⟩,
      word_zeroZoneWords s [4, 6, 7] z j (lt_trans hz (by decide)) hj]
    rcases (by omega : j = 4 ∨ j = 5 ∨ j = 6 ∨ j = 7) with rfl | rfl | rfl | rfl
    all_goals simp

theorem solvedZones_bank (s : State) (v : Solve) (a : Nat) (ha : keyMemory a < 8) :
    (solvedZones s v).mem.word a = s.mem.word a := by
  unfold solvedZones
  rw [zonesWritten_bank _ _ _ _ _ ha]
  show sparseGet unlistedWord (sparseClear (isZoneWord [4, 6, 7]) s.mem) a = _
  rw [sparseGet_clear, if_neg fun zone => by have := isZoneWord_memory zone; omega]
  rfl

/-! ## The greatest level (R78) -/

/-- The entries of a level set are the zones that it does not skip, all of them processed. -/
theorem mem_levelSet (v : Solve) (now : Chc) (e : Nat × ZoneLevel) :
    e ∈ (v.levelSet now).zones ↔ (v.levelSet now).zone e.1 ≠ .skipped ∧ e.2 = (v.levelSet now).zone e.1 := by
  rw [levelSet_zone]
  unfold Solve.levelSet
  dsimp only
  rw [mem_tabulate]
  constructor
  · rintro ⟨z, -, lit, rfl⟩
    rw [Nat.zero_add]
    exact ⟨lit, rfl⟩
  · rintro ⟨lit, level⟩
    have processed : v.processes e.1 = true := by
      by_contra skipped
      exact lit (if_neg skipped)
    refine ⟨e.1, ((processes_iff v e.1).1 processed).1, lit, ?_⟩
    rw [Nat.zero_add, ← level]

theorem processes_of_lit (v : Solve) (now : Chc) (z : Nat) (h : (v.levelSet now).zone z ≠ .skipped) :
    v.processes z = true := by
  by_contra skipped
  exact h (levelSet_skipped v now z (Bool.eq_false_of_not_eq_true skipped))

theorem levelSet_le_max (v : Solve) (now : Chc) (z : Nat) :
    ((v.levelSet now).zone z).level ≤ (v.levelSet now).zones.foldl (fun m e => max m e.2.level) 0 := by
  obtain ⟨-, each, -⟩ := haloGuard_greatest 0 0 ((v.levelSet now).zones.map fun e => e.2.level)
  simp only [haloGuard, Nat.sub_zero, List.foldl_map] at each
  by_cases lit : (v.levelSet now).zone z = .skipped
  · rw [lit]
    exact Nat.zero_le _
  · exact each _ (List.mem_map.2 ⟨(z, (v.levelSet now).zone z), (mem_levelSet v now _).2 ⟨lit, rfl⟩, rfl⟩)

theorem levelSet_max_met (v : Solve) (now : Chc) :
    (v.levelSet now).zones.foldl (fun m e => max m e.2.level) 0 = 0 ∨ ∃ z, v.processes z = true ∧
      ((v.levelSet now).zone z).level = (v.levelSet now).zones.foldl (fun m e => max m e.2.level) 0 := by
  obtain ⟨-, -, met⟩ := haloGuard_greatest 0 0 ((v.levelSet now).zones.map fun e => e.2.level)
  simp only [haloGuard, Nat.sub_zero, List.foldl_map] at met
  refine met.imp_right ?_
  rintro ⟨n, hn, greatest⟩
  obtain ⟨e, he, rfl⟩ := List.mem_map.1 hn
  obtain ⟨lit, level⟩ := (mem_levelSet v now e).1 he
  refine ⟨e.1, processes_of_lit v now e.1 lit, ?_⟩
  rw [← level]
  exact greatest.symm

/-! ## The hand-off, and the completed state -/

theorem blankChains_handOff (s : State) (set : LevelSet) : blankChains (s.handOff set) = blankChains s :=
  foldl_keeps blankChains _ (fun s k => (blankChains_arbitrate _ k).trans (blankChains_setChain s k _)) _ s

/-- The state behind solve complete: the chains aside, the zones, the solver's record and one flag have changed. -/
structure Solved (s : State) (v : Solve) (t : State) : Prop where
  lvs    : t.lvs = solvedLvs s.lvs s.chc v
  rpu    : t.rpu = { s.rpu with
    flags := if v.sceneCut then s.rpu.flags ||| Event.sceneCut.bit else s.rpu.flags }
  mem    : t.mem = (solvedZones s v).mem
  clock  : t.clock = s.clock
  mdc    : t.mdc = s.mdc
  ftu    : t.ftu = s.ftu
  quiet  : s.quiet → t.quiet
  others : { t with
    mem := s.mem, lvs := s.lvs, rpu := s.rpu, imn := { t.imn with upsets := s.imn.upsets }
    chc := { t.chc with chains := s.chc.chains, passQueue := s.chc.passQueue } } = s

theorem solved_finishSolve (s : State) (started v : Solve) (hv : v = started.withMarks s.lvs.reseed) :
    Solved s v ((s.finishSolve started).handOff (s.finishSolve started).lvs.lastSet) := by
  have handed := eq_of_blankChains (blankChains_handOff (s.finishSolve started) (s.finishSolve started).lvs.lastSet)
  generalize (s.finishSolve started).handOff _ = t at handed ⊢
  generalize t.chc.chains = chains, t.chc.passQueue = passQueue at handed
  obtain ⟨mem, upsets, kept⟩ := zonesWritten_kept v (v.levelSet s.chc) v.processed (s.zeroZoneWords [4, 6, 7])
  have kept : solvedZones s v = { s with mem := mem, imn := { s.imn with upsets := upsets } } := kept
  have quiet (hq : s.quiet) : (solvedZones s v).quiet :=
    quiet_zonesWritten _ _ _ _ (quiet_zeroZoneWords s [4, 6, 7] hq)
  rw [finishSolve_eq s started v hv, kept] at handed
  rw [kept] at quiet
  rw [handed]
  exact ⟨rfl, rfl, by rw [kept], rfl, rfl, rfl, quiet, rfl⟩

/-- SOLVE_COMPLETE takes the solve's own part and its hand-off, no sooner than due, then the turn that waits. -/
theorem exec_solveComplete_solving (dt : Nat) (s : State) (started : Solve) (h : s.lvs.solve = some started) :
    ∃ clock t, clock.now = max (s.clock.now + dt) started.dueAt ∧
      Solved { s with clock := clock } (started.withMarks s.lvs.reseed) t ∧
      exec (.solveComplete dt) s = .next (if s.ftu.turnWaiting then t.frameTurn else t) := by
  have solved := solved_finishSolve ((s.advance dt).advanceTo started.dueAt) started _ rfl
  have now : ((s.advance dt).advanceTo started.dueAt).clock.now = max (s.clock.now + dt) started.dueAt :=
    State.advanceTo_now (s.advance dt) started.dueAt
  refine ⟨_, _, now, solved, ?_⟩
  show execSolveComplete dt s = _
  unfold execSolveComplete
  dsimp only
  rw [State.advance_lvs, h]
  dsimp only
  rw [solved.ftu]
  rfl

/-- A frame turn leaves the solve in flight and the figures of the last one. -/
theorem frameTurn_figures (s : State) :
    s.frameTurn.ftu = { s.ftu with turnWaiting := false } ∧ s.frameTurn.lvs.solve = s.lvs.solve ∧
      s.frameTurn.lvs.k = s.lvs.k ∧ s.frameTurn.lvs.demand = s.lvs.demand := by
  have kept := turnKeeps_frameTurn s
  generalize s.frameTurn = t at kept ⊢
  exact ⟨(ftu_of_turnKeeps kept :), (solve_of_turnKeeps kept :), (congrArg (fun u : State => u.lvs.k) kept.1 :),
    (congrArg (fun u : State => u.lvs.demand) kept.1 :)⟩

/-- Settles O33, from the state behind solve complete and what a frame turn leaves of it. -/
theorem solveCompleteWritesRecords : Obligations.SolveCompleteWritesRecords := by
  intro dt s started solving v
  obtain ⟨clock, t, now, solved, runs⟩ := exec_solveComplete_solving dt s started solving
  change Solved _ v t at solved
  refine ⟨fun idle => ?_, fun waiting hq => ?_⟩
  · rw [idle, if_neg Bool.false_ne_true] at runs
    have word (z j : Nat) (hz : z < Config.zones) (hj : j < 8) (high : 4 ≤ j) :=
      (congrArg (fun mem : Memory => mem.word (wordKey 8 (8 * z + j))) solved.mem).trans
        (solvedZones_word { s with clock := clock } v z j hz hj high)
    have lastSet : t.lvs.lastSet = v.levelSet s.chc := by rw [solved.lvs]; rfl
    refine ⟨t, runs, by rw [solved.clock]; exact now, by rw [solved.lvs]; rfl, lastSet, by rw [lastSet]; rfl,
      fun z => ?_, ?_, fun z skipped => ?_, by rw [solved.lvs]; rfl, by rw [solved.lvs]; rfl, by rw [solved.lvs]; rfl,
      by rw [solved.lvs]; rfl, ?_, ?_, fun z => ?_, fun z hz => ⟨fun processed => ?_, fun skipped => ?_⟩,
      fun a ha => ?_, solved.rpu, ?_⟩
    · rw [solved.lvs]
      exact levelSet_le_max v s.chc z
    · rw [solved.lvs]
      exact levelSet_max_met v s.chc
    · rw [lastSet]
      exact levelSet_skipped v s.chc z skipped
    · rw [solved.lvs]
      simp [solvedLvs]
    · rw [solved.lvs]
      cases hl : v.lockJump <;> simp [solvedLvs, hl]
    · rw [solved.lvs]
      show sparseGet _ (sparseClear v.processes s.lvs.reseed) z = _
      rw [sparseGet_clear]
      cases v.processes z <;> simp
    · rw [lastSet]
      refine ⟨(word z 4 hz (by decide) (by decide)).trans ?_, (word z 5 hz (by decide) (by decide)).trans ?_,
        (word z 6 hz (by decide) (by decide)).trans ?_, (word z 7 hz (by decide) (by decide)).trans ?_⟩
      all_goals exact if_pos processed
    · have unlit := ne_true_of_eq_false skipped
      exact ⟨(word z 4 hz (by decide) (by decide)).trans (if_neg unlit),
        (word z 5 hz (by decide) (by decide)).trans (if_neg unlit),
        (word z 6 hz (by decide) (by decide)).trans (if_neg unlit),
        (word z 7 hz (by decide) (by decide)).trans (if_neg unlit)⟩
    · rw [solved.mem]
      exact solvedZones_bank { s with clock := clock } v a ha
    · have others := solved.others
      exact congrArg (fun u : State => { u with clock := s.clock }) others
  · rw [waiting, if_pos rfl] at runs
    have quiet := solved.quiet hq
    obtain ⟨marks, request, -, -⟩ := frameTurn_of_quiet t quiet
    obtain ⟨ftu, solve, scale, demand⟩ := frameTurn_figures t
    refine ⟨_, runs, by rw [ftu, solved.ftu], by rw [solve, solved.lvs]; rfl, by rw [scale, solved.lvs]; rfl,
      by rw [demand, solved.lvs]; rfl, marks, request, fun none_requested => ?_⟩
    obtain ⟨lvs, -⟩ := frameTurn_no_request t quiet (by rw [solved.mdc]; exact none_requested)
    rw [lvs, solved.lvs]
    rfl

end Sys2Proof.Laws
end

