-- ==== Sys2Proof/Proofs/PixelLight.lean ====
section
/-! PROOF. The light field, the light at a pixel, its gain and its output (R106 to R112). -/

namespace Sys2Proof.Laws

open Sys2Proof.Machine

/-! ## The light field (R106) -/

/-- A sum over the places of a kernel with rows of `n`, row by row. -/
theorem sum_rows (n m : Nat) (f : Nat → Nat → Nat) :
    ((List.range (n * m)).map (fun a => f (a % n) (a / n))).sum =
      Finset.sum (Finset.range m) (fun j => Finset.sum (Finset.range n) (fun i => f i j)) := by
  change Finset.sum (Finset.range (n * m)) (fun a => f (a % n) (a / n)) = _
  induction m with
  | zero => rfl
  | succ m ih =>
    rw [Nat.mul_succ, Finset.sum_range_add, Finset.sum_range_succ, ih]
    congr 1
    refine Finset.sum_congr rfl fun i hi => ?_
    have inside := Finset.mem_range.1 hi
    rw [Nat.mul_add_mod, Nat.mod_eq_of_lt inside, Nat.mul_add_div (by omega), Nat.div_eq_of_lt inside, Nat.add_zero]

/-- Zones are numbered row by row (R60). -/
theorem zone_inside {columns rows c r : Nat} (hc : c < columns) (hr : r < rows) :
    r * columns + c < columns * rows := by
  calc r * columns + c < (r + 1) * columns := by rw [Nat.succ_mul]; omega
    _ ≤ columns * rows := by rw [Nat.mul_comm]; exact Nat.mul_le_mul_left _ hr

/-- The field of a grid zone is the light at its centre. -/
theorem field_at (cap : Capture) (display : Sparse Nat) (c r : Nat) (hc : c < cap.grid.columns)
    (hr : r < cap.grid.rows) :
    sparseGet (fun _ => 0) (cap.field display) (r * cap.grid.columns + c) =
      lightAt cap.kernel (sparseGet (fun _ => 0) display) cap.grid.columns cap.grid.rows c r := by
  have inside : r * cap.grid.columns + c < 0 + cap.grid.zones := by
    rw [Nat.zero_add]
    exact zone_inside hc hr
  obtain ⟨row, column⟩ := (zone_iff cap.grid.columns _ r c hc).1 rfl
  rw [Capture.field, sparseGet_tabulate, if_pos ⟨Nat.zero_le _, inside⟩, Nat.sub_zero, column, row]

/-! ## Interpolation (R108, R109) -/

/-- The greatest index of a range that a test holds for, found from the left. -/
theorem foldl_last (n : Nat) (p : Nat → Prop) [DecidablePred p] (h : p 0) (pos : 0 < n) :
    let m := (List.range n).foldl (fun m i => if p i then i else m) 0
    m < n ∧ p m ∧ ∀ i < n, p i → i ≤ m := by
  induction n with
  | zero => omega
  | succ n ih =>
    simp only [List.range_succ, List.foldl_append, List.foldl_cons, List.foldl_nil]
    split
    · next last => exact ⟨Nat.lt_succ_self n, last, fun i hi _ => Nat.le_of_lt_succ hi⟩
    · next other =>
      have pos : 0 < n := Nat.pos_of_ne_zero fun zero => other (zero ▸ h)
      obtain ⟨below, holds, greatest⟩ := ih pos
      refine ⟨Nat.lt_succ_of_lt below, holds, fun i hi hp => ?_⟩
      rcases Nat.lt_succ_iff_lt_or_eq.1 hi with lower | rfl
      · exact greatest i lower hp
      · exact absurd hp other

/-- Between two values, `offset` of `span` parts of the way and floored, neither is passed. -/
theorem interpolate_spec (a b offset span : Nat) (h : offset ≤ span) :
    (interpolate a b offset span : Int) = a + ((b : Int) - a) * offset / span ∧
      min a b ≤ interpolate a b offset span ∧ interpolate a b offset span ≤ max a b := by
  have between : min 0 ((b : Int) - a) ≤ ((b : Int) - a) * offset / span ∧
      ((b : Int) - a) * offset / span ≤ max 0 ((b : Int) - a) := by
    rcases Nat.eq_zero_or_pos span with rfl | pos
    · rw [Nat.cast_zero, Int.ediv_zero]
      omega
    have part : (0 : Int) ≤ offset ∧ (offset : Int) ≤ span ∧ (0 : Int) < span := by omega
    generalize (offset : Int) = o, (span : Int) = w, (b : Int) - a = d at part ⊢
    obtain ⟨nonneg, below, pos⟩ := part
    rcases le_total 0 d with up | down
    · have lower : 0 ≤ d * o / w := Int.ediv_nonneg (Int.mul_nonneg up nonneg) pos.le
      have upper : d * o / w ≤ d := Int.ediv_le_of_le_mul pos (Int.mul_le_mul_of_nonneg_left below up)
      omega
    · have lower : d ≤ d * o / w := Int.le_ediv_of_mul_le pos (Int.mul_le_mul_of_nonpos_left down below)
      have upper : d * o / w ≤ 0 :=
        Int.ediv_nonpos_of_nonpos_of_neg (Int.mul_nonpos_of_nonpos_of_nonneg down nonneg) pos
      omega
  unfold interpolate
  rw [Int.fdiv_eq_ediv_of_nonneg _ (Int.natCast_nonneg span)]
  generalize ((b : Int) - a) * offset / span = d at between ⊢
  omega

/-- Where a pixel lies among the `n` centres of an axis, by R108's three cases. -/
structure Surrounds (at' : Nat → Nat) (n x : Nat) (s : Surround) : Prop where
  cases :
    (x < at' 0 ∧ s.first = 0 ∧ s.second = 0 ∧ s.offset = 0) ∨
    (at' 0 ≤ x ∧ at' (n - 1) ≤ x ∧ s.first = n - 1 ∧ s.second = n - 1 ∧ s.offset = 0) ∨
    (at' 0 ≤ x ∧ x < at' (n - 1) ∧ s.first < n ∧ at' s.first ≤ x ∧ (∀ i < n, at' i ≤ x → i ≤ s.first) ∧
      s.second = s.first + 1 ∧ s.offset = x - at' s.first ∧ s.span = at' s.second - at' s.first)
  first  : s.first < n
  second : s.second < n
  offset : s.offset ≤ s.span

/-- R108 finds the centres around a pixel, inside the grid, and an offset within their span. -/
theorem surround_spec (extent cell n x : Nat) (pos : 1 ≤ n) :
    Surrounds (centre extent cell n) n x (surround extent cell n x) := by
  unfold surround
  dsimp only
  generalize centre extent cell n = at'
  split
  · next before => exact ⟨.inl ⟨before, rfl, rfl, rfl⟩, pos, pos, Nat.zero_le _⟩
  · next behind =>
    have behind := Nat.le_of_not_lt behind
    split
    · next beyond =>
      have last : n - 1 < n := Nat.sub_lt pos Nat.one_pos
      exact ⟨.inr (.inl ⟨behind, beyond, rfl, rfl, rfl⟩), last, last, Nat.zero_le _⟩
    · next within =>
      have within := Nat.lt_of_not_le within
      obtain ⟨below, left, greatest⟩ := foldl_last n (fun i => at' i ≤ x) behind pos
      generalize List.foldl _ 0 (List.range n) = c at below left greatest ⊢
      have inner : c ≠ n - 1 := fun last => by rw [last] at left; omega
      have right : x < at' (c + 1) := by
        by_contra passed
        have := greatest (c + 1) (by omega) (by omega)
        omega
      exact ⟨.inr (.inr ⟨behind, within, below, left, greatest, rfl, rfl, rfl⟩), below, by dsimp only; omega,
        by dsimp only; omega⟩

/-- The three interpolations of R109 from the values `b` at the columns and rows around a pixel. -/
def joined (b : Nat → Nat → Nat) (h v : Surround) : Nat :=
  interpolate (interpolate (b h.first v.first) (b h.second v.first) h.offset h.span)
    (interpolate (b h.first v.second) (b h.second v.second) h.offset h.span) v.offset v.span

theorem light_eq (cap : Capture) (field : Sparse Nat) (x y : Nat) :
    cap.light field x y =
      max (joined (fun c r => sparseGet (fun _ => 0) field (r * cap.grid.columns + c))
        (surround cap.grid.width cap.grid.cellW cap.grid.columns x)
        (surround cap.grid.height cap.grid.cellH cap.grid.rows y)) cap.blackFloor := rfl

/-- Over the integers the three interpolations are floor divisions. -/
theorem joined_spec (b : Nat → Nat → Nat) (h v : Surround) (hh : h.offset ≤ h.span) (hv : v.offset ≤ v.span) :
    let join (p q : Int) (offset span : Nat) : Int := p + (q - p) * offset / span
    (joined b h v : Int) =
      join (join (b h.first v.first) (b h.second v.first) h.offset h.span)
        (join (b h.first v.second) (b h.second v.second) h.offset h.span) v.offset v.span := by
  have top := (interpolate_spec (b h.first v.first) (b h.second v.first) _ _ hh).1
  have bottom := (interpolate_spec (b h.first v.second) (b h.second v.second) _ _ hh).1
  rw [joined, (interpolate_spec _ _ _ _ hv).1, top, bottom]

/-- The joined value lies between the bounds of the values around the pixel. -/
theorem joined_between (b : Nat → Nat → Nat) (h v : Surround) (hh : h.offset ≤ h.span) (hv : v.offset ≤ v.span)
    (low high columns rows : Nat) (hb : ∀ c < columns, ∀ r < rows, low ≤ b c r ∧ b c r ≤ high)
    (hfirst : h.first < columns) (hsecond : h.second < columns) (vfirst : v.first < rows) (vsecond : v.second < rows) :
    low ≤ joined b h v ∧ joined b h v ≤ high := by
  have row (r : Nat) (hr : r < rows) : low ≤ interpolate (b h.first r) (b h.second r) h.offset h.span ∧
      interpolate (b h.first r) (b h.second r) h.offset h.span ≤ high := by
    have left := hb _ hfirst r hr
    have right := hb _ hsecond r hr
    have between := (interpolate_spec (b h.first r) (b h.second r) _ _ hh).2
    omega
  have top := row _ vfirst
  have bottom := row _ vsecond
  have between := (interpolate_spec (interpolate (b h.first v.first) (b h.second v.first) h.offset h.span)
    (interpolate (b h.first v.second) (b h.second v.second) h.offset h.span) _ _ hv).2
  unfold joined
  omega

/-- Settles O35, from the spread at a zone, the centres around a pixel, and what each interpolation keeps between. -/
theorem lightFieldAndPixelLight : Obligations.LightFieldAndPixelLight := by
  refine ⟨fun cap display c r hc hr => ?_, fun cap field width height columns rows threshold x y grid hcolumns _ hrows
    _ _ _ => ?_⟩
  · rw [field_at cap display c r hc hr, ← sum_rows 7 7 fun i j =>
      if i ≤ c + 3 ∧ c + 3 - i < cap.grid.columns ∧ j ≤ r + 3 ∧ r + 3 - j < cap.grid.rows then
        cap.kernel.getD (7 * j + i) 0 *
          sparseGet (fun _ => 0) display ((r + 3 - j) * cap.grid.columns + (c + 3 - i))
      else 0]
    simp only [Nat.div_add_mod]
    rfl
  · intro middle around b join
    have h := surround_spec width (width / columns) columns x hcolumns
    have v := surround_spec height (height / rows) rows y hrows
    have light := light_eq cap field x y
    rw [grid] at light
    simp only [Grid.lay] at light
    generalize surround width _ _ _ = hs at h light
    generalize surround height _ _ _ = vs at v light
    have value := joined_spec (fun c r => sparseGet (fun _ => 0) field (r * columns + c)) hs vs h.offset v.offset
    refine ⟨⟨hs.first, hs.second, hs.offset, hs.span, vs.first, vs.second, vs.offset, vs.span, h.cases, v.cases, ?_⟩,
      fun low high bounds => ?_⟩
    · rw [light, Nat.cast_max, value, max_comm]
    · have between := joined_between (fun c r => sparseGet (fun _ => 0) field (r * columns + c)) hs vs h.offset v.offset
        low high columns rows (fun c hc r hr => bounds _ (zone_inside hc hr)) h.first h.second v.first v.second
      rw [light]
      omega

/-! ## Gain and output (R110 to R112) -/

theorem component_toNat (n : Nat) : (component n).toNat = min 4095 n := by
  rw [component, BitVec.toNat_ofNat]
  omega

theorem scaled_mono (gain : Nat) {c d : Nat} (h : c ≤ d) : scaled gain c ≤ scaled gain d := by
  unfold scaled
  have := Nat.mul_le_mul_right gain h
  omega

/-- Scaling keeps the order of components, so a limit is passed first at the greatest. -/
theorem scaled_max_gt (gain limit a b c : Nat) :
    limit < scaled gain (max a (max b c)) ↔ limit < scaled gain a ∨ limit < scaled gain b ∨ limit < scaled gain c := by
  have mono : Monotone (scaled gain) := fun _ _ => scaled_mono gain
  rw [mono.map_max, mono.map_max, lt_max_iff, lt_max_iff]

/-- Each component scaled by the gain. -/
def scaledPixel (gain : Nat) (p : Pixel) : Pixel :=
  ⟨component (scaled gain p.red.toNat), component (scaled gain p.green.toNat), component (scaled gain p.blue.toNat)⟩

theorem outputPixel_components (gain : Nat) (p : Pixel) :
    outputPixel 0 gain p = (scaledPixel gain p, decide (4095 < scaled gain (pixelDemand p))) := rfl

/-- The gain that hue preservation uses (R112). -/
def hueGain (gain top : Nat) : Nat := if 4193280 < top * gain then 4193280 / top else gain

theorem outputPixel_hue (gain : Nat) (p : Pixel) :
    outputPixel 1 gain p = (scaledPixel (hueGain gain (pixelDemand p)) p, decide (4193280 < pixelDemand p * gain)) := by
  unfold outputPixel hueGain
  dsimp only
  rw [if_neg Nat.one_ne_zero]
  split
  · next above => rw [decide_eq_true above]; rfl
  · next within => rw [decide_eq_false within]; rfl

/-- No component passes 4095 at the gain that hue preservation uses. -/
theorem scaled_hueGain_le (gain top c : Nat) (h : c ≤ top) : scaled (hueGain gain top) c ≤ 4095 := by
  have product : top * hueGain gain top ≤ 4193280 := by
    unfold hueGain
    split
    · exact Nat.mul_div_le _ _
    · next within => exact Nat.le_of_not_lt within
  have := Nat.mul_le_mul_right (hueGain gain top) h
  unfold scaled
  omega

/-- The gain is reduced exactly where the greatest component would pass its limit. -/
theorem hueGain_lt_iff (gain top : Nat) : hueGain gain top < gain ↔ 4193280 < top * gain := by
  unfold hueGain
  split
  · next above =>
    have pos : 0 < top := Nat.pos_of_ne_zero fun zero => by rw [zero, Nat.zero_mul] at above; omega
    rw [Nat.div_lt_iff_lt_mul pos, Nat.mul_comm]
  · next within => exact iff_of_false (lt_irrefl _) within

theorem le_pixelDemand (p : Pixel) :
    p.red.toNat ≤ pixelDemand p ∧ p.green.toNat ≤ pixelDemand p ∧ p.blue.toNat ≤ pixelDemand p := by
  unfold pixelDemand
  omega

/-- Settles O36, by the two clip modes. -/
theorem gainAndOutputOfAPixel : Obligations.GainAndOutputOfAPixel := by
  intro cap field x y p gain top out
  have hout : out = outputPixel cap.clipMode gain p := rfl
  clear_value out gain
  refine ⟨fun mode => ?_, fun mode => ?_⟩
  · rw [mode, outputPixel_components] at hout
    subst hout
    refine ⟨component_toNat _, component_toNat _, component_toNat _, ?_⟩
    rw [decide_eq_true_iff]
    exact scaled_max_gt gain 4095 _ _ _
  · intro used
    rw [mode, outputPixel_hue] at hout
    subst hout
    obtain ⟨red, green, blue⟩ := le_pixelDemand p
    have whole (c : Nat) (h : c ≤ top) : (component (scaled (hueGain gain top) c)).toNat = (c * used + 512) / 1024 := by
      rw [component_toNat, min_eq_right (scaled_hueGain_le gain top c h)]
      rfl
    have clipped : decide (4193280 < top * gain) = true ↔ 4193280 < top * gain := decide_eq_true_iff
    exact ⟨whole _ red, whole _ green, whole _ blue, clipped, clipped.trans (hueGain_lt_iff gain top).symm⟩

end Sys2Proof.Laws
end

