-- ==== Sys2Proof/Proofs/ChainSettlement.lean ====
section
/-! PROOF. How a first active line settles the chains, decides the display and lights the frame, and how pending latches
fall due (R100 to R106, R120 to R122). -/

namespace Sys2Proof.Laws

open Sys2Proof.Machine

/-! ## The settlement of a chain (R100, R101) -/

theorem hasBurstFor_iff (c : ChainRec) (t : SolveTag) :
    c.hasBurstFor t = true ↔
      (∃ job devices slot, c.activity = .burst job devices slot ∧ job.tag = t) ∨
        ∃ job, c.waiting = some job ∧ job.tag = t := by
  unfold ChainRec.hasBurstFor
  rw [Bool.or_eq_true]
  refine or_congr ?_ ?_
  · cases c.activity <;> simp
  · cases c.waiting <;> simp

/-- A chain that the latest set does not offer itself to keeps what it has. -/
theorem settle_not_offered (s : State) (k : ChainNo) (h : ∀ tag, ¬ s.offers k tag) : s.settle k = .held := by
  unfold State.settle
  dsimp only
  split
  · rfl
  · rfl
  · next tag tagged standby =>
    by_cases referenced : s.lvs.lastSet.references k.val = true
    · have taken : s.pxc.taken[k] = some tag := by
        by_contra other
        exact h tag ⟨standby, tagged, referenced, other⟩
      simp [taken]
    · simp [referenced]

/-- The set is taken where its burst is done, and late where its burst runs or waits. -/
theorem settle_offered (s : State) (k : ChainNo) (tag : SolveTag) (h : s.offers k tag) :
    s.settle k =
      if s.chc.chains[k].doneTag = some tag then .takes
      else if s.chc.chains[k].hasBurstFor tag then .late else .held := by
  obtain ⟨standby, tagged, referenced, other⟩ := h
  unfold State.settle
  dsimp only
  rw [tagged]
  cases mode : s.mdc.mode
  · exact absurd mode standby
  all_goals simp only [referenced, other, Bool.not_true, decide_false, Bool.or_false, Bool.false_eq_true, if_false]

theorem offers_tag {s : State} {k : ChainNo} {tag tag' : SolveTag} (h : s.offers k tag) (h' : s.offers k tag') :
    tag' = tag := Option.some_inj.1 (h'.2.1.symm.trans h.2.1)

theorem settle_takes_iff (s : State) (k : ChainNo) : s.settle k = .takes ↔ s.takesLatest k := by
  by_cases offered : ∃ tag, s.offers k tag
  · obtain ⟨tag, offered⟩ := offered
    have done : s.takesLatest k ↔ s.chc.chains[k].doneTag = some tag :=
      ⟨fun ⟨_, again, done⟩ => offers_tag offered again ▸ done, fun done => ⟨tag, offered, done⟩⟩
    rw [settle_offered s k tag offered, done]
    split
    · next done => exact iff_of_true rfl done
    · next undone => exact iff_of_false (by split <;> nofun) undone
  · rw [settle_not_offered s k (not_exists.1 offered)]
    exact iff_of_false nofun fun ⟨tag, again, _⟩ => offered ⟨tag, again⟩

theorem settle_late_iff (s : State) (k : ChainNo) : s.settle k = .late ↔ s.lateAtFirstLine k := by
  by_cases offered : ∃ tag, s.offers k tag
  · obtain ⟨tag, offered⟩ := offered
    have late : s.lateAtFirstLine k ↔
        s.chc.chains[k].doneTag ≠ some tag ∧ s.chc.chains[k].hasBurstFor tag = true := by
      rw [hasBurstFor_iff]
      exact ⟨fun ⟨_, again, late⟩ => offers_tag offered again ▸ late, fun late => ⟨tag, offered, late⟩⟩
    rw [settle_offered s k tag offered, late]
    split
    · next done => exact iff_of_false nofun fun late => late.1 done
    · next undone =>
      split
      · next burst => exact iff_of_true rfl ⟨undone, burst⟩
      · next no_burst => exact iff_of_false nofun fun late => no_burst late.2
  · rw [settle_not_offered s k (not_exists.1 offered)]
    exact iff_of_false nofun fun ⟨tag, again, _⟩ => offered ⟨tag, again⟩

theorem settlements_at (s : State) (k : ChainNo) : s.settlements[k] = s.settle k := by
  simp [State.settlements]

theorem tookSet_iff (s : State) (n : Nat) :
    tookSet s.settlements n = true ↔ ∃ k : ChainNo, n = k.val ∧ s.takesLatest k := by
  unfold tookSet
  rw [decide_eq_true_iff, Vector.getElem?_toList, Vector.getElem?_eq_some_iff]
  constructor
  · rintro ⟨inside, takes⟩
    exact ⟨⟨n, inside⟩, rfl, (settle_takes_iff s _).1 ((settlements_at s ⟨n, inside⟩).symm.trans takes)⟩
  · rintro ⟨k, rfl, takes⟩
    exact ⟨k.isLt, (settlements_at s k).trans ((settle_takes_iff s k).2 takes)⟩

theorem tookSet_chain (s : State) (k : ChainNo) : tookSet s.settlements k.val = true ↔ s.takesLatest k := by
  rw [tookSet_iff]
  exact ⟨fun ⟨j, same, takes⟩ => Fin.ext same ▸ takes, fun takes => ⟨k, rfl, takes⟩⟩

/-! ## Latches that fall due (R121, R122) -/

/-- A chain once its pending latch has fallen due in the frame `frame`: an IDLE line sends it, another has it due. -/
def latchFallen (c : ChainRec) (frame : Dword) : ChainRec :=
  if c.latchPending && c.latchDue.isNone && !c.latching then
    if c.isIdle then { c with latchDue := none }.sending (.latch (some frame)) latchMessage
    else { c with latchDue := some frame }
  else c

theorem latchFallsDue_eq (s : State) (k : ChainNo) :
    s.latchFallsDue k = s.setChain k (latchFallen s.chc.chains[k] s.ftu.frameNumber) := by
  unfold State.latchFallsDue latchFallen
  dsimp only
  split
  · by_cases idle : s.chc.chains[k].isIdle = true
    · rw [arbitrate_latch _ k s.ftu.frameNumber (by rw [State.setChain_chain_same]; exact idle)
        (by rw [State.setChain_chain_same]), State.setChain_chain_same, if_pos idle]
      simp [State.setChain]
    · rw [arbitrate_busy _ k (by rw [State.setChain_chain_same]; exact Bool.eq_false_of_not_eq_true idle), if_neg idle]
  · simp [State.setChain]

/-- The latches of some chains fall due, each for itself. -/
theorem foldl_latchFallsDue (l : List ChainNo) (hn : l.Nodup) (s : State) :
    ∃ chains, l.foldl State.latchFallsDue s = { s with chc := { s.chc with chains := chains } } ∧
      ∀ k : ChainNo, chains[k] =
        if k ∈ l then latchFallen s.chc.chains[k] s.ftu.frameNumber else s.chc.chains[k] := by
  induction l generalizing s with
  | nil => exact ⟨s.chc.chains, rfl, fun k => rfl⟩
  | cons j l ih =>
    obtain ⟨fresh, hn⟩ := List.nodup_cons.1 hn
    obtain ⟨chains, rest, at'⟩ := ih hn (s.setChain j (latchFallen s.chc.chains[j] s.ftu.frameNumber))
    refine ⟨chains, ?_, fun k => ?_⟩
    · rw [List.foldl_cons, latchFallsDue_eq, rest]
      rfl
    · rw [at' k]
      by_cases own : k = j
      · subst own
        rw [if_neg fresh, if_pos List.mem_cons_self, State.setChain_chain_same]
      · rw [State.setChain_chain_other _ _ _ _ (Ne.symm own), State.setChain_ftu]
        simp only [List.mem_cons, own, false_or]

theorem latchesFallDue_eq (s : State) :
    s.latchesFallDue = { s with chc := { s.chc with
      chains := Vector.ofFn (fun k => latchFallen s.chc.chains[k] s.ftu.frameNumber) } } := by
  obtain ⟨chains, due, fallen⟩ := foldl_latchFallsDue allChains (by decide) s
  have all : chains = Vector.ofFn (fun k => latchFallen s.chc.chains[k] s.ftu.frameNumber) :=
    Vector.ext fun i hi => by simpa [mem_allChains] using fallen ⟨i, hi⟩
  rw [← all]
  exact due

theorem latchesOfLine_eq (s : State) (n : Nat) :
    ∃ chains, s.latchesOfLine n = { s with chc := { s.chc with chains := chains } } ∧
      ∀ k : ChainNo, chains[k] =
        if s.chc.latchLines[k] = n then latchFallen s.chc.chains[k] s.ftu.frameNumber else s.chc.chains[k] := by
  have hn : allChains.Nodup := by decide
  obtain ⟨chains, due, at'⟩ :=
    foldl_latchFallsDue (allChains.filter (fun k => decide (s.chc.latchLines[k] = n))) (hn.filter _) s
  exact ⟨chains, due, fun k => by simpa [mem_allChains k] using at' k⟩

/-- Nothing falls due where nothing is pending. -/
theorem latchFallen_not_pending (c : ChainRec) (frame : Dword) (h : c.latchPending = false) :
    latchFallen c frame = c := by
  unfold latchFallen
  rw [h]
  rfl

/-- On an IDLE line a pending latch is sent as it falls due. -/
theorem latchFallen_idle (c : ChainRec) (frame : Dword) (hp : c.latchPending = true) (hd : c.latchDue = none)
    (ha : c.activity = .idle) :
    latchFallen c frame = ({ c with latchDue := none } : ChainRec).sending (.latch (some frame)) latchMessage := by
  unfold latchFallen
  rw [if_pos (by simp [hp, hd, ha, ChainRec.latching]), if_pos ((isIdle_iff c).2 ha)]

/-- A latch that falls due keeps the chain's burst, running or waiting, its done tag, and the latch pending. -/
theorem latchFallen_kept (c : ChainRec) (frame : Dword) :
    (latchFallen c frame).doneTag = c.doneTag ∧ (latchFallen c frame).latchPending = c.latchPending ∧
      ∀ tag, (latchFallen c frame).hasBurstFor tag = c.hasBurstFor tag := by
  unfold latchFallen
  split
  · split
    · next idle =>
      refine ⟨rfl, rfl, fun tag => ?_⟩
      simp [ChainRec.sending, ChainRec.hasBurstFor, (isIdle_iff c).1 idle]
    · exact ⟨rfl, rfl, fun tag => rfl⟩
  · exact ⟨rfl, rfl, fun tag => rfl⟩

/-! ## The report of late chains (R101, R120) -/

/-- The mask with the bit of each chain of a list. -/
def chainMask (l : List ChainNo) : BitVec 8 := l.foldl (fun m k => m ||| (1#8 <<< k.val)) 0#8

theorem chainMask_bit (l : List ChainNo) (k : ChainNo) : (chainMask l).getLsbD k.val = true ↔ k ∈ l := by
  have bit (j : ChainNo) : (1#8 <<< j.val).getLsbD k.val = decide (k = j) := by
    revert k j
    decide
  have fold (m : BitVec 8) : (l.foldl (fun m k => m ||| (1#8 <<< k.val)) m).getLsbD k.val =
      (m.getLsbD k.val || decide (k ∈ l)) := by
    induction l generalizing m with
    | nil => simp
    | cons j l ih =>
      rw [List.foldl_cons, ih, BitVec.getLsbD_or, bit, Bool.or_assoc, ← Bool.decide_or]
      simp only [List.mem_cons]
  rw [chainMask, fold]
  simp

/-- The late chains of the settlements. -/
def lateChains (took : Vector Settlement 8) : List ChainNo := allChains.filter (fun k => decide (took[k] = .late))

theorem mem_lateChains (s : State) (k : ChainNo) : k ∈ lateChains s.settlements ↔ s.lateAtFirstLine k := by
  rw [lateChains, List.mem_filter, decide_eq_true_iff, settlements_at, settle_late_iff]
  exact and_iff_right (mem_allChains k)

theorem reportLate_rpu (s : State) (took : Vector Settlement 8) :
    (s.reportLate took).rpu = { s.rpu with
      burstLate := chainMask (lateChains took)
      counters := s.rpu.counters.add (lateChains took).length .burstsLate
      flags := if lateChains took = [] then s.rpu.flags else s.rpu.flags ||| Event.burstLate.bit } := by
  unfold State.reportLate lateChains chainMask
  dsimp only
  generalize List.filter _ allChains = late
  cases late with
  | nil => rfl
  | cons k late => rfl

/-! ## The display (R102 to R104) -/

theorem faulty_iff (c : Chc) (z : Nat) :
    c.faulty z = true ↔ c.latch z ≠ .clear ∨ sparseGet (fun _ => false) c.struck z = true := by
  rw [Chc.faulty, Bool.or_eq_true, decide_eq_true_iff]

/-- The display chain of a zone is none, or takes the latest set. -/
def zoneFreed (s : State) (z : Nat) : Bool :=
  (sparseGet (fun _ => none) s.pxc.displayChain z).all (tookSet s.settlements)

theorem zoneFreed_iff (s : State) (z : Nat) :
    zoneFreed s z = true ↔ sparseGet (fun _ => none) s.pxc.displayChain z = none ∨
      ∃ k : ChainNo, sparseGet (fun _ => none) s.pxc.displayChain z = some k.val ∧ s.takesLatest k := by
  unfold zoneFreed
  cases sparseGet (fun _ => none) s.pxc.displayChain z with
  | none => simp
  | some n => simp [tookSet_iff]

/-- A skipped and freed zone goes dark and is nobody's; another is dark where a latch is or was set, is lit where its
chain takes the set, and else stays. -/
theorem displayOf_eq (s : State) (z : Nat) :
    s.displayOf s.settlements z =
      if (s.lvs.lastSet.zone z).channel.isNone && zoneFreed s z then (0, none)
      else if s.chc.faulty z then (0, sparseGet (fun _ => none) s.pxc.displayChain z)
      else match (s.lvs.lastSet.zone z).channel with
        | some c => if tookSet s.settlements c.chain then (s.lvs.litLevel z, some c.chain)
          else (sparseGet (fun _ => 0) s.pxc.display z, sparseGet (fun _ => none) s.pxc.displayChain z)
        | none => (sparseGet (fun _ => 0) s.pxc.display z, sparseGet (fun _ => none) s.pxc.displayChain z) := by
  unfold State.displayOf zoneFreed
  cases sparseGet (fun _ => none) s.pxc.displayChain z <;> rfl

theorem displayOf_skipped (s : State) (z : Nat) (skipped : (s.lvs.lastSet.zone z).channel = none)
    (freed : zoneFreed s z = true) : s.displayOf s.settlements z = (0, none) := by
  rw [displayOf_eq, skipped, freed]
  rfl

theorem displayOf_faulty (s : State) (z : Nat) (faulty : s.chc.faulty z = true) :
    (s.displayOf s.settlements z).1 = 0 := by
  rw [displayOf_eq, if_pos faulty]
  split <;> rfl

theorem displayOf_taken (s : State) (z : Nat) (c : Channel) (k : ChainNo)
    (mapped : (s.lvs.lastSet.zone z).channel = some c) (chain : c.chain = k.val) (takes : s.takesLatest k)
    (faultless : ¬ s.chc.faulty z = true) : s.displayOf s.settlements z = (s.lvs.litLevel z, some k.val) := by
  rw [displayOf_eq, mapped, if_neg faultless, Option.isNone_some, Bool.false_and, if_neg Bool.false_ne_true]
  dsimp only
  rw [chain, if_pos ((tookSet_chain s k).2 takes)]

theorem displayOf_kept (s : State) (z : Nat) (faultless : ¬ s.chc.faulty z = true)
    (unfreed : (s.lvs.lastSet.zone z).channel = none → ¬ zoneFreed s z = true)
    (untaken : ∀ (c : Channel) (k : ChainNo), (s.lvs.lastSet.zone z).channel = some c → c.chain = k.val →
      ¬ s.takesLatest k) : (s.displayOf s.settlements z).1 = sparseGet (fun _ => 0) s.pxc.display z := by
  rw [displayOf_eq, if_neg faultless]
  cases mapped : (s.lvs.lastSet.zone z).channel with
  | none =>
    rw [Option.isNone_none, Bool.true_and, if_neg (unfreed mapped)]
  | some c =>
    have untook : ¬ tookSet s.settlements c.chain = true := fun took => by
      obtain ⟨k, chain, takes⟩ := (tookSet_iff s c.chain).1 took
      exact untaken c k mapped chain takes
    dsimp only
    rw [if_neg untook, Option.isNone_some, Bool.false_and, if_neg Bool.false_ne_true]

theorem setDisplay_standby (s : State) (took : Vector Settlement 8) (h : s.mdc.mode = .standby) :
    s.setDisplay took = { s with pxc := { s.pxc with display := [] } } := if_pos h

/-- Outside STANDBY every zone is shown as decided, and the chains that take the set carry its tag. -/
theorem setDisplay_lit (s : State) (took : Vector Settlement 8) (h : s.mdc.mode ≠ .standby) :
    (∀ z < Config.zones,
      sparseGet (fun _ => 0) (s.setDisplay took).pxc.display z = (s.displayOf took z).1 ∧
      sparseGet (fun _ => none) (s.setDisplay took).pxc.displayChain z = (s.displayOf took z).2) ∧
    ∀ k : ChainNo, (s.setDisplay took).pxc.taken[k] =
      if took[k] = .takes then s.lvs.lastSet.tag else s.pxc.taken[k] := by
  unfold State.setDisplay
  rw [if_neg h]
  refine ⟨fun z hz => ?_, fun k => by simp⟩
  have inside : 0 ≤ z ∧ z < 0 + Config.zones := by omega
  dsimp only
  rw [sparseGet_tabulate, sparseGet_tabulate, if_pos inside, if_pos inside, Nat.sub_zero]
  exact ⟨rfl, rfl⟩

/-- A chain that takes no set keeps its tag. -/
theorem setDisplay_taken (s : State) (took : Vector Settlement 8) (k : ChainNo) (h : took[k] ≠ .takes) :
    (s.setDisplay took).pxc.taken[k] = s.pxc.taken[k] := by
  by_cases standby : s.mdc.mode = .standby
  · rw [setDisplay_standby s took standby]
  · rw [(setDisplay_lit s took standby).2, if_neg h]

/-! ## The light of the frame (R105, R106) -/

theorem lightFrame_eq (s : State) :
    ∃ compensating field,
      s.lightFrame = { s with pxc := { s.pxc with compensating := compensating, field := field } } ∧
      (compensating = false → field = s.pxc.field) ∧
      ∀ cap, s.pxc.capture = some cap →
        (compensating = true ↔ s.ftu.state = .following ∧ cap.mode = .dimming) ∧
        (compensating = true → field = cap.field s.pxc.display) := by
  unfold State.lightFrame
  cases s.pxc.capture with
  | none => exact ⟨false, s.pxc.field, rfl, fun _ => rfl, nofun⟩
  | some cap =>
    dsimp only
    split
    · next lit =>
      refine ⟨true, cap.field s.pxc.display, rfl, nofun, fun cap' same => ?_⟩
      obtain rfl := Option.some_inj.1 same
      exact ⟨iff_of_true rfl lit, fun _ => rfl⟩
    · next unlit =>
      refine ⟨false, s.pxc.field, rfl, fun _ => rfl, fun cap' same => ?_⟩
      obtain rfl := Option.some_inj.1 same
      exact ⟨iff_of_false nofun unlit, nofun⟩

end Sys2Proof.Laws
end

