-- ==== Sys2Proof/Proofs/FirstLine.lean ====
section
/-! PROOF. The first active line with no frame turn waiting: what it finds, what it does to each unit, and the
statements about its chains, its display levels and its report of late chains (R99 to R106, R120, R121). -/

namespace Sys2Proof.Laws

open Sys2Proof.Machine

/-! ## The line is taken (R13, R99) -/

/-- A due first active line is taken: a followed one at once, a free-run one 800 µs after its frame's start or later. -/
theorem exec_firstActiveLine_at (dt : Nat) (s : State) (h : s.firstLineDue) :
    ∃ clock : Clock, exec (.firstActiveLine dt) s = .next ({ s with clock := clock } : State).firstLine ∧
      clock.now = if s.ftu.state = .freeRun then max (s.clock.now + dt) (s.ftu.startedAt + 800)
        else s.clock.now + dt := by
  obtain ⟨phase, free | ⟨following, pixels, damaged, off, width, rest, delay⟩⟩ := h
  · refine ⟨((s.advance dt).advanceTo (s.ftu.startedAt + Config.freeRunBlanking)).clock, ?_, ?_⟩
    · show execFirstActiveLine dt s = _
      simp only [execFirstActiveLine, State.advance_ftu, phase, free]
      rfl
    · rw [if_pos free]
      exact State.advanceTo_now (s.advance dt) (s.ftu.startedAt + Config.freeRunBlanking)
  · refine ⟨(s.advance dt).clock, ?_, ?_⟩
    · show execFirstActiveLine dt s = _
      simp only [execFirstActiveLine, State.advance_ftu, phase, following, delay]
      rfl
    · rw [if_neg (by rw [following]; nofun)]
      rfl

/-! ## What the line finds (R99, R121) -/

/-- The capture that a first active line takes over the grid record `g` (R99). -/
def captureOf (s : State) (g : Grid) : Capture :=
  ⟨s.mem.active Config.bref, s.mem.active Config.gainLimit, s.mem.active Config.clipMode,
    s.mem.active Config.blackFloor, s.mem.kernelList, g, s.mdc.mode⟩

/-- The capture behind a first active line: a new one where a grid has been laid. -/
def captureTaken (s : State) : Option Capture := (s.stu.grid.map (captureOf s)).or s.pxc.capture

theorem captureFrame_of_quiet (s : State) (hq : s.quiet) :
    s.captureFrame = { s with pxc := { s.pxc with capture := captureTaken s } } := by
  unfold State.captureFrame captureTaken
  rw [readSettings_of_quiet s hq, readRange_of_quiet s hq]
  dsimp only
  cases s.stu.grid with
  | none => rfl
  | some g => rfl

theorem readLatchLines_of_quiet (s : State) (hq : s.quiet) :
    s.readLatchLines = { s with chc := { s.chc with
      latchLines := Vector.ofFn (fun k => s.mem.active (Config.latchLine k.val)) } } := by
  unfold State.readLatchLines
  rw [readSettings_of_quiet s hq]

/-- The state `s` at the time `clock`, its capture taken, its LATCH_LINE entries read, its left-over latches fallen
due. -/
def lineReady (s : State) (clock : Clock) : State :=
  { s with
    clock := clock
    pxc := { s.pxc with capture := captureTaken s }
    chc := { s.chc with
      latchLines := Vector.ofFn (fun k => s.mem.active (Config.latchLine k.val))
      chains := Vector.ofFn (fun k => latchFallen s.chc.chains[k] s.ftu.frameNumber) } }

/-- Where no error and no frame turn waits, the line begins on the captured tables. -/
theorem firstLine_ready (s : State) (hq : s.quiet) (hw : s.ftu.turnWaiting = false) :
    s.firstLine = State.lineBegun (lineReady s s.clock) := by
  rw [firstLine_eq, forceTurn_not_waiting s hw, latchesFallDue_eq, captureFrame_of_quiet, readLatchLines_of_quiet]
  · rfl
  · exact hq
  · exact hq

theorem lineReady_chain (s : State) (clock : Clock) (k : ChainNo) :
    (lineReady s clock).chc.chains[k] = latchFallen s.chc.chains[k] s.ftu.frameNumber := by
  simp [lineReady]

theorem lineReady_latchLine (s : State) (clock : Clock) (k : ChainNo) :
    (lineReady s clock).chc.latchLines[k] = s.mem.active (32 + k.val) := by
  simp [lineReady, Config.latchLine]

/-- Latches that fall due at the line's start settle no chain otherwise. -/
theorem settlements_lineReady (s : State) (clock : Clock) : (lineReady s clock).settlements = s.settlements := by
  refine congrArg Vector.ofFn (funext fun k => ?_)
  obtain ⟨done, -, burst⟩ := latchFallen_kept s.chc.chains[k] s.ftu.frameNumber
  unfold State.settle
  rw [lineReady_chain]
  simp only [done, burst]
  rfl

/-! ## The line begun -/

/-- The chain behind a first active line at LATCH_LINE `line`: its latch permitted where it takes the set, and fallen
due at line 0. -/
def chainBegun (c : ChainRec) (settled : Settlement) (line : Nat) (frame : Dword) : ChainRec :=
  let c := if settled = .takes then { c with latchPending := true } else c
  if line = 0 then latchFallen c frame else c

theorem chainBegun_not_taken (c : ChainRec) (settled : Settlement) (line : Nat) (frame : Dword)
    (h : settled ≠ .takes) (hp : c.latchPending = false) : chainBegun c settled line frame = c := by
  unfold chainBegun
  dsimp only
  rw [if_neg h, latchFallen_not_pending c frame hp, ite_self]

/-- A chain that takes the set has its latch pending; at LATCH_LINE 0 an IDLE line sends it at once. -/
theorem chainBegun_taken (c : ChainRec) (line : Nat) (frame : Dword) (hd : c.latchDue = none) :
    (chainBegun c .takes line frame).latchPending = true ∧
      (line ≠ 0 → chainBegun c .takes line frame = { c with latchPending := true }) ∧
      (line = 0 → c.activity = .idle → (chainBegun c .takes line frame).activity = .latch (some frame) ∧
        (chainBegun c .takes line frame).message = latchMessage) := by
  unfold chainBegun
  dsimp only
  rw [if_pos rfl]
  refine ⟨?_, fun other => if_neg other, fun first idle => ?_⟩
  · split
    · exact (latchFallen_kept { c with latchPending := true } frame).2.1
    · rfl
  · rw [if_pos first, latchFallen_idle { c with latchPending := true } frame rfl hd idle]
    exact ⟨rfl, rfl⟩

theorem permitLatches_chain (s : State) (took : Vector Settlement 8) (k : ChainNo) :
    (s.permitLatches took).chc.chains[k] =
      if took[k] = .takes then { s.chc.chains[k] with latchPending := true } else s.chc.chains[k] := by
  simp [State.permitLatches]

/-- The compensator behind the display levels and the light of the frame. -/
def shownPxc (s : State) : Pxc := (s.setDisplay s.settlements).lightFrame.pxc

/-- The report unit's record has no part in what is shown. -/
theorem setDisplay_lightFrame_rpu (s : State) (rpu : Rpu) :
    (({ s with rpu := rpu } : State).setDisplay s.settlements).lightFrame =
      { s with rpu := rpu, pxc := shownPxc s } := by
  have display : ({ s with rpu := rpu } : State).setDisplay s.settlements =
      { s with rpu := rpu, pxc := (s.setDisplay s.settlements).pxc } := by
    unfold State.setDisplay
    dsimp only
    split <;> rfl
  obtain ⟨shown, displayed, -⟩ := setDisplay_kept s s.settlements
  unfold shownPxc
  rw [display, displayed]
  unfold State.lightFrame
  dsimp only
  cases shown.capture with
  | none => rfl
  | some cap =>
    dsimp only
    split <;> rfl

/-- What a first active line does to each unit. -/
structure LineBegun (s t : State) : Prop where
  rpu    : t.rpu = (s.reportLate s.settlements).rpu
  pxc    : t.pxc = { shownPxc s with clips := 0 }
  chains : ∀ k : ChainNo,
    t.chc.chains[k] = chainBegun s.chc.chains[k] (s.settle k) s.chc.latchLines[k] s.ftu.frameNumber
  chc    : t.chc = { s.chc with chains := t.chc.chains, struck := [] }
  ftu    : t.ftu = { s.ftu with phase := .active 0 }
  others : { t with rpu := s.rpu, pxc := s.pxc, chc := s.chc, ftu := s.ftu } = s

theorem lineBegun_begins (s : State) : LineBegun s (State.lineBegun s) := by
  have reported : s.reportLate s.settlements = { s with rpu := (s.reportLate s.settlements).rpu } := by
    obtain ⟨flags, counters, burstLate, late, -⟩ := reportLate_kept s s.settlements
    rw [late]
  have shown := setDisplay_lightFrame_rpu s (s.reportLate s.settlements).rpu
  rw [← reported] at shown
  unfold State.lineBegun
  dsimp only
  rw [shown]
  generalize hu : ({ s with rpu := (s.reportLate s.settlements).rpu, pxc := shownPxc s } : State) = u
  obtain ⟨chains, due, fallen⟩ := latchesOfLine_eq (u.permitLatches s.settlements) 0
  rw [due]
  subst hu
  refine ⟨rfl, rfl, fun k => ?_, rfl, rfl, rfl⟩
  rw [← settlements_at]
  refine (fallen k).trans ?_
  rw [permitLatches_chain]
  rfl

/-- The light of the frame leaves the display as it was set. -/
theorem shownPxc_display (s : State) :
    (shownPxc s).display = (s.setDisplay s.settlements).pxc.display ∧
      (shownPxc s).displayChain = (s.setDisplay s.settlements).pxc.displayChain ∧
      (shownPxc s).taken = (s.setDisplay s.settlements).pxc.taken := by
  obtain ⟨compensating, field, lit, -⟩ := lightFrame_eq (s.setDisplay s.settlements)
  unfold shownPxc
  rw [lit]
  exact ⟨rfl, rfl, rfl⟩

/-- The compensator's flag and field follow the capture, with the display levels just set (R105, R106). -/
theorem shownPxc_light (s : State) (cap : Capture) (h : s.pxc.capture = some cap) :
    (shownPxc s).capture = some cap ∧
      ((shownPxc s).compensating = true ↔ s.ftu.state = .following ∧ cap.mode = .dimming) ∧
      ((shownPxc s).compensating = true → (shownPxc s).field = cap.field (shownPxc s).display) ∧
      ((shownPxc s).compensating = false → (shownPxc s).field = s.pxc.field) := by
  have kept : (s.setDisplay s.settlements).pxc.field = s.pxc.field := by unfold State.setDisplay; split <;> rfl
  obtain ⟨shown, displayed, capture⟩ := setDisplay_kept s s.settlements
  obtain ⟨compensating, field, lit, still, captured⟩ := lightFrame_eq (s.setDisplay s.settlements)
  obtain ⟨flag, spread⟩ := captured cap (by rw [displayed]; exact capture.trans h)
  unfold shownPxc
  rw [lit]
  rw [displayed] at flag spread still kept ⊢
  exact ⟨capture.trans h, flag, spread, fun dark => (still dark).trans kept⟩

/-- A due first active line with no frame turn and no error waiting, from the state that it finds to the one it
leaves. -/
theorem exec_firstActiveLine_begun (dt : Nat) (s : State) (due : s.firstLineDue) (hw : s.ftu.turnWaiting = false)
    (hq : s.quiet) :
    ∃ t clock, exec (.firstActiveLine dt) s = .next t ∧ LineBegun (lineReady s clock) t ∧
      clock.now = if s.ftu.state = .freeRun then max (s.clock.now + dt) (s.ftu.startedAt + 800)
        else s.clock.now + dt := by
  obtain ⟨clock, runs, now⟩ := exec_firstActiveLine_at dt s due
  rw [firstLine_ready { s with clock := clock } hq hw] at runs
  exact ⟨_, clock, runs, lineBegun_begins _, now⟩

/-! ## The obligations (R99 to R106, R120, R121) -/

/-- Settles O25: the report of late chains, by their settlements. -/
theorem lateChainsAreReported : Obligations.LateChainsAreReported := by
  intro dt s due hw hq
  obtain ⟨t, clock, runs, begun, -⟩ := exec_firstActiveLine_begun dt s due hw hq
  have settled := settlements_lineReady s clock
  have rpu := begun.rpu
  rw [settled, reportLate_rpu] at rpu
  have bit (k : ChainNo) : t.rpu.burstLate.getLsbD k.val = true ↔ s.lateAtFirstLine k := by
    rw [rpu]
    exact (chainMask_bit _ k).trans (mem_lateChains s k)
  have masked : allChains.filter (fun k => t.rpu.burstLate.getLsbD k.val) = lateChains s.settlements := by
    refine List.filter_congr fun k _ => Bool.eq_iff_iff.2 ((bit k).trans ?_)
    rw [decide_eq_true_iff, settlements_at, settle_late_iff]
  refine ⟨t, (lateChains s.settlements).length, runs, bit, by rw [rpu]; rfl, by rw [masked], fun no_late => ?_,
    fun late => ?_, fun k late => ?_⟩
  · rw [rpu]
    exact if_pos (List.length_eq_zero_iff.1 no_late)
  · rw [rpu]
    exact if_neg fun no_one => late (List.length_eq_zero_iff.2 no_one)
  · have not_taken : s.settlements[k] ≠ .takes := by
      rw [settlements_at, (settle_late_iff s k).2 late]
      nofun
    rw [begun.pxc]
    dsimp only
    rw [(shownPxc_display _).2.2, settled, setDisplay_taken _ _ k not_taken]
    rfl

/-- Settles O24, zone by zone, by the branches of R102 and R103. -/
theorem displayLevelsFollowChains : Obligations.DisplayLevelsFollowChains := by
  intro dt s due hw hq
  obtain ⟨t, clock, runs, begun, -⟩ := exec_firstActiveLine_begun dt s due hw hq
  have settled := settlements_lineReady s clock
  have decided (z : Nat) : (lineReady s clock).displayOf s.settlements z = s.displayOf s.settlements z := rfl
  obtain ⟨display, displayChain, -⟩ := shownPxc_display (lineReady s clock)
  rw [settled] at display displayChain
  refine ⟨t, runs, fun standby z => ?_, fun lit z hz => ?_⟩
  · have dark := setDisplay_standby (lineReady s clock) s.settlements standby
    rw [begun.pxc]
    dsimp only
    rw [display, dark, sparseGet_nil]
  · obtain ⟨level, chain⟩ := (setDisplay_lit (lineReady s clock) s.settlements lit).1 z hz
    rw [← display, decided] at level
    rw [← displayChain, decided] at chain
    rw [begun.pxc]
    dsimp only
    rw [level, chain, ← faulty_iff, ← zoneFreed_iff]
    refine ⟨fun skipped freed => ?_, displayOf_faulty s z, fun c k mapped own takes faultless => ?_,
      fun faultless unfreed untaken => displayOf_kept s z faultless unfreed untaken⟩
    · rw [displayOf_skipped s z skipped freed]
      exact ⟨rfl, rfl⟩
    · rw [displayOf_taken s z c k mapped own takes faultless]
      exact ⟨rfl, rfl⟩

/-- Settles O23, unit by unit. -/
theorem firstLineSettlesChains : Obligations.FirstLineSettlesChains := by
  intro dt s g due hw hq grid no_latch
  obtain ⟨t, clock, runs, begun, now⟩ := exec_firstActiveLine_begun dt s due hw hq
  have settled := settlements_lineReady s clock
  have taken : (lineReady s clock).pxc.capture = some (captureOf s g) := by
    simp [lineReady, captureTaken, grid]
  obtain ⟨captured, flag, lit, dark⟩ := shownPxc_light (lineReady s clock) _ taken
  have chain (k : ChainNo) : t.chc.chains[k] =
      chainBegun s.chc.chains[k] s.settlements[k] (s.mem.active (32 + k.val)) s.ftu.frameNumber := by
    rw [begun.chains, lineReady_chain, latchFallen_not_pending _ _ (no_latch k).1, lineReady_latchLine,
      ← settlements_at, settled]
    rfl
  obtain ⟨-, -, shown⟩ := shownPxc_display (lineReady s clock)
  rw [settled] at shown
  have settles (k : ChainNo) : s.settlements[k] = .takes ↔ s.takesLatest k := by
    rw [settlements_at, settle_takes_iff]
  have clocked : t.clock = clock := (congrArg State.clock begun.others :)
  refine ⟨t, runs, begun.ftu, by rw [clocked, now], ?_, ?_, ?_, ?_, ?_, fun k => ?_, fun k => ⟨fun takes => ?_,
    fun holds => ?_⟩, ?_, ?_⟩
  · rw [begun.pxc]
    exact captured
  · rw [begun.pxc]
    exact flag
  · rw [begun.pxc]
  · rw [begun.pxc]
    intro compensating cap same
    obtain rfl := Option.some_inj.1 (captured.symm.trans same)
    exact lit compensating
  · rw [begun.pxc]
    exact dark
  · rw [begun.chc]
    exact lineReady_latchLine s clock k
  · obtain ⟨pending, later, first⟩ := chainBegun_taken s.chc.chains[k] (s.mem.active (32 + k.val)) s.ftu.frameNumber
      (no_latch k).2
    have standby : s.mdc.mode ≠ .standby := by
      obtain ⟨tag, offered, -⟩ := takes
      exact offered.1
    rw [chain, (settles k).2 takes, begun.pxc]
    dsimp only
    refine ⟨standby, ?_, pending, later, first⟩
    rw [shown, (setDisplay_lit (lineReady s clock) s.settlements standby).2, if_pos ((settles k).2 takes)]
    rfl
  · have not_taken : s.settlements[k] ≠ .takes := fun takes => holds ((settles k).1 takes)
    rw [chain, begun.pxc]
    dsimp only
    rw [shown, setDisplay_taken _ _ k not_taken]
    exact ⟨rfl, chainBegun_not_taken _ _ _ _ not_taken (no_latch k).1⟩
  · rw [begun.chc]
  · have rpu : { t.rpu with
        flags := s.rpu.flags, counters := s.rpu.counters, burstLate := s.rpu.burstLate } = s.rpu := by
      rw [begun.rpu, reportLate_rpu]
      rfl
    have chc : { t.chc with
        chains := s.chc.chains, latchLines := s.chc.latchLines, struck := s.chc.struck } = s.chc := by
      rw [begun.chc]
      rfl
    rw [rpu, chc]
    exact (congrArg (fun w : State =>
      { w with clock := s.clock, ftu := s.ftu, pxc := s.pxc, rpu := s.rpu, chc := s.chc }) begun.others :)

end Sys2Proof.Laws
end

