-- ==== Sys2Proof/Proofs/ChainArbiter.lean ====
section
/-! PROOF. What the arbiter of a chain leaves of the chain and of the pass-through queue, and the end of an update burst
(R117, R120, R133, R135). -/

namespace Sys2Proof.Laws

open Sys2Proof.Machine

/-! ## The message that starts next (R117) -/

/-- The oldest pass-through entry of chain `k`. -/
def oldestEntry (queue : List PassEntry) (k : ChainNo) : Option PassEntry := queue.find? (fun e => e.chain == k)

/-- The record of a chain once its arbiter has looked, `entry` being the chain's oldest pass-through entry. -/
def served (c : ChainRec) (entry : Option PassEntry) : ChainRec :=
  if c.isIdle then
    match c.latchDue with
    | some f => { c with latchDue := none }.sending (.latch (some f)) latchMessage
    | none => (c.next entry).getD c
  else c

/-- Nothing stands ahead of the chain's pass-through entries: its arbiter starts the oldest. -/
def passTurn (c : ChainRec) : Prop :=
  c.activity = .idle ∧ c.latchDue = none ∧ c.awaiting = none ∧ c.darkWaiting = false ∧ c.latchPending = false ∧
    c.enumWaiting = false ∧ c.waiting = none

theorem served_busy (c : ChainRec) (entry : Option PassEntry) (h : c.activity ≠ .idle) : served c entry = c :=
  if_neg (mt (isIdle_iff c).1 h)

theorem served_latch (c : ChainRec) (entry : Option PassEntry) (h : c.activity = .idle) (f : Dword)
    (due : c.latchDue = some f) :
    served c entry = { c with latchDue := none, activity := .latch (some f), message := latchMessage } := by
  unfold served
  rw [if_pos ((isIdle_iff c).2 h), due]
  rfl

section
variable (c : ChainRec) (entry : Option PassEntry) (idle : c.activity = .idle) (due : c.latchDue = none)
include idle due

theorem served_next : served c entry = (c.next entry).getD c := by
  unfold served
  rw [if_pos ((isIdle_iff c).2 idle), due]

theorem served_awaiting (h : c.awaiting ≠ none) : served c entry = c := by
  simp only [served_next c entry idle due, ChainRec.next, Option.isSome_iff_ne_none.2 h, if_true, Option.getD_none]

variable (free : c.awaiting = none)
include free

theorem served_dark (h : c.darkWaiting = true) :
    served c entry = { c with
      darkWaiting := false, activity := .darkBurst c.count 0, message := burstMessage c.count (fun _ _ => 0) } := by
  simp only [served_next c entry idle due, ChainRec.next, free, h, Option.isSome_none, Bool.false_eq_true, if_false,
    if_true]
  rfl

variable (lit : c.darkWaiting = false)
include lit

theorem served_pending (h : c.latchPending = true) : served c entry = c := by
  simp only [served_next c entry idle due, ChainRec.next, free, lit, h, Option.isSome_none, Bool.false_eq_true,
    if_false, if_true, Option.getD_none]

variable (still : c.latchPending = false)
include still

theorem served_sweep (h : c.enumWaiting = true) :
    served c entry = { c with enumWaiting := false, activity := .enumerate .release, message := releaseMessage } := by
  simp only [served_next c entry idle due, ChainRec.next, free, lit, still, h, Option.isSome_none, Bool.false_eq_true,
    if_false, if_true]
  rfl

variable (counted : c.enumWaiting = false)
include counted

theorem served_burst (job : BurstJob) (h : c.waiting = some job) :
    served c entry = { c with
      waiting := none, activity := .burst job (job.covers c.count) 0
      message := burstMessage (job.covers c.count) job.duty } := by
  simp only [served_next c entry idle due, ChainRec.next, free, lit, still, counted, h, Option.isSome_none,
    Bool.false_eq_true, if_false]
  rfl

theorem served_pass_turn (h : c.waiting = none) :
    served c entry = (entry.map (fun e => c.sending .passRequest (passMessage e))).getD c := by
  simp only [served_next c entry idle due, ChainRec.next, free, lit, still, counted, h, Option.isSome_none,
    Bool.false_eq_true, if_false]
  cases entry <;> rfl

end

theorem served_pass (c : ChainRec) (e : PassEntry) (h : passTurn c) :
    served c (some e) = { c with activity := .passRequest, message := passMessage e } := by
  obtain ⟨idle, due, free, lit, still, counted, none⟩ := h
  exact served_pass_turn c _ idle due free lit still counted none

theorem served_nothing (c : ChainRec) (h : passTurn c) : served c none = c := by
  obtain ⟨idle, due, free, lit, still, counted, none⟩ := h
  exact served_pass_turn c _ idle due free lit still counted none

/-- What an arbiter can do with its chain: nothing, or start one message. -/
theorem served_cases (c : ChainRec) (entry : Option PassEntry) :
    served c entry = c ∨
    (∃ f, c.latchDue = some f ∧
      served c entry = { c with latchDue := none, activity := .latch (some f), message := latchMessage }) ∨
    (c.darkWaiting = true ∧ served c entry = { c with
      darkWaiting := false, activity := .darkBurst c.count 0, message := burstMessage c.count (fun _ _ => 0) }) ∨
    (c.enumWaiting = true ∧
      served c entry = { c with enumWaiting := false, activity := .enumerate .release, message := releaseMessage }) ∨
    (∃ job, c.waiting = some job ∧ served c entry = { c with
      waiting := none, activity := .burst job (job.covers c.count) 0
      message := burstMessage (job.covers c.count) job.duty }) ∨
    ∃ e, passTurn c ∧ entry = some e ∧
      served c entry = { c with activity := .passRequest, message := passMessage e } := by
  by_cases idle : c.activity = .idle
  swap
  · exact .inl (served_busy c entry idle)
  rcases Option.eq_none_or_eq_some c.latchDue with due | ⟨f, due⟩
  swap
  · exact .inr (.inl ⟨f, due, served_latch c entry idle f due⟩)
  by_cases free : c.awaiting = none
  swap
  · exact .inl (served_awaiting c entry idle due free)
  rcases Bool.eq_false_or_eq_true c.darkWaiting with dark | lit
  · exact .inr (.inr (.inl ⟨dark, served_dark c entry idle due free dark⟩))
  rcases Bool.eq_false_or_eq_true c.latchPending with pending | still
  · exact .inl (served_pending c entry idle due free lit pending)
  rcases Bool.eq_false_or_eq_true c.enumWaiting with sweep | counted
  · exact .inr (.inr (.inr (.inl ⟨sweep, served_sweep c entry idle due free lit still sweep⟩)))
  rcases Option.eq_none_or_eq_some c.waiting with none | ⟨job, waits⟩
  swap
  · exact .inr (.inr (.inr (.inr (.inl
      ⟨job, waits, served_burst c entry idle due free lit still counted job waits⟩))))
  have turn : passTurn c := ⟨idle, due, free, lit, still, counted, none⟩
  cases entry with
  | some e => exact .inr (.inr (.inr (.inr (.inr ⟨e, turn, rfl, served_pass c e turn⟩))))
  | none => exact .inl (served_nothing c turn)

/-- The arbiter's choice on an IDLE line, in its order. -/
theorem served_activity (c : ChainRec) (entry : Option PassEntry) (idle : c.activity = .idle) :
    (served c entry).activity =
      match c.latchDue with
      | some f => .latch (some f)
      | none =>
        if c.awaiting.isSome then .idle
        else if c.darkWaiting then .darkBurst c.count 0
        else if c.latchPending then .idle
        else if c.enumWaiting then .enumerate .release
        else match c.waiting with
          | some job => .burst job (job.covers c.count) 0
          | none => if entry.isSome then .passRequest else .idle := by
  cases due : c.latchDue with
  | some f => rw [served_latch c entry idle f due]
  | none =>
  rw [served_next c entry idle due]
  unfold ChainRec.next
  dsimp only
  split
  · exact idle
  split
  · rfl
  split
  · exact idle
  split
  · rfl
  cases c.waiting with
  | some job => rfl
  | none =>
  cases entry with
  | some e => rfl
  | none => exact idle

/-- A chain with nothing that waits starts nothing. -/
theorem served_empty (c : ChainRec) (due : c.latchDue = none) (lit : c.darkWaiting = false)
    (counted : c.enumWaiting = false) (waits : c.waiting = none) : served c none = c := by
  rcases served_cases c none with same | ⟨f, due', -⟩ | ⟨dark, -⟩ | ⟨sweep, -⟩ | ⟨job, burst, -⟩ | ⟨e, -, pass, -⟩
  · exact same
  · rw [due] at due'; cases due'
  · rw [lit] at dark; cases dark
  · rw [counted] at sweep; cases sweep
  · rw [waits] at burst; cases burst
  · cases pass

/-- The fields of a chain that its arbiter never touches. -/
theorem served_kept (c : ChainRec) (entry : Option PassEntry) :
    (served c entry).count = c.count ∧ (served c entry).overlength = c.overlength ∧
      (served c entry).doneTag = c.doneTag ∧ (served c entry).latchPending = c.latchPending ∧
      (served c entry).lastLatch = c.lastLatch ∧ (served c entry).overTemp = c.overTemp ∧
      (served c entry).awaiting = c.awaiting := by
  rcases served_cases c entry with same | ⟨f, -, same⟩ | ⟨-, same⟩ | ⟨-, same⟩ | ⟨job, -, same⟩ | ⟨e, -, -, same⟩
  all_goals
    rw [same]
    exact ⟨rfl, rfl, rfl, rfl, rfl, rfl, rfl⟩

/-! ## The arbiter of a chain -/

theorem setChain_self (s : State) (k : ChainNo) : s.setChain k s.chc.chains[k] = s := by
  have same : s.chc.chains.set k s.chc.chains[k] = s.chc.chains := by simp
  rw [State.setChain, same]

theorem startPass_none (k : ChainNo) (queue : List PassEntry) (h : oldestEntry queue k = none) :
    startPass k queue = queue := by
  unfold oldestEntry at h
  induction queue with
  | nil => rfl
  | cons e queue ih =>
    rw [List.find?_cons] at h
    split at h
    · cases h
    · next other => rw [startPass, if_neg (by simpa using other), ih h]

theorem arbitrate_chain_served (s : State) (k : ChainNo) :
    (s.arbitrate k).chc.chains[k] = served s.chc.chains[k] (oldestEntry s.chc.passQueue k) := by
  by_cases idle : s.chc.chains[k].activity = .idle
  swap
  · rw [arbitrate_busy s k (Bool.eq_false_of_not_eq_true (mt (isIdle_iff _).1 idle)), served_busy _ _ idle]
  rcases Option.eq_none_or_eq_some s.chc.chains[k].latchDue with due | ⟨f, due⟩
  swap
  · rw [arbitrate_latch s k f ((isIdle_iff _).2 idle) due, State.setChain_chain_same, served_latch _ _ idle f due]
    rfl
  rw [arbitrate_next s k ((isIdle_iff _).2 idle) due, served_next _ _ idle due, oldestEntry]
  split
  · next c next =>
    rw [next]
    split
    · exact State.setChain_chain_same s k c
    · exact State.setChain_chain_same s k c
  · next next =>
    rw [next]
    rfl

/-- The arbiter marks the oldest entry of its chain where it comes to the entries, and takes none out. -/
theorem arbitrate_queue_pass (s : State) (k : ChainNo) (h : passTurn s.chc.chains[k]) :
    (s.arbitrate k).chc.passQueue = startPass k s.chc.passQueue := by
  obtain ⟨idle, due, free, lit, still, counted, none⟩ := id h
  have next (entry : Option PassEntry) :
      s.chc.chains[k].next entry = entry.map (fun e => s.chc.chains[k].sending .passRequest (passMessage e)) := by
    simp only [ChainRec.next, free, lit, still, counted, none, Option.isSome_none, Bool.false_eq_true, if_false]
    cases entry <;> rfl
  rw [arbitrate_next s k ((isIdle_iff _).2 idle) due, next]
  cases found : s.chc.passQueue.find? (fun e => e.chain == k) with
  | none => exact (startPass_none k _ found).symm
  | some e => exact congrArg (fun u : State => u.chc.passQueue) (if_pos rfl)

theorem arbitrate_queue_kept (s : State) (k : ChainNo) (h : ¬ passTurn s.chc.chains[k]) :
    (s.arbitrate k).chc.passQueue = s.chc.passQueue := by
  by_cases idle : s.chc.chains[k].activity = .idle
  swap
  · rw [arbitrate_busy s k (Bool.eq_false_of_not_eq_true (mt (isIdle_iff _).1 idle))]
  cases due : s.chc.chains[k].latchDue with
  | some f =>
    rw [arbitrate_latch s k f ((isIdle_iff _).2 idle) due]
    rfl
  | none =>
  rw [arbitrate_next s k ((isIdle_iff _).2 idle) due]
  split
  · next c starts =>
    have other : c.activity ≠ .passRequest := by
      have served : served s.chc.chains[k] (oldestEntry s.chc.passQueue k) = c := by
        rw [served_next _ _ idle due, oldestEntry, starts]
        rfl
      rcases served_cases s.chc.chains[k] (oldestEntry s.chc.passQueue k) with
        same | ⟨f, -, same⟩ | ⟨-, same⟩ | ⟨-, same⟩ | ⟨job, -, same⟩ | ⟨e, turn, -⟩
      case inr.inr.inr.inr.inr => exact absurd turn h
      case inl => rw [← served, same, idle]; nofun
      all_goals rw [← served, same]; nofun
    rw [if_neg other]
    rfl
  · rfl

theorem arbitrate_queue_none (s : State) (k : ChainNo) (h : oldestEntry s.chc.passQueue k = none) :
    (s.arbitrate k).chc.passQueue = s.chc.passQueue := by
  by_cases turn : passTurn s.chc.chains[k]
  · rw [arbitrate_queue_pass s k turn, startPass_none k _ h]
  · exact arbitrate_queue_kept s k turn

theorem oldestEntry_none {queue : List PassEntry} {k : ChainNo} (h : ∀ e ∈ queue, e.chain ≠ k) :
    oldestEntry queue k = none := List.find?_eq_none.2 fun e he => by simpa using h e he

/-- The whole of what an arbiter does. -/
theorem arbitrate_eq (s : State) (k : ChainNo) :
    s.arbitrate k = { s with chc := { s.chc with
      chains := s.chc.chains.set k (served s.chc.chains[k] (oldestEntry s.chc.passQueue k))
      passQueue := (s.arbitrate k).chc.passQueue } } := by
  have chains : (s.arbitrate k).chc.chains =
      s.chc.chains.set k (served s.chc.chains[k] (oldestEntry s.chc.passQueue k)) := by
    refine Vector.ext fun i hi => ?_
    have at' := getElem_vector_set s.chc.chains k ⟨i, hi⟩ (served s.chc.chains[k] (oldestEntry s.chc.passQueue k))
    refine Eq.trans ?_ at'.symm
    split
    · next own => exact own ▸ arbitrate_chain_served s k
    · next apart => exact arbitrate_other s k ⟨i, hi⟩ apart
  rw [← chains]
  exact eq_of_blankChains (blankChains_arbitrate s k)

/-- A chain that starts nothing leaves the whole part as it is. -/
theorem arbitrate_nothing (s : State) (k : ChainNo) (h : ¬ passTurn s.chc.chains[k])
    (same : served s.chc.chains[k] (oldestEntry s.chc.passQueue k) = s.chc.chains[k]) : s.arbitrate k = s := by
  have kept := arbitrate_eq s k
  rw [arbitrate_queue_kept s k h, same] at kept
  exact kept.trans (setChain_self s k)

/-- What a chain's line that becomes IDLE starts. -/
theorem freeChain_served (s : State) (k : ChainNo) :
    (s.freeChain k).chc.chains[k] = served s.chc.chains[k].toIdle (oldestEntry s.chc.passQueue k) := by
  rw [State.freeChain, arbitrate_chain_served, State.setChain_chain_same]
  rfl

theorem freeChain_other (s : State) (k j : ChainNo) (h : j ≠ k) : (s.freeChain k).chc.chains[j] = s.chc.chains[j] := by
  rw [State.freeChain, arbitrate_other _ k j h, State.setChain_chain_other s k j _ h.symm]

theorem blankChains_freeChain (s : State) (k : ChainNo) : blankChains (s.freeChain k) = blankChains s :=
  (blankChains_arbitrate _ k).trans (blankChains_setChain s k _)

/-- The part outside the chain records and the pass-through queue, put side by side with an earlier moment. -/
theorem kept_of_blankChains {s t : State} {dt : Nat} (h : blankChains t = blankChains (s.advance dt)) :
    t.clock = (s.advance dt).clock ∧
      { t with
        clock := s.clock
        chc := { t.chc with chains := s.chc.chains, passQueue := s.chc.passQueue } } = s := by
  rw [eq_of_blankChains h]
  exact ⟨rfl, rfl⟩

/-! ## The end of an update burst (R120) -/

theorem exec_burstDone (dt : Nat) (s : State) (k : ChainNo) (job : BurstJob) (d : Nat)
    (burst : s.chc.chains[k].activity = .burst job d d) :
    exec (.burstDone dt k) s =
      .next (((s.advance dt).setChain k { s.chc.chains[k] with doneTag := some job.tag }).freeChain k) := by
  show execBurstDone dt k s = _
  simp only [execBurstDone, State.advance_chc, burst, if_true]

/-- Settles O37: the done tag is set, and the arbiter takes its choices in order. -/
theorem burstEndsAndArbiterChooses : Obligations.BurstEndsAndArbiterChooses := by
  intro dt s k job d burst
  have run := exec_burstDone dt s k job d burst
  generalize hu : (s.advance dt).setChain k { s.chc.chains[k] with doneTag := some job.tag } = u at run
  have chain : u.chc.chains[k] = { s.chc.chains[k] with doneTag := some job.tag } := by
    rw [← hu, State.setChain_chain_same]
  have queue : u.chc.passQueue = s.chc.passQueue := by rw [← hu]; rfl
  have free := freeChain_served u k
  rw [chain, queue] at free
  obtain ⟨clock, kept⟩ := kept_of_blankChains (s := s) (dt := dt) (t := u.freeChain k)
    ((blankChains_freeChain u k).trans (by rw [← hu]; rfl))
  generalize hc : ({ s.chc.chains[k] with doneTag := some job.tag } : ChainRec).toIdle = c at free
  obtain ⟨count, -, done, pending, last, -⟩ := served_kept c (oldestEntry s.chc.passQueue k)
  rw [← free] at count done pending last
  subst hc
  refine ⟨_, run, done, ?_, pending, last, count, fun j apart => ?_, clock, kept⟩
  · have any : (oldestEntry s.chc.passQueue k).isSome = s.chc.passQueue.any (fun e => e.chain == k) :=
      List.isSome_find?
    rw [free, served_activity _ _ rfl, any]
    rfl
  · rw [freeChain_other u k j apart, ← hu, State.setChain_chain_other _ k j _ apart.symm]
    rfl

end Sys2Proof.Laws
end

