-- ==== Sys2Proof/Proofs/ChainLatches.lean ====
section
/-! PROOF. When a latch falls due, what becomes of it, and the ends of a dark burst and of a latch
(R121, R122, R135). -/

namespace Sys2Proof.Laws

open Sys2Proof.Machine

/-! ## A latch that falls due (R121, R122) -/

/-- A pending latch that falls due goes out at once on an IDLE line, and waits with its frame on a busy one. -/
theorem latchFallen_falls (c : ChainRec) (frame : Dword) (pending : c.latchPending = true) (due : c.latchDue = none) :
    (c.activity = .idle →
      latchFallen c frame = { c with activity := .latch (some frame), message := latchMessage }) ∧
    (c.activity ≠ .idle → (∀ f, c.activity ≠ .latch (some f)) →
      latchFallen c frame = { c with latchDue := some frame }) := by
  refine ⟨fun idle => ?_, fun busy other => ?_⟩
  · have none : { c with latchDue := none } = c := by rw [← due]
    rw [latchFallen_idle c frame pending due idle, none]
    rfl
  · have latching : c.latching = false := by
      unfold ChainRec.latching
      split
      · next f latch => exact absurd latch (other f)
      all_goals rfl
    have falls : (c.latchPending && c.latchDue.isNone && !c.latching) = true := by
      rw [pending, due, latching]
      rfl
    exact (if_pos falls).trans (if_neg (mt (isIdle_iff c).1 busy))

/-- A latch falls due once. -/
theorem latchFallen_twice (c : ChainRec) (frame : Dword) :
    latchFallen (latchFallen c frame) frame = latchFallen c frame := by
  by_cases falls : (c.latchPending && c.latchDue.isNone && !c.latching) = true
  · have done : latchFallen c frame =
        if c.isIdle then { c with latchDue := none }.sending (.latch (some frame)) latchMessage
        else { c with latchDue := some frame } := if_pos falls
    rw [done]
    split
    · exact if_neg (by simp [ChainRec.sending, ChainRec.latching])
    · exact if_neg (by simp)
  · have same : latchFallen c frame = c := if_neg falls
    rw [same, same]

/-- The latch of a chain that was pending at a first active line falls due there, whatever the chain takes. -/
theorem chainBegun_fallen (c : ChainRec) (settled : Settlement) (line : Nat) (frame : Dword)
    (pending : c.latchPending = true) :
    chainBegun (latchFallen c frame) settled line frame = latchFallen c frame := by
  have still : (latchFallen c frame).latchPending = true := (latchFallen_kept c frame).2.1.trans pending
  have permitted : { latchFallen c frame with latchPending := true } = latchFallen c frame := by rw [← still]
  unfold chainBegun
  dsimp only
  rw [permitted, ite_self, latchFallen_twice, ite_self]

/-! ## The chains behind the moments at which a latch falls due (R121) -/

theorem latchesFallDue_chain (s : State) (k : ChainNo) :
    s.latchesFallDue.chc.chains[k] = latchFallen s.chc.chains[k] s.ftu.frameNumber := by
  rw [latchesFallDue_eq]
  simp

/-- No part of a solve's start is the chain controller's. -/
theorem startSolve_chc (s : State) (trigger : Trigger) : (s.startSolve trigger).chc = s.chc := by
  have tables : s.readTables.chc = s.chc :=
    foldl_keeps State.chc _ (fun s m => State.readRange_chc s (wordKey m 0) (Config.memoryWords m)) _ s
  have filters (u : State) : u.readFilters.chc = u.chc :=
    foldl_keeps State.chc _ (fun s z => State.readWord_chc s (zoneF z)) _ u
  have elsewhere (w : State) (lvs : Lvs) : ({ w with lvs := lvs } : State).chc = w.chc := rfl
  unfold State.startSolve
  split
  · rfl
  · dsimp only
    generalize s.readTables = u at tables ⊢
    split
    · rw [elsewhere, filters, tables]
    · exact tables

/-- An output active end. -/
theorem sendActiveEnd_chain (s : State) (k : ChainNo) :
    s.sendActiveEnd.chc.chains[k] = latchFallen s.chc.chains[k] s.ftu.frameNumber := by
  have queued (u : State) : u.queueReport.chc = u.chc := by
    unfold State.queueReport
    dsimp only
    rw [State.pump_chc, fillSlot_eq]
    exact State.readSetting_chc u _
  have handed (u : State) : u.handClips.chc = u.chc := rfl
  have sent : s.sendActiveEnd = (State.activeEndSent s).latchesFallDue.handClips.queueReport := rfl
  rw [sent, queued, handed, latchesFallDue_chain]
  rfl

/-- A first active line with no frame turn waiting. -/
theorem firstLine_chain (s : State) (hw : s.ftu.turnWaiting = false) (k : ChainNo) :
    ∃ settled line, s.firstLine.chc.chains[k] =
      chainBegun (latchFallen s.chc.chains[k] s.ftu.frameNumber) settled line s.ftu.frameNumber := by
  have captured (u : State) : u.captureFrame.chc = u.chc ∧ u.captureFrame.ftu = u.ftu := by
    obtain ⟨t, capture, captured, read, -⟩ := captureFrame_kept u
    rw [captured]
    exact ⟨(congrArg State.chc read :), (congrArg State.ftu read :)⟩
  have lines (u : State) : u.readLatchLines.chc.chains = u.chc.chains ∧ u.readLatchLines.ftu = u.ftu := by
    obtain ⟨t, latchLines, lines, read, -⟩ := readLatchLines_kept u
    rw [lines]
    exact ⟨rfl, (congrArg State.ftu read :)⟩
  obtain ⟨chc, ftu⟩ := captured s.latchesFallDue
  obtain ⟨chains, ftu'⟩ := lines s.latchesFallDue.captureFrame
  have begun := (lineBegun_begins s.latchesFallDue.captureFrame.readLatchLines).chains k
  rw [firstLine_eq, forceTurn_not_waiting s hw]
  rw [ftu', ftu, State.latchesFallDue_ftu] at begun
  have chain : s.latchesFallDue.captureFrame.readLatchLines.chc.chains[k] =
      latchFallen s.chc.chains[k] s.ftu.frameNumber := by
    simp only [chains, chc, latchesFallDue_chain]
  rw [chain] at begun
  exact ⟨_, _, begun⟩

/-- A marker that cuts a free-run frame short, with no frame turn waiting. -/
theorem exec_frameStartMarker_cut (dt : Nat) (s : State) (locked : s.lrx.input = .locked) (closed : s.lrx.record = none)
    (free : s.ftu.state = .freeRun) (runs : s.ftu.phase.isOver = false) (hw : s.ftu.turnWaiting = false) :
    ∃ t, exec (.frameStartMarker dt none) s = .next t ∧
      ∀ k : ChainNo, t.chc.chains[k] = latchFallen s.chc.chains[k] s.ftu.frameNumber := by
  refine ⟨_, execFrameStartMarker_no_record dt none s closed, fun k => ?_⟩
  generalize hu : (s.advance dt).measure.openFrame = u
  obtain ⟨locked', ftu, chc⟩ : u.lrx.input = .locked ∧ u.ftu = s.ftu ∧ u.chc = s.chc := by
    rw [← hu, measure_other (s.advance dt) (by rw [State.advance_lrx, locked]; nofun), openFrame_eq]
    exact ⟨locked, State.readSetting_ftu _ _, State.readSetting_chc _ _⟩
  have follows : u.markerToFtu = u.startFollowing := by
    unfold State.markerToFtu
    rw [locked', ftu, free]
  have waits : (State.linesDropped u).latchesFallDue.ftu.turnWaiting = false := by
    rw [State.latchesFallDue_ftu]
    exact (congrArg Ftu.turnWaiting ftu).trans hw
  rw [follows, startFollowing_cuts u (by rw [ftu]; exact runs)]
  dsimp only
  rw [forceTurn_not_waiting _ waits, latchesFallDue_chain]
  simp only [State.linesDropped, chc, ftu]

/-- An active line that begins, at its LATCH_LINE. -/
theorem exec_outputLineBegin_latches (dt : Nat) (s : State) (n : Nat) (phase : s.ftu.phase = .active n)
    (line : (s.ftu.state = .following ∧ ∃ pixels damaged off width rest,
        s.ftu.delay = .line pixels damaged off width :: rest) ∨
      (s.ftu.state = .freeRun ∧ n < s.ftu.geometry.height)) :
    ∃ t, exec (.outputLineBegin dt) s = .next t ∧ ∀ k : ChainNo, t.chc.chains[k] =
      if s.chc.latchLines[k] = n then latchFallen s.chc.chains[k] s.ftu.frameNumber else s.chc.chains[k] := by
  obtain ⟨following, pixels, damaged, off, width, rest, delay⟩ | ⟨free, inside⟩ := line
  · have run := exec_outputLineBegin_followed dt n s pixels damaged off width rest phase following delay
    rw [sendLine_eq] at run
    refine ⟨_, run, fun k => ?_⟩
    obtain ⟨chains, due, fallen⟩ := latchesOfLine_eq _ n
    rw [due]
    exact fallen k
  · refine ⟨_, exec_outputLineBegin_black dt n s phase free inside, fun k => ?_⟩
    unfold State.sendBlackLine
    dsimp only
    obtain ⟨chains, due, fallen⟩ := latchesOfLine_eq _ n
    rw [due]
    exact fallen k

/-! ## The ends of a dark burst and of a latch (R122, R135) -/

theorem exec_darkBurstDone (dt : Nat) (s : State) (k : ChainNo) (d : Nat)
    (dark : s.chc.chains[k].activity = .darkBurst d d) :
    exec (.darkBurstDone dt k) s =
      .next ((s.advance dt).setChain k { s.chc.chains[k] with activity := .latch none, message := latchMessage }) := by
  show execDarkBurstDone dt k s = _
  simp only [execDarkBurstDone, State.advance_chc, dark, if_true]
  rfl

/-- The chain behind its latch, before its line is IDLE: the latch of an output frame is recorded. -/
def latched (c : ChainRec) (frame : Option Dword) : ChainRec :=
  match frame with
  | some f => { c with latchPending := false, lastLatch := some f }
  | none => c

theorem exec_latchSent (dt : Nat) (s : State) (k : ChainNo) (frame : Option Dword)
    (latch : s.chc.chains[k].activity = .latch frame) :
    exec (.latchSent dt k) s =
      .next (((s.advance dt).setChain k (latched s.chc.chains[k] frame)).freeChain k) := by
  show execLatchSent dt k s = _
  cases frame with
  | some f => simp only [execLatchSent, State.advance_chc, latch, latched]
  | none =>
    have same : (s.advance dt).setChain k s.chc.chains[k] = s.advance dt := setChain_self (s.advance dt) k
    simp only [execLatchSent, State.advance_chc, latch, latched, same]

/-- Settles O38, by the four moments at which a latch falls due, and by the two messages that end. -/
theorem latchesFollowTheirRules : Obligations.LatchesFollowTheirRules := by
  intro dt s k falls
  have falls_of (t : State) (k : ChainNo) (chain : t.chc.chains[k] = latchFallen s.chc.chains[k] s.ftu.frameNumber) :
      falls t k ∧ (s.chc.chains[k].latchPending = false → t.chc.chains[k] = s.chc.chains[k]) :=
    ⟨fun pending due => chain ▸ latchFallen_falls s.chc.chains[k] s.ftu.frameNumber pending due,
      fun still => chain.trans (latchFallen_not_pending _ _ still)⟩
  refine ⟨fun due => ?_, fun locked closed free runs hw => ?_, fun due hw => ?_, fun n phase line => ?_,
    fun d dark => ?_, fun frame latch => ?_⟩
  · obtain ⟨⟨n, phase⟩, free | ⟨following, rest, delay⟩⟩ := due
    · refine ⟨_, exec_outputActiveEnd_freeRun dt s n phase free, fun k => falls_of _ k ?_⟩
      rw [startSolve_chc, sendActiveEnd_chain]
      rfl
    · exact ⟨_, exec_outputActiveEnd_followed dt s n rest phase following delay,
        fun k => falls_of _ k (sendActiveEnd_chain _ k)⟩
  · obtain ⟨t, run, chains⟩ := exec_frameStartMarker_cut dt s locked closed free runs hw
    exact ⟨t, run, fun k => falls_of t k (chains k)⟩
  · obtain ⟨clock, run, -⟩ := exec_firstActiveLine_at dt s due
    refine ⟨_, run, fun k pending => ?_⟩
    obtain ⟨settled, line, chain⟩ := firstLine_chain { s with clock := clock } hw k
    exact (falls_of _ k (chain.trans (chainBegun_fallen _ _ _ _ pending))).1 pending
  · obtain ⟨t, run, chains⟩ := exec_outputLineBegin_latches dt s n phase line
    refine ⟨t, run, fun k => ⟨fun here => (falls_of t k ((chains k).trans (if_pos here))).1, fun other => ?_⟩⟩
    rw [chains k]
    split
    · next here => exact latchFallen_not_pending _ _ (other.resolve_left (not_not.2 here))
    · rfl
  · exact ⟨_, exec_darkBurstDone dt s k d dark, State.setChain_chain_same _ _ _,
      fun j apart => State.setChain_chain_other _ _ _ _ apart.symm, rfl, rfl⟩
  · have run := exec_latchSent dt s k frame latch
    generalize hu : (s.advance dt).setChain k (latched s.chc.chains[k] frame) = u at run
    have chain : u.chc.chains[k] = latched s.chc.chains[k] frame := by rw [← hu, State.setChain_chain_same]
    have queue : u.chc.passQueue = s.chc.passQueue := by rw [← hu]; rfl
    have free := freeChain_served u k
    rw [chain, queue] at free
    obtain ⟨clock, kept⟩ := kept_of_blankChains (s := s) (dt := dt) (t := u.freeChain k)
      ((blankChains_freeChain u k).trans (by rw [← hu]; rfl))
    obtain ⟨-, -, -, pending, last, -⟩ :=
      served_kept (latched s.chc.chains[k] frame).toIdle (oldestEntry s.chc.passQueue k)
    rw [← free] at pending last
    refine ⟨_, run, ?_, ?_, fun due lit counted waits nobody => ?_, fun j apart => ?_, clock, kept⟩
    · rintro f rfl
      exact ⟨pending, last⟩
    · rintro rfl
      exact ⟨pending, last⟩
    · have empty := oldestEntry_none nobody
      have same : served (latched s.chc.chains[k] frame).toIdle none = (latched s.chc.chains[k] frame).toIdle := by
        cases frame with
        | some f => exact served_empty _ due lit counted waits
        | none => exact served_empty _ due lit counted waits
      rw [free, empty, same]
      refine ⟨rfl, ?_⟩
      rw [State.freeChain, arbitrate_queue_none]
      · exact queue
      · show oldestEntry u.chc.passQueue k = none
        rw [queue, empty]
    · rw [freeChain_other u k j apart, ← hu, State.setChain_chain_other _ k j _ apart.symm]
      rfl

end Sys2Proof.Laws
end

