-- ==== Sys2Proof/Proofs/Readback.lean ====
section
/-! PROOF. The readback slots of a burst: what a good status records, what a miss counts (R123 to R127, R145). -/

namespace Sys2Proof.Laws

open Sys2Proof.Machine

/-! ## The bytes of a slot (R116, R123) -/

theorem goodCrc8_withCrc8 (body : List Byte) : goodCrc8 (withCrc8 body) = true := by
  simp [goodCrc8, withCrc8]

/-- A message of the outside that ends with its CRC-8 is a body and that CRC. -/
theorem eq_withCrc8 {bytes : List Byte} (h : goodCrc8 bytes = true) :
    bytes = withCrc8 (bytes.take (bytes.length - 1)) := by
  simp only [goodCrc8, Bool.and_eq_true, decide_eq_true_eq] at h
  obtain ⟨some, crc⟩ := h
  unfold withCrc8
  rw [crc, List.getD_eq_getElem _ _ (by omega), List.take_concat_get', Nat.sub_add_cancel some, List.take_length]

theorem readStatusSlot_good (i : Nat) (opens shorts : Word) (flags : Byte) :
    readStatusSlot i (withCrc8 ([0x3C, byteOf i] ++ wordBytes opens ++ wordBytes shorts ++ [flags])) =
      some ⟨opens, shorts, flags.getLsbD 0⟩ := by
  have good := goodCrc8_withCrc8 ([0x3C, byteOf i] ++ wordBytes opens ++ wordBytes shorts ++ [flags])
  have status : ∀ crc : Byte, ((⟨joinBytes (opens.extractLsb' 8 8) (opens.extractLsb' 0 8),
      joinBytes (shorts.extractLsb' 8 8) (shorts.extractLsb' 0 8), flags.getLsbD 0⟩ : Status)) =
      ⟨opens, shorts, flags.getLsbD 0⟩ := fun _ => by rw [join_wordBytes, join_wordBytes]
  unfold readStatusSlot
  rw [if_pos ⟨rfl, rfl, rfl, good⟩]
  exact congrArg some (status 0)

theorem readStatusSlot_bad (i : Nat) (bytes : List Byte)
    (h : bytes.length ≠ 8 ∨ bytes[0]? ≠ some 0x3C ∨ bytes[1]? ≠ some (byteOf i) ∨
      bytes[7]? ≠ some (crc8 (bytes.take 7))) : readStatusSlot i bytes = none := by
  refine if_neg ?_
  rintro ⟨length, sync, echo, good⟩
  have at' (n : Nat) (hn : n < 8) : bytes[n]? = some (bytes.getD n 0) := by
    rw [List.getD_eq_getElem _ _ (by omega), List.getElem?_eq_getElem]
  simp only [goodCrc8, length, Bool.and_eq_true, decide_eq_true_eq] at good
  rw [at' 0 (by decide), at' 1 (by decide), at' 7 (by decide), sync, echo, good.2] at h
  simp [length, syncByte] at h

/-! ## A slot of a burst (R123) -/

/-- The activity of a chain behind a readback slot. -/
def slotPassed : Activity → Activity
  | .burst job d i => .burst job d (i + 1)
  | .darkBurst d i => .darkBurst d (i + 1)
  | .idle => .idle
  | .latch f => .latch f
  | .enumerate p => .enumerate p
  | .passRequest => .passRequest

theorem exec_readbackSlot (dt : Nat) (s : State) (k : ChainNo) (zones : List BurstZone) (d i : Nat) (bytes : List Byte)
    (slot : (∃ tag, s.chc.chains[k].activity = .burst ⟨tag, zones⟩ d i) ∨
      (s.chc.chains[k].activity = .darkBurst d i ∧ zones = [])) (covered : i < d) :
    ∃ u, exec (.readbackSlot dt k bytes) s = .next (u.setChain k
        { u.chc.chains[k] with activity := slotPassed s.chc.chains[k].activity }) ∧
      u = (s.advance dt).readback k zones i bytes := by
  refine ⟨_, ?_, rfl⟩
  show execReadbackSlot dt k bytes s = _
  obtain ⟨tag, burst⟩ | ⟨dark, rfl⟩ := slot
  · simp only [execReadbackSlot, State.advance_chc, burst, slotPassed, if_pos covered]
  · simp only [execReadbackSlot, State.advance_chc, dark, slotPassed, if_pos covered]

section
variable (dt : Nat) (s : State) (k : ChainNo) (zones : List BurstZone) (i : Nat) (bytes : List Byte)
  (confirm : s.cleanSetting Config.faultConfirm) (limit : s.cleanSetting Config.missLimit)
include confirm limit

theorem readback_status (st : Status) (h : readStatusSlot i bytes = some st) :
    (s.advance dt).readback k zones i bytes = (s.advance dt).goodStatus k zones i st := by
  unfold State.readback
  rw [readSettings_of_clean (s.advance dt) _ (by simpa using ⟨confirm, limit⟩), h]

theorem readback_missed (h : readStatusSlot i bytes = none) :
    (s.advance dt).readback k zones i bytes = (s.advance dt).missedSlot k i := by
  unfold State.readback
  rw [readSettings_of_clean (s.advance dt) _ (by simpa using ⟨confirm, limit⟩), h]

end

/-! ## A miss (R124) -/

/-- A miss brings the device to the limit, and it was not silent before. -/
abbrev fallsSilent (before : DeviceRec) (limit : Nat) : Prop :=
  limit ≤ min 15 (before.misses + 1) ∧ before.state ≠ .noResponse

/-- The record of a device behind a miss. -/
def deviceMissed (before : DeviceRec) (limit : Nat) : DeviceRec :=
  { before with
    misses := min 15 (before.misses + 1)
    state := if fallsSilent before limit then .noResponse else before.state }

theorem missedSlot_eq (s : State) (k : ChainNo) (i : Nat) (before : DeviceRec)
    (h : s.chc.device (deviceKey k i) = before) :
    s.missedSlot k i =
      { s with
        chc := { s.chc with
          devices := sparsePut (fun _ => .reset) s.chc.devices (deviceKey k i)
            (deviceMissed before (s.mem.active Config.missLimit)) }
        rpu := { s.rpu with
          counters := s.rpu.counters.add 1 .readbackMisses
          flags := if fallsSilent before (s.mem.active Config.missLimit) then
            s.rpu.flags ||| Event.deviceNoResponse.bit else s.rpu.flags } } := by
  subst h
  unfold State.missedSlot deviceMissed
  dsimp only
  generalize s.chc.device (deviceKey k i) = before
  have decided : (decide (s.mem.active Config.missLimit ≤ min 15 (before.misses + 1)) &&
      decide (before.state ≠ .noResponse)) = decide (fallsSilent before (s.mem.active Config.missLimit)) :=
    (Bool.decide_and _ _).symm
  rw [decided]
  by_cases silent : fallsSilent before (s.mem.active Config.missLimit)
  · rw [decide_eq_true silent, if_pos silent, if_pos silent]
    rfl
  · rw [decide_eq_false silent, if_neg silent, if_neg silent]
    rfl

/-- Settles O40: a slot that holds no good status is a miss. -/
theorem missedSlotIsCounted : Obligations.MissedSlotIsCounted := by
  intro dt s k d i bytes slot covered confirm limit bad
  obtain ⟨zones, slot⟩ : ∃ zones, (∃ tag, s.chc.chains[k].activity = .burst ⟨tag, zones⟩ d i) ∨
      (s.chc.chains[k].activity = .darkBurst d i ∧ zones = []) := by
    obtain ⟨job, burst⟩ | dark := slot
    · exact ⟨job.zones, .inl ⟨job.tag, burst⟩⟩
    · exact ⟨[], .inr ⟨dark, rfl⟩⟩
  obtain ⟨u, run, missed⟩ := exec_readbackSlot dt s k zones d i bytes slot covered
  rw [readback_missed dt s k zones i bytes confirm limit (readStatusSlot_bad i bytes bad),
    missedSlot_eq (s.advance dt) k i _ rfl] at missed
  subst missed
  refine ⟨_, run, sparseGet_put_same _ _ _ _, fun key other => sparseGet_put_other _ _ _ _ _ other, rfl, ?_,
    fun j apart => State.setChain_chain_other _ _ _ _ apart.symm, rfl, rfl⟩
  rw [State.setChain_chain_same]
  rfl

/-! ## The latches of the confirmed zones (R127) -/

/-- The channel `c` of the device that has the key `key` is confirmed with this latch. -/
def latchOf (s : State) (key c : Nat) : FaultLatch :=
  confirmedLatch (s.mem.active Config.faultConfirm) (channelCount s.chc.openCount (16 * key + c))
    (channelCount s.chc.shortCount (16 * key + c))

/-- A latch that has been struck. -/
def latchStruck (s : State) (z : Nat) (l : FaultLatch) : State :=
  ({ s with chc := { s.chc with
      latches := sparsePut (fun _ => .clear) s.chc.latches z l
      struck := sparsePut (fun _ => false) s.chc.struck z true } }).raise .zoneFaultNew

theorem latchStruck_latch (s : State) (z y : Nat) (l : FaultLatch) :
    (latchStruck s z l).chc.latch y = if y = z then l else s.chc.latch y := sparseGet_put _ _ _ _ _

theorem latchStruck_struck (s : State) (z y : Nat) (l : FaultLatch) :
    sparseGet (fun _ => false) (latchStruck s z l).chc.struck y =
      if y = z then true else sparseGet (fun _ => false) s.chc.struck y :=
  sparseGet_put (fun _ => false) s.chc.struck z y true

/-- The zone that a set maps to a channel of a device. -/
def zoneAt (zones : List BurstZone) (device c : Nat) : Option BurstZone :=
  zones.find? (fun b => b.device == device && b.channel == c)

theorem zoneAt_some {zones : List BurstZone} {device c : Nat} {b : BurstZone} (h : zoneAt zones device c = some b) :
    b ∈ zones ∧ b.device = device ∧ b.channel = c := by
  have hit := List.find?_some h
  simp only [Bool.and_eq_true, beq_iff_eq] at hit
  exact ⟨List.mem_of_find?_eq_some h, hit⟩

/-- A confirmed channel strikes the clear latch of its zone, and nothing else. -/
theorem confirmChannel_mapped (s : State) (zones : List BurstZone) (key device c : Nat) (b : BurstZone)
    (h : zoneAt zones device c = some b) :
    s.confirmChannel zones key device c =
      if latchOf s key c ≠ .clear ∧ s.chc.latch b.zone = .clear then latchStruck s b.zone (latchOf s key c) else s := by
  have index : key * Config.channelsPerDevice + c = 16 * key + c := by rw [Nat.mul_comm]; rfl
  unfold State.confirmChannel latchOf latchStruck
  dsimp only
  rw [index]
  unfold zoneAt at h
  rw [h]

theorem confirmChannel_unmapped (s : State) (zones : List BurstZone) (key device c : Nat)
    (h : zoneAt zones device c = none) : s.confirmChannel zones key device c = s := by
  unfold State.confirmChannel
  dsimp only
  unfold zoneAt at h
  rw [h]

/-- What a channel of a good status can do: nothing, or strike the clear latch of a zone mapped to it. -/
theorem confirmChannel_cases (s : State) (zones : List BurstZone) (key device c : Nat) :
    s.confirmChannel zones key device c = s ∨
    ∃ b, zoneAt zones device c = some b ∧ latchOf s key c ≠ .clear ∧ s.chc.latch b.zone = .clear ∧
      s.confirmChannel zones key device c = latchStruck s b.zone (latchOf s key c) := by
  cases found : zoneAt zones device c with
  | none => exact .inl (confirmChannel_unmapped s zones key device c found)
  | some b =>
    have step := confirmChannel_mapped s zones key device c b found
    by_cases fresh : latchOf s key c ≠ .clear ∧ s.chc.latch b.zone = .clear
    · exact .inr ⟨b, rfl, fresh.1, fresh.2, step.trans (if_pos fresh)⟩
    · exact .inl (step.trans (if_neg fresh))

/-- From `u` to `v` some zones' clear latches have been struck. -/
structure Struck (u v : State) : Prop where
  zone   : ∀ z,
    (v.chc.latch z = u.chc.latch z ∧
      sparseGet (fun _ => false) v.chc.struck z = sparseGet (fun _ => false) u.chc.struck z) ∨
    (u.chc.latch z = .clear ∧ v.chc.latch z ≠ .clear ∧ sparseGet (fun _ => false) v.chc.struck z = true ∧
      ∃ w : State, keepsFlags (w.raise .zoneFaultNew) v)
  flags  : keepsFlags u v
  others : { v with
    rpu := { v.rpu with flags := u.rpu.flags }
    chc := { v.chc with latches := u.chc.latches, struck := u.chc.struck } } = u

theorem struck_refl (s : State) : Struck s s := ⟨fun _ => .inl ⟨rfl, rfl⟩, keepsFlags_refl s, rfl⟩

theorem struck_trans {u v w : State} (h : Struck u v) (h' : Struck v w) : Struck u w := by
  refine ⟨fun z => ?_, keepsFlags_trans h.flags h'.flags, ?_⟩
  · rcases h'.zone z with ⟨latch', struck'⟩ | ⟨clear', set', struck', raised'⟩
    · rcases h.zone z with ⟨latch, struck⟩ | ⟨clear, set, struck, raised⟩
      · exact .inl ⟨latch'.trans latch, struck'.trans struck⟩
      · obtain ⟨x, raised⟩ := raised
        exact .inr ⟨clear, latch' ▸ set, struck'.trans struck, x, keepsFlags_trans raised h'.flags⟩
    · rcases h.zone z with ⟨latch, -⟩ | ⟨-, set, -⟩
      · exact .inr ⟨latch ▸ clear', set', struck', raised'⟩
      · exact absurd clear' set
  · have others := h.others
    rw [← h'.others] at others
    exact others

theorem struck_latchStruck (s : State) (z : Nat) (l : FaultLatch) (set : l ≠ .clear) (clear : s.chc.latch z = .clear) :
    Struck s (latchStruck s z l) := by
  refine ⟨fun y => ?_, keepsFlags_raise s .zoneFaultNew, rfl⟩
  rw [latchStruck_latch, latchStruck_struck]
  by_cases own : y = z
  · subst own
    rw [if_pos rfl, if_pos rfl]
    exact .inr ⟨clear, set, rfl, s, keepsFlags_refl _⟩
  · rw [if_neg own, if_neg own]
    exact .inl ⟨rfl, rfl⟩

theorem struck_confirmChannel (s : State) (zones : List BurstZone) (key device c : Nat) :
    Struck s (s.confirmChannel zones key device c) := by
  rcases confirmChannel_cases s zones key device c with same | ⟨b, -, set, clear, struck⟩
  · rw [same]
    exact struck_refl s
  · rw [struck]
    exact struck_latchStruck s b.zone _ set clear

theorem latchOf_struck {u v : State} (h : Struck u v) (key c : Nat) : latchOf v key c = latchOf u key c :=
  (congrArg (fun w : State => latchOf w key c) h.others :)

/-- The latches behind the channels `l` of a device. -/
def channelsConfirmed (zones : List BurstZone) (key device : Nat) (l : List Nat) (s : State) : State :=
  l.foldl (fun s c => s.confirmChannel zones key device c) s

theorem struck_channelsConfirmed (zones : List BurstZone) (key device : Nat) (l : List Nat) (s : State) :
    Struck s (channelsConfirmed zones key device l s) := by
  induction l generalizing s with
  | nil => exact struck_refl s
  | cons c l ih => exact struck_trans (struck_confirmChannel s zones key device c) (ih _)

/-- A zone that the set maps to no channel of the device keeps its latch. -/
theorem confirmChannel_elsewhere (s : State) (zones : List BurstZone) (key device c z : Nat)
    (h : ∀ b ∈ zones, b.zone = z → b.device ≠ device) :
    (s.confirmChannel zones key device c).chc.latch z = s.chc.latch z := by
  rcases confirmChannel_cases s zones key device c with same | ⟨b, found, -, -, struck⟩
  · rw [same]
  · obtain ⟨mem, here, -⟩ := zoneAt_some found
    rw [struck, latchStruck_latch, if_neg fun same => h b mem same.symm here]

/-- One channel and the latch of a zone that the set maps to one channel `b` of the device, and no other zone there. -/
theorem confirmChannel_latch (s : State) (zones : List BurstZone) (key device c : Nat) (b : BurstZone) (mem : b ∈ zones)
    (here : b.device = device) (one_zone : ∀ a ∈ zones, a.device = device → a.channel = b.channel → a = b)
    (one_channel : ∀ a ∈ zones, a.zone = b.zone → a = b) :
    (s.confirmChannel zones key device c).chc.latch b.zone =
      if c = b.channel ∧ s.chc.latch b.zone = .clear then latchOf s key b.channel else s.chc.latch b.zone := by
  by_cases own : c = b.channel
  · subst own
    have found : zoneAt zones device b.channel = some b := by
      obtain ⟨a, found⟩ := Option.isSome_iff_exists.1
        (List.find?_isSome (p := fun a => a.device == device && a.channel == b.channel).2 ⟨b, mem, by simp [here]⟩)
      obtain ⟨mem', device', channel'⟩ := zoneAt_some found
      rw [zoneAt, found, one_zone a mem' device' channel']
    rw [confirmChannel_mapped s zones key device _ b found]
    simp only [true_and]
    by_cases clear : s.chc.latch b.zone = .clear
    · rw [if_pos clear]
      by_cases set : latchOf s key b.channel = .clear
      · rw [if_neg fun fresh => fresh.1 set, set, clear]
      · rw [if_pos ⟨set, clear⟩, latchStruck_latch, if_pos rfl]
    · rw [if_neg clear, if_neg fun fresh => clear fresh.2]
  · rw [if_neg fun same => own same.1]
    rcases confirmChannel_cases s zones key device c with same | ⟨a, found, -, -, struck⟩
    · rw [same]
    · obtain ⟨mem', -, channel'⟩ := zoneAt_some found
      have other : b.zone ≠ a.zone := fun same => own (one_channel a mem' same.symm ▸ channel').symm
      rw [struck, latchStruck_latch, if_neg other]

theorem channelsConfirmed_latch (zones : List BurstZone) (key device : Nat) (b : BurstZone) (mem : b ∈ zones)
    (here : b.device = device) (one_zone : ∀ a ∈ zones, a.device = device → a.channel = b.channel → a = b)
    (one_channel : ∀ a ∈ zones, a.zone = b.zone → a = b) (l : List Nat) (s : State) :
    (channelsConfirmed zones key device l s).chc.latch b.zone =
      if b.channel ∈ l ∧ s.chc.latch b.zone = .clear then latchOf s key b.channel else s.chc.latch b.zone := by
  induction l generalizing s with
  | nil => simp [channelsConfirmed]
  | cons c l ih =>
    have step := confirmChannel_latch s zones key device c b mem here one_zone one_channel
    have same := latchOf_struck (struck_confirmChannel s zones key device c) key b.channel
    have rest := ih (s.confirmChannel zones key device c)
    rw [same, step] at rest
    refine rest.trans ?_
    by_cases clear : s.chc.latch b.zone = .clear
    · by_cases own : c = b.channel
      · simp [own, clear]
      · simp [own, Ne.symm own, clear]
    · simp [clear]

/-! ## The over-temperature hold (R125, R145) -/

/-- The sense unit behind a change of a chain's hold. -/
def heldPassed (sns : Sns) (k : ChainNo) (held : Bool) : Sns :=
  { sns with
    overTemp := sns.overTemp.set k held
    thermal := if held then sns.thermal.set k .hot else sns.thermal }

theorem updateHeld_eq (s : State) (k : ChainNo) :
    s.updateHeld k =
      { s.setChain k { s.chc.chains[k] with overTemp := s.chc.heldNow k } with
        sns := if s.chc.heldNow k = s.chc.chains[k].overTemp then s.sns
          else heldPassed s.sns k (s.chc.heldNow k) } := by
  unfold State.updateHeld
  dsimp only
  split
  · next same =>
    rw [same]
    exact (setChain_self s k).symm
  · rfl

/-! ## A good status (R124, R126) -/

/-- The counts of the 16 channels of a device behind a good status with this mask. -/
def countsPut (m : Sparse Nat) (key : Nat) (mask : Word) : Sparse Nat :=
  sparsePutRange (fun _ => 0) m (key * Config.channelsPerDevice) Config.channelsPerDevice
    (fun c => confirmCount (channelCount m (key * Config.channelsPerDevice + c)) (mask.getLsbD c))

theorem channelCount_countsPut (m : Sparse Nat) (key : Nat) (mask : Word) (c : Nat) (hc : c < 16) :
    channelCount (countsPut m key mask) (16 * key + c) =
      if mask.getLsbD c then min 15 (channelCount m (16 * key + c) + 1) else 0 := by
  unfold countsPut
  rw [channelCount, sparseGet_putRange, show key * Config.channelsPerDevice = 16 * key from Nat.mul_comm _ _,
    if_pos ⟨by omega, by rw [show Config.channelsPerDevice = 16 from rfl]; omega⟩, Nat.add_sub_cancel_left]
  rfl

theorem channelCount_countsPut_other (m : Sparse Nat) (key : Nat) (mask : Word) (n : Nat) (h : n / 16 ≠ key) :
    channelCount (countsPut m key mask) n = channelCount m n := by
  unfold countsPut
  rw [channelCount, sparseGet_putRange, if_neg]
  · rfl
  · rw [show Config.channelsPerDevice = 16 from rfl]
    omega

/-- The chain controller's records of a device behind a good status, before its channels are confirmed. -/
def statusRecorded (s : State) (key : Nat) (st : Status) : State :=
  { s with chc := { s.chc with
      devices := sparsePut (fun _ => .reset) s.chc.devices key ⟨.ok, 0, st.opens, st.shorts, st.overTemp⟩
      openCount := countsPut s.chc.openCount key st.opens
      shortCount := countsPut s.chc.shortCount key st.shorts } }

theorem goodStatus_eq (s : State) (k : ChainNo) (zones : List BurstZone) (i : Nat) (st : Status) :
    s.goodStatus k zones i st =
      (channelsConfirmed zones (deviceKey k i) i (List.range 16) (statusRecorded s (deviceKey k i) st)).updateHeld k :=
  rfl

/-- Settles O39: the records are written, the channels confirmed one by one, the hold follows the records. -/
theorem goodStatusUpdatesRecords : Obligations.GoodStatusUpdatesRecords := by
  intro dt s k zones d i opens shorts flags slot covered device confirm limit
  obtain ⟨u, run, read⟩ := exec_readbackSlot dt s k zones d i
    (withCrc8 ([0x3C, byteOf i] ++ wordBytes opens ++ wordBytes shorts ++ [flags])) slot covered
  rw [readback_status dt s k zones i _ confirm limit _ (readStatusSlot_good i opens shorts flags), goodStatus_eq,
    updateHeld_eq] at read
  have struck := struck_channelsConfirmed zones (deviceKey k i) i (List.range 16)
    (statusRecorded (s.advance dt) (deviceKey k i) ⟨opens, shorts, flags.getLsbD 0⟩)
  generalize hv : channelsConfirmed zones (deviceKey k i) i (List.range 16)
    (statusRecorded (s.advance dt) (deviceKey k i) ⟨opens, shorts, flags.getLsbD 0⟩) = v at read struck
  generalize hs : statusRecorded (s.advance dt) (deviceKey k i) ⟨opens, shorts, flags.getLsbD 0⟩ = b at hv struck
  have devices : v.chc.devices =
      sparsePut (fun _ => .reset) s.chc.devices (deviceKey k i) ⟨.ok, 0, opens, shorts, flags.getLsbD 0⟩ :=
    (congrArg (fun w : State => w.chc.devices) (struck.others.trans hs.symm) :)
  have openCount : v.chc.openCount = countsPut s.chc.openCount (deviceKey k i) opens :=
    (congrArg (fun w : State => w.chc.openCount) (struck.others.trans hs.symm) :)
  have shortCount : v.chc.shortCount = countsPut s.chc.shortCount (deviceKey k i) shorts :=
    (congrArg (fun w : State => w.chc.shortCount) (struck.others.trans hs.symm) :)
  have chains : v.chc.chains = s.chc.chains :=
    (congrArg (fun w : State => w.chc.chains) (struck.others.trans hs.symm) :)
  have sns : v.sns = s.sns := (congrArg State.sns (struck.others.trans hs.symm) :)
  have zone (z : Nat) := hs ▸ struck.zone z
  have own : v.chc.device (deviceKey k i) = ⟨.ok, 0, opens, shorts, flags.getLsbD 0⟩ := by
    rw [Chc.device, devices, sparseGet_put_same]
  have held : u.chc.chains[k] = { s.chc.chains[k] with overTemp := v.chc.heldNow k } := by
    rw [read, ← chains]
    exact State.setChain_chain_same _ _ _
  have sense : u.sns = if v.chc.heldNow k = s.chc.chains[k].overTemp then s.sns
      else heldPassed s.sns k (v.chc.heldNow k) := by
    rw [read, ← chains, ← sns]
  have chain : ∀ c, (u.setChain k c).chc.chains[k] = c := State.setChain_chain_same u k
  have overTemp : (u.setChain k { u.chc.chains[k] with
      activity := slotPassed s.chc.chains[k].activity }).chc.chains[k].overTemp = v.chc.heldNow k := by
    rw [chain, held]
  have same_latch (z : Nat) (h : s.chc.latch z ≠ .clear ∨ ∀ a ∈ zones, a.zone = z → a.device ≠ i) :
      v.chc.latch z = s.chc.latch z := by
    rcases h with set | elsewhere
    · exact (zone z).elim And.left fun fresh => absurd fresh.1 set
    · rw [← hv, ← hs]
      exact foldl_keeps (fun w : State => w.chc.latch z) _
        (fun w c => confirmChannel_elsewhere w zones (deviceKey k i) i c z elsewhere) _ _
  have held_iff := heldNow_iff v.chc k
  refine ⟨_, run, ?_, fun key other => ?_, fun c hc => ?_, fun n other => ?_, fun z kept => ?_,
    fun a mem here inside clear one_zone one_channel => ?_, fun z same => ?_, fun hot => ?_, ?_, fun same => ?_,
    fun changed => ?_, ?_, fun j apart => ?_, ?_, ?_⟩
  · rw [read]
    exact own
  · rw [read]
    show sparseGet _ v.chc.devices key = _
    rw [devices]
    exact sparseGet_put_other _ _ _ _ _ other
  · rw [read]
    show channelCount v.chc.openCount _ = _ ∧ channelCount v.chc.shortCount _ = _
    rw [openCount, shortCount]
    exact ⟨channelCount_countsPut _ _ _ c hc, channelCount_countsPut _ _ _ c hc⟩
  · rw [read]
    show channelCount v.chc.openCount _ = _ ∧ channelCount v.chc.shortCount _ = _
    rw [openCount, shortCount]
    exact ⟨channelCount_countsPut_other _ _ _ n other, channelCount_countsPut_other _ _ _ n other⟩
  · rw [read]
    exact same_latch z kept
  · rw [read]
    show v.chc.latch a.zone = (if s.mem.active 40 ≤ channelCount v.chc.openCount _ then _
      else if s.mem.active 40 ≤ channelCount v.chc.shortCount _ then _ else _) ∧ (v.chc.latch a.zone ≠ _ → _)
    refine ⟨?_, fun set => ?_⟩
    · have confirmed := channelsConfirmed_latch zones (deviceKey k i) i a mem here one_zone one_channel
        (List.range 16) b
      rw [← hs, if_pos ⟨List.mem_range.2 inside, clear⟩, hs, hv] at confirmed
      rw [openCount, shortCount, confirmed, ← hs]
      rfl
    · rcases zone a.zone with ⟨same, -⟩ | ⟨-, -, noted, w, raised⟩
      · exact absurd (same.trans clear) set
      · exact ⟨raised_of_keepsFlags raised, noted⟩
  · rw [read] at same ⊢
    rcases zone z with ⟨-, noted⟩ | ⟨clear, set, -⟩
    · exact noted
    · exact absurd (same.trans clear) set
  · have hold : v.chc.heldNow k = true := held_iff.2 ⟨i, device, by
      rw [show v.chc.device (24 * k.val + i) = _ from own]; exact hot⟩
    refine ⟨overTemp.trans hold, fun cold => ?_⟩
    have passed : u.sns = heldPassed s.sns k true := by
      rw [sense, hold, cold]
      rfl
    show u.sns.overTemp[k] = true ∧ u.sns.thermal[k] = .hot
    rw [passed]
    exact ⟨by simp [heldPassed], by simp [heldPassed]⟩
  · rw [overTemp, held_iff, read]
    rfl
  · rw [overTemp] at same
    exact sense.trans (if_pos same)
  · rw [overTemp] at changed ⊢
    exact sense.trans (if_neg changed)
  · rw [overTemp, chain, held]
    rfl
  · rw [State.setChain_chain_other _ _ _ _ apart.symm, read, ← chains]
    exact State.setChain_chain_other v _ _ _ apart.symm
  · rw [read]
    exact (congrArg State.clock (struck.others.trans hs.symm) :)
  · rw [read]
    exact (congrArg (fun w : State => { w with
      clock := s.clock, sns := s.sns, rpu := { w.rpu with flags := s.rpu.flags }
      chc := { w.chc with
        devices := s.chc.devices, openCount := s.chc.openCount, shortCount := s.chc.shortCount
        latches := s.chc.latches, struck := s.chc.struck, chains := s.chc.chains } })
      (struck.others.trans hs.symm) :)

end Sys2Proof.Laws
end

