-- ==== Sys2Proof/Proofs/Sweeps.lean ====
section
/-! PROOF. The enumeration of a chain: how ENUMERATE_CHAIN is accepted, and how a sweep goes and ends
(R117, R129 to R131). -/

namespace Sys2Proof.Laws

open Sys2Proof.Machine

/-! ## The acknowledgement (R130) -/

theorem goodAck_iff (n : Nat) (bytes : List Byte) : goodAck n bytes = true ↔ bytes = withCrc8 [0x3C, byteOf n] := by
  constructor
  · intro good
    simp only [goodAck, Bool.and_eq_true, decide_eq_true_eq] at good
    obtain ⟨⟨⟨length, sync⟩, echo⟩, crc⟩ := good
    match bytes, length with
    | [a, b, c], _ =>
      obtain rfl : a = 0x3C := sync
      obtain rfl : b = byteOf n := echo
      exact eq_withCrc8 crc
  · rintro rfl
    unfold goodAck
    rw [goodCrc8_withCrc8, Bool.and_true]
    simp [withCrc8, syncByte]

/-! ## The end of a sweep (R131) -/

/-- The part with the records of a chain reset by the end of its sweep, before its hold follows them. -/
def sweepReset (s : State) (k : ChainNo) (count : Nat) (overlength : Bool) : State :=
  let s := s.setChain k { s.chc.chains[k].toIdle with count := count, overlength := overlength }
  { s with chc := { s.chc with
      devices := sparseClear (fun i => decide (i / 24 = k.val)) s.chc.devices
      openCount := sparseClear (fun i => decide (i / 384 = k.val)) s.chc.openCount
      shortCount := sparseClear (fun i => decide (i / 384 = k.val)) s.chc.shortCount } }

theorem endSweep_eq (s : State) (k : ChainNo) (count : Nat) (overlength : Bool) :
    s.endSweep k count overlength = (((sweepReset s k count overlength).updateHeld k).raise .enumDone).arbitrate k :=
  rfl

theorem sweepReset_device (s : State) (k : ChainNo) (count : Nat) (overlength : Bool) (i : Nat) (h : i < 24) :
    (sweepReset s k count overlength).chc.device (24 * k.val + i) = ⟨.unknown, 0, 0, 0, false⟩ :=
  (sparseGet_clear (fun _ => .reset) (fun i => decide (i / 24 = k.val)) s.chc.devices (24 * k.val + i)).trans
    (if_pos (decide_eq_true (by omega)))

theorem sweepReset_held (s : State) (k : ChainNo) (count : Nat) (overlength : Bool) :
    (sweepReset s k count overlength).chc.heldNow k = false := by
  rw [← Bool.not_eq_true, heldNow_iff]
  rintro ⟨i, inside, hot⟩
  rw [sweepReset_device s k count overlength i inside] at hot
  cases hot

/-- The sweep of chain `k` has ended from `s` to `t`. -/
def sweepEnded (s t : State) (k : ChainNo) (count : Nat) (overlength : Bool) : Prop :=
  t.chc.chains[k].count = count ∧ t.chc.chains[k].overlength = overlength ∧
    t.chc.chains[k].sweeping = false ∧
    (∀ i < 24, t.chc.device (24 * k.val + i) = ⟨.unknown, 0, 0, 0, false⟩) ∧
    (∀ n, n / 384 = k.val → channelCount t.chc.openCount n = 0 ∧ channelCount t.chc.shortCount n = 0) ∧
    t.chc.chains[k].overTemp = false ∧
    t.rpu = { s.rpu with flags := s.rpu.flags ||| Event.enumDone.bit } ∧ t.chc.latches = s.chc.latches ∧
    (∀ j : ChainNo, j ≠ k → t.chc.chains[j] = s.chc.chains[j]) ∧ t.mem = s.mem ∧ t.cmd = s.cmd ∧ t.mdc = s.mdc

/-- An IDLE chain with no sweep waiting has none behind its arbiter. -/
theorem served_sweeping (c : ChainRec) (entry : Option PassEntry) (idle : c.activity = .idle)
    (counted : c.enumWaiting = false) : (served c entry).sweeping = false := by
  rcases served_cases c entry with same | ⟨f, -, same⟩ | ⟨-, same⟩ | ⟨waits, -⟩ | ⟨job, -, same⟩ | ⟨e, -, -, same⟩
  case inr.inr.inr.inl =>
    rw [counted] at waits
    cases waits
  case inl =>
    rw [same, ChainRec.sweeping, idle]
  all_goals
    rw [same]
    rfl

theorem endSweep_ends (s : State) (k : ChainNo) (count : Nat) (overlength : Bool)
    (counted : s.chc.chains[k].enumWaiting = false) :
    sweepEnded s (s.endSweep k count overlength) k count overlength := by
  have device := sweepReset_device s k count overlength
  have cleared (m : Sparse Nat) (n : Nat) (own : n / 384 = k.val) :
      channelCount (sparseClear (fun i => decide (i / 384 = k.val)) m) n = 0 :=
    (sparseGet_clear _ _ _ _).trans (if_pos (decide_eq_true own))
  have held := updateHeld_eq (sweepReset s k count overlength) k
  have chain : (sweepReset s k count overlength).chc.chains[k] =
      { s.chc.chains[k].toIdle with count := count, overlength := overlength } := State.setChain_chain_same s k _
  rw [sweepReset_held, chain] at held
  rw [endSweep_eq]
  generalize hu : ((sweepReset s k count overlength).updateHeld k).raise .enumDone = u
  rw [held] at hu
  have own : u.chc.chains[k] =
      { s.chc.chains[k].toIdle with count := count, overlength := overlength, overTemp := false } := by
    rw [← hu]
    exact State.setChain_chain_same _ k _
  have after := arbitrate_chain_served u k
  have other (j : ChainNo) (apart : j ≠ k) : u.chc.chains[j] = s.chc.chains[j] := by
    rw [← hu]
    exact (State.setChain_chain_other _ k j _ apart.symm).trans (State.setChain_chain_other s k j _ apart.symm)
  have kept := blankChains_arbitrate u k
  have devices : (u.arbitrate k).chc.devices = (sweepReset s k count overlength).chc.devices := by
    rw [eq_of_blankChains kept, ← hu]
    rfl
  have counts : (u.arbitrate k).chc.openCount = sparseClear (fun i => decide (i / 384 = k.val)) s.chc.openCount ∧
      (u.arbitrate k).chc.shortCount = sparseClear (fun i => decide (i / 384 = k.val)) s.chc.shortCount := by
    rw [eq_of_blankChains kept, ← hu]
    exact ⟨rfl, rfl⟩
  have elsewhere : (u.arbitrate k).rpu = { s.rpu with flags := s.rpu.flags ||| Event.enumDone.bit } ∧
      (u.arbitrate k).chc.latches = s.chc.latches ∧ (u.arbitrate k).mem = s.mem ∧ (u.arbitrate k).cmd = s.cmd ∧
      (u.arbitrate k).mdc = s.mdc := by
    rw [eq_of_blankChains kept, ← hu]
    exact ⟨rfl, rfl, rfl, rfl, rfl⟩
  obtain ⟨rpu, latches, mem, cmd, mdc⟩ := elsewhere
  obtain ⟨count', long, -, -, -, hold, -⟩ := served_kept u.chc.chains[k] (oldestEntry u.chc.passQueue k)
  rw [← after, own] at count' long hold
  refine ⟨count', long, ?_, fun i inside => ?_, fun n inside => ?_, hold, rpu, latches, fun j apart => ?_, mem, cmd,
    mdc⟩
  · rw [after]
    exact served_sweeping _ _ (by rw [own]; rfl) (by rw [own]; exact counted)
  · rw [Chc.device, devices]
    exact device i inside
  · rw [counts.1, counts.2]
    exact ⟨cleared _ n inside, cleared _ n inside⟩
  · rw [arbitrate_other u k j apart, other j apart]

/-! ## The steps of a sweep (R130) -/

theorem exec_releaseSent (dt : Nat) (s : State) (k : ChainNo)
    (release : s.chc.chains[k].activity = .enumerate .release) :
    exec (.releaseSent dt k) s = .next ((s.advance dt).assign k 0) := by
  show execReleaseSent dt k s = _
  simp only [execReleaseSent, State.advance_chc, release]

theorem exec_assignmentSent (dt : Nat) (s : State) (k : ChainNo) (n : Nat)
    (assigning : s.chc.chains[k].activity = .enumerate (.assigning n)) :
    exec (.assignmentSent dt k) s = .next ((s.advance dt).setChain k
      (s.chc.chains[k].sending (.enumerate (.waiting n (s.advance dt).clock.now)) [])) := by
  show execAssignmentSent dt k s = _
  simp only [execAssignmentSent, State.advance_chc, assigning]

section
variable (dt : Nat) (s : State) (k : ChainNo) (n since : Nat)
  (waiting : s.chc.chains[k].activity = .enumerate (.waiting n since))
include waiting

theorem exec_acknowledgement (bytes : List Byte) (soon : s.clock.now + dt ≤ since + 20) :
    exec (.acknowledgement dt k bytes) s = .next (
      if bytes = withCrc8 [0x3C, byteOf n] then
        if n = 24 then (s.advance dt).endSweep k 24 true else (s.advance dt).assign k (n + 1)
      else (s.advance dt).endSweep k n false) := by
  have late : ¬ since + Config.ackWait < (s.advance dt).clock.now := Nat.not_lt.2 soon
  show execAcknowledgement dt k bytes s = _
  simp only [execAcknowledgement, State.advance_chc, waiting, if_neg late, goodAck_iff]
  rfl

theorem exec_enumAckTimeout :
    exec (.enumAckTimeout dt k) s = .next (((s.advance dt).advanceTo (since + 20)).endSweep k n false) := by
  show execEnumAckTimeout dt k s = _
  simp only [execEnumAckTimeout, State.advance_chc, waiting]
  rfl

end

theorem endSweep_clock (s : State) (k : ChainNo) (count : Nat) (overlength : Bool) :
    (s.endSweep k count overlength).clock = s.clock := by
  rw [endSweep_eq, State.arbitrate_clock, State.raise_clock, updateHeld_eq]
  rfl

/-- Settles O41: the steps of the sweep, and its end at a 25th device, a bad acknowledgement or the wait. -/
theorem sweepCountsDevices : Obligations.SweepCountsDevices := by
  intro dt s k
  refine ⟨fun release => ?_, fun n assigning => ?_, fun n since waiting counted => ⟨fun soon => ?_, ?_⟩⟩
  · exact ⟨_, exec_releaseSent dt s k release, rfl⟩
  · exact ⟨_, exec_assignmentSent dt s k n assigning, rfl⟩
  · have run := exec_acknowledgement dt s k n since waiting
    refine ⟨fun more => ?_, fun full => ?_, fun bytes bad => ?_⟩
    · have good := run (withCrc8 [0x3C, byteOf n]) soon
      rw [if_pos rfl, if_neg more] at good
      exact ⟨_, good, rfl⟩
    · have good := run (withCrc8 [0x3C, byteOf n]) soon
      rw [if_pos rfl, if_pos full] at good
      exact ⟨_, good, endSweep_ends (s.advance dt) k 24 true counted⟩
    · have ended := run bytes soon
      rw [if_neg bad] at ended
      exact ⟨_, ended, endSweep_ends (s.advance dt) k n false counted⟩
  · refine ⟨_, exec_enumAckTimeout dt s k n since waiting, ?_,
      endSweep_ends ((s.advance dt).advanceTo (since + 20)) k n false counted⟩
    rw [endSweep_clock]
    exact State.advanceTo_now _ _

/-! ## ENUMERATE_CHAIN (R129) -/

theorem exec_enumerateChain (dt : Nat) (s : State) (p : Packet) (w : Word) (hr : s.runs p 0x41) (hp : p.payload = [w]) :
    exec (.enumerateChain dt) s =
      .next ((enumerateChain p (s.advance dt)).1.finish p (enumerateChain p (s.advance dt)).2) :=
  congrArg Host.Outcome.next
    (execute_body (s.advance dt) p Config.codeEnumerateChain _ enumerateChain hr (by rw [hp]; rfl))

section
variable (p : Packet) (s : State) (w : Word) (hp : p.payload = [w])
include hp

theorem enumerateChain_range (h : 7 < w.toNat) : enumerateChain p s = refusal s .range := by
  have arg : p.arg 0 = w.toNat := by rw [Packet.arg, hp]; rfl
  exact dif_neg (by omega)

theorem enumerateChain_eq (k : ChainNo) (h : w.toNat = k.val) :
    enumerateChain p s =
      if s.mdc.mode ≠ .standby then refusal s .notInMode
      else if s.chc.enumerating then refusal s .busy
      else accepted ((s.setChain k { s.chc.chains[k] with enumWaiting := true }).arbitrate k) := by
  have arg : p.arg 0 = k.val := by rw [Packet.arg, hp]; exact h
  unfold enumerateChain
  rw [dif_pos (by omega)]
  simp only [arg, Fin.eta]

end

/-- A chain with a sweep waiting enumerates, whatever its arbiter starts. -/
theorem served_enumerating (c : ChainRec) (entry : Option PassEntry) (waits : c.enumWaiting = true) :
    (served c entry).enumerating = true := by
  rw [enumerating_iff]
  rcases served_cases c entry with same | ⟨f, -, same⟩ | ⟨-, same⟩ | ⟨-, same⟩ | ⟨job, -, same⟩ | ⟨e, -, -, same⟩
  case inr.inr.inr.inl => exact .inr ⟨.release, by rw [same]⟩
  all_goals exact .inl (by rw [same]; exact waits)

/-- Settles O53: the checks in their order; the sweep goes out where nothing stands ahead of it. -/
theorem enumerationIsAccepted : Obligations.EnumerationIsAccepted := by
  intro dt s p w hr hp
  have run := exec_enumerateChain dt s p w hr hp
  have clean := hr.2.2
  refine ⟨fun h => ?_, fun h mode => ?_, fun h mode busy => ?_, fun k h mode free => ?_⟩
  · exact refused_of_body run (enumerateChain_range p (s.advance dt) w hp h) clean
  · refine refused_of_body run ?_ clean
    rw [enumerateChain_eq p (s.advance dt) w hp ⟨w.toNat, by omega⟩ rfl]
    exact if_pos mode
  · refine refused_of_body run ?_ clean
    rw [enumerateChain_eq p (s.advance dt) w hp ⟨w.toNat, by omega⟩ rfl]
    exact (if_neg (not_not.2 mode)).trans (if_pos ((enumerating_any s.chc).2 busy))
  · have still : ¬ s.chc.enumerating = true := by
      rw [enumerating_any]
      rintro ⟨j, running⟩
      rw [free j] at running
      cases running
    have body := (enumerateChain_eq p (s.advance dt) w hp k h).trans
      ((if_neg (not_not.2 mode)).trans (if_neg still))
    generalize hu : (s.advance dt).setChain k { (s.advance dt).chc.chains[k] with enumWaiting := true } = u at body
    have own : u.chc.chains[k] = { s.chc.chains[k] with enumWaiting := true } := by
      rw [← hu]
      exact State.setChain_chain_same _ k _
    have kept : blankChains (u.arbitrate k) = blankChains (s.advance dt) :=
      (blankChains_arbitrate u k).trans (by rw [← hu, blankChains_setChain])
    have queue : (u.arbitrate k).chc.passQueue = s.chc.passQueue := by
      rw [arbitrate_queue_kept u k, ← hu]
      · rfl
      · rintro ⟨-, -, -, -, -, counted, -⟩
        rw [own] at counted
        cases counted
    have eq := eq_of_blankChains kept
    have after := arbitrate_chain_served u k
    rw [own] at after
    obtain ⟨c, x, ended, answered⟩ := execute_ok (s.advance dt) (u.arbitrate k) p Config.codeEnumerateChain (exactly 1)
      enumerateChain [] hr (by rw [hp]; rfl) body (by rw [eq]) (by rw [eq]; exact clean)
    refine ⟨_, congrArg Host.Outcome.next ended, answered, ?_, fun busy => ?_,
      fun idle due free lit still => ?_, fun j apart => ?_, ?_, ?_⟩
    · show (u.arbitrate k).chc.chains[k].enumerating = true
      rw [after]
      exact served_enumerating _ _ rfl
    · exact after.trans (served_busy _ _ busy)
    · exact after.trans (served_sweep { s.chc.chains[k] with enumWaiting := true } _ idle due free lit still rfl)
    · refine (arbitrate_other u k j apart).trans ?_
      rw [← hu]
      exact State.setChain_chain_other _ k j _ apart.symm
    · exact (congrArg State.clock eq :)
    · have frame := (congrArg (fun t : State => { t with
        clock := s.clock, cmd := s.cmd, rpu := { t.rpu with slot := s.rpu.slot }
        chc := { t.chc with chains := s.chc.chains } }) eq :)
      exact frame.trans (congrArg (fun q => { s with chc := { s.chc with passQueue := q } }) queue)

end Sys2Proof.Laws
end

