-- ==== Sys2Proof/Proofs/PassThrough.lean ====
section
/-! PROOF. DRIVER_PASS: how an entry joins the queue, how its exchange goes, and what outcome it delivers
(R117, R132 to R134). -/

namespace Sys2Proof.Laws

open Sys2Proof.Machine

/-! ## The answer of a device (R134) -/

/-- The answer of device `d` that carries these bytes. -/
def passAnswer (d : Nat) (answer : List Byte) : List Byte :=
  withCrc8 (0x3C :: byteOf d :: byteOf answer.length :: answer)

theorem passAnswerBytes_good (d : Nat) (answer : List Byte) (h : answer.length ≤ 8) :
    passAnswerBytes d (passAnswer d answer) = some answer := by
  have count : (byteOf answer.length).toNat = answer.length := toNat_byteOf _ (by omega)
  have length : (passAnswer d answer).length = 4 + answer.length := by
    simp only [passAnswer, withCrc8, List.length_append, List.length_cons, List.length_nil]
    omega
  show (if _ then some (((passAnswer d answer).drop 3).take (byteOf answer.length).toNat) else none) = _
  rw [if_pos]
  · rw [count]
    exact congrArg some List.take_left
  · refine ⟨?_, ?_, rfl, rfl, goodCrc8_withCrc8 _⟩
    · exact count.le.trans h
    · exact length.trans (congrArg (4 + ·) count.symm)

/-- Bytes that pass the checks are the answer of the device. -/
theorem passAnswerBytes_bad (d : Nat) (bytes : List Byte) (h : ∀ answer, bytes ≠ passAnswer d answer) :
    passAnswerBytes d bytes = none := by
  refine if_neg ?_
  rintro ⟨-, length, sync, echo, crc⟩
  match bytes, length with
  | a :: b :: c :: rest, length =>
    have whole := eq_withCrc8 crc
    obtain rfl : a = 0x3C := sync
    obtain rfl : b = byteOf d := echo
    have rest_length : rest.length = c.toNat + 1 := by
      simp only [List.length_cons, List.getD_cons_succ, List.getD_cons_zero] at length
      omega
    have count : byteOf (rest.take c.toNat).length = c := by
      rw [List.length_take, rest_length, Nat.min_eq_left (Nat.le_succ _)]
      simp [byteOf]
    have body : ((0x3C : Byte) :: byteOf d :: c :: rest).take (((0x3C : Byte) :: byteOf d :: c :: rest).length - 1) =
        0x3C :: byteOf d :: c :: rest.take c.toNat := by
      simp [rest_length]
    rw [body] at whole
    exact h (rest.take c.toNat) (by rw [passAnswer, count]; exact whole)

/-! ## The request goes out (R133) -/

theorem setChain_setChain (s : State) (k : ChainNo) (c c' : ChainRec) :
    (s.setChain k c).setChain k c' = s.setChain k c' := by
  have twice : (s.chc.chains.set k c).set k c' = s.chc.chains.set k c' := by simp
  unfold State.setChain
  dsimp only
  rw [twice]

theorem exec_passRequestSent (dt : Nat) (s : State) (k : ChainNo) (request : s.chc.chains[k].activity = .passRequest)
    (due : s.chc.chains[k].latchDue = none) :
    exec (.passRequestSent dt k) s = .next ((s.advance dt).setChain k { s.chc.chains[k] with
      activity := .idle, message := [], awaiting := some (s.clock.now + dt) }) := by
  show execPassRequestSent dt k s = _
  simp only [execPassRequestSent, State.advance_chc, request, State.freeChain, setChain_setChain,
    State.setChain_chain_same]
  refine congrArg Host.Outcome.next (arbitrate_nothing _ k ?_ ?_)
  · rw [State.setChain_chain_same]
    rintro ⟨-, -, free, -⟩
    cases free
  · rw [State.setChain_chain_same]
    exact served_awaiting _ _ rfl due nofun

/-! ## The outcome of an exchange (R134) -/

/-- The outcome of the exchange on chain `k` that the owed reply `o` stands for has been delivered. -/
def outcomeDelivered (s t : State) (k : ChainNo) (o : Owed) (result : Result) (data : List Word) : Prop :=
  t.cmd.outgoing = s.cmd.outgoing ++ [⟨t.tag, o.seq, o.code, result, .none, true, data⟩] ∧
    t.cmd.owed.length + 1 = s.cmd.owed.length ∧ t.chc.passQueue.length + 1 = s.chc.passQueue.length ∧
    t.chc.chains[k].awaiting = none ∧ t.chc.latches = s.chc.latches ∧
    (∀ j : ChainNo, j ≠ k → t.chc.chains[j] = s.chc.chains[j]) ∧
    (s.cleanSetting Config.deviceTag → t.mem = s.mem ∧ t.mdc = s.mdc)

theorem deliver_eq (s : State) (owner : OwingUnit) (n : Nat) (o : Owed) (result : Result) (data : List Word)
    (h : (s.cmd.owed.filter (fun o => o.owner == owner))[n]? = some o) :
    s.deliver owner n result data =
      ({ s with cmd := { s.cmd with owed := removeOwed owner n s.cmd.owed } }).fill o.seq o.code result .none true
        data := by
  unfold State.deliver
  rw [h]

theorem endExchange_delivers (s : State) (k : ChainNo) (e : PassEntry) (o : Owed) (result : Result) (data : List Word)
    (entry : s.chc.passQueue[s.chc.exchange k]? = some e)
    (owes : (s.cmd.owed.filter (fun o => o.owner == .chains))[s.chc.exchange k]? = some o) :
    outcomeDelivered s (s.endExchange k result data) k o result data ∧
      (s.endExchange k result data).clock = s.clock := by
  have place : s.chc.exchange k < s.chc.passQueue.length := (List.getElem?_eq_some_iff.1 entry).1
  have removed := (owedBy_removeOwed .chains (s.chc.exchange k) s.cmd.owed (List.getElem?_eq_some_iff.1 owes).1).1
  have deliver := deliver_eq s .chains (s.chc.exchange k) o result data owes
  generalize hd : s.deliver .chains (s.chc.exchange k) result data = d at deliver
  generalize hf : ({ s with
    cmd := { s.cmd with owed := removeOwed .chains (s.chc.exchange k) s.cmd.owed } } : State) = f at deliver
  have outgoing := fill_outgoing f o.seq o.code result .none true data
  have owed := fill_owed f o.seq o.code result .none true data
  rw [← deliver, ← hf] at outgoing owed
  have chc : d.chc = s.chc := by rw [← hd, State.deliver_chc]
  have clock : d.clock = s.clock := by rw [← hd, State.deliver_clock]
  generalize hv : ({ d with chc := { d.chc with passQueue := d.chc.passQueue.eraseIdx (s.chc.exchange k) } } :
    State).setChain k { d.chc.chains[k] with awaiting := none } = v
  have ended : s.endExchange k result data = (v.arbitrate k).pump := by
    rw [← hv, ← hd]
    rfl
  have queue : (v.arbitrate k).chc.passQueue.length + 1 = s.chc.passQueue.length := by
    have length : (v.arbitrate k).chc.passQueue.length = v.chc.passQueue.length :=
      congrArg (fun l => l.2.1) (loadOf_arbitrate v k)
    rw [length, ← hv]
    show (d.chc.passQueue.eraseIdx _).length + 1 = _
    rw [chc, List.length_eraseIdx_of_lt place]
    omega
  have own : (v.arbitrate k).chc.chains[k].awaiting = none := by
    rw [arbitrate_chain_served, (served_kept _ _).2.2.2.2.2.2, ← hv, State.setChain_chain_same]
  have others (j : ChainNo) (apart : j ≠ k) : (v.arbitrate k).chc.chains[j] = s.chc.chains[j] := by
    rw [arbitrate_other v k j apart, ← hv, State.setChain_chain_other _ k j _ apart.symm]
    exact (congrArg (fun c : Chc => c.chains[j]) chc :)
  have latches : (v.arbitrate k).chc.latches = s.chc.latches := by
    rw [eq_of_blankChains (blankChains_arbitrate v k), ← hv]
    exact (congrArg Chc.latches chc :)
  have cmd : v.cmd = d.cmd := by rw [← hv]; rfl
  have mem : v.mem = d.mem := by rw [← hv]; rfl
  rw [ended]
  refine ⟨⟨?_, ?_, ?_, ?_, ?_, fun j apart => ?_, fun clean => ?_⟩, ?_⟩
  · rw [pump_outgoing, State.arbitrate_cmd, cmd, State.tag, State.pump_mem, State.arbitrate_mem, mem]
    exact outgoing
  · rw [pump_owed, State.arbitrate_cmd, cmd, owed]
    exact removed
  · rw [State.pump_chc]
    exact queue
  · rw [State.pump_chc]
    exact own
  · rw [State.pump_chc]
    exact latches
  · rw [State.pump_chc]
    exact others j apart
  · have filled := fill_of_clean f (by rw [← hf]; exact clean) o.seq o.code result .none true data
    rw [State.pump_mem, State.arbitrate_mem, mem, State.pump_mdc, State.arbitrate_mdc, ← hv, deliver, filled, ← hf]
    exact ⟨rfl, rfl⟩
  · rw [State.pump_clock, State.arbitrate_clock, ← hv]
    exact clock

section
variable (dt : Nat) (s : State) (k : ChainNo) (since : Nat) (waits : s.chc.chains[k].awaiting = some since)
include waits

theorem exec_passTimeout :
    exec (.passTimeout dt k) s = .next (((s.advance dt).advanceTo (since + 2000)).endExchange k .timeout []) := by
  show execPassTimeout dt k s = _
  simp only [execPassTimeout, State.advance_chc, waits]
  rfl

variable (e : PassEntry) (entry : s.chc.passQueue[s.chc.exchange k]? = some e)
include entry

theorem exec_passAnswer_good (bytes answer : List Byte) (good : passAnswerBytes e.device bytes = some answer)
    (soon : s.clock.now + dt ≤ since + 2000) :
    exec (.passAnswer dt k bytes) s = .next ((s.advance dt).endExchange k .ok (passOutcomeData answer)) := by
  show execPassAnswer dt k bytes s = _
  simp only [execPassAnswer, State.advance_chc, waits, entry, good]
  exact congrArg Host.Outcome.next (if_pos soon)

theorem exec_passAnswer_bad (bytes : List Byte) (bad : passAnswerBytes e.device bytes = none) :
    exec (.passAnswer dt k bytes) s = .next (s.advance dt) := by
  show execPassAnswer dt k bytes s = _
  simp only [execPassAnswer, State.advance_chc, waits, entry, bad]

end

/-- Settles O42: the request's end starts the wait, and the exchange ends by its outcome. -/
theorem passThroughExchange : Obligations.PassThroughExchange := by
  intro dt s k
  refine ⟨fun request due => ⟨_, exec_passRequestSent dt s k request due, rfl⟩,
    fun since e o waits entry owes => ⟨fun answer short soon => ?_, fun bytes bad => ?_, ?_⟩⟩
  · exact ⟨_, exec_passAnswer_good dt s k since waits e entry _ _ (passAnswerBytes_good e.device answer short) soon,
      (endExchange_delivers (s.advance dt) k e o .ok (passOutcomeData answer) entry owes).1⟩
  · exact exec_passAnswer_bad dt s k since waits e entry bytes (passAnswerBytes_bad e.device bytes bad)
  · obtain ⟨delivered, clock⟩ :=
      endExchange_delivers ((s.advance dt).advanceTo (since + 2000)) k e o .timeout [] entry owes
    exact ⟨_, exec_passTimeout dt s k since waits, (congrArg Clock.now clock).trans (State.advanceTo_now _ _),
      delivered⟩

/-! ## DRIVER_PASS (R132) -/

theorem oldestEntry_split (k : ChainNo) (older newer : List PassEntry) (e : PassEntry) (own : e.chain = k)
    (others : ∀ o ∈ older, o.chain ≠ k) : oldestEntry (older ++ e :: newer) k = some e := by
  have before : oldestEntry older k = none := oldestEntry_none others
  unfold oldestEntry at before ⊢
  rw [List.find?_append, before, List.find?_cons_of_pos (by simpa using own)]
  rfl

theorem startPass_split (k : ChainNo) (older newer : List PassEntry) (e : PassEntry) (own : e.chain = k)
    (others : ∀ o ∈ older, o.chain ≠ k) :
    startPass k (older ++ e :: newer) = older ++ { e with started := true } :: newer := by
  induction older with
  | nil => exact if_pos own
  | cons o older ih =>
    have rest := ih fun a ha => others a (List.mem_cons_of_mem o ha)
    exact (if_neg (others o List.mem_cons_self)).trans (congrArg (o :: ·) rest)

/-- The part with an entry and its owed outcome taken in. -/
def passJoined (s : State) (entry : PassEntry) (outcome : Owed) : State :=
  { s with
    chc := { s.chc with passQueue := s.chc.passQueue ++ [entry] }
    cmd := { s.cmd with owed := s.cmd.owed ++ [outcome] } }

section
variable (p : Packet) (s : State) (chain device count : Word) (words : List Word)
  (hp : p.payload = chain :: device :: count :: words)
include hp

theorem driverPass_range (h : 7 < chain.toNat ∨ 23 < device.toNat ∨ count.toNat = 0 ∨ 8 < count.toNat) :
    driverPass p s = refusal s .range := by
  have arg₀ : p.arg 0 = chain.toNat := by rw [Packet.arg, hp]; rfl
  have arg₁ : p.arg 1 = device.toNat := by rw [Packet.arg, hp]; rfl
  have arg₂ : p.arg 2 = count.toNat := by rw [Packet.arg, hp]; rfl
  unfold driverPass
  split
  · exact if_pos (by rw [arg₁, arg₂]; omega)
  · rfl

theorem driverPass_eq (k : ChainNo) (hk : chain.toNat = k.val) (hd : device.toNat ≤ 23) (h₀ : 0 < count.toNat)
    (h₈ : count.toNat ≤ 8) :
    driverPass p s =
      if 4 ≤ s.chc.passQueue.length then refusal s .busy
      else ((passJoined s ⟨k, device.toNat, (words.flatMap wordBytes).take count.toNat, p.seq, false⟩
        ⟨p.seq, p.code, .chains⟩).arbitrate k, some ⟨.ok, .none, false, []⟩) := by
  have arg₀ : p.arg 0 = k.val := by rw [Packet.arg, hp]; exact hk
  have arg₁ : p.arg 1 = device.toNat := by rw [Packet.arg, hp]; rfl
  have arg₂ : p.arg 2 = count.toNat := by rw [Packet.arg, hp]; rfl
  have bytes : p.passBytes = (words.flatMap wordBytes).take count.toNat := by
    rw [Packet.passBytes, arg₂, hp]
    rfl
  unfold driverPass
  rw [dif_pos (by omega)]
  dsimp only
  rw [if_neg (by rw [arg₁, arg₂]; omega)]
  simp only [arg₀, arg₁, bytes, Fin.eta]
  rfl

end

theorem exec_driverPass (dt : Nat) (s : State) (p : Packet) (hr : s.runs p 0x42) (own : p.broadcast = false)
    (hp : p.payload.length = 7) :
    exec (.driverPass dt) s = .next ((driverPass p (s.advance dt)).1.finish p (driverPass p (s.advance dt)).2) :=
  congrArg Host.Outcome.next (execute_body_own (s.advance dt) p Config.codeDriverPass true (exactly 7) driverPass hr.1
    hr.2.1 own (by rw [hp]; rfl))

/-- A command for the part alone ends with a reply: it is queued, and the command unit goes on. -/
theorem finish_replies (u : State) (p : Packet) (own : p.broadcast = false) (a : Answer) :
    let t := u.finish p (some a)
    t.cmd.outgoing = u.cmd.outgoing ++ [⟨t.tag, p.seq, p.code, a.result, a.reason, a.final, a.data⟩] ∧
      t.cmd.owed = u.cmd.owed ∧ u.tookNext t := by
  have answer : u.finish p (some a) = (u.release.fill p.seq p.code a.result a.reason a.final a.data).pump := by
    unfold State.finish State.answer
    rw [own]
    rfl
  dsimp only
  rw [answer]
  refine ⟨?_, (pump_owed _).trans (fill_owed _ _ _ _ _ _ _), ?_⟩
  · rw [pump_outgoing, fill_outgoing, State.tag, State.tag, State.pump_mem]
    rfl
  · have goesOn := pump_cases (u.release.fill p.seq p.code a.result a.reason a.final a.data)
      (fill_inFlight _ _ _ _ _ _ _)
    rw [fill_queue] at goesOn
    exact goesOn

/-- Settles O54: the entry joins the queue, and the arbiter takes its choices in order. -/
theorem passThroughIsAccepted : Obligations.PassThroughIsAccepted := by
  intro dt s p chain device count words hr own hp four
  have run := exec_driverPass dt s p hr own (by rw [hp]; simp [four])
  have clean := hr.2.2
  refine ⟨fun h => ?_, fun hk hd h₀ h₈ full => ?_, fun k hk hd h₀ h₈ room => ?_⟩
  · exact refused_of_body run (driverPass_range p (s.advance dt) chain device count words hp h) clean
  · refine refused_of_body run ?_ clean
    exact (driverPass_eq p (s.advance dt) chain device count words hp ⟨chain.toNat, by omega⟩ rfl hd h₀ h₈).trans
      (if_pos full)
  rw [(driverPass_eq p (s.advance dt) chain device count words hp k hk hd h₀ h₈).trans
    (if_neg (Nat.not_le.2 room))] at run
  dsimp only at run
  generalize hb : (words.flatMap wordBytes).take count.toNat = bytes at run
  have length : bytes.length = count.toNat := by
    rw [← hb, List.length_take]
    exact Nat.min_eq_left (h₈.trans (by rw [← unpackWords, length_unpackWords, four]))
  generalize he : (⟨k, device.toNat, bytes, p.seq, false⟩ : PassEntry) = entry at run
  have joins : entry.chain = k := by rw [← he]
  generalize hu : passJoined (s.advance dt) entry ⟨p.seq, p.code, .chains⟩ = u at run
  have chains : u.chc.chains = s.chc.chains := by rw [← hu]; rfl
  have chain : u.chc.chains[k] = s.chc.chains[k] := by rw [chains]
  have queue : u.chc.passQueue = s.chc.passQueue ++ [entry] := by rw [← hu]; rfl
  have eq := eq_of_blankChains (blankChains_arbitrate u k)
  obtain ⟨outgoing, owed, goesOn⟩ := finish_replies (u.arbitrate k) p own ⟨.ok, .none, false, []⟩
  have ended := finish_eq (u.arbitrate k) p (some ⟨.ok, .none, false, []⟩) (by rw [eq, ← hu]; exact clean)
  generalize ht : (u.arbitrate k).finish p (some ⟨.ok, .none, false, []⟩) = t at run outgoing owed goesOn ended
  have chc : t.chc = (u.arbitrate k).chc := by rw [ended]
  have cmd : (u.arbitrate k).cmd = { s.cmd with owed := s.cmd.owed ++ [⟨p.seq, p.code, .chains⟩] } := by
    rw [eq, ← hu]
    rfl
  have after : t.chc.chains[k] = served s.chc.chains[k] (oldestEntry (s.chc.passQueue ++ [entry]) k) := by
    rw [← chain, ← queue, ← arbitrate_chain_served]
    exact congrArg (fun c : Chc => c.chains[k]) chc
  have kept (h : ¬ passTurn s.chc.chains[k]) : t.chc.passQueue = s.chc.passQueue ++ [entry] := by
    rw [chc, arbitrate_queue_kept u k (by rw [chain]; exact h), queue]
  have starts (turn : passTurn s.chc.chains[k]) (older newer : List PassEntry) (e : PassEntry)
      (split : s.chc.passQueue ++ [entry] = older ++ e :: newer) (own : e.chain = k)
      (others : ∀ o ∈ older, o.chain ≠ k) :
      t.chc.passQueue = older ++ { e with started := true } :: newer ∧
      t.chc.chains[k] = { s.chc.chains[k] with activity := .passRequest, message := passMessage e } := by
    rw [chc, arbitrate_queue_pass u k (by rw [chain]; exact turn), ← chc, after, queue, split,
      oldestEntry_split k older newer e own others, served_pass _ e turn]
    exact ⟨startPass_split k older newer e own others, rfl⟩
  refine ⟨t, run, ?_, ?_, ?_, fun j apart => ?_, fun busy => ⟨kept fun turn => busy turn.1, ?_⟩,
    fun idle => ⟨fun f due => ⟨kept fun turn => ?_, ?_⟩, fun due awaits => ⟨kept fun turn => awaits turn.2.2.1, ?_⟩,
      fun due free => ⟨fun dark => ⟨kept fun turn => ?_, ?_⟩, fun lit pending => ⟨kept fun turn => ?_, ?_⟩,
        fun lit still sweep => ⟨kept fun turn => ?_, ?_⟩, fun lit still counted =>
          ⟨fun job burst => ⟨kept fun turn => ?_, ?_⟩, fun older e newer none split own others => ?_,
            fun none others => ?_⟩⟩⟩, ?_, ?_⟩
  · rw [outgoing, cmd]
    rfl
  · rw [owed, cmd]
  · unfold State.tookNext at goesOn ⊢
    rw [cmd] at goesOn
    exact goesOn
  · rw [chc, arbitrate_other u k j apart, chains]
  · rw [after, served_busy _ _ busy]
  · obtain ⟨-, none, -⟩ := turn
    rw [due] at none
    cases none
  · rw [after, served_latch _ _ idle f due]
  · rw [after, served_awaiting _ _ idle due awaits]
  · obtain ⟨-, -, -, lit, -⟩ := turn
    rw [dark] at lit
    cases lit
  · rw [after, served_dark _ _ idle due free dark]
  · obtain ⟨-, -, -, -, still, -⟩ := turn
    rw [pending] at still
    cases still
  · rw [after, served_pending _ _ idle due free lit pending]
  · obtain ⟨-, -, -, -, -, counted, -⟩ := turn
    rw [sweep] at counted
    cases counted
  · rw [after, served_sweep _ _ idle due free lit still sweep]
    rfl
  · obtain ⟨-, -, -, -, -, -, none⟩ := turn
    rw [burst] at none
    cases none
  · rw [after, served_burst _ _ idle due free lit still counted job burst]
  · exact starts ⟨idle, due, free, lit, still, counted, none⟩ older (newer ++ [entry]) e (by rw [split]; simp) own
      others
  · obtain ⟨marked, sent⟩ := starts ⟨idle, due, free, lit, still, counted, none⟩ s.chc.passQueue [] entry rfl joins
      others
    rw [marked, sent, ← he, passMessage, length]
    exact ⟨rfl, rfl⟩
  · rw [ended, eq, ← hu]
    rfl
  · have frame := (congrArg (fun w : State => { w with
      clock := s.clock, cmd := s.cmd, rpu := { w.rpu with slot := s.rpu.slot }
      chc := { w.chc with passQueue := s.chc.passQueue, chains := s.chc.chains } }) (ended.trans (by rw [eq, ← hu])) :)
    exact frame

end Sys2Proof.Laws
end

