-- ==== Sys2Proof/Proofs/ClearedFaults.lean ====
section
/-! PROOF. CLEAR_FAULTS: the latches and the counts that it clears, and the zones that it leaves dark (R91, R103,
R128). -/

namespace Sys2Proof.Laws

open Sys2Proof.Machine

/-! ## The zones that stay dark (R91, R103) -/

/-- Behind a clear, the covered zones whose latch was set are marked besides those that were. -/
def marksDark (c : Chc) (before after : Sparse Bool) (covered : Nat → Prop) : Prop :=
  ∀ z, sparseGet (fun _ => false) after z = true ↔
    sparseGet (fun _ => false) before z = true ∨ (covered z ∧ c.latch z ≠ .clear)

/-- Neither the last set nor that of a solve in flight lights the covered zones whose latch was set. -/
def darkensSets (c : Chc) (l l' : Lvs) (covered : Nat → Prop) : Prop :=
  marksDark c l.unlit l'.unlit covered ∧ (l.solve = none → l'.solve = none) ∧
    ∀ v, l.solve = some v → ∃ w, l'.solve = some w ∧ marksDark c v.unlit w.unlit covered ∧
      { w with unlit := v.unlit } = v

theorem marksDark_faultyZones (c : Chc) (m : Sparse Bool) (covered : Nat → Bool) :
    marksDark c m (sparseMark m (c.faultyZones covered)) (fun z => covered z = true) := by
  intro z
  rw [sparseGet_mark, Bool.or_eq_true, List.contains_iff_mem, mem_faultyZones]

theorem darkensSets_keepDark (c : Chc) (l : Lvs) (covered : Nat → Bool) :
    darkensSets c l (l.keepDark (c.faultyZones covered)) (fun z => covered z = true) := by
  refine ⟨marksDark_faultyZones c l.unlit covered, fun none => ?_, fun v runs => ?_⟩
  · exact congrArg (Option.map _) none
  · exact ⟨_, congrArg (Option.map _) runs, marksDark_faultyZones c v.unlit covered, rfl⟩

/-! ## The channels of the covered zones -/

theorem mem_coveredChannels (s : State) (first last n : Nat) :
    n ∈ s.coveredChannels first last ↔ ∃ z c, (first ≤ z ∧ z ≤ last) ∧ (s.mem.mapEntry 1 z).channel = some c ∧
      n = (c.chain * 24 + c.device) * 16 + c.channel := by
  simp only [State.coveredChannels, List.mem_filterMap, List.mem_range, Option.map_eq_some_iff]
  constructor
  · rintro ⟨i, inside, c, maps, rfl⟩
    exact ⟨first + i, c, by omega, maps, rfl⟩
  · rintro ⟨z, c, ⟨low, high⟩, maps, rfl⟩
    exact ⟨z - first, by omega, c, by rw [Nat.add_sub_cancel' low]; exact maps, rfl⟩

/-- The latches left and the latches cleared are all the latches that were set. -/
theorem countP_sparseClear (m : Sparse FaultLatch) (covered : Nat → Bool) :
    (sparseClear covered m).countP (fun e => decide (e.2 ≠ .clear)) +
      m.countP (fun e => covered e.1 && decide (e.2 ≠ .clear)) = m.countP (fun e => decide (e.2 ≠ .clear)) := by
  have split := List.countP_eq_countP_filter_add m (fun e => decide (e.2 ≠ .clear)) (fun e => !covered e.1)
  rw [List.countP_filter (q := fun e : Nat × FaultLatch => !(!covered e.1))] at split
  simp only [Bool.not_not, Bool.and_comm] at split
  exact split.symm

/-! ## CLEAR_FAULTS (R128) -/

/-- The part behind a clear: these zones are dark, and these latches and counts are left. -/
def faultsCleared (s : State) (zones : List Nat) (latches : Sparse FaultLatch) (opens shorts : Sparse Nat) : State :=
  { s with
    chc := { s.chc with latches := latches, openCount := opens, shortCount := shorts }
    lvs := s.lvs.keepDark zones }

section
variable (p : Packet) (s : State)

theorem clearFaults_all (hp : p.payload = []) :
    clearFaults p s = (faultsCleared s (s.chc.faultyZones (fun _ => true)) [] [] [],
      some (.ok [wordOfNat s.chc.setLatches])) := by
  unfold clearFaults
  rw [if_pos (by rw [hp]; rfl)]
  rfl

variable (first last : Word) (hp : p.payload = [first, last])
include hp

theorem clearFaults_pair :
    clearFaults p s =
      if first.toNat ≤ last.toNat ∧ last.toNat < 2304 then clearFaultRange first.toNat last.toNat s
      else refusal s .range := by
  have low : p.arg 0 = first.toNat := by rw [Packet.arg, hp]; rfl
  have high : p.arg 1 = last.toNat := by rw [Packet.arg, hp]; rfl
  unfold clearFaults
  rw [if_neg (by rw [hp]; nofun), low, high]
  rfl

/-- The range clears where no error waits. -/
theorem clearFaults_range (quiet : s.quiet) (order : first.toNat ≤ last.toNat) (inside : last.toNat ≤ 2303) :
    clearFaults p s =
      let covered (z : Nat) : Bool := decide (first.toNat ≤ z) && decide (z ≤ last.toNat)
      let channels := s.coveredChannels first.toNat last.toNat
      (faultsCleared s (s.chc.faultyZones covered) (sparseClear covered s.chc.latches)
          (sparseClear channels.contains s.chc.openCount) (sparseClear channels.contains s.chc.shortCount),
        some (.ok [wordOfNat (s.chc.latches.countP (fun e => covered e.1 && decide (e.2 ≠ .clear)))])) := by
  rw [clearFaults_pair p s first last hp, if_pos ⟨order, by omega⟩]
  unfold clearFaultRange
  rw [readRange_of_quiet s quiet]
  rfl

end

/-- An accepted clear is answered, and touches the latches, the counts and the sets alone. -/
theorem exec_clearFaults (dt : Nat) (s : State) (p : Packet) (hr : s.runs p 0x40)
    (length : p.payload.length = 0 ∨ p.payload.length = 2) (zones : List Nat) (latches : Sparse FaultLatch)
    (opens shorts : Sparse Nat) (data : List Word)
    (body : clearFaults p (s.advance dt) = (faultsCleared (s.advance dt) zones latches opens shorts, some (.ok data))) :
    ∃ t, exec (.clearFaults dt) s = .next t ∧ s.answered t p .ok data ∧
      t.chc = { s.chc with latches := latches, openCount := opens, shortCount := shorts } ∧
      t.lvs = s.lvs.keepDark zones ∧ t.clock = (s.advance dt).clock ∧
      s.keptElsewhere { t with
        chc := { t.chc with
          latches := s.chc.latches, openCount := s.chc.openCount, shortCount := s.chc.shortCount }
        lvs := { t.lvs with unlit := s.lvs.unlit, solve := s.lvs.solve } } := by
  obtain ⟨c, x, run, answered⟩ := execute_ok (s.advance dt) _ p Config.codeClearFaults (fun n => n == 0 || n == 2)
    clearFaults data hr (by rcases length with h | h <;> rw [h] <;> rfl) body rfl hr.2.2
  exact ⟨_, congrArg Host.Outcome.next run, answered, rfl, rfl, rfl, rfl⟩

theorem exec_clearFaults_badLength (dt : Nat) (s : State) (p : Packet) (hr : s.runs p 0x40)
    (h₀ : p.payload.length ≠ 0) (h₂ : p.payload.length ≠ 2) :
    exec (.clearFaults dt) s = .next ((s.advance dt).finish p (some (.plain .badLength))) := by
  have run := execute_runs (s.advance dt) p Config.codeClearFaults false (fun n => n == 0 || n == 2) clearFaults hr.1
    hr.2.1
  rw [Bool.false_and, if_neg Bool.false_ne_true, if_neg (by simp [h₀, h₂])] at run
  exact congrArg Host.Outcome.next run

theorem exec_clearFaults_range (dt : Nat) (s : State) (p : Packet) (hr : s.runs p 0x40) (first last : Word)
    (hp : p.payload = [first, last]) (h : last.toNat < first.toNat ∨ 2303 < last.toNat) :
    ∃ t, exec (.clearFaults dt) s = .next t ∧ s.answered t p .range [] ∧ t.clock = (s.advance dt).clock ∧
      s.keptElsewhere t := by
  have run : exec (.clearFaults dt) s =
      .next ((clearFaults p (s.advance dt)).1.finish p (clearFaults p (s.advance dt)).2) :=
    congrArg Host.Outcome.next (execute_body (s.advance dt) p Config.codeClearFaults (fun n => n == 0 || n == 2)
      clearFaults hr (by rw [hp]; rfl))
  exact refused_of_body run ((clearFaults_pair p (s.advance dt) first last hp).trans (if_neg (by omega))) hr.2.2

/-- Settles O52: both lengths of the payload, and the range of the second. -/
theorem faultsAreCleared : Obligations.FaultsAreCleared := by
  intro dt s p hr
  refine ⟨fun h₀ h₂ => ?_, fun hp => ?_, fun first last hp => ⟨fun h => ?_, fun order inside quiet => ?_⟩⟩
  · exact ⟨_, exec_clearFaults_badLength dt s p hr h₀ h₂, finish_refused dt s p .badLength hr.2.2⟩
  · obtain ⟨t, run, answered, chc, lvs, clock, kept⟩ := exec_clearFaults dt s p hr
      (by rw [hp]; exact .inl rfl) _ _ _ _ _ (clearFaults_all p (s.advance dt) hp)
    have dark : darkensSets s.chc s.lvs t.lvs (fun _ => true = true) :=
      lvs ▸ darkensSets_keepDark s.chc s.lvs (fun _ => true)
    simp only at dark
    refine ⟨t, run, answered, fun z => ?_, dark, fun n => ?_, clock, kept⟩
    · rw [chc]; rfl
    · rw [chc]; exact ⟨rfl, rfl⟩
  · exact exec_clearFaults_range dt s p hr first last hp h
  · obtain ⟨t, run, answered, chc, lvs, clock, kept⟩ := exec_clearFaults dt s p hr
      (by rw [hp]; exact .inr rfl) _ _ _ _ _ (clearFaults_range p (s.advance dt) first last hp quiet order inside)
    have covered (z : Nat) : (decide (first.toNat ≤ z) && decide (z ≤ last.toNat)) = true ↔
        first.toNat ≤ z ∧ z ≤ last.toNat := by simp
    have dark : darkensSets s.chc s.lvs t.lvs
        (fun z => (decide (first.toNat ≤ z) && decide (z ≤ last.toNat)) = true) :=
      lvs ▸ darkensSets_keepDark s.chc s.lvs _
    simp only [covered] at dark
    have channel (n : Nat) := (List.contains_iff_mem (as := s.coveredChannels first.toNat last.toNat)).trans
      (mem_coveredChannels s first.toNat last.toNat n)
    refine ⟨t, _, run, answered, fun z => ?_, ?_, dark, fun n => ?_, clock, kept⟩
    · rw [chc]
      have latch := sparseGet_clear (fun _ => FaultLatch.clear)
        (fun z => decide (first.toNat ≤ z) && decide (z ≤ last.toNat)) s.chc.latches z
      exact ⟨fun inside => latch.trans (if_pos ((covered z).2 inside)),
        fun outside => latch.trans (if_neg (mt (covered z).1 outside))⟩
    · rw [chc]
      exact countP_sparseClear s.chc.latches (fun z => decide (first.toNat ≤ z) && decide (z ≤ last.toNat))
    · rw [chc]
      have count (m : Sparse Nat) :=
        sparseGet_clear (fun _ => 0) (s.coveredChannels first.toNat last.toNat).contains m n
      exact ⟨fun maps => ⟨(count _).trans (if_pos ((channel n).2 maps)), (count _).trans (if_pos ((channel n).2 maps))⟩,
        fun maps => ⟨(count _).trans (if_neg (mt (channel n).1 maps)),
          (count _).trans (if_neg (mt (channel n).1 maps))⟩⟩

end Sys2Proof.Laws
end

