-- ==== Sys2Proof/Proofs/SolveBursts.lean ====
section
/-! PROOF. What solve complete hands to the chains: the zones of a chain's burst, the devices that it covers, and the
burst that starts, waits or is dropped (R118, R119). -/

namespace Sys2Proof.Laws

open Sys2Proof.Machine

/-! ## The zones of a burst (R118) -/

/-- A processed zone of the solve that the captured map puts at this channel of chain `k`. -/
def mapsTo (v : Solve) (k : ChainNo) (z device channel : Nat) : Prop :=
  v.processes z = true ∧ (v.entry z).channel = some ⟨k.val, device, channel⟩

/-- What an entry of a level set carries to chain `k`. -/
def burstZone (k : Nat) (e : Nat × ZoneLevel) : Option BurstZone :=
  e.2.channel.bind fun c => if c.chain = k then some ⟨c.device, c.channel, e.1, e.2.duty⟩ else none

/-- What a level set carries to chain `k`. -/
def burstZones (l : LevelSet) (k : Nat) : List BurstZone := l.zones.filterMap (burstZone k)

/-- The set of a solve carries its zones to a chain under the solve's tag, or nothing where there are none. -/
theorem job_levelSet (v : Solve) (now : Chc) (k : Nat) :
    (v.levelSet now).job k =
      if (burstZones (v.levelSet now) k).isEmpty then none else some ⟨v.tag, burstZones (v.levelSet now) k⟩ := by
  have step : burstZone k = fun e : Nat × ZoneLevel => match e.2.channel with
      | some c => if c.chain = k then some ⟨c.device, c.channel, e.1, e.2.duty⟩ else none
      | none => none := by
    funext e
    unfold burstZone
    cases e.2.channel <;> rfl
  unfold burstZones
  rw [step]
  rfl

/-- A zone of a burst is one that the solve's map puts on the chain, with its duty. -/
theorem mapsTo_of_mem (v : Solve) (now : Chc) (k : ChainNo) (b : BurstZone)
    (mem : b ∈ burstZones (v.levelSet now) k.val) :
    mapsTo v k b.zone b.device b.channel ∧ b.duty = ((v.levelSet now).zone b.zone).duty := by
  obtain ⟨⟨z, level⟩, mem, carries⟩ := List.mem_filterMap.1 mem
  obtain ⟨lit, same⟩ : _ ∧ level = (v.levelSet now).zone z := (mem_levelSet v now (z, level)).1 mem
  have processed := processes_of_lit v now z lit
  have channel : level.channel = (v.entry z).channel := by
    rw [same, levelSet_processed v now z processed]
  obtain ⟨⟨chain, device, place⟩, maps, carries⟩ := Option.bind_eq_some_iff.1 carries
  split at carries
  · next own =>
    obtain rfl : chain = k.val := own
    cases carries
    exact ⟨⟨processed, channel.symm.trans maps⟩, congrArg ZoneLevel.duty same⟩
  · cases carries

/-- Each zone that the solve's map puts on the chain is in the chain's burst. -/
theorem mem_burstZones (v : Solve) (now : Chc) (k : ChainNo) (z device channel : Nat)
    (h : mapsTo v k z device channel) :
    ⟨device, channel, z, ((v.levelSet now).zone z).duty⟩ ∈ burstZones (v.levelSet now) k.val := by
  obtain ⟨processed, maps⟩ := h
  have place : ((v.levelSet now).zone z).channel = some ⟨k.val, device, channel⟩ := by
    rw [levelSet_processed v now z processed]
    exact maps
  refine List.mem_filterMap.2 ⟨(z, (v.levelSet now).zone z), (mem_levelSet v now _).2 ⟨fun skipped => ?_, rfl⟩, ?_⟩
  · rw [skipped] at place
    cases place
  · exact Option.bind_eq_some_iff.2 ⟨_, place, if_pos rfl⟩

/-- A chain that the map puts no processed zone on gets no burst. -/
theorem job_unreferenced (v : Solve) (now : Chc) (k : ChainNo)
    (h : ∀ z device channel, ¬ mapsTo v k z device channel) : (v.levelSet now).job k.val = none := by
  have empty : burstZones (v.levelSet now) k.val = [] :=
    List.eq_nil_iff_forall_not_mem.2 fun b mem => h _ _ _ (mapsTo_of_mem v now k b mem).1
  rw [job_levelSet, empty]
  rfl

theorem job_referenced (v : Solve) (now : Chc) (k : ChainNo) {z device channel : Nat}
    (h : mapsTo v k z device channel) :
    (v.levelSet now).job k.val = some ⟨v.tag, burstZones (v.levelSet now) k.val⟩ := by
  have mem := mem_burstZones v now k z device channel h
  rw [job_levelSet, if_neg]
  intro empty
  rw [List.isEmpty_iff.1 empty] at mem
  cases mem

/-! ## The devices and the duties of a burst (R119) -/

theorem covers_cons (tag : SolveTag) (b : BurstZone) (zones : List BurstZone) (count : Nat) :
    (BurstJob.mk tag (b :: zones)).covers count = (BurstJob.mk tag zones).covers (max count (b.device + 1)) := rfl

/-- A burst covers the enumerated devices and every device it carries a zone to, and no more. -/
theorem covers_spec (tag : SolveTag) (zones : List BurstZone) (count : Nat) :
    count ≤ (BurstJob.mk tag zones).covers count ∧
      (∀ b ∈ zones, b.device < (BurstJob.mk tag zones).covers count) ∧
      ((BurstJob.mk tag zones).covers count = count ∨
        ∃ b ∈ zones, (BurstJob.mk tag zones).covers count = b.device + 1) := by
  induction zones generalizing count with
  | nil => exact ⟨le_rfl, nofun, .inl rfl⟩
  | cons a zones ih =>
    obtain ⟨least, each, met⟩ := ih (max count (a.device + 1))
    rw [covers_cons]
    refine ⟨by omega, fun b mem => ?_, ?_⟩
    · rcases List.mem_cons.1 mem with rfl | later
      · omega
      · exact each b later
    · rcases met with first | ⟨b, mem, covers⟩
      · rcases le_total (a.device + 1) count with few | more
        · exact .inl (first.trans (max_eq_left few))
        · exact .inr ⟨a, List.mem_cons_self, first.trans (max_eq_right more)⟩
      · exact .inr ⟨b, List.mem_cons_of_mem a mem, covers⟩

theorem duty_none (j : BurstJob) (device channel : Nat) (h : zoneAt j.zones device channel = none) :
    j.duty device channel = 0 := by
  unfold zoneAt at h
  rw [BurstJob.duty, h]

theorem duty_some (j : BurstJob) (device channel : Nat) (b : BurstZone) (h : zoneAt j.zones device channel = some b) :
    j.duty device channel = b.duty := by
  unfold zoneAt at h
  rw [BurstJob.duty, h]

/-- A channel that one zone is mapped to carries the duty of that zone. -/
theorem duty_mapped (v : Solve) (now : Chc) (k : ChainNo) (z device channel : Nat) (maps : mapsTo v k z device channel)
    (only : ∀ y, mapsTo v k y device channel → y = z) :
    (BurstJob.mk v.tag (burstZones (v.levelSet now) k.val)).duty device channel = ((v.levelSet now).zone z).duty := by
  have mem := mem_burstZones v now k z device channel maps
  obtain ⟨b, found⟩ : ∃ b, zoneAt (burstZones (v.levelSet now) k.val) device channel = some b :=
    Option.isSome_iff_exists.1 (List.find?_isSome.2 ⟨_, mem, by simp⟩)
  obtain ⟨mem', rfl, rfl⟩ := zoneAt_some found
  obtain ⟨maps', duty⟩ := mapsTo_of_mem v now k b mem'
  rw [duty_some _ _ _ b found, duty, only b.zone maps']

theorem duty_unmapped (v : Solve) (now : Chc) (k : ChainNo) (device channel : Nat)
    (none : ∀ z, ¬ mapsTo v k z device channel) :
    (BurstJob.mk v.tag (burstZones (v.levelSet now) k.val)).duty device channel = 0 := by
  cases found : zoneAt (burstZones (v.levelSet now) k.val) device channel with
  | none => exact duty_none _ _ _ found
  | some b =>
    obtain ⟨mem, rfl, rfl⟩ := zoneAt_some found
    exact absurd (mapsTo_of_mem v now k b mem).1 (none b.zone)

/-! ## The hand-off (R118) -/

/-- One chain takes its part of a set, and its arbiter looks. -/
def handed (set : LevelSet) (s : State) (k : ChainNo) : State :=
  (s.setChain k { s.chc.chains[k] with waiting := set.job k }).arbitrate k

theorem handed_own (set : LevelSet) (s : State) (k : ChainNo) :
    ∃ entry, (handed set s k).chc.chains[k] = served { s.chc.chains[k] with waiting := set.job k } entry := by
  have own := arbitrate_chain_served (s.setChain k { s.chc.chains[k] with waiting := set.job k }) k
  rw [State.setChain_chain_same] at own
  exact ⟨_, own⟩

theorem handed_other (set : LevelSet) (s : State) (k j : ChainNo) (apart : j ≠ k) :
    (handed set s k).chc.chains[j] = s.chc.chains[j] :=
  (arbitrate_other _ k j apart).trans (State.setChain_chain_other s k j _ apart.symm)

theorem handed_foldl_other (set : LevelSet) (l : List ChainNo) (s : State) (k : ChainNo) (h : k ∉ l) :
    (l.foldl (handed set) s).chc.chains[k] = s.chc.chains[k] := by
  induction l generalizing s with
  | nil => rfl
  | cons j l ih =>
    exact (ih (handed set s j) fun later => h (List.mem_cons_of_mem j later)).trans
      (handed_other set s j k fun same => h (same ▸ List.mem_cons_self))

theorem handed_foldl_own (set : LevelSet) (l : List ChainNo) (hn : l.Nodup) (s : State) (k : ChainNo) (h : k ∈ l) :
    ∃ entry, (l.foldl (handed set) s).chc.chains[k] = served { s.chc.chains[k] with waiting := set.job k } entry := by
  induction l generalizing s with
  | nil => cases h
  | cons j l ih =>
    obtain ⟨fresh, hn⟩ := List.nodup_cons.1 hn
    rw [List.foldl_cons]
    rcases List.mem_cons.1 h with rfl | later
    · rw [handed_foldl_other set l _ k fresh]
      exact handed_own set s k
    · rw [← handed_other set s j k fun same => fresh (same ▸ later)]
      exact ih hn (handed set s j) later

theorem handOff_chain (s : State) (set : LevelSet) (k : ChainNo) :
    ∃ entry, (s.handOff set).chc.chains[k] = served { s.chc.chains[k] with waiting := set.job k } entry := by
  have folded : s.handOff set = allChains.foldl (handed set) s := rfl
  rw [folded]
  exact handed_foldl_own set allChains (by decide) s k (mem_allChains k)

/-- A chain with no burst waiting has none behind its arbiter. -/
theorem served_waiting (c : ChainRec) (entry : Option PassEntry) (h : c.waiting = none) :
    (served c entry).waiting = none := by
  rcases served_cases c entry with same | ⟨f, -, same⟩ | ⟨-, same⟩ | ⟨-, same⟩ | ⟨job, -, same⟩ | ⟨e, -, -, same⟩
  case inr.inr.inr.inr.inl => rw [same]
  all_goals
    rw [same]
    exact h

theorem solvedZones_chc (s : State) (v : Solve) : (solvedZones s v).chc = s.chc := by
  obtain ⟨mem, upsets, kept⟩ := zonesWritten_kept v (v.levelSet s.chc) v.processed (s.zeroZoneWords [4, 6, 7])
  exact (congrArg State.chc kept :)

theorem finishSolve_chc (s : State) (started : Solve) : (s.finishSolve started).chc = s.chc := by
  have elsewhere (w : State) (lvs : Lvs) (rpu : Rpu) : ({ w with lvs := lvs, rpu := rpu } : State).chc = w.chc := rfl
  rw [finishSolve_eq s started _ rfl, elsewhere]
  exact solvedZones_chc s _

/-- Solve complete with no frame turn waiting ends in its hand-off. -/
theorem exec_solveComplete_hands (dt : Nat) (s : State) (started : Solve) (solving : s.lvs.solve = some started)
    (idle : s.ftu.turnWaiting = false) :
    ∃ u : State, exec (.solveComplete dt) s = .next (u.handOff ((started.withMarks s.lvs.reseed).levelSet s.chc)) ∧
      u.chc = s.chc := by
  have solved := solved_finishSolve ((s.advance dt).advanceTo started.dueAt) started _ rfl
  have chc := finishSolve_chc ((s.advance dt).advanceTo started.dueAt) started
  have last := congrArg (fun t : State => t.lvs.lastSet)
    (finishSolve_eq ((s.advance dt).advanceTo started.dueAt) started _ rfl)
  refine ⟨((s.advance dt).advanceTo started.dueAt).finishSolve started, ?_, chc⟩
  show execSolveComplete dt s = _
  unfold execSolveComplete
  dsimp only
  rw [State.advance_lvs, solving]
  dsimp only
  rw [solved.ftu, if_neg (by rw [State.advanceTo_ftu, State.advance_ftu, idle]; exact Bool.false_ne_true)]
  exact congrArg (fun set => Host.Outcome.next (State.handOff _ set)) last

/-- Settles O34: the chain gets what the set carries to it, and its arbiter looks. -/
theorem solveCompleteStartsBursts : Obligations.SolveCompleteStartsBursts := by
  intro dt s started k solving idle v
  obtain ⟨u, run, chc⟩ : ∃ u : State,
      exec (.solveComplete dt) s = .next (u.handOff (v.levelSet s.chc)) ∧ u.chc = s.chc :=
    exec_solveComplete_hands dt s started solving idle
  obtain ⟨entry, chain⟩ := handOff_chain u (v.levelSet s.chc) k
  rw [chc] at chain
  generalize u.handOff (v.levelSet s.chc) = t at run chain
  refine ⟨t, run, fun unmapped => ?_, fun ⟨z, device, channel, maps⟩ => ⟨fun busy => ?_, ?_⟩⟩
  · rw [chain]
    exact served_waiting _ _ (job_unreferenced v s.chc k unmapped)
  · rw [job_referenced v s.chc k maps] at chain
    rw [chain.trans (served_busy _ entry busy)]
    exact ⟨rfl, _, rfl, rfl⟩
  · intro free awaits lit still due counted
    rw [job_referenced v s.chc k maps] at chain
    have burst := served_burst { s.chc.chains[k] with waiting := some ⟨v.tag, burstZones (v.levelSet s.chc) k.val⟩ }
      entry free due awaits lit still counted _ rfl
    obtain ⟨least, each, met⟩ := covers_spec v.tag (burstZones (v.levelSet s.chc) k.val) s.chc.chains[k].count
    refine ⟨_, _, chain.trans burst, rfl, least, fun y device channel maps => ?_, ?_, duty_mapped v s.chc k,
      duty_unmapped v s.chc k⟩
    · exact each _ (mem_burstZones v s.chc k y device channel maps)
    · refine met.imp_right ?_
      rintro ⟨b, mem, covers⟩
      refine ⟨b.zone, b.channel, by rw [covers]; exact Nat.succ_pos _, ?_⟩
      rw [covers]
      exact (mapsTo_of_mem v s.chc k b mem).1

end Sys2Proof.Laws
end
